-- ==== Sys2Proof/Word.lean ====
section
/-! DEFINITION. The words of the part: bytes on the site link, and the two counters' widths. -/

namespace Sys2Proof

/-- A byte on the site link (R167: 8 data bits). -/
abbrev Byte := BitVec 8

/-- A two-byte field, sent high byte first (R189); also the day counter (R54) and a heartbeat token (R157). -/
abbrev Word16 := BitVec 16

/-- A 32-bit count: round numbers (R35) and arrival indices (R75). -/
abbrev Word32 := BitVec 32

end Sys2Proof
end

