-- ==== Sys2Proof/Syntax.lean ====
section
/-! DEFINITION. The commands of the block: one constructor of `Instr` per row of spec/opcode_table.json,
with the payload fields of R191 (request rows) or the input levels and readings (event rows) as operands.
The records that a stored image holds stand here too, because a read-back names one. -/

namespace Sys2Proof

/-! ## Names of the box equipment -/

/-- The reading of a contactor's auxiliary contact (R97). -/
inductive Contact where
  | opened
  | closed
  deriving DecidableEq, Repr

/-- The box output isolator's position feedback (section 6.5): an end of travel, or between the ends. -/
inductive Travel where
  | opened
  | mid
  | closed
  deriving DecidableEq, Repr

/-! ## Settings (R2, R38, R167, R181) -/

/-- Line rates of R167. -/
inductive Rate where
  | b19200
  | b38400
  | b115200
  deriving DecidableEq, Repr

/-- Round source setting (section 2.2). -/
inductive RoundSource where
  | internal
  | follow
  deriving DecidableEq, Repr

/-- Temperature source of a group (R38). -/
inductive TempSource where
  | none
  | t1
  | t2
  | t3
  | t4
  | external
  deriving DecidableEq, Repr

/-- Deficit policy of a group (R38). -/
inductive Policy where
  | isolate
  | report
  deriving DecidableEq, Repr

/-- A copy of the link settings (R167): a rate and a station address, 1 to 99. -/
structure LinkSettings where
  rate : Rate
  address : Nat
  deriving DecidableEq, Repr

/-- The box settings, one field per row of R181's table, in its order. -/
structure BoxSettings where
  dayPeriod : Nat
  nightPeriod : Nat
  source : RoundSource
  averaging : Nat
  daylightFloor : Nat
  nightRounds : Nat
  reverseLimit : Nat
  overLimit : Nat
  coldLimit : Nat
  quenchTimeout : Nat
  hMax : Nat
  hResume : Nat
  escalation : Bool
  contactTimeout : Nat
  settle : Nat
  nearEarth : Nat
  closeMargin : Nat
  attemptLimit : Nat
  perDayMax : Nat
  recurrence : Nat
  longWindow : Nat
  closedWindow : Nat
  openWindow : Nat
  deriving DecidableEq, Repr

/-- The six configuration fields of a group (R38). -/
structure GroupSettings where
  source : TempSource
  beta : Int
  deficit : Nat
  leak : Nat
  trip : Nat
  policy : Policy
  deriving DecidableEq, Repr

/-- The six configuration fields of a string (R2). -/
structure StringSettings where
  used : Bool
  group : Nat
  input : Nat
  rated : Nat
  modules : Nat
  voc25 : Nat
  deriving DecidableEq, Repr

/-- Probe verdicts (R5). -/
inductive Verdict where
  | healthy
  | degraded
  | miswired
  | earthPos
  | earthNeg
  | earthMid
  | poleShort
  | openCircuit
  | unresolved
  deriving DecidableEq, Repr

/-- A lockout record (R17). -/
structure Lockout where
  string : Nat
  verdict : Verdict
  day : Word16
  deriving DecidableEq, Repr

/-- A configuration: the part of an image that STORE writes (R135). -/
structure Settings where
  link : LinkSettings
  box : BoxSettings
  groups : List GroupSettings
  strings : List StringSettings
  deriving DecidableEq, Repr

/-- The image of the settings store (R135): the stored configuration and the lockout set. -/
structure Image where
  settings : Settings
  lockouts : List Lockout
  deriving DecidableEq, Repr

/-! ## Operands -/

/-- STRING_CONFIG's payload (12.4): its fields as carried. -/
structure StringConfigMsg where
  string : Byte
  used : Byte
  group : Byte
  input : Byte
  rated : Word16
  modules : Byte
  voc25 : Word16
  deriving DecidableEq, Repr

/-- GROUP_CONFIG's payload (12.4). -/
structure GroupConfigMsg where
  group : Byte
  source : Byte
  beta : Byte
  deficit : Word16
  leak : Word16
  trip : Word16
  policy : Byte
  deriving DecidableEq, Repr

/-- BOX_CONFIG's payload (12.4), in its order. -/
structure BoxConfigMsg where
  dayPeriod : Word16
  nightPeriod : Byte
  source : Byte
  averaging : Byte
  daylightFloor : Word16
  nightRounds : Word16
  reverseLimit : Word16
  overLimit : Word16
  coldLimit : Word16
  quenchTimeout : Byte
  hMax : Word16
  hResume : Word16
  escalation : Byte
  contactTimeout : Word16
  settle : Word16
  nearEarth : Word16
  closeMargin : Word16
  attemptLimit : Byte
  perDayMax : Byte
  recurrence : Word16
  longWindow : Word16
  closedWindow : Byte
  openWindow : Byte
  deriving DecidableEq, Repr

/-- One converter sample of a sensor input (R27): a value of -4096 to 4095 (two's complement), and whether
the input lay beyond the span. -/
structure Sample where
  value : BitVec 13
  beyond : Bool
  deriving DecidableEq, Repr

/-- What a sample set reads (R21): the 24 sensor inputs in order, the bus voltage channel, and the readings of
T1 to T4 in tenths of a degree (log 15), which only a round's first set takes. -/
structure SampleSet where
  currents : List Sample
  bus : Word16
  temps : List Word16
  deriving DecidableEq, Repr

/-- What the read-back at a write's end shows (R135, R136): the image written, or other contents, which are what
then stands in the store (`none`: contents whose CRC does not match). -/
inductive ReadBack where
  | verified
  | differs (contents : Option Image)
  deriving DecidableEq, Repr

/-- The commands, one constructor per row of spec/opcode_table.json, in its order. A request row stands for the
arrival (R169) of a request of its kind; its operands are the payload's fields. An event row's operands are the
levels and readings that the event brings. String numbers of events are 1 to 24. -/
inductive Instr where
  | identify
  | boxStatus
  | stringRead (first count : Byte)
  | groupRead
  | queueRead (first : Byte)
  | probeListRead
  | attentionRead
  | configRead (target : Byte) (number : Option Byte)
  | attentionClear (mask : List Byte)
  | heartbeat (token : Word16)
  | temperature (group value : Byte)
  | isolate (string : Byte)
  | reconnect (string : Byte)
  | probe (string : Byte)
  | release (string : Byte)
  | restore
  | boxOutputOpen
  | boxOutputClose
  | cellRestore
  | modeSetup
  | modeRun
  | stringConfig (m : StringConfigMsg)
  | groupConfig (m : GroupConfigMsg)
  | boxConfig (m : BoxConfigMsg)
  | linkConfig (rate address : Byte)
  | store
  | restart (address : Byte)
  | linkByte (byte : Byte) (stopBit : Bool)
  | linkQuietExpiry
  | linkGapExpiry
  | replyComplete
  | powerOn
  | resetLine
  | loadEnd (answers : Bool)
  | roundTimerExpiry
  | syncFallingEdge (lowMicros : Nat)
  | syncWatchExpiry
  | sampleSet (set : SampleSet)
  | elapsedSecond
  | cellHotEnd
  | externalTempStale (group : Nat)
  | tapClosedFeedback (string : Nat)
  | tapAttachTimeout
  | tapReleasedFeedback (string : Nat)
  | tapDetachTimeout
  | restoreReleaseTimeout
  | quenchEnd (monitor : Word16)
  | quenchTimeout
  | restingEnd
  | contactPositionChange (string : Nat) (position : Contact)
  | contactTimeout (string : Nat)
  | isolatorEndReached (feedback : Travel)
  | isolatorTimeout
  | probeSettleEnd
  | probeReading (vp vn : List Word16)
  | probeReleaseEnd
  | shutdownAssertion
  | shutdownRelease
  | longWindowExpiry
  | openWindowExpiry
  | storeWriteEnd (readBack : ReadBack)
  | supplyLoss
  | shutdownLevelChange (low : Bool)
  deriving DecidableEq, Repr

end Sys2Proof
end

