-- ==== Sys2Proof/Decode.lean ====
section
/-! DEFINITION. The command a word spells by the table's bits. The table gives none of its 63 rows any bits
(spec/98_reader.md: 0 rows with fixed bits), so no word spells a command (log 4). -/

namespace Sys2Proof

/-- No row of spec/opcode_table.json gives bits, so every word spells none. -/
def decodeTableWord (_nbits _w : Nat) : Option Instr := none

end Sys2Proof
end

