-- ==== Sys2Proof/Config.lean ====
section
/-! DEFINITION. What the part fixes (its identity codes and defaults) and the free values that the spec leaves
open. A free value is opaque: no proof can see what it is. -/

namespace Sys2Proof

/-! ## Identity (R191) -/

/-- Family code returned by IDENTIFY (R191). -/
def Config.familyCode : Byte := 0x07#8
/-- Part code returned by IDENTIFY (R191). -/
def Config.partCode : Byte := 0x18#8
/-- Revision number returned by IDENTIFY (R191). -/
def Config.revision : Byte := 1#8

/-! ## Defaults (R38, R181, R185) -/

/-- Default link settings (R167, R185). -/
def Config.link : LinkSettings := ⟨.b38400, 1⟩

/-- Default box settings (R181). -/
def Config.box : BoxSettings where
  dayPeriod := 2000
  nightPeriod := 60
  source := .internal
  averaging := 4
  daylightFloor := 60
  nightRounds := 300
  reverseLimit := 150
  overLimit := 1250
  coldLimit := 50
  quenchTimeout := 10
  hMax := 120
  hResume := 60
  escalation := true
  contactTimeout := 80
  settle := 500
  nearEarth := 200
  closeMargin := 200
  attemptLimit := 5
  perDayMax := 2
  recurrence := 900
  longWindow := 120
  closedWindow := 2
  openWindow := 20

/-- Default group configuration (R38). -/
def Config.group : GroupSettings := ⟨.none, -29, 800, 100, 6000, .isolate⟩

/-- Default configuration of string `n` (R185): unused, ungrouped, on the input of its own number. -/
def Config.string (n : Nat) : StringSettings := ⟨false, 0, n, 1000, 20, 400⟩

/-- The string numbers in ascending order. -/
def Config.stringNumbers : List Nat :=
  [1, 2, 3, 4, 5, 6, 7, 8, 9, 10, 11, 12, 13, 14, 15, 16, 17, 18, 19, 20, 21, 22, 23, 24]

/-- The numbers of a completion's events: 1 to 24 the requests, 25 to 48 the discrepancies, by string. -/
def Config.eventNumbers : List Nat := Config.stringNumbers ++ Config.stringNumbers.map (· + 24)

/-- The default configuration of R185. -/
def Config.settings : Settings :=
  ⟨Config.link, Config.box, List.replicate 6 Config.group, Config.stringNumbers.map Config.string⟩

/-! ## Free values -/

/-- What an interrupted write leaves in the store, within R136: the image from before, the image being written, or
contents that fail their CRC. -/
inductive Config.Residue where
  | before
  | after
  | fails
  deriving DecidableEq, Repr, Inhabited

/-- The residue of the `k`-th interrupted write: R136 leaves open which of the three it is (log 10). -/
opaque Config.residue : Nat → Config.Residue

/-- The order in which requests made together for different strings arrive, for the `k`-th such occasion: R75 leaves it
open (log 8). -/
opaque Config.arrivalOrder : Nat → List Nat

/-- The order in which the events of the `k`-th completion reach the string controller, requests numbered 1 to 24 by their
string and discrepancies 25 to 48: R70 leaves it open (log 9). -/
opaque Config.completionOrder : Nat → List Nat

end Sys2Proof
end

