-- ==== Sys2Proof/Machine/State.lean ====
section
/-! DEFINITION. The state of the part, block by block (section "Block overview" of 00_scope.md), as plain data,
and its value right after reset. -/

namespace Sys2Proof.Machine

/-! ## Reasons to stop -/

/-- The spec gives every command an effect or says that it is refused on the link or disregarded, so no command
faults (log 35). -/
inductive Fault where
  deriving DecidableEq, Repr

/-- Why a command has no meaning. -/
inductive Refusal where
  /-- Raised by `exec` for a row that has no meaning yet; safe: nothing is claimed of it. -/
  | notModelled (mnemonic : String)
  deriving DecidableEq, Repr

/-! ## The string table (chapter 1) -/

/-- The ten string states (R4). -/
inductive StringState where
  | unused
  | connected
  | suspect
  | queued
  | breaking
  | isolated
  | closing
  | lockedOut
  | stuckClosed
  | breakFailed
  deriving DecidableEq, Repr

/-- The causes an isolation request can carry (R11, R68). `openString` is the cause OPEN. -/
inductive ReqCause where
  | reverse
  | overCurrent
  | openString
  | deficit
  | manual
  | shutdown
  | lockoutEnforce
  deriving DecidableEq, Repr

/-- A string's cause when it is not none (R4): a request's cause, or one of the two found isolations (R68). -/
inductive Cause where
  | req (c : ReqCause)
  | externalOpen
  | restart
  deriving DecidableEq, Repr

/-- Break kinds of a last isolation record (R8, R9). -/
inductive BreakKind where
  | cold
  | commutated
  | alreadyOpen
  deriving DecidableEq, Repr

/-- The last isolation record (R8, R9). -/
structure IsoRecord where
  cause : Cause
  round : Word32
  day : Word16
  kind : Option BreakKind
  current : Option Int
  verdict : Option Verdict
  missing : Option Nat
  position : Option Nat
  closeFailed : Nat
  deriving DecidableEq, Repr

/-- Who placed a probe list entry (R112). -/
inductive Origin where
  | auto
  | controller
  deriving DecidableEq, Repr

/-- A contact operation in flight (R98) with its start and the contact timeout in force then (R103); a close
keeps the origin of its PRE_CLOSE entry (R15). -/
inductive ContactOp where
  | opening (started timeout : Nat)
  | closing (origin : Origin) (started timeout : Nat)
  deriving DecidableEq, Repr

/-- One string's record (R1), with its contactor's position and operation (R96). -/
structure StringRec where
  cfg : StringSettings
  current : Int
  saturated : Bool
  sensorFault : Bool
  offset : Int
  n : Int
  p : Option Nat
  reverseRun : Nat
  overRun : Nat
  openRun : Nat
  bucket : Nat
  alarm : Bool
  state : StringState
  cause : Option Cause
  held : Option ReqCause
  verdict : Option Verdict
  budget : Nat
  reconnectedAt : Option Word32
  tapFault : Bool
  record : Option IsoRecord
  position : Contact
  dropPosition : Contact
  op : Option ContactOp
  deriving DecidableEq, Repr

/-- An unused string's record at the reset values of R1, with the given configuration and position. -/
def StringRec.blank (cfg : StringSettings) (position : Contact) : StringRec where
  cfg := cfg
  current := 0
  saturated := false
  sensorFault := false
  offset := 0
  n := 0
  p := none
  reverseRun := 0
  overRun := 0
  openRun := 0
  bucket := 0
  alarm := false
  state := .unused
  cause := none
  held := none
  verdict := none
  budget := 0
  reconnectedAt := none
  tapFault := false
  record := none
  position := position
  dropPosition := position
  op := none

/-- Operating mode (R18). -/
inductive Mode where
  | setup
  | run
  deriving DecidableEq, Repr

/-! ## The part's stages (R148, R150) -/

/-- Without supply; between DROP and the end of the load; or running. -/
inductive Stage where
  | off
  | load
  | running
  deriving DecidableEq, Repr

/-- Reset kinds (R148). -/
inductive ResetKind where
  | powerOn
  | resetLine
  | restartMessage
  deriving DecidableEq, Repr

/-- The part as a whole: its stage, the reset cause, and the model's own clock in milliseconds with the elapsed
seconds already taken (log 1). -/
structure Part where
  stage : Stage
  cause : ResetKind
  now : Nat
  seconds : Nat
  deriving DecidableEq, Repr

/-! ## Link port (chapter 11) -/

/-- The receiver's five states (R168); RECEIVING and PASSING hold the bytes so far, lead byte first. -/
inductive Receiver where
  | quiet
  | hunting
  | receiving (got : List Byte)
  | passing (got : List Byte)
  | replying
  deriving DecidableEq, Repr

/-- The link port: both copies of its settings (R167), the error count, the receiver, the reply on the line, and
a reset ordered by an accepted RESTART (R149). -/
structure LinkPort where
  operating : LinkSettings
  configured : LinkSettings
  errors : Nat
  rx : Receiver
  reply : Option (List Byte)
  restartOrdered : Bool
  deriving DecidableEq, Repr

/-! ## Scan unit (chapter 2) -/

/-- Round source states (section 2.2). -/
inductive SourceState where
  | timed
  | following
  | fallback
  deriving DecidableEq, Repr

/-- One pair of the sensor input map in force at the round's start (R27), with what the round has summed. -/
structure Channel where
  string : Nat
  input : Nat
  sum : Int
  beyond : Bool
  deriving DecidableEq, Repr

/-- The round in progress (R21). -/
structure Round where
  total : Nat
  taken : Nat
  capture : Bool
  channels : List Channel
  busSum : Int
  temps : List Int
  deriving DecidableEq, Repr

/-- An external group temperature (R33). -/
inductive ExtTemp where
  | none
  | valid (value : Int) (age : Nat)
  | stale (value : Int)
  deriving DecidableEq, Repr

/-- The scan unit. `lastStart` times both the round timer and the SYNC watch (R23, R24); `missing` is R32's
memory of the previous completion. -/
structure ScanUnit where
  round : Option Round
  source : SourceState
  lastStart : Nat
  pendingCapture : Bool
  temps : List (Option Int)
  missing : List Bool
  ext : List ExtTemp
  bus : Nat
  counter : Word32
  completed : Bool
  deriving DecidableEq, Repr

/-! ## Peer comparator (chapter 3) -/

/-- A group record (R37, R38). -/
structure GroupRec where
  cfg : GroupSettings
  members : Nat
  eligible : Nat
  reference : Option Nat
  lit : Bool
  deriving DecidableEq, Repr

/-- The peer comparator: groups 1 to 6, the day/night state, the dark-round count and the day counter. -/
structure Comparator where
  groups : List GroupRec
  night : Bool
  dark : Nat
  day : Word16
  deriving DecidableEq, Repr

/-! ## Isolation scheduler and break cell (chapter 5) -/

/-- Severities (R68). -/
inductive Severity where
  | normal
  | high
  | critical
  | shutdown
  deriving DecidableEq, Repr

/-- An isolation queue entry (R73). -/
structure QueueEntry where
  string : Nat
  severity : Severity
  cause : ReqCause
  round : Word32
  arrival : Word32
  deriving DecidableEq, Repr

/-- A break in flight (R80): the entry it came from and whether the cell serves it. -/
structure BreakFlight where
  entry : QueueEntry
  commutated : Bool
  deriving DecidableEq, Repr

/-- The isolation scheduler: the queue in its order (R74), the arrival counter (R75), the breaks in flight. -/
structure Scheduler where
  queue : List QueueEntry
  arrival : Word32
  breaks : List BreakFlight
  deriving DecidableEq, Repr

/-- Cell stages (R82). -/
inductive CellStage where
  | idle
  | attaching
  | conducting
  | quenching
  | detaching
  | resting
  | hot
  | faulted
  deriving DecidableEq, Repr

/-- The stage a cell-fault record names (R190). -/
inductive FaultStage where
  | quenching
  | detaching
  | restore
  | reset
  deriving DecidableEq, Repr

/-- A cell-fault record (R82). -/
structure CellFault where
  stage : FaultStage
  string : Option Nat
  current : Nat
  round : Word32
  deriving DecidableEq, Repr

/-- The break cell (R82). `releasing`: the tap release ordered by CELL_RESTORE is being timed (R91). `timeout`
and `limit` are the settings in force when the stage was entered (R93). `monitor` is the input's level. -/
structure Cell where
  stage : CellStage
  served : Option Nat
  heat : Nat
  fault : Option CellFault
  releasing : Bool
  since : Nat
  timeout : Nat
  limit : Nat
  monitor : Word16
  deriving DecidableEq, Repr

/-! ## Box output isolator (chapter 6) -/

/-- Isolator states (R104). -/
inductive IsolatorState where
  | closed
  | opening
  | opened
  | closing
  | failed
  deriving DecidableEq, Repr

/-- The box output isolator: its state, the pending box-output open, its position feedback (an input), and the
start of the operation in flight. -/
structure Isolator where
  state : IsolatorState
  pendingOpen : Bool
  feedback : Travel
  since : Nat
  deriving DecidableEq, Repr

/-! ## Probe unit (chapter 7) -/

/-- Probe purposes (R112). -/
inductive Purpose where
  | diagnose
  | preClose
  deriving DecidableEq, Repr

/-- A probe list entry (R112). -/
structure ProbeEntry where
  string : Nat
  purpose : Purpose
  origin : Origin
  attempts : Nat
  waiting : Bool
  deriving DecidableEq, Repr

/-- Stages of a probe in flight (R116). -/
inductive ProbeStage where
  | p1
  | p2
  | p3
  | release
  deriving DecidableEq, Repr

/-- A reading of both pole-to-earth channels (R116). -/
structure Poles where
  vp : Int
  vn : Int
  deriving DecidableEq, Repr

/-- The probe in flight (R111, R116): `sampling` once the settle time has ended; the readings taken; Tg and beta as
read with P1 (R120); the settings (R111) and the string's M and Voc25 (R119) of its start; a pass held through
RELEASE (R124). -/
structure ProbeFlight where
  string : Nat
  purpose : Purpose
  origin : Origin
  stage : ProbeStage
  sampling : Bool
  p1 : Option Poles
  p2 : Option Poles
  tg : Int
  beta : Int
  settle : Nat
  nearEarth : Nat
  closeMargin : Nat
  grouped : Bool
  modules : Nat
  voc25 : Nat
  pass : Bool
  since : Nat
  deriving DecidableEq, Repr

/-- The probe unit: the probe list in order of arrival, and the probe in flight. -/
structure ProbeUnit where
  list : List ProbeEntry
  flight : Option ProbeFlight
  deriving DecidableEq, Repr

/-! ## Shutdown monitor, supervision timer, attention unit, settings store (chapters 8 to 11) -/

/-- The shutdown monitor (R142): the state, the line's level, the moment of its last change, and whether the line
was found asserted at the end of the drop stage (R151). -/
structure ShutdownMonitor where
  asserted : Bool
  lineLow : Bool
  since : Nat
  foundAtDrop : Bool
  deriving DecidableEq, Repr

/-- Supervision states (R155). -/
inductive SupervisionState where
  | waiting
  | supervised
  | lapsed
  deriving DecidableEq, Repr

/-- The supervision timer (section 10.2): `longStart` starts the long window, `lastBeat` is the moment of the last
accepted heartbeat. -/
structure Supervision where
  state : SupervisionState
  token : Option Word16
  longStart : Nat
  lastBeat : Nat
  deriving DecidableEq, Repr

/-- Per-string attention items (R162). -/
inductive StringItem where
  | isolated
  | verdict
  | locked
  | contact
  | sensor
  | deficit
  | closed
  | closeFailed
  deriving DecidableEq, Repr

/-- Box attention items (R162). -/
inductive BoxItem where
  | restarted
  | supervisionLapsed
  | shutdown
  | output
  | cellHot
  | cellFault
  | tempStale
  | daylight
  | syncLost
  | storeFault
  deriving DecidableEq, Repr

/-- An attention item (R162). -/
inductive Item where
  | str (kind : StringItem) (string : Nat)
  | box (kind : BoxItem)
  deriving DecidableEq, Repr

/-- The settings store (R135): the nonvolatile image (`none`: contents whose CRC does not match), the image being
written (WRITING while present) and its start, the pending flag, the stored configuration, and the
configuration-changed mark (R180). -/
structure SettingsStore where
  image : Option Image
  writing : Option Image
  since : Nat
  pending : Bool
  stored : Settings
  changed : Bool
  deriving DecidableEq, Repr

/-- The model's own count of the undetermined values drawn so far. Each is a free value of Config at this count: what an
interrupted write leaves (log 10), the order of requests made together (R75, log 8), the order of a completion's events
(R70, log 9). -/
structure FreeChoices where
  draws : Nat
  deriving DecidableEq, Repr

/-! ## The state -/

/-- The state of the block: every block's own state, and the commands waiting, first in first out. -/
structure State where
  part : Part
  mode : Mode
  link : LinkPort
  scan : ScanUnit
  peer : Comparator
  strings : List StringRec
  lockouts : List Lockout
  sched : Scheduler
  cell : Cell
  isolator : Isolator
  probe : ProbeUnit
  shutdown : ShutdownMonitor
  supervision : Supervision
  attention : List Item
  store : SettingsStore
  box : BoxSettings
  free : FreeChoices
  pending : List Instr
  deriving DecidableEq, Repr

/-! ## Reset -/

/-- The state at the end of the drop stage (R150) of a reset of the given kind, from what a reset does not change:
the inputs' levels, the store's image, the model's clock and choices, and the waiting commands. Configuration is not
loaded yet; until LOAD_END it stands at the defaults of R185 (log 7). -/
def State.dropped (kind : ResetKind) (now seconds : Nat) (positions : List Contact) (feedback : Travel)
    (monitor : Word16) (lineLow : Bool) (image : Option Image) (free : FreeChoices) (pending : List Instr) :
    State where
  part := ⟨.load, kind, now, seconds⟩
  mode := .setup
  link := ⟨Config.link, Config.link, 0, .quiet, none, false⟩
  scan := ⟨none, .timed, now, false, List.replicate 4 none, List.replicate 4 false, List.replicate 6 .none, 0, 0, false⟩
  peer := ⟨List.replicate 6 ⟨Config.group, 0, 0, none, false⟩, false, 0, 0⟩
  strings := List.zipWith StringRec.blank (Config.stringNumbers.map Config.string) positions
  lockouts := []
  sched := ⟨[], 0, []⟩
  cell := ⟨.idle, none, 0, none, false, 0, 0, 0, monitor⟩
  isolator := ⟨match feedback with | .opened => .opened | .mid => .failed | .closed => .closed, false, feedback, 0⟩
  probe := ⟨[], none⟩
  shutdown := ⟨lineLow, lineLow, now, lineLow⟩
  supervision := ⟨.waiting, none, now, 0⟩
  attention := [.box .restarted]
  store := ⟨image, none, 0, false, Config.settings, false⟩
  box := Config.box
  free := free
  pending := pending

/-- The machine right after reset: the drop stage of a POWER_ON reset of a new board has ended and the settings store
is being read (R150). The inputs' levels are DESIGN CHOICES (log 6): every contact OPEN, the isolator at its closed
end, no monitor current, the SHUTDOWN line at its released level, and no valid image in the store. -/
def State.reset : State :=
  State.dropped .powerOn 0 0 (List.replicate 24 .opened) .closed 0 false none ⟨0⟩ []

end Sys2Proof.Machine
end

