-- ==== Sys2Proof/Machine/Operands.lean ====
section
/-! DEFINITION. Arithmetic by the conventions of 00_scope.md, numbered tables, and the forms in which values are
carried on the line (R189, R190). -/

namespace Sys2Proof.Machine

/-! ## Arithmetic -/

/-- "Clamped to a range" (00, Arithmetic). -/
def clampInt (lo hi x : Int) : Int := if x < lo then lo else if hi < x then hi else x

/-- "Clamped to a range" for an unsigned figure. -/
def clampNat (lo hi x : Nat) : Nat := if x < lo then lo else if hi < x then hi else x

/-- "Rounded": the quotient to the nearest integer, halves away from zero (00, Arithmetic). -/
def roundDiv (a b : Int) : Int :=
  let q : Nat := (2 * a.natAbs + b.natAbs) / (2 * b.natAbs)
  if (decide (a < 0)) = (decide (b < 0)) then (q : Int) else -(q : Int)

/-- The quotient rounded up. -/
def ceilDiv (a b : Nat) : Nat := (a + b - 1) / b

/-- Insertion into an ascending list. -/
def insertAsc (x : Nat) : List Nat → List Nat
  | [] => [x]
  | y :: ys => if x ≤ y then x :: y :: ys else y :: insertAsc x ys

/-- The values in ascending order, equal values kept as many times as they occur (R44). -/
def sortAsc (l : List Nat) : List Nat := l.foldr insertAsc []

/-- R44's median: the middle value of an odd count, the truncated mean of the two middle values of an even one. -/
def median (l : List Nat) : Nat :=
  let a := sortAsc l
  let h := a.length / 2
  if a.length % 2 = 1 then a.getD h 0 else (a.getD (h - 1) 0 + a.getD h 0) / 2

/-- The magnitude of a signed monitor reading in 10 mA units (R86, log 13). -/
def magnitude (w : Word16) : Nat := w.toInt.natAbs

/-! ## Tables numbered from 1 -/

/-- Entry `n` of a table numbered from 1. -/
def getNum {α : Type} : List α → Nat → Option α
  | [], _ => none
  | _ :: _, 0 => none
  | x :: _, 1 => some x
  | _ :: xs, n + 2 => getNum xs (n + 1)

/-- The table with entry `n` changed; a number outside the table changes nothing. -/
def updNum {α : Type} (f : α → α) : List α → Nat → List α
  | [], _ => []
  | x :: xs, 0 => x :: xs
  | x :: xs, 1 => f x :: xs
  | x :: xs, n + 2 => x :: updNum f xs (n + 1)

/-- Each entry with its number, the first being `n`. -/
def mapNum {α β : Type} (f : Nat → α → β) : Nat → List α → List β
  | _, [] => []
  | n, x :: xs => f n x :: mapNum f (n + 1) xs

/-! ## Numbers on the line (R189) -/

/-- A one-byte field. -/
def byteOf (n : Nat) : Byte := BitVec.ofNat 8 n

/-- A one-byte field whose range includes negative values. -/
def byteOfInt (i : Int) : Byte := BitVec.ofInt 8 i

/-- A yes/no field: 0 for no and 1 for yes. -/
def byteOfBool (b : Bool) : Byte := if b then 1#8 else 0#8

/-- A 16-bit word, high byte first. -/
def bytes16 (w : Word16) : List Byte := [w.extractLsb' 8 8, w.extractLsb' 0 8]

/-- A two-byte field, high byte first. -/
def bytes16Of (n : Nat) : List Byte := bytes16 (BitVec.ofNat 16 n)

/-- A two-byte two's-complement field, high byte first. -/
def bytes16OfInt (i : Int) : List Byte := bytes16 (BitVec.ofInt 16 i)

/-- A four-byte field, high byte first. -/
def bytes32 (w : Word32) : List Byte :=
  [w.extractLsb' 24 8, w.extractLsb' 16 8, w.extractLsb' 8 8, w.extractLsb' 0 8]

/-- The 16-bit word that two bytes carry, high byte first. -/
def word16 (hi lo : Byte) : Word16 := hi ++ lo

/-- A marks byte: the bits set, bit 0 first (R189: a bit that names nothing is sent as 0). -/
def marksByte (bits : List Bool) : Byte :=
  bits.foldr (fun b (acc : Byte) => acc + acc + byteOfBool b) 0#8

/-- A box item word (R192): the bits set, bit 0 first. -/
def marksWord (bits : List Bool) : Word16 :=
  bits.foldr (fun b (acc : Word16) => acc + acc + (if b then 1#16 else 0#16)) 0#16

/-! ## Named values on the line (R190) -/

/-- String state codes (R190). -/
def codeOfState : StringState → Byte
  | .unused => 0#8
  | .connected => 1#8
  | .suspect => 2#8
  | .queued => 3#8
  | .breaking => 4#8
  | .isolated => 5#8
  | .closing => 6#8
  | .lockedOut => 7#8
  | .stuckClosed => 8#8
  | .breakFailed => 9#8

/-- Codes of request causes (R190). -/
def codeOfReqCause : ReqCause → Byte
  | .reverse => 1#8
  | .overCurrent => 2#8
  | .openString => 3#8
  | .deficit => 4#8
  | .manual => 5#8
  | .shutdown => 6#8
  | .lockoutEnforce => 7#8

/-- Cause codes (R190). -/
def codeOfCause : Cause → Byte
  | .req c => codeOfReqCause c
  | .externalOpen => 8#8
  | .restart => 9#8

/-- Verdict codes (R190). -/
def codeOfVerdict : Verdict → Byte
  | .healthy => 1#8
  | .degraded => 2#8
  | .miswired => 3#8
  | .earthPos => 4#8
  | .earthNeg => 5#8
  | .earthMid => 6#8
  | .poleShort => 7#8
  | .openCircuit => 8#8
  | .unresolved => 9#8

/-- An optional named value: 0 for absent or none (R190). -/
def codeOrZero {α : Type} (code : α → Byte) : Option α → Byte
  | none => 0#8
  | some x => code x

/-- Severity codes (R190), which also rank the severities (R68). -/
def Severity.rank : Severity → Nat
  | .normal => 0
  | .high => 1
  | .critical => 2
  | .shutdown => 3

/-- Break kind codes (R190). -/
def codeOfBreakKind : BreakKind → Byte
  | .cold => 1#8
  | .commutated => 2#8
  | .alreadyOpen => 3#8

/-- Cell stage codes (R190). -/
def codeOfCellStage : CellStage → Byte
  | .idle => 0#8
  | .attaching => 1#8
  | .conducting => 2#8
  | .quenching => 3#8
  | .detaching => 4#8
  | .resting => 5#8
  | .hot => 6#8
  | .faulted => 7#8

/-- Cell-fault stage codes (R190). -/
def codeOfFaultStage : FaultStage → Byte
  | .quenching => 0#8
  | .detaching => 1#8
  | .restore => 2#8
  | .reset => 3#8

/-- Probe purpose codes (R190). -/
def codeOfPurpose : Purpose → Byte
  | .diagnose => 0#8
  | .preClose => 1#8

/-- Origin codes (R190). -/
def codeOfOrigin : Origin → Byte
  | .auto => 0#8
  | .controller => 1#8

/-- Probe stage codes (R190). -/
def codeOfProbeStage : ProbeStage → Byte
  | .p1 => 0#8
  | .p2 => 1#8
  | .p3 => 2#8
  | .release => 3#8

/-- Isolator state codes (R190). -/
def codeOfIsolator : IsolatorState → Byte
  | .closed => 0#8
  | .opening => 1#8
  | .opened => 2#8
  | .closing => 3#8
  | .failed => 4#8

/-- Mode codes (R190). -/
def codeOfMode : Mode → Byte
  | .setup => 0#8
  | .run => 1#8

/-- Round source state codes (R190). -/
def codeOfSourceState : SourceState → Byte
  | .timed => 0#8
  | .following => 1#8
  | .fallback => 2#8

/-- Reset cause codes (R190). -/
def codeOfReset : ResetKind → Byte
  | .powerOn => 1#8
  | .resetLine => 2#8
  | .restartMessage => 3#8

/-- Supervision state codes (R190). -/
def codeOfSupervision : SupervisionState → Byte
  | .waiting => 0#8
  | .supervised => 1#8
  | .lapsed => 2#8

/-- Round source setting codes (R190). -/
def codeOfSource : RoundSource → Byte
  | .internal => 0#8
  | .follow => 1#8

/-- The round source setting a byte names. -/
def sourceOfCode (b : Byte) : Option RoundSource :=
  if b = 0#8 then some .internal else if b = 1#8 then some .follow else none

/-- The yes/no value a byte carries (R189); also escalation's codes (R190). -/
def boolOfCode (b : Byte) : Option Bool :=
  if b = 0#8 then some false else if b = 1#8 then some true else none

/-- Temperature source codes (R190). -/
def codeOfTempSource : TempSource → Byte
  | .none => 0#8
  | .t1 => 1#8
  | .t2 => 2#8
  | .t3 => 3#8
  | .t4 => 4#8
  | .external => 5#8

/-- The temperature source a byte names. -/
def tempSourceOfCode (b : Byte) : Option TempSource :=
  if b = 0#8 then some .none else if b = 1#8 then some .t1 else if b = 2#8 then some .t2
  else if b = 3#8 then some .t3 else if b = 4#8 then some .t4 else if b = 5#8 then some .external else none

/-- Deficit policy codes (R190). -/
def codeOfPolicy : Policy → Byte
  | .isolate => 0#8
  | .report => 1#8

/-- The deficit policy a byte names. -/
def policyOfCode (b : Byte) : Option Policy :=
  if b = 0#8 then some .isolate else if b = 1#8 then some .report else none

/-- Link rate codes (R190). -/
def codeOfRate : Rate → Byte
  | .b19200 => 0#8
  | .b38400 => 1#8
  | .b115200 => 2#8

/-- The link rate a byte names. -/
def rateOfCode (b : Byte) : Option Rate :=
  if b = 0#8 then some .b19200 else if b = 1#8 then some .b38400 else if b = 2#8 then some .b115200 else none

/-! ## Attention items on the line (R192) -/

/-- The per-string items in the bit order of R192. -/
def stringItems : List StringItem :=
  [.isolated, .verdict, .locked, .contact, .sensor, .deficit, .closed, .closeFailed]

/-- The box items in the bit order of R192. -/
def boxItems : List BoxItem :=
  [.restarted, .supervisionLapsed, .shutdown, .output, .cellHot, .cellFault, .tempStale, .daylight, .syncLost,
    .storeFault]

/-- The bit of a per-string item in its string's byte (R192). -/
def StringItem.bit : StringItem → Nat
  | .isolated => 0
  | .verdict => 1
  | .locked => 2
  | .contact => 3
  | .sensor => 4
  | .deficit => 5
  | .closed => 6
  | .closeFailed => 7

/-- The bit of a box item in the 16-bit word (R192). -/
def BoxItem.bit : BoxItem → Nat
  | .restarted => 0
  | .supervisionLapsed => 1
  | .shutdown => 2
  | .output => 3
  | .cellHot => 4
  | .cellFault => 5
  | .tempStale => 6
  | .daylight => 7
  | .syncLost => 8
  | .storeFault => 9

/-- Whether a 26-byte mask names an item (R192): byte s − 1 for string s, then the box word, high byte first. -/
def maskNames (mask : List Byte) : Item → Bool
  | .str k n => (mask.getD (n - 1) 0#8).getLsbD k.bit
  | .box k => (word16 (mask.getD 24 0#8) (mask.getD 25 0#8)).getLsbD k.bit

end Sys2Proof.Machine
end

