-- ==== Sys2Proof/Machine/Ops.lean ====
section
/-! DEFINITION. The shared operations: replacing a block's state, reading and changing a string's record, raising an
attention item, last isolation records, the settings store's writes, and the probe list. -/

namespace Sys2Proof.Machine

/-! ## One replacement per block -/

/-- The state with `part` replaced. -/
def State.setPart (s : State) (x : Part) : State := { s with part := x }

/-- The state with `mode` replaced. -/
def State.setMode (s : State) (x : Mode) : State := { s with mode := x }

/-- The state with `link` replaced. -/
def State.setLink (s : State) (x : LinkPort) : State := { s with link := x }

/-- The state with `scan` replaced. -/
def State.setScan (s : State) (x : ScanUnit) : State := { s with scan := x }

/-- The state with `peer` replaced. -/
def State.setPeer (s : State) (x : Comparator) : State := { s with peer := x }

/-- The state with `strings` replaced. -/
def State.setStrings (s : State) (x : List StringRec) : State := { s with strings := x }

/-- The state with `lockouts` replaced. -/
def State.setLockouts (s : State) (x : List Lockout) : State := { s with lockouts := x }

/-- The state with `sched` replaced. -/
def State.setSched (s : State) (x : Scheduler) : State := { s with sched := x }

/-- The state with `cell` replaced. -/
def State.setCell (s : State) (x : Cell) : State := { s with cell := x }

/-- The state with `isolator` replaced. -/
def State.setIsolator (s : State) (x : Isolator) : State := { s with isolator := x }

/-- The state with `probe` replaced. -/
def State.setProbe (s : State) (x : ProbeUnit) : State := { s with probe := x }

/-- The state with `shutdown` replaced. -/
def State.setShutdown (s : State) (x : ShutdownMonitor) : State := { s with shutdown := x }

/-- The state with `supervision` replaced. -/
def State.setSupervision (s : State) (x : Supervision) : State := { s with supervision := x }

/-- The state with `attention` replaced. -/
def State.setAttention (s : State) (x : List Item) : State := { s with attention := x }

/-- The state with `store` replaced. -/
def State.setStore (s : State) (x : SettingsStore) : State := { s with store := x }

/-- The state with `box` replaced. -/
def State.setBox (s : State) (x : BoxSettings) : State := { s with box := x }

/-- The state with `free` replaced. -/
def State.setFree (s : State) (x : FreeChoices) : State := { s with free := x }

/-- The state with `pending` replaced. -/
def State.setPending (s : State) (x : List Instr) : State := { s with pending := x }

/-! ## The clock (log 1) -/

/-- The clock brought forward to a moment that has come; a moment already passed leaves it. -/
def State.reach (s : State) (due : Nat) : State := s.setPart { s.part with now := max s.part.now due }

/-- Whether the part has supply. -/
def State.powered (s : State) : Bool := s.part.stage != .off

/-- Whether start-up is over (R150). -/
def State.running (s : State) : Bool := s.part.stage == .running

/-! ## String records -/

/-- String `n`'s record; a number outside 1 to 24 reads as an unused string. -/
def State.str (s : State) (n : Nat) : StringRec :=
  (getNum s.strings n).getD (StringRec.blank (Config.string n) .opened)

/-- Changes string `n`'s record. -/
def State.updStr (s : State) (n : Nat) (f : StringRec → StringRec) : State := s.setStrings (updNum f s.strings n)

/-- Changes every string's record. -/
def State.updAll (s : State) (f : StringRec → StringRec) : State := s.setStrings (s.strings.map f)

/-- The numbers of `due` in the order of a wish: those it names in its order, then the rest. -/
def orderedBy : List Nat → List Nat → List Nat
  | [], due => due
  | x :: xs, due => if due.contains x then x :: orderedBy xs (due.erase x) else orderedBy xs due

/-- Two or more events together come in the order of a wish; none and one have no order. -/
def arranged (wish due : List Nat) : List Nat :=
  match due with
  | [] => []
  | [x] => [x]
  | x :: y :: rest => orderedBy wish (x :: y :: rest)

/-- One more undetermined value has been drawn. -/
def State.drawn (s : State) : State := s.setFree { s.free with draws := s.free.draws + 1 }

/-- Group `g`'s record; group 0 and numbers above 6 have none. -/
def State.grp (s : State) (g : Nat) : Option GroupRec := getNum s.peer.groups g

/-- Whether string `n` holds a lockout record (R17). -/
def State.locked (s : State) (n : Nat) : Bool := s.lockouts.any (fun l => l.string == n)

/-- Whether supervision is SUPERVISED (R155). -/
def State.supervised (s : State) : Bool := s.supervision.state == .supervised

/-- A record with its criteria started from 0 (R67). -/
def StringRec.zeroCriteria (r : StringRec) : StringRec :=
  { r with reverseRun := 0, overRun := 0, openRun := 0, bucket := 0, alarm := false }

/-- A record with its last isolation record changed; while the record is absent the write is not made (R9). -/
def StringRec.editRecord (r : StringRec) (f : IsoRecord → IsoRecord) : StringRec := { r with record := r.record.map f }

/-- Whether a string is on the bus and judged with its peers: CONNECTED or SUSPECT. -/
def StringRec.onBus (r : StringRec) : Bool := r.state == .connected || r.state == .suspect

/-- R8: a new last isolation record, with the string's own verdict set absent. -/
def State.openRecord (s : State) (n : Nat) (cause : Cause) (kind : Option BreakKind) : State :=
  s.updStr n fun r => { r with
    verdict := none
    record := some ⟨cause, s.scan.counter, s.peer.day, kind, none, none, none, none, 0⟩ }

/-- A string off the bus: LOCKED_OUT if it holds a lockout record, ISOLATED otherwise (R12, R13). -/
def State.settleOff (s : State) (n : Nat) : State :=
  s.updStr n fun r => { r with state := if s.locked n then .lockedOut else .isolated }

/-! ## The attention set (R162) -/

/-- R162: a raise adds the item if it is not present. -/
def State.raise (s : State) (i : Item) : State := if i ∈ s.attention then s else s.setAttention (s.attention ++ [i])

/-- Raises a per-string item. -/
def State.raiseStr (s : State) (k : StringItem) (n : Nat) : State := s.raise (.str k n)

/-- Raises a box item. -/
def State.raiseBox (s : State) (k : BoxItem) : State := s.raise (.box k)

/-! ## The settings store (R135) -/

/-- The configuration in force (R174), with the configured link settings (R186). -/
def State.settings (s : State) : Settings :=
  ⟨s.link.configured, s.box, s.peer.groups.map (·.cfg), s.strings.map (·.cfg)⟩

/-- The image a write starting now carries: the stored configuration and the lockout set (R135). -/
def State.imageNow (s : State) : Image := ⟨s.store.stored, s.lockouts⟩

/-- R135: a write of the whole image starts. -/
def State.startWrite (s : State) : State :=
  s.setStore { s.store with writing := some s.imageNow, since := s.part.now }

/-- R135: a write request starts a write in IDLE and sets the pending flag in WRITING. -/
def State.requestWrite (s : State) : State :=
  if s.store.writing.isSome then s.setStore { s.store with pending := true } else s.startWrite

/-! ## The probe list (chapter 7) -/

/-- Whether string `n` holds a probe list entry. -/
def State.holdsEntry (s : State) (n : Nat) : Bool := s.probe.list.any (fun e => e.string == n)

/-- String `n`'s probe list entry. -/
def State.entryOf (s : State) (n : Nat) : Option ProbeEntry := s.probe.list.find? (fun e => e.string == n)

/-- Whether the probe in flight is on string `n`; it lasts to the end of its RELEASE (R116). -/
def State.probing (s : State) (n : Nat) : Bool :=
  match s.probe.flight with
  | none => false
  | some f => f.string == n

/-- Whether a string is ungrouped or its group is lit (R114). The group is the one its record now names: a group rewritten
by STRING_CONFIG counts at once (log 38). -/
def State.skyFor (s : State) (n : Nat) : Bool :=
  (s.str n).cfg.group == 0 || (match s.grp (s.str n).cfg.group with | none => false | some g => g.lit)

/-- R114: an entry's eligibility. -/
def State.eligible (s : State) (e : ProbeEntry) : Bool :=
  !s.peer.night && !s.shutdown.asserted && s.skyFor e.string && !e.waiting

/-- R116: a probe or check starts, its settings (R111) and the string's group, M and Voc25 (R117, R119) taken as they
stand, a STRING_CONFIG of this round included (log 38). -/
def State.startProbe (s : State) (e : ProbeEntry) : State :=
  let c := (s.str e.string).cfg
  s.setProbe { s.probe with flight := some {
    string := e.string, purpose := e.purpose, origin := e.origin, stage := .p1, sampling := false,
    p1 := none, p2 := none, tg := 25, beta := 0,
    settle := s.box.settle, nearEarth := s.box.nearEarth, closeMargin := s.box.closeMargin,
    grouped := c.group != 0, modules := c.modules, voc25 := c.voc25, pass := false, since := s.part.now } }

/-- R115: with no probe or check in flight, the first eligible entry in list order is started. -/
def State.lookForWork (s : State) : State :=
  match s.probe.flight with
  | some _ => s
  | none =>
    match s.probe.list.find? s.eligible with
    | none => s
    | some e => s.startProbe e

/-- R112: an entry at the end of the list, with attempts 0 and its flag clear; the look for work is the caller's. -/
def State.enlist (s : State) (n : Nat) (purpose : Purpose) (origin : Origin) : State :=
  s.setProbe { s.probe with list := s.probe.list ++ [⟨n, purpose, origin, 0, false⟩] }

/-- R112: an entry at the end of the list, unless the string holds one; the unit then looks for work (R115). -/
def State.place (s : State) (n : Nat) (purpose : Purpose) (origin : Origin) : State :=
  if s.holdsEntry n then s else (s.enlist n purpose origin).lookForWork

/-- R126: an abort drops the readings and enters RELEASE; in RELEASE it takes a held pass and nothing else (R123,
R124). -/
def ProbeFlight.abort (f : ProbeFlight) (now : Nat) : ProbeFlight :=
  if f.stage = .release then { f with pass := false }
  else { f with stage := .release, sampling := false, p1 := none, p2 := none, pass := false, since := now }

/-- R126: aborts the probe in flight. -/
def State.abortProbe (s : State) : State :=
  s.setProbe { s.probe with flight := s.probe.flight.map (fun f => f.abort s.part.now) }

/-- R113: string `n`'s entry leaves the list; its probe or check in flight is aborted. -/
def State.withdraw (s : State) (n : Nat) : State :=
  if s.holdsEntry n then
    let t := s.setProbe { s.probe with list := s.probe.list.filter (fun e => e.string != n) }
    if t.probing n then t.abortProbe else t
  else s

/-- R11, R113: ISOLATE withdraws the string's PRE_CLOSE entry and leaves a DIAGNOSE entry. -/
def State.withdrawPreClose (s : State) (n : Nat) : State :=
  match s.entryOf n with
  | some e => if e.purpose = .preClose then s.withdraw n else s
  | none => s

/-- R113: a shutdown assertion and a supervision lapse withdraw every PRE_CLOSE entry; a check in flight is aborted
and a held pass is lost with it. -/
def State.withdrawAllPreClose (s : State) : State :=
  let t := s.setProbe { s.probe with list := s.probe.list.filter (fun e => e.purpose != .preClose) }
  match s.probe.flight with
  | some f => if f.purpose = .preClose then t.abortProbe else t
  | none => t

/-- R126: the probe in flight is aborted and its entry kept in place, a DIAGNOSE entry with attempts set to 0. -/
def State.abortKeeping (s : State) : State :=
  match s.probe.flight with
  | none => s
  | some f =>
    let list := s.probe.list.map fun e =>
      if e.string = f.string ∧ e.purpose = .diagnose then { e with attempts := 0 } else e
    (s.setProbe { s.probe with list := list }).abortProbe

/-! ## Outcomes of a meaning -/

/-- What a command answers: every command of this part answers a next state (log 35). -/
abbrev Result := Host.Outcome State Fault Refusal

end Sys2Proof.Machine
end

