-- ==== Sys2Proof/Machine/Isolation.lean ====
section
/-! DEFINITION. Taking a string off the bus: open requests to the box output isolator (chapter 6), the isolation queue
and its service walk (chapter 5), and isolation requests (R11). -/

namespace Sys2Proof.Machine

/-! ## Causes and severities (R68) -/

/-- R68: the severity a request's cause fixes. -/
def ReqCause.severity : ReqCause → Severity
  | .shutdown => .shutdown
  | .reverse => .critical
  | .overCurrent => .high
  | .openString => .normal
  | .deficit => .normal
  | .manual => .normal
  | .lockoutEnforce => .normal

/-- The causes the fault monitor raises, for which the recurrence test is made (R131). -/
def ReqCause.isFault : ReqCause → Bool
  | .reverse => true
  | .overCurrent => true
  | .openString => true
  | .deficit => true
  | .manual => false
  | .shutdown => false
  | .lockoutEnforce => false

/-! ## Open requests to the isolator (R106) -/

/-- R107: the isolator reaches OPEN; OUTPUT is raised. The walk that follows is the caller's. -/
def State.isolatorOpened (s : State) : State :=
  (s.setIsolator { s.isolator with state := .opened }).raiseBox .output

/-- R106: an open operation starts; a feedback already at the open end ends it at once (R107). -/
def State.startOpening (s : State) : State :=
  let t := (s.setIsolator { s.isolator with state := .opening, since := s.part.now }).raiseBox .output
  if t.isolator.feedback = .opened then t.isolatorOpened else t

/-- R106: an open request by the isolator's state, without the walk that an arrival at OPEN starts. -/
def State.openOrder (s : State) : State :=
  match s.isolator.state with
  | .closed => s.startOpening
  | .failed => s.startOpening
  | .closing => s.setIsolator { s.isolator with pendingOpen := true }
  | .opening => s
  | .opened => s

/-- Whether an operation has taken the isolator to OPEN since `before` (R78). -/
def State.reachedOpen (s before : State) : Bool := s.isolator.state == .opened && before.isolator.state != .opened

/-! ## The queue (R74) -/

/-- R74: whether one entry goes before another. Rounds and indices are compared as differences modulo 2^32 from the
counters' present values, so a larger difference is an older entry. -/
def QueueEntry.before (counter arrival : Word32) (a b : QueueEntry) : Bool :=
  let age (e : QueueEntry) : Nat := (counter - e.round).toNat
  let place (e : QueueEntry) : Nat := (arrival - e.arrival).toNat
  decide (b.severity.rank < a.severity.rank) ||
    (a.severity.rank == b.severity.rank &&
      (decide (age b < age a) || (age a == age b && decide (place b < place a))))

/-- An entry put at its place in the queue's order. -/
def insertEntry (counter arrival : Word32) (e : QueueEntry) : List QueueEntry → List QueueEntry
  | [] => [e]
  | x :: xs =>
    if e.before counter arrival x then e :: x :: xs else x :: insertEntry counter arrival e xs

/-- The queue with an entry put in its place (R74). -/
def State.enqueue (s : State) (e : QueueEntry) : State :=
  s.setSched { s.sched with queue := insertEntry s.scan.counter s.sched.arrival e s.sched.queue }

/-- The queue without string `n`'s entry (R77). -/
def State.dequeue (s : State) (n : Nat) : State :=
  s.setSched { s.sched with queue := s.sched.queue.filter (fun e => e.string != n) }

/-- String `n`'s queue entry. -/
def State.queued (s : State) (n : Nat) : Option QueueEntry := s.sched.queue.find? (fun e => e.string == n)

/-- String `n`'s break in flight (R80). -/
def State.breakOf (s : State) (n : Nat) : Option BreakFlight := s.sched.breaks.find? (fun b => b.entry.string == n)

/-- The break in flight of string `n` ends (R80). -/
def State.endBreak (s : State) (n : Nat) : State :=
  s.setSched { s.sched with breaks := s.sched.breaks.filter (fun b => b.entry.string != n) }

/-! ## The service walk (R78, R79) -/

/-- R12: a string off the bus by a break or found open: its state, ISOLATED raised, a DIAGNOSE entry of origin AUTO. -/
def State.offBus (s : State) (n : Nat) : State :=
  ((s.settleOff n).raiseStr .isolated n).place n .diagnose .auto

/-- R79, step 1: the entry leaves the queue without a break. -/
def State.alreadyOpen (s : State) (n : Nat) : State :=
  (((s.dequeue n).updStr n fun r => r.editRecord fun q => { q with kind := some .alreadyOpen, current := none }).offBus n)

/-- R81: a cold break starts; the open pulse times the contact timeout in force now (R98). -/
def State.startCold (s : State) (e : QueueEntry) : State :=
  let t := s.dequeue e.string
  (t.setSched { t.sched with breaks := t.sched.breaks ++ [⟨e, false⟩] }).updStr e.string fun r =>
    { r.editRecord (fun q => { q with kind := some .cold, current := some r.current }) with
      state := .breaking, op := some (.opening s.part.now s.box.contactTimeout) }

/-- R84: a commutated break starts; the cell enters ATTACHING and times 30 ms. -/
def State.startCommutated (s : State) (e : QueueEntry) : State :=
  let t := s.dequeue e.string
  let u := t.setSched { t.sched with breaks := t.sched.breaks ++ [⟨e, true⟩] }
  let v := u.updStr e.string fun r => { r with state := .breaking }
  v.setCell { v.cell with stage := .attaching, served := some e.string, since := s.part.now, timeout := 30 }

/-- R79, steps 1 to 3, and R153: whether string `n` needs commutation. Before the first completion after a reset no
entry is judged. -/
def State.needsCommutation (s : State) (n : Nat) : Bool :=
  (s.str n).position == .closed && s.scan.completed && decide (s.box.coldLimit < (s.str n).current.natAbs)

/-- R92: whether an entry that waits for commutation asks for the box output open. -/
def State.escalates (s : State) (e : QueueEntry) : Bool :=
  s.box.escalation &&
    ((decide (Severity.high.rank ≤ e.severity.rank) && (s.str e.string).tapFault) ||
      (decide (Severity.critical.rank ≤ e.severity.rank) && (s.cell.stage == .hot || s.cell.stage == .faulted)))

/-- R79: one visit. The flag says that an entry visited earlier in this walk both needed commutation and had a clear
tap fault mark. -/
def State.visit (s : State) (earlier : Bool) (e : QueueEntry) : State × Bool :=
  let r := s.str e.string
  if r.position = .opened then (s.alreadyOpen e.string, earlier)
  else if s.scan.completed = false then (s, earlier)
  else if r.current.natAbs ≤ s.box.coldLimit then (s.startCold e, earlier)
  else if r.tapFault = false ∧ earlier = false ∧ s.cell.stage = .idle then (s.startCommutated e, true)
  else (if s.escalates e then s.openOrder else s, earlier || !r.tapFault)

/-- R78: every entry present when the walk begins is visited in queue order. -/
def State.walkOnce (s : State) : State :=
  (s.sched.queue.foldl (fun (acc : State × Bool) e => acc.1.visit acc.2 e) (s, false)).1

/-- R78: a service walk, and the second walk that an arrival of the isolator at OPEN within it starts. -/
def State.walk (s : State) : State :=
  let t := s.walkOnce
  if t.reachedOpen s then t.walkOnce else t

/-- R106: an open request, with the walk that an arrival at OPEN starts. -/
def State.openRequest (s : State) : State :=
  let t := s.openOrder
  if t.reachedOpen s then t.walk else t

/-- R92: the cell enters HOT or FAULTED while an entry of severity CRITICAL or above that needs commutation waits. -/
def State.escalateWaiting (s : State) : State :=
  if s.box.escalation && s.sched.queue.any (fun e =>
      decide (Severity.critical.rank ≤ e.severity.rank) && s.needsCommutation e.string) then s.openRequest else s

/-! ## Admission and merging (R75, R76) -/

/-- R131: the recurrence test sets the auto budget to 0. -/
def StringRec.recurrence (r : StringRec) (window : Nat) : StringRec :=
  match r.record, r.reconnectedAt with
  | some q, some at_ => if 1 ≤ window ∧ (q.round - at_).toNat < window then { r with budget := 0 } else r
  | _, _ => r

/-- R131: the test is made for the fault monitor's causes alone. -/
def State.recurrenceTest (s : State) (n : Nat) (c : ReqCause) : State :=
  if c.isFault then s.updStr n (·.recurrence s.box.recurrence) else s

/-- R76: a request of higher severity takes the entry; its round and index are kept. The walk is the caller's. -/
def State.raiseEntry (s : State) (e : QueueEntry) (c : ReqCause) : State :=
  let t := ((s.dequeue e.string).enqueue { e with severity := c.severity, cause := c }).updStr e.string fun r =>
    { r.editRecord (fun q => { q with cause := .req c }) with cause := some (.req c) }
  t.recurrenceTest e.string c

/-- R76: a request for a queued string is merged into its entry; a rise of severity starts a walk. -/
def State.merge (s : State) (n : Nat) (c : ReqCause) : State :=
  match s.queued n with
  | none => s
  | some e => if e.severity.rank < c.severity.rank then (s.raiseEntry e c).walk else s

/-- R144: while the shutdown state is ASSERTED an entry admitted with another cause is raised to SHUTDOWN, before the
walk of its admission (log 21). -/
def State.shutdownRaise (s : State) (e : QueueEntry) : State :=
  if s.shutdown.asserted = true ∧ e.cause ≠ .shutdown then s.raiseEntry e .shutdown else s

/-- R75: a new entry takes the request's cause and severity, the round of the string's new record and the arrival
counter's value; the counter rises; the admission starts a walk. -/
def State.admitEntry (s : State) (n : Nat) (c : ReqCause) : State :=
  let e : QueueEntry := ⟨n, c.severity, c, s.scan.counter, s.sched.arrival⟩
  let t := s.enqueue e
  ((t.setSched { t.sched with arrival := t.sched.arrival + 1 }).shutdownRaise e).walk

/-- R11: a string becomes QUEUED with the request's cause, a new record is opened (R8), the recurrence test is made
(R131) and the entry is admitted. -/
def State.queueString (s : State) (n : Nat) (c : ReqCause) : State :=
  let t := (s.updStr n fun r => { r with state := .queued, cause := some (.req c) }).openRecord n (.req c) none
  (t.recurrenceTest n c).admitEntry n c

/-- R11, CLOSING: the held request is replaced only by one of higher severity. -/
def StringRec.hold (r : StringRec) (c : ReqCause) : StringRec :=
  match r.held with
  | none => { r with held := some c }
  | some h => if h.severity.rank < c.severity.rank then { r with held := some c } else r

/-- R11: an isolation request for string `n`, answered by the string's state. -/
def State.request (s : State) (n : Nat) (c : ReqCause) : State :=
  match (s.str n).state with
  | .connected => s.queueString n c
  | .suspect => s.queueString n c
  | .queued => s.merge n c
  | .breaking => s
  | .isolated =>
    if c = .manual then (s.withdrawPreClose n).updStr n fun r => { r with cause := some (.req .manual) } else s
  | .lockedOut =>
    if c = .manual then s.withdrawPreClose n
    else if c = .lockoutEnforce then (s.withdraw n).queueString n c
    else s
  | .closing => s.updStr n (·.hold c)
  | .unused => s
  | .stuckClosed => s
  | .breakFailed => s

/-- R144: a string that has reached CONNECTED while the shutdown state is ASSERTED receives a SHUTDOWN request. -/
def State.shutdownCatch (s : State) (n : Nat) : State :=
  if s.shutdown.asserted then s.request n .shutdown else s

/-! ## Reaching the bus -/

/-- A string enters CONNECTED with its criteria from 0, cause none and verdict absent (R4, R5, R67). -/
def State.connect (s : State) (n : Nat) : State :=
  s.updStr n fun r => { r.zeroCriteria with state := .connected, cause := none, verdict := none }

/-- R15: a confirmed close. A held request is then made under the CONNECTED row (R11). -/
def State.closeConfirmed (s : State) (n : Nat) (origin : Origin) : State :=
  let held := (s.str n).held
  let t := ((s.connect n).updStr n fun r => { r with
    held := none
    reconnectedAt := if origin = .auto then some s.scan.counter else r.reconnectedAt }).raiseStr .closed n
  let u := match held with | none => t | some c => t.request n c
  u.shutdownCatch n

/-- R15: a close pulse that times out; a held request sets the cause (R11). -/
def State.closeFailed (s : State) (n : Nat) : State :=
  let t := s.updStr n fun r =>
    { r.editRecord (fun q => { q with closeFailed := min 20 (q.closeFailed + 1) }) with
      state := .isolated
      cause := (match r.held with | none => r.cause | some c => some (.req c))
      held := none }
  (t.raiseStr .closeFailed n).raiseStr .contact n

/-- R14: a contact found CLOSED for an ISOLATED string. -/
def State.externalClose (s : State) (n : Nat) : State :=
  (((s.withdraw n).connect n).raiseStr .contact n).shutdownCatch n

/-- R14: a contact found OPEN for a CONNECTED or SUSPECT string. -/
def State.externalOpen (s : State) (n : Nat) : State :=
  (((s.updStr n fun r => { r with state := .isolated, cause := some .externalOpen }).openRecord n .externalOpen
    (some .alreadyOpen)).raiseStr .contact n).place n .diagnose .auto

/-- R13: a STUCK_CLOSED string's contact found OPEN. -/
def State.stuckFreed (s : State) (n : Nat) : State :=
  ((s.settleOff n).raiseStr .contact n).place n .diagnose .auto

/-- R14: a LOCKED_OUT string's contact found CLOSED. -/
def State.enforceLockout (s : State) (n : Nat) : State :=
  (s.raiseStr .contact n).request n .lockoutEnforce

/-- R102: the comparison of one string's position with the position its state implies, and its answer (R13, R14). -/
def State.discrepancy (s : State) (n : Nat) : State :=
  let r := s.str n
  if r.cfg.used = false ∨ r.op.isSome = true then s
  else match r.state with
    | .connected => if r.position = .opened then s.externalOpen n else s
    | .suspect => if r.position = .opened then s.externalOpen n else s
    | .isolated => if r.position = .closed then s.externalClose n else s
    | .lockedOut => if r.position = .closed then s.enforceLockout n else s
    | .stuckClosed => if r.position = .opened then s.stuckFreed n else s
    | .queued => s
    | .breaking => s
    | .closing => s
    | .breakFailed => s
    | .unused => s

end Sys2Proof.Machine
end

