-- ==== Sys2Proof/Machine/Cell.lean ====
section
/-! DEFINITION. The break cell's stages (R82 to R91), the outcomes of contact operations (R98, R99), and the box output
isolator's operations (R107 to R110). -/

namespace Sys2Proof.Machine

/-! ## Entering stages -/

/-- A stage entered now with the timeout it times. -/
def State.enterStage (s : State) (stage : CellStage) (timeout : Nat) : State :=
  s.setCell { s.cell with stage := stage, since := s.part.now, timeout := timeout }

/-- R89: IDLE, with no string served; every entry to IDLE starts a walk. -/
def State.cellIdle (s : State) : State :=
  (s.setCell { s.cell with stage := .idle, served := none, releasing := false }).walk

/-- R89: HOT; CELL_HOT is raised, and entries that wait may escalate (R92). -/
def State.cellHot (s : State) : State :=
  ((s.setCell { s.cell with stage := .hot, served := none, releasing := false }).raiseBox .cellHot).escalateWaiting

/-- R89, R91: HOT when the heat exceeds H_max, IDLE otherwise. -/
def State.cellRested (s : State) : State := if s.box.hMax < s.cell.heat then s.cellHot else s.cellIdle

/-- R82, R90: FAULTED with its record; CELL_FAULT is raised. -/
def State.cellFaulted (s : State) (stage : FaultStage) (string : Option Nat) : State :=
  (s.setCell { s.cell with
    stage := .faulted, served := string, releasing := false
    fault := some ⟨stage, string, magnitude s.cell.monitor, s.scan.counter⟩ }).raiseBox .cellFault

/-- R88: the heat a quench adds: its current in whole amperes, rounded up, and at least 1. -/
def heatOf (iq : Nat) : Nat := max 1 (ceilDiv iq 100)

/-- R86: the quench has succeeded. The string's outcome is fixed (R12) and the cell enters DETACHING (R87). -/
def State.quenchSucceeded (s : State) (n : Nat) : State :=
  ((s.endBreak n).enterStage .detaching 30).offBus n

/-- R86: QUENCHING is entered: Iq is read, the heat rises and the record takes it. An Iq at or below the limit ends the
quench at once. -/
def State.quenchStart (s : State) (n : Nat) : State :=
  let iq := min (magnitude s.cell.monitor) 4000
  let t := s.enterStage .quenching s.box.quenchTimeout
  let u := t.setCell { t.cell with heat := t.cell.heat + heatOf iq, limit := s.box.coldLimit }
  let v := u.updStr n fun r => r.editRecord fun q => { q with kind := some .commutated, current := some (iq : Int) }
  if iq ≤ s.box.coldLimit then v.quenchSucceeded n else v

/-- R85: CONDUCTING is entered: the gate is on, the record takes COMMUTATED, and the open pulse starts. A position
already OPEN ends the operation at once (R98). -/
def State.conduct (s : State) (n : Nat) : State :=
  let t := (s.enterStage .conducting s.box.contactTimeout).updStr n fun r =>
    r.editRecord fun q => { q with kind := some .commutated, current := none }
  if (t.str n).position = .opened then t.quenchStart n
  else t.updStr n fun r => { r with op := some (.opening s.part.now s.box.contactTimeout) }

/-! ## Outcomes of contact operations (R98) -/

/-- R12, R92: a break whose contact has not opened. -/
def State.breakStuck (s : State) (n : Nat) : State :=
  let hard := match s.breakOf n with
    | none => false
    | some b => decide (Severity.high.rank ≤ b.entry.severity.rank)
  let t := ((s.endBreak n).updStr n fun r => { r with state := .stuckClosed }).raiseStr .contact n
  if hard && t.box.escalation then t.openRequest else t

/-- Whether the cell is conducting for string `n`. -/
def State.conductingFor (s : State) (n : Nat) : Bool := s.cell.stage == .conducting && s.cell.served == some n

/-- R99: an open pulse has succeeded: for a commutated break the cell quenches, a cold break ends. -/
def State.pulseOpened (s : State) (n : Nat) : State :=
  if s.conductingFor n then s.quenchStart n else (s.endBreak n).offBus n

/-- R99: an open pulse has failed: the cell turns its gate off and detaches (R85). -/
def State.pulseStuck (s : State) (n : Nat) : State :=
  if s.conductingFor n then (s.enterStage .detaching 30).breakStuck n else s.breakStuck n

/-- R98: the contact's position is taken; an operation in flight whose target it is ends as a success. -/
def State.contactMoved (s : State) (n : Nat) (position : Contact) : State :=
  let t := s.updStr n fun r => { r with position := position }
  match (t.str n).op, position with
  | some (.opening _ _), .opened => (t.updStr n fun r => { r with op := none }).pulseOpened n
  | some (.closing origin _ _), .closed => (t.updStr n fun r => { r with op := none }).closeConfirmed n origin
  | some (.opening _ _), .closed => t
  | some (.closing _ _ _), .opened => t
  | none, _ => t

/-- R98: the contact timeout expires; the coil drive is dropped and the failure reported. -/
def State.contactExpired (s : State) (n : Nat) : State :=
  match (s.str n).op with
  | none => s
  | some (.opening started timeout) =>
    ((s.reach (started + timeout)).updStr n fun r => { r with op := none }).pulseStuck n
  | some (.closing _ started timeout) =>
    ((s.reach (started + timeout)).updStr n fun r => { r with op := none }).closeFailed n

/-! ## Tap feedback and the cell's timeouts -/

/-- R84: the tap is closed in ATTACHING. -/
def State.tapClosed (s : State) (n : Nat) : State :=
  if s.cell.stage = .attaching ∧ s.cell.served = some n then s.conduct n else s

/-- R84: 30 ms pass in ATTACHING: the tap fault mark is set, the entry goes back to its place (R77), the string is
QUEUED again and the cell IDLE; the return and the cell's IDLE start a walk (log 25). -/
def State.attachExpired (s : State) : State :=
  match s.cell.stage, s.cell.served with
  | .attaching, some n =>
    let t := s.reach (s.cell.since + s.cell.timeout)
    let u := match t.breakOf n with
      | none => t
      | some b => (t.endBreak n).enqueue b.entry
    (u.updStr n fun r => { r with state := .queued, tapFault := true }).cellIdle
  | _, _ => s

/-- R13, R91: the tap release after CELL_RESTORE is confirmed: a BREAK_FAILED string leaves that state. -/
def State.failedFreed (s : State) (n : Nat) : State :=
  if (s.str n).state = .breakFailed then (s.settleOff n).place n .diagnose .auto else s

/-- R87, R91: the tap is released. After CELL_RESTORE the cell enters IDLE and walks, or HOT, and a BREAK_FAILED string
then leaves that state. -/
def State.tapReleased (s : State) (n : Nat) : State :=
  if s.cell.served ≠ some n then s
  else match s.cell.stage with
    | .detaching => s.enterStage .resting 100
    | .faulted => if s.cell.releasing then s.cellRested.failedFreed n else s
    | .idle => s
    | .attaching => s
    | .conducting => s
    | .quenching => s
    | .resting => s
    | .hot => s

/-- R87: 30 ms pass in DETACHING: FAULTED with a DETACHING record and the tap fault mark; a CRITICAL entry that waits
may escalate (R92). -/
def State.detachExpired (s : State) : State :=
  match s.cell.stage, s.cell.served with
  | .detaching, some n =>
    let t := (s.reach (s.cell.since + s.cell.timeout)).cellFaulted .detaching (some n)
    (t.updStr n fun r => { r with tapFault := true }).escalateWaiting
  | _, _ => s

/-- R91: 30 ms pass after CELL_RESTORE without the release: the record's stage becomes RESTORE, CELL_FAULT is raised. -/
def State.releaseExpired (s : State) : State :=
  if s.cell.stage = .faulted ∧ s.cell.releasing = true then
    let t := s.reach (s.cell.since + s.cell.timeout)
    (t.setCell { t.cell with
      releasing := false
      fault := t.cell.fault.map fun f => { f with stage := .restore } }).raiseBox .cellFault
  else s

/-- R86: the monitor current has fallen to a level; in QUENCHING a level at or below the limit in force ends the quench. -/
def State.monitorReads (s : State) (w : Word16) : State :=
  let t := s.setCell { s.cell with monitor := w }
  match t.cell.stage, t.cell.served with
  | .quenching, some n => if magnitude w ≤ t.cell.limit then t.quenchSucceeded n else t
  | _, _ => t

/-- R90: the quench timeout expires: FAULTED with the tap held, the string BREAK_FAILED, the box output open requested
whatever the escalation setting. -/
def State.quenchExpired (s : State) : State :=
  match s.cell.stage, s.cell.served with
  | .quenching, some n =>
    let t := (s.reach (s.cell.since + s.cell.timeout)).cellFaulted .quenching (some n)
    ((t.endBreak n).updStr n fun r => { r with state := .breakFailed }).openRequest
  | _, _ => s

/-- R89: 100 ms pass in RESTING. -/
def State.restEnded (s : State) : State :=
  if s.cell.stage = .resting then (s.reach (s.cell.since + s.cell.timeout)).cellRested else s

/-- R89: a HOT cell at or below H_resume returns to IDLE. -/
def State.cellCooled (s : State) : State :=
  if s.cell.stage = .hot ∧ s.cell.heat ≤ s.box.hResume then s.cellIdle else s

/-! ## The box output isolator -/

/-- R109: the end of a close: a pending open is cleared and carried out from the new state. -/
def State.closeOver (s : State) (state : IsolatorState) : State :=
  let t := (s.setIsolator { s.isolator with state := state, pendingOpen := false }).raiseBox .output
  if s.isolator.pendingOpen then t.openRequest else t

/-- R108: a close operation starts from OPEN; a feedback already at the closed end ends it at once (log 22). -/
def State.startClosing (s : State) : State :=
  let t := (s.setIsolator { s.isolator with state := .closing, since := s.part.now }).raiseBox .output
  if t.isolator.feedback = .closed then t.closeOver .closed else t

/-- R107, R109: the feedback reads a position; the end of the operation in flight ends it. -/
def State.isolatorReads (s : State) (feedback : Travel) : State :=
  let t := s.setIsolator { s.isolator with feedback := feedback }
  match t.isolator.state, feedback with
  | .opening, .opened => t.isolatorOpened.walk
  | .closing, .closed => t.closeOver .closed
  | _, _ => t

/-- R107, R109: 3 s pass in an operation. -/
def State.isolatorExpired (s : State) : State :=
  match s.isolator.state with
  | .opening =>
    let t := s.reach (s.isolator.since + 3000)
    (t.setIsolator { t.isolator with state := .failed }).raiseBox .output
  | .closing => (s.reach (s.isolator.since + 3000)).closeOver .failed
  | .closed => s
  | .opened => s
  | .failed => s

/-- R110: at a round completion, a CLOSED or OPEN isolator takes the position its feedback reads. -/
def State.isolatorCompared (s : State) : State :=
  match s.isolator.state, s.isolator.feedback with
  | .closed, .opened => s.isolatorOpened.walk
  | .closed, .mid => (s.setIsolator { s.isolator with state := .failed }).raiseBox .output
  | .opened, .mid => (s.setIsolator { s.isolator with state := .failed }).raiseBox .output
  | .opened, .closed =>
    let t := (s.setIsolator { s.isolator with state := .closed }).raiseBox .output
    if t.shutdown.asserted then t.openRequest else t
  | _, _ => s

end Sys2Proof.Machine
end

