-- ==== Sys2Proof/Machine/Rounds.lean ====
section
/-! DEFINITION. Measurement rounds (chapter 2): when rounds start, what a sample set adds, and the figures that a
completion delivers. -/

namespace Sys2Proof.Machine

/-! ## Round starts (R21, R23 to R26, R30) -/

/-- The round period in milliseconds (section 2.2). -/
def State.period (s : State) : Nat := if s.peer.night then s.box.nightPeriod * 1000 else s.box.dayPeriod

/-- The sensor input map of the used strings (R27), with nothing summed. -/
def channelsOf (strings : List StringRec) : List Channel :=
  ((mapNum (fun n r => (n, r)) 1 strings).filter (fun x => x.2.cfg.used)).map fun x => ⟨x.1, x.2.cfg.input, 0, false⟩

/-- R21, R30: a round starts now unless one is in progress; a pending capture order makes it a capture round and is
consumed. -/
def State.startRound (s : State) : State :=
  match s.scan.round with
  | some _ => s
  | none => s.setScan { s.scan with
      round := some ⟨if s.scan.pendingCapture then 8 else s.box.averaging, 0, s.scan.pendingCapture,
        channelsOf s.strings, 0, []⟩
      lastStart := s.part.now
      pendingCapture := false }

/-- R25: FALLBACK is entered: SYNC_LOST is raised and a round starts at once. -/
def State.enterFallback (s : State) : State :=
  ((s.setScan { s.scan with source := .fallback }).raiseBox .syncLost).startRound

/-- R23 to R26: after a change of the period or of the source, a moment already passed takes effect at once. No round
timer or watch can have run out while a round is in progress (R21). -/
def State.recheckSource (s : State) : State :=
  if s.scan.round.isSome then s
  else match s.scan.source with
    | .timed => if s.scan.lastStart + s.period ≤ s.part.now then s.startRound else s
    | .fallback => if s.scan.lastStart + s.period ≤ s.part.now then s.startRound else s
    | .following => if s.scan.lastStart + 2 * s.period ≤ s.part.now then s.enterFallback else s

/-- R23, R25: the round timer expires. -/
def State.roundTimer (s : State) : State :=
  match s.scan.source with
  | .timed => (s.reach (s.scan.lastStart + s.period)).startRound
  | .fallback => (s.reach (s.scan.lastStart + s.period)).startRound
  | .following => s

/-- R24, R25: a SYNC falling edge whose low level has held for at least 20 µs. -/
def State.syncEdge (s : State) : State :=
  match s.scan.source with
  | .timed => s
  | .following => s.startRound
  | .fallback => (s.setScan { s.scan with source := .following }).startRound

/-- R24, R25: the SYNC watch expires. -/
def State.syncWatch (s : State) : State :=
  match s.scan.source with
  | .following => (s.reach (s.scan.lastStart + 2 * s.period)).enterFallback
  | .timed => s
  | .fallback => s

/-! ## Sample sets (R21, R27) -/

/-- A channel with one more sample of its input. -/
def Channel.add (c : Channel) (currents : List Sample) : Channel :=
  let x := (getNum currents c.input).getD ⟨0#13, false⟩
  { c with sum := c.sum + x.value.toInt, beyond := c.beyond || x.beyond }

/-- The round with one more sample set; its first set takes the temperature readings. -/
def Round.add (r : Round) (set : SampleSet) : Round :=
  { r with
    taken := r.taken + 1
    channels := r.channels.map (·.add set.currents)
    busSum := r.busSum + set.bus.toInt
    temps := if r.taken = 0 then set.temps.map (·.toInt) else r.temps }

/-! ## Figures at a completion (R28 to R34) -/

/-- R30: whether a capture succeeds. -/
def captureOk (mean : Int) (beyond : Bool) : Bool := decide (-50 ≤ mean) && decide (mean ≤ 50) && !beyond

/-- R28, R30: a string's record with the round's figures for it. -/
def StringRec.deliver (r : StringRec) (c : Channel) (total : Nat) (capture : Bool) : StringRec :=
  let average := c.sum.tdiv (total : Int)
  let ok := captureOk average c.beyond
  let offset := if capture && ok then average else r.offset
  let corrected := average - offset
  let i := clampInt (-4000) 4000 corrected
  { r with
    offset := offset
    sensorFault := if capture then !ok else r.sensorFault
    current := i
    saturated := c.beyond || decide (i ≠ corrected) }

/-- R28, R30: one channel's figures are delivered; a failed capture raises SENSOR. -/
def State.deliverChannel (s : State) (total : Nat) (capture : Bool) (c : Channel) : State :=
  let t := s.updStr c.string fun r => r.deliver c total capture
  if capture && !captureOk (c.sum.tdiv (total : Int)) c.beyond then t.raiseStr .sensor c.string else t

/-- R31: a temperature input from a reading in tenths of a degree. -/
def tempOf (tenths : Int) : Option Int :=
  if -550 ≤ tenths ∧ tenths ≤ 1500 then some (tenths.tdiv 10) else none

/-- The temperature input a group source names: 0 for T1 to 3 for T4. -/
def inputOf : TempSource → Option Nat
  | .none => none
  | .t1 => some 0
  | .t2 => some 1
  | .t3 => some 2
  | .t4 => some 3
  | .external => none

/-- R32: whether input `k` is ABSENT and named by a group. -/
def missingSource (temps : List (Option Int)) (groups : List GroupRec) (k : Nat) : Bool :=
  (temps.getD k none).isNone && groups.any (fun g => inputOf g.cfg.source == some k)

/-- R31, R32: the temperature inputs take the round's readings; TEMP_STALE is raised when one becomes a missing
source. -/
def State.deliverTemps (s : State) (readings : List Int) : State :=
  let temps := readings.map tempOf
  let missing := [0, 1, 2, 3].map (missingSource temps s.peer.groups)
  let newly := (missing.zip s.scan.missing).any (fun x => x.1 && !x.2)
  let t := s.setScan { s.scan with temps := temps, missing := missing }
  if newly then t.raiseBox .tempStale else t

/-- R22: the round counter rises and the scan unit's figures are delivered. -/
def State.deliverRound (s : State) (r : Round) : State :=
  let t := s.setScan { s.scan with
    round := none
    counter := s.scan.counter + 1
    completed := true
    bus := (clampInt 0 16000 (r.busSum.tdiv (r.total : Int))).toNat }
  let u := r.channels.foldl (fun acc c => acc.deliverChannel r.total r.capture c) t
  u.deliverTemps r.temps

/-! ## External temperatures (R33) -/

/-- An external temperature one second later; the age stops at 900 s (log 17). -/
def ExtTemp.second : ExtTemp → ExtTemp
  | .none => .none
  | .valid v age => .valid v (min 900 (age + 1))
  | .stale v => .stale v

/-- R33, R88: a second elapses. -/
def State.secondElapsed (s : State) : State :=
  let t := s.setPart { s.part with seconds := s.part.seconds + 1, now := max s.part.now ((s.part.seconds + 1) * 1000) }
  let u := t.setCell { t.cell with heat := t.cell.heat - 1 }
  u.setScan { u.scan with ext := u.scan.ext.map ExtTemp.second }

/-- R33: an external temperature whose age has reached 900 s. -/
def State.extStale (s : State) (g : Nat) : State :=
  match getNum s.scan.ext g with
  | some (.valid v age) =>
    if 900 ≤ age then
      let t := s.setScan { s.scan with ext := updNum (fun _ => .stale v) s.scan.ext g }
      match s.grp g with
      | some r => if r.cfg.source = .external then t.raiseBox .tempStale else t
      | none => t
    else s
  | _ => s

end Sys2Proof.Machine
end

