-- ==== Sys2Proof/Machine/Judgement.lean ====
section
/-! DEFINITION. What a round completion does with the scan unit's figures: the peer comparison (chapter 3), the fault
criteria (chapter 4), and the order of the blocks' work (R3, R22, R78, R115). -/

namespace Sys2Proof.Machine

/-! ## Peer comparison (R40 to R47) -/

/-- R41: the normalized current. -/
def normalized (current : Int) (rated : Nat) : Int := clampInt (-2000) 2000 (roundDiv (current * 1000) (rated : Int))

/-- R41: a used string receives n; an unused string's n is not computed. -/
def StringRec.normalize (r : StringRec) : StringRec :=
  if r.cfg.used then { r with n := normalized r.current r.cfg.rated } else r

/-- R42: whether a string is a member of group `g`. -/
def StringRec.memberOf (r : StringRec) (g : Nat) : Bool := r.cfg.used && r.cfg.group == g && g != 0

/-- R43: whether a member is eligible; `fresh` says that the scan unit delivered it a figure at this completion. -/
def StringRec.isEligible (r : StringRec) (fresh : Bool) : Bool :=
  r.onBus && !r.saturated && !r.sensorFault && decide (0 ≤ r.n) && fresh

/-- R44, R45: the reference of the eligible members' n values. -/
def referenceOf (values : List Nat) : Option Nat := if 3 ≤ values.length then some (median values) else none

/-- R45, R46: whether a group is lit. -/
def litOf (reference : Option Nat) (floor : Nat) : Bool :=
  match reference with
  | none => false
  | some r => decide (floor ≤ r)

/-- R42 to R46: group `g`'s record from its members; each string comes with its freshness. -/
def GroupRec.refer (r : GroupRec) (g floor : Nat) (strings : List (StringRec × Bool)) : GroupRec :=
  let eligible := strings.filter fun x => x.1.memberOf g && x.1.isEligible x.2
  let reference := referenceOf (eligible.map fun x => x.1.n.toNat)
  { r with
    members := (strings.filter fun x => x.1.memberOf g).length
    eligible := eligible.length
    reference := reference
    lit := litOf reference floor }

/-- R47: the performance index of a string, from its group's record. -/
def StringRec.index (r : StringRec) (fresh : Bool) (group : Option GroupRec) : Option Nat :=
  match group with
  | none => none
  | some g =>
    match g.reference with
    | none => none
    | some ref =>
      if g.lit && r.isEligible fresh then some (clampInt 0 4000 (roundDiv (r.n * 1000) (ref : Int))).toNat else none

/-- R42: member counts as the string table now gives them. -/
def State.recount (s : State) : State :=
  s.setPeer { s.peer with
    groups := mapNum (fun g (r : GroupRec) => { r with members := (s.strings.filter (·.memberOf g)).length }) 1
      s.peer.groups }

/-- R40, stages 1 to 4: n, the group records and p, from the strings delivered a fresh figure. -/
def State.compare (s : State) (fresh : List Nat) : State :=
  let strings := s.strings.map (·.normalize)
  let marked := mapNum (fun n r => (r, fresh.contains n)) 1 strings
  let groups := mapNum (fun g (r : GroupRec) => r.refer g s.box.daylightFloor marked) 1 s.peer.groups
  let indexed := marked.map fun x =>
    if x.1.cfg.used then { x.1 with p := x.1.index x.2 (getNum groups x.1.cfg.group) } else x.1
  (s.setStrings indexed).setPeer { s.peer with groups := groups }

/-- R50: whether the round just compared is dark. -/
def State.darkRound (s : State) : Bool :=
  s.peer.groups.all (fun g => !g.lit) &&
    s.strings.all fun r =>
      !(r.cfg.used && r.cfg.group == 0 && r.onBus && !r.sensorFault) || decide (r.n < (s.box.daylightFloor : Int))

/-- R52: the box enters NIGHT; the capture order, DAYLIGHT, and the probe unit's abort (R126). -/
def State.enterNight (s : State) : State :=
  let t := s.setPeer { s.peer with night := true, dark := 0 }
  ((t.setScan { t.scan with pendingCapture := true }).raiseBox .daylight).abortKeeping

/-- R53, R147: a day starts; every used string's budget is restored and DAYLIGHT is raised. That the restoration comes before
the recurrence test (R131) of the same completion's requests is the model's reading (log 45). -/
def State.startDay (s : State) : State :=
  let t := s.setPeer { s.peer with night := false, dark := 0, day := s.peer.day + 1 }
  (t.updAll fun r => if r.cfg.used then { r with budget := s.box.perDayMax } else r).raiseBox .daylight

/-- R51 to R53, R55: stage 5 of the comparison. -/
def State.decideDay (s : State) : State :=
  if s.peer.night then
    if s.darkRound then s else s.startDay
  else if s.darkRound then
    if s.box.nightRounds ≤ s.peer.dark + 1 then s.enterNight
    else s.setPeer { s.peer with dark := s.peer.dark + 1 }
  else s.setPeer { s.peer with dark := 0 }

/-- R126: a probe in flight on a grouped string whose group has been published unlit is aborted, its entry kept. -/
def State.abortUnlit (s : State) : State :=
  match s.probe.flight with
  | none => s
  | some f => if s.skyFor f.string then s else s.abortKeeping

/-- R125: the waiting-for-round flags are cleared. -/
def State.clearWaiting (s : State) : State :=
  s.setProbe { s.probe with list := s.probe.list.map fun e => { e with waiting := false } }

/-! ## Fault criteria (R57 to R65) -/

/-- R58: a run counter after a round in which its criterion runs. -/
def runAfter (run limit : Nat) (condition : Bool) : Nat := if condition then min limit (run + 1) else 0

/-- R63: the watch level. -/
def watchLevel (g : GroupSettings) : Nat := g.trip / 2
/-- R63: the release level. -/
def releaseLevel (g : GroupSettings) : Nat := g.trip / 4

/-- R62: the bucket after a round in which the deficit criterion runs. -/
def bucketAfter (bucket p deficit leak : Nat) : Nat :=
  if p < deficit then min 65535 (bucket + (deficit - p)) else bucket - leak

/-- R64: the alarm after a round in which the bucket was raised or lowered. -/
def alarmAfter (alarm : Bool) (bucket : Nat) (g : GroupSettings) : Bool :=
  if alarm = false ∧ g.trip ≤ bucket then true
  else if alarm = true ∧ bucket < releaseLevel g then false
  else alarm

/-- What the fault monitor makes of one string: its record, the cause of its request (R69), and whether the alarm was
set (R64). -/
structure Judgement where
  figures : StringRec
  cause : Option ReqCause
  alarmed : Bool
  deriving DecidableEq, Repr

/-- R57: whether a used string is judged. -/
def StringRec.judged (r : StringRec) (mode : Mode) : Bool :=
  r.cfg.used && mode == .run && r.onBus && !r.sensorFault

/-- R57 to R65, R69: one judged string, with its group's record as just published. -/
def StringRec.judge (r : StringRec) (box : BoxSettings) (night : Bool) (group : Option GroupRec) : Judgement :=
  let reverse := runAfter r.reverseRun 2 (decide (r.current ≤ -(box.reverseLimit : Int)))
  let exceeded := if night then r.overRun else runAfter r.overRun 3 (decide ((box.overLimit : Int) ≤ r.n))
  let bright := match group with
    | none => false
    | some g => !night && g.lit && (match g.reference with | none => false | some ref => decide (200 ≤ ref))
  let openRun := if bright then runAfter r.openRun 3 (decide (r.n ≤ 10)) else r.openRun
  let acted : Option (GroupSettings × Nat) := match group, r.p with
    | some g, some p => if !night && g.lit then some (g.cfg, p) else none
    | _, _ => none
  let bucket := match acted with
    | none => r.bucket
    | some (g, p) => bucketAfter r.bucket p g.deficit g.leak
  let alarm := match acted with
    | none => r.alarm
    | some (g, _) => alarmAfter r.alarm bucket g
  let alarmed := !r.alarm && alarm
  let policy := match acted with
    | none => false
    | some (g, _) => g.policy == .isolate
  let cause : Option ReqCause :=
    if reverse = 2 then some .reverse
    else if night = false ∧ exceeded = 3 then some .overCurrent
    else if bright = true ∧ openRun = 3 then some .openString
    else if alarmed = true ∧ policy = true then some .deficit
    else none
  ⟨{ r with reverseRun := reverse, overRun := exceeded, openRun := openRun, bucket := bucket, alarm := alarm }, cause, alarmed⟩

/-- R57: the fault monitor's answer for one string, judged or held. -/
def StringRec.monitor (r : StringRec) (mode : Mode) (box : BoxSettings) (night : Bool) (group : Option GroupRec) :
    Judgement :=
  if r.judged mode then r.judge box night group else ⟨r, none, false⟩

/-- The fault monitor's answers for all strings, in ascending number. -/
def State.judgements (s : State) : List Judgement :=
  s.strings.map fun r => r.monitor s.mode s.box s.peer.night (s.grp r.cfg.group)

/-- R57 to R65: every string's figures are written and DEFICIT is raised for each alarm set. -/
def State.applyJudgements (s : State) (js : List Judgement) : State :=
  let alarms := (mapNum (fun n (j : Judgement) => (n, j.alarmed)) 1 js).filter (·.2)
  alarms.foldl (fun acc x => acc.raiseStr .deficit x.1) (s.setStrings (js.map (·.figures)))

/-- R69: the cause of the completion's request for string `n`, if its judgement gives one. -/
def causeOf (js : List Judgement) (n : Nat) : Option ReqCause := (getNum js n).bind (·.cause)

/-- R69: the completion's request for string `n`. -/
def State.makeRequest (s : State) (js : List Judgement) (n : Nat) : State :=
  match causeOf js n with
  | none => s
  | some c => s.request n c

/-! ## The string controller's decisions (R10, R14) -/

/-- R10: the SUSPECT test of one string, with its group's settings. -/
def StringRec.suspectTest (r : StringRec) (group : Option GroupRec) : StringRec :=
  let counting := decide (r.reverseRun ≠ 0) || decide (r.overRun ≠ 0) || decide (r.openRun ≠ 0)
  let high := match group with | none => false | some g => decide (watchLevel g.cfg ≤ r.bucket)
  let low := match group with | none => true | some g => decide (r.bucket < releaseLevel g.cfg)
  if r.state = .connected ∧ (counting || high) = true then { r with state := .suspect }
  else if r.state = .suspect ∧ (!counting && low) = true then
    { r with state := .connected, cause := none, verdict := none }
  else r

/-- R10: the SUSPECT test of every string. -/
def State.suspectTests (s : State) : State := s.updAll fun r => r.suspectTest (s.grp r.cfg.group)

/-- R102: whether string `n`'s position disagrees with the position its state implies. -/
def State.disagrees (s : State) (n : Nat) : Bool :=
  let r := s.str n
  r.cfg.used && r.op.isNone && (match r.state, r.position with
    | .connected, .opened => true
    | .suspect, .opened => true
    | .isolated, .closed => true
    | .lockedOut, .closed => true
    | .stuckClosed, .opened => true
    | _, _ => false)

/-- The events of a completion: the requests made (1 to 24) and the discrepancies found (25 to 48). -/
def State.eventsDue (s : State) (js : List Judgement) : List Nat :=
  Config.eventNumbers.filter fun k => if k ≤ 24 then (causeOf js k).isSome else s.disagrees (k - 24)

/-- R70: one event of a completion reaches the string controller, which answers it by the string's state of that moment. -/
def State.controllerEvent (js : List Judgement) (s : State) (k : Nat) : State :=
  if k ≤ 24 then s.makeRequest js k else s.discrepancy (k - 24)

/-- R10, R70, R75, R102: the SUSPECT tests, then the requests and discrepancies of one completion in the order in which they
arrive, which is free (log 9). -/
def State.controllerTurn (s : State) (js : List Judgement) : State :=
  let t := s.suspectTests
  ((arranged (Config.completionOrder t.free.draws) (t.eventsDue js)).foldl (State.controllerEvent js) t).drawn

/-! ## A round completion (R22) -/

/-- R22, R40: the scan unit's and the peer comparator's part of a completion. -/
def State.published (s : State) (r : Round) : State :=
  ((s.deliverRound r).compare (r.channels.map (·.string))).decideDay

/-- R23, R24: a day/night change changes the round period, which takes effect at once. -/
def State.newPeriod (s : State) (before : State) : State :=
  if s.peer.night = before.peer.night then s else s.recheckSource

/-- R22: a round completion. After the figures are published the probe unit's flags and aborts, the fault monitor, the
string controller, the isolator's comparison (before the walk, log 40), the service walk (R78) and the probe unit's look
for work (R115), which comes after the string controller and the walk (log 43). -/
def State.completeRound (s : State) (r : Round) : State :=
  let t := ((s.published r).newPeriod s).clearWaiting.abortUnlit
  let js := t.judgements
  (((t.applyJudgements js).controllerTurn js).isolatorCompared.walk).lookForWork

/-- R21: a sample set is taken in the round in progress; the last one completes it. -/
def State.takeSet (s : State) (set : SampleSet) : State :=
  match s.scan.round with
  | none => s
  | some r =>
    let q := r.add set
    let t := s.reach (s.scan.lastStart + 5 * q.taken)
    if q.taken < q.total then t.setScan { t.scan with round := some q } else t.completeRound q

end Sys2Proof.Machine
end

