-- ==== Sys2Proof/Machine/Flags.lean ====
section
/-! DEFINITION. The flags of a reply (R170, R188) and the levels of the output pins, which are functions of the state
(log 33). -/

namespace Sys2Proof.Machine

/-! ## Reply flags -/

/-- The ACTIVE flag (R170): a break in flight, a CLOSING string, a probe or check in flight, or a store write. -/
def State.active (s : State) : Bool :=
  !s.sched.breaks.isEmpty || s.strings.any (fun r => r.state == .closing) || s.probe.flight.isSome ||
    s.store.writing.isSome

/-- The flags byte (R188): ALERT, RUN, SUPERVISED, ACTIVE and NIGHT at bits 0 to 4. -/
def State.replyFlags (s : State) : Byte :=
  marksByte [!s.attention.isEmpty, s.mode == .run, s.supervised, s.active, s.peer.night]

/-! ## Output pins -/

/-- ALERT (R166): asserted exactly while the attention set is non-empty, and not driven without supply. -/
def State.alertLine (s : State) : Bool := s.powered && !s.attention.isEmpty

/-- The gate of the commutation cell, on in CONDUCTING alone (R82). -/
def State.gateDrive (s : State) : Bool := s.powered && s.cell.stage == .conducting

/-- The tap relay driven to the cell, if any (R83, R90, R91). -/
def State.tapDrive (s : State) : Option Nat :=
  match s.cell.stage with
  | .attaching => s.cell.served
  | .conducting => s.cell.served
  | .quenching => s.cell.served
  | .faulted =>
    match s.cell.fault with
    | some f => if f.stage = .quenching ∧ s.cell.releasing = false then s.cell.served else none
    | none => none
  | .idle => none
  | .detaching => none
  | .resting => none
  | .hot => none

/-- String `n`'s open coil (R98). -/
def State.openCoil (s : State) (n : Nat) : Bool :=
  match (s.str n).op with
  | some (.opening _ _) => true
  | some (.closing _ _ _) => false
  | none => false

/-- String `n`'s close coil (R98). -/
def State.closeCoil (s : State) (n : Nat) : Bool :=
  match (s.str n).op with
  | some (.closing _ _ _) => true
  | some (.opening _ _) => false
  | none => false

/-- The isolator's open drive (R104). -/
def State.isolatorOpenDrive (s : State) : Bool := s.isolator.state == .opening

/-- The isolator's close drive (R104). -/
def State.isolatorCloseDrive (s : State) : Bool := s.isolator.state == .closing

/-- The stage of the probe in flight while its probe tap is driven (R116). -/
def State.probeTap (s : State) : Option (Nat × ProbeStage) :=
  match s.probe.flight with
  | none => none
  | some f => if f.stage = .release then none else some (f.string, f.stage)

/-- The bias that pulls the positive pole (R116). -/
def State.positiveBias (s : State) : Bool :=
  match s.probeTap with
  | some (_, .p2) => true
  | _ => false

/-- The bias that pulls the negative pole (R116). -/
def State.negativeBias (s : State) : Bool :=
  match s.probeTap with
  | some (_, .p3) => true
  | _ => false

/-- The transceiver's driver enable (R170). -/
def State.driverEnable (s : State) : Bool := s.link.rx == .replying

end Sys2Proof.Machine
end

