-- ==== Sys2Proof/Machine/Probing.lean ====
section
/-! DEFINITION. The probe unit's stages and readings, the diagnose probe, the voltage test and the pre-close check
(chapter 7), what a verdict leads to (R16, R17, R128), and the close order (R100, R129). -/

namespace Sys2Proof.Machine

/-! ## Readings (R116) -/

/-- R116: eight samples of one pole-to-earth channel reduced to a reading. -/
def poleReading (samples : List Word16) : Int :=
  clampInt (-16000) 16000 ((samples.foldl (fun (acc : Int) (x : Word16) => acc + x.toInt) 0).tdiv 8)

/-- The near-earth marks of a reading: (positive near, negative near). -/
def Poles.marks (p : Poles) (threshold : Nat) : Bool × Bool :=
  (decide (p.vp.natAbs < threshold), decide (p.vn.natAbs < threshold))

/-- The pole-to-pole voltage Vpn. -/
def Poles.vpn (p : Poles) : Int := p.vp - p.vn

/-! ## Classification (R117) -/

/-- What a pattern of six marks says. -/
inductive Pattern where
  | intact
  | verdict (v : Verdict)
  | inconsistent
  deriving DecidableEq, Repr

/-- R117: the classification of the pattern. -/
def classify (grouped : Bool) (m1 m2 m3 : Bool × Bool) : Pattern :=
  match m1, m2, m3 with
  | (false, false), (false, true), (true, false) => .intact
  | (false, true), (false, true), (false, true) => .verdict .earthNeg
  | (true, false), (true, false), (true, false) => .verdict .earthPos
  | (false, false), (false, false), (false, false) => .verdict .earthMid
  | (true, true), (false, true), (true, false) => .verdict (if grouped then .openCircuit else .unresolved)
  | (true, true), (false, false), (false, false) => .verdict .poleShort
  | _, _, _ => .inconsistent

/-! ## The voltage test (R119 to R122) -/

/-- A verdict with its further figures. -/
structure Finding where
  verdict : Verdict
  missing : Option Nat
  position : Option Nat
  deriving DecidableEq, Repr

/-- R121: the expected open-circuit voltage in 0.1 V. -/
def expectedVoltage (modules voc25 : Nat) (beta tg : Int) : Int :=
  roundDiv ((modules : Int) * (voc25 : Int) * (10000 + beta * (tg - 25))) 10000

/-- R119: the ratio q. -/
def voltageRatio (vpn expected : Int) : Int := clampInt 0 2000 (roundDiv (vpn * 1000) expected)

/-- R119: the missing-module count of a DEGRADED string. -/
def missingModules (modules : Nat) (q : Int) : Nat :=
  (clampInt 1 (modules : Int) (roundDiv ((modules : Int) * (1000 - q)) 1000)).toNat

/-- R119: the verdict of an intact pattern. -/
def voltageTest (modules voc25 : Nat) (beta tg vpn : Int) : Finding :=
  if vpn ≤ 0 then ⟨.miswired, none, none⟩
  else
    let q := voltageRatio vpn (expectedVoltage modules voc25 beta tg)
    if q < 900 then ⟨.degraded, some (missingModules modules q), none⟩
    else if q ≤ 1100 then ⟨.healthy, none, none⟩
    else ⟨.miswired, none, none⟩

/-- R122: the fault position of an EARTH_MID string, in modules from the negative pole. -/
def earthPosition (modules : Nat) (p : Poles) : Option Nat :=
  if modules < 2 then none
  else
    let x : Int := if p.vp = p.vn then 1 else roundDiv ((modules : Int) * (-p.vn)) (p.vp - p.vn)
    some (clampInt 1 ((modules : Int) - 1) x).toNat

/-- The temperature of a T1 to T4 input for a probe (R120). -/
def inputTemperature (temps : List (Option Int)) (k : Nat) : Int :=
  match temps.getD k none with
  | none => 25
  | some v => clampInt (-40) 90 v

/-- R120: the group temperature Tg and βv of a string, from its group's configuration. An ungrouped string has no
βv; at Tg 25 none enters R121. -/
def State.groupTemperature (s : State) (n : Nat) : Int × Int :=
  match s.grp (s.str n).cfg.group with
  | none => (25, 0)
  | some g =>
    let tg : Int := match g.cfg.source with
      | .none => 25
      | .t1 => inputTemperature s.scan.temps 0
      | .t2 => inputTemperature s.scan.temps 1
      | .t3 => inputTemperature s.scan.temps 2
      | .t4 => inputTemperature s.scan.temps 3
      | .external =>
        match getNum s.scan.ext (s.str n).cfg.group with
        | some (.valid v _) => v
        | some .none => 25
        | some (.stale _) => 25
        | none => 25
    (tg, g.cfg.beta)

/-! ## What a verdict leads to (R16, R17, R128) -/

/-- R5: the locking verdicts. -/
def locking : Verdict → Bool
  | .earthPos => true
  | .earthNeg => true
  | .earthMid => true
  | .poleShort => true
  | .healthy => false
  | .degraded => false
  | .miswired => false
  | .openCircuit => false
  | .unresolved => false

/-- R128: the causes that lead to automatic reconnection. -/
def passingCause : Option Cause → Bool
  | some (.req .overCurrent) => true
  | some (.req .openString) => true
  | some (.req .deficit) => true
  | some .externalOpen => true
  | some .restart => true
  | some (.req .reverse) => false
  | some (.req .manual) => false
  | some (.req .shutdown) => false
  | some (.req .lockoutEnforce) => false
  | none => false

/-- R128: the conditions of an automatic reconnection, at the report. -/
def State.mayReconnect (s : State) (n : Nat) : Bool :=
  let r := s.str n
  r.state == .isolated && passingCause r.cause && s.mode == .run && s.supervised && !s.shutdown.asserted &&
    decide (1 ≤ r.budget)

/-- R128: an automatic reconnection starts: the budget falls by 1 and a PRE_CLOSE entry of origin AUTO is placed. -/
def State.reconnectAuto (s : State) (n : Nat) : State :=
  if s.mayReconnect n then (s.updStr n fun r => { r with budget := r.budget - 1 }).place n .preClose .auto else s

/-- R17: a lockout record is added unless the string holds one, and a store write is requested for the addition. -/
def State.addLockout (s : State) (n : Nat) (v : Verdict) : State :=
  if s.locked n then s
  else (s.setLockouts (s.lockouts ++ [⟨n, v, s.peer.day⟩])).requestWrite

/-- R16: a locking verdict. -/
def State.lockOut (s : State) (n : Nat) (v : Verdict) : State :=
  ((s.addLockout n v).raiseStr .locked n).updStr n fun r =>
    { r with state := if r.state = .isolated then .lockedOut else r.state }

/-- R16: the string controller's answer to a verdict. -/
def State.verdictReported (s : State) (n : Nat) (f : Finding) : State :=
  let t := (s.updStr n fun r =>
    { r.editRecord (fun q => { q with verdict := some f.verdict, missing := f.missing, position := f.position }) with
      verdict := some f.verdict }).raiseStr .verdict n
  if locking f.verdict then t.lockOut n f.verdict
  else if f.verdict = .healthy then t.reconnectAuto n
  else t

/-! ## Stages (R116) -/

/-- The probe in flight replaced. -/
def State.setFlight (s : State) (f : Option ProbeFlight) : State := s.setProbe { s.probe with flight := f }

/-- String `n`'s entry leaves the list (R113). -/
def State.dropEntry (s : State) (n : Nat) : State :=
  s.setProbe { s.probe with list := s.probe.list.filter (fun e => e.string != n) }

/-- RELEASE is entered now; the readings are dropped and a pass is held (R116, R124). -/
def State.enterRelease (s : State) (f : ProbeFlight) (pass : Bool) : State :=
  s.setFlight (some { f with
    stage := .release, sampling := false, p1 := none, p2 := none, pass := pass, since := s.part.now })

/-- R123: the verdict is formed: the entry leaves the list, the unit enters RELEASE and the verdict is reported. -/
def State.verdictFormed (s : State) (f : ProbeFlight) (finding : Finding) : State :=
  ((s.dropEntry f.string).enterRelease f false).verdictReported f.string finding

/-- R118: a first inconsistent pattern repeats the probe from P1; a second gives UNRESOLVED. -/
def State.inconsistent (s : State) (f : ProbeFlight) : State :=
  match s.entryOf f.string with
  | none => s.verdictFormed f ⟨.unresolved, none, none⟩
  | some e =>
    if e.attempts = 0 then
      (s.setProbe { s.probe with list := s.probe.list.map fun x =>
        if x.string = f.string then { x with attempts := 1 } else x }).setFlight
          (some { f with stage := .p1, sampling := false, p1 := none, p2 := none, since := s.part.now })
    else s.verdictFormed f ⟨.unresolved, none, none⟩

/-- R117: the end of P3. -/
def State.diagnosed (s : State) (f : ProbeFlight) (p1 p2 p3 : Poles) : State :=
  match classify f.grouped (p1.marks f.nearEarth) (p2.marks f.nearEarth) (p3.marks f.nearEarth) with
  | .intact => s.verdictFormed f (voltageTest f.modules f.voc25 f.beta f.tg p1.vpn)
  | .verdict .earthMid => s.verdictFormed f ⟨.earthMid, none, earthPosition f.modules p1⟩
  | .verdict v => s.verdictFormed f ⟨v, none, none⟩
  | .inconsistent => s.inconsistent f

/-- R125: a failed check: the entry waits for a round, or leaves the list at the close-attempt limit. -/
def State.checkFailed (s : State) (n : Nat) : State :=
  match s.entryOf n with
  | none => s
  | some e =>
    let t := s.updStr n fun r => r.editRecord fun q => { q with closeFailed := min 20 (q.closeFailed + 1) }
    if e.attempts + 1 < s.box.attemptLimit then
      t.setProbe { t.probe with list := t.probe.list.map fun x =>
        if x.string = n then { x with attempts := x.attempts + 1, waiting := true } else x }
    else (t.dropEntry n).raiseStr .closeFailed n

/-- R124: the check's P1 reading is compared with the bus voltage. -/
def State.checked (s : State) (f : ProbeFlight) (p : Poles) : State :=
  if (s.scan.bus : Int) + (f.closeMargin : Int) ≤ p.vpn then s.enterRelease f true
  else (s.enterRelease f false).checkFailed f.string

/-- R116: the settle time of P1, P2 or P3 ends and the sampling starts. -/
def State.settled (s : State) : State :=
  match s.probe.flight with
  | none => s
  | some f =>
    if f.stage = .release ∨ f.sampling = true then s
    else (s.reach (f.since + f.settle)).setFlight (some { f with sampling := true })

/-- R116: a reading is taken and the next configuration applied, or the probe or check judged. A reading before the
settle time's end is disregarded (log 36). -/
def State.reading (s : State) (vp vn : List Word16) : State :=
  match s.probe.flight with
  | none => s
  | some f =>
    if f.sampling = false then s
    else
      let t := s.reach (f.since + f.settle + 8)
      let p : Poles := ⟨poleReading vp, poleReading vn⟩
      match f.stage, f.purpose, f.p1, f.p2 with
      | .p1, .preClose, _, _ => t.checked f p
      | .p1, .diagnose, _, _ =>
        let g := t.groupTemperature f.string
        t.setFlight (some { f with
          stage := .p2, sampling := false, p1 := some p, tg := g.1, beta := g.2, since := t.part.now })
      | .p2, _, _, _ =>
        t.setFlight (some { f with stage := .p3, sampling := false, p2 := some p, since := t.part.now })
      | .p3, _, some p1, some p2 => t.diagnosed f p1 p2 p
      | .p3, _, _, _ => s
      | .release, _, _, _ => s

/-! ## The close order (R98, R100, R129) -/

/-- R100: the close pulse starts and the string becomes CLOSING; a position already CLOSED ends it at once (R98). -/
def State.startClose (s : State) (n : Nat) (origin : Origin) : State :=
  if (s.str n).position = .closed then
    (s.updStr n fun r => { r with state := .closing }).closeConfirmed n origin
  else s.updStr n fun r =>
    { r with state := .closing, op := some (.closing origin s.part.now s.box.contactTimeout) }

/-- R100, R129: a pass orders the close. The entry leaves the list; the pulse starts unless the shutdown line is
asserted, or the entry is of origin AUTO and the mode is SETUP or supervision is not SUPERVISED. -/
def State.closeOrder (s : State) (n : Nat) (origin : Origin) : State :=
  let t := s.dropEntry n
  if s.shutdown.asserted = true ∨ (origin = .auto ∧ (s.mode = .setup ∨ s.supervised = false)) then t
  else t.startClose n origin

/-- R116: the 20 ms RELEASE ends and with it the probe in flight; a held pass orders the close; the unit looks for
work. -/
def State.released (s : State) : State :=
  match s.probe.flight with
  | none => s
  | some f =>
    if f.stage = .release then
      let t := (s.reach (f.since + 20)).setFlight none
      (if f.pass then t.closeOrder f.string f.origin else t).lookForWork
    else s

end Sys2Proof.Machine
end

