-- ==== Sys2Proof/Machine/Supervise.lean ====
section
/-! DEFINITION. The supervision timer (section 10.2), the clearing of the attention set (section 10.3) and the shutdown
monitor (section 9.1). -/

namespace Sys2Proof.Machine

/-! ## The supervision timer (R155 to R161) -/

/-- R159, R160: the supervision lapse. -/
def State.lapse (s : State) : State :=
  ((s.setSupervision { s.supervision with state := .lapsed }).raiseBox .supervisionLapsed).withdrawAllPreClose

/-- R156: the moment at which the long window expires. -/
def State.longDue (s : State) : Nat := s.supervision.longStart + s.box.longWindow * 1000

/-- R158: the moment at which the open window expires. -/
def State.openDue (s : State) : Nat := s.supervision.lastBeat + (s.box.closedWindow + s.box.openWindow) * 1000

/-- R156: the long window expires in WAITING. -/
def State.longExpired (s : State) : State :=
  if s.powered = true ∧ s.supervision.state = .waiting then (s.reach s.longDue).lapse else s

/-- R158: the open window expires in SUPERVISED. -/
def State.openExpired (s : State) : State :=
  if s.powered = true ∧ s.supervision.state = .supervised then (s.reach s.openDue).lapse else s

/-- R161: an accepted BOX_CONFIG has changed window values from those of `old`. -/
def State.recheckWindows (s : State) (old : BoxSettings) : State :=
  match s.supervision.state with
  | .waiting => if s.box.longWindow ≠ old.longWindow ∧ s.longDue ≤ s.part.now then s.lapse else s
  | .supervised =>
    if (s.box.closedWindow ≠ old.closedWindow ∨ s.box.openWindow ≠ old.openWindow) ∧ s.openDue ≤ s.part.now then s.lapse
    else s
  | .lapsed => s

/-- How the supervision timer judges a heartbeat. -/
inductive BeatResult where
  | accepted
  | early
  | token
  | unsupervised
  deriving DecidableEq, Repr

/-- R156 to R159: the judgement of a heartbeat that arrives now. A heartbeat strictly after its window's end finds the
expiry taken (log 18). -/
def State.judgeBeat (s : State) (token : Word16) : BeatResult :=
  match s.supervision.state with
  | .lapsed => .unsupervised
  | .waiting => if s.part.now ≤ s.longDue then .accepted else .unsupervised
  | .supervised =>
    if s.part.now < s.supervision.lastBeat + s.box.closedWindow * 1000 then .early
    else if s.part.now ≤ s.openDue then
      (if s.supervision.token.map (fun t => ~~~t) = some token then .accepted else .token)
    else .unsupervised

/-- R156 to R159: the effect of a heartbeat. -/
def State.heartbeat (s : State) (token : Word16) : State :=
  match s.judgeBeat token with
  | .accepted => s.setSupervision { s.supervision with
      state := .supervised, token := some token, lastBeat := s.part.now }
  | .early => s.lapse
  | .token => s.lapse
  | .unsupervised => if s.supervision.state = .lapsed then s else s.lapse

/-- Box status (12.4): the seconds remaining in the running window, rounded up. -/
def State.secondsRemaining (s : State) : Nat :=
  match s.supervision.state with
  | .waiting => ceilDiv (s.longDue - s.part.now) 1000
  | .supervised => ceilDiv (s.openDue - s.part.now) 1000
  | .lapsed => 0

/-! ## Clearing the attention set (R159, R165) -/

/-- R165: the items that the mask names leave the set; the removal of SUPERVISION_LAPSED ends LAPSED (R159). -/
def State.clearAttention (s : State) (mask : List Byte) : State :=
  let t := s.setAttention (s.attention.filter fun i => !maskNames mask i)
  if s.supervision.state = .lapsed ∧ Item.box .supervisionLapsed ∈ s.attention ∧
      maskNames mask (.box .supervisionLapsed) = true then
    t.setSupervision { t.supervision with state := .waiting, token := none, longStart := s.part.now }
  else t

/-! ## The shutdown monitor (R142 to R145) -/

/-- R142: a change of level on the line restarts the filter's timing. -/
def State.lineChanges (s : State) (low : Bool) : State :=
  s.setShutdown { s.shutdown with lineLow := low, since := s.part.now }

/-- R142: a level that has held for 20 ms (log 26). -/
def State.lineHeld (s : State) (low : Bool) : State :=
  if s.shutdown.lineLow = low then s.reach (s.shutdown.since + 20) else s.lineChanges low

/-- R11: whether a SHUTDOWN request finds a string in a state in which it does something. -/
def StringRec.meetsShutdown (r : StringRec) : Bool :=
  r.state == .connected || r.state == .suspect || r.state == .queued || r.state == .closing

/-- R143: the SHUTDOWN requests of an assertion, in the order in which they arrive, which is free (log 8). R11 discards
those that find a string in another state. -/
def State.shutdownRequests (s : State) : State :=
  ((arranged (Config.arrivalOrder s.free.draws) (Config.stringNumbers.filter fun n => (s.str n).meetsShutdown)).foldl
    (fun acc n => acc.request n .shutdown) s).drawn

/-- R143: an assertion, handed to the contact driver, the string controller, the probe unit and the attention unit, in
that order (log 41). -/
def State.assertShutdown (s : State) : State :=
  let t := (s.setShutdown { s.shutdown with asserted := true }).openRequest.shutdownRequests
  (t.abortKeeping.withdrawAllPreClose).raiseBox .shutdown

/-- R145: a release. -/
def State.releaseShutdown (s : State) : State :=
  ((s.setShutdown { s.shutdown with asserted := false }).raiseBox .shutdown).lookForWork

/-- R142, R143: a low level is taken. -/
def State.lowTaken (s : State) : State :=
  let t := s.lineHeld true
  if s.powered = true ∧ s.shutdown.asserted = false then t.assertShutdown else t

/-- R142, R145: a high level is taken. -/
def State.highTaken (s : State) : State :=
  let t := s.lineHeld false
  if s.powered = true ∧ s.shutdown.asserted = true then t.releaseShutdown else t

end Sys2Proof.Machine
end

