-- ==== Sys2Proof/Machine/Replies.lean ====
section
/-! DEFINITION. Message kinds, outcomes, and the reply frame with its CRC (R169 to R171, R188). -/

namespace Sys2Proof.Machine

/-! ## Kinds and outcomes (R188) -/

/-- The message kinds (R188). -/
inductive Kind where
  | identify
  | boxStatus
  | stringRead
  | groupRead
  | queueRead
  | probeListRead
  | attentionRead
  | configRead
  | attentionClear
  | heartbeat
  | temperature
  | isolate
  | reconnect
  | probe
  | release
  | restore
  | boxOutput
  | cellRestore
  | mode
  | stringConfig
  | groupConfig
  | boxConfig
  | linkConfig
  | store
  | restart
  deriving DecidableEq, Repr

/-- R188: the code of a kind. -/
def Kind.code : Kind → Byte
  | .identify => 0x01#8
  | .boxStatus => 0x02#8
  | .stringRead => 0x03#8
  | .groupRead => 0x04#8
  | .queueRead => 0x05#8
  | .probeListRead => 0x06#8
  | .attentionRead => 0x07#8
  | .configRead => 0x08#8
  | .attentionClear => 0x10#8
  | .heartbeat => 0x11#8
  | .temperature => 0x12#8
  | .isolate => 0x20#8
  | .reconnect => 0x21#8
  | .probe => 0x22#8
  | .release => 0x23#8
  | .restore => 0x24#8
  | .boxOutput => 0x25#8
  | .cellRestore => 0x26#8
  | .mode => 0x30#8
  | .stringConfig => 0x31#8
  | .groupConfig => 0x32#8
  | .boxConfig => 0x33#8
  | .linkConfig => 0x34#8
  | .store => 0x35#8
  | .restart => 0x3F#8

/-- The kinds in the order of their codes. -/
def kinds : List Kind :=
  [.identify, .boxStatus, .stringRead, .groupRead, .queueRead, .probeListRead, .attentionRead, .configRead,
    .attentionClear, .heartbeat, .temperature, .isolate, .reconnect, .probe, .release, .restore, .boxOutput,
    .cellRestore, .mode, .stringConfig, .groupConfig, .boxConfig, .linkConfig, .store, .restart]

/-- The kind a byte names (R171, test 1). -/
def Kind.ofCode (b : Byte) : Option Kind := kinds.find? fun k => k.code == b

/-- The outcomes of a request (R171). -/
inductive Reason where
  | accepted
  | format
  | unknownKind
  | range
  | mode
  | busy
  | state
  | locked
  | unsupervised
  | shutdown
  | conflict
  | token
  | early
  deriving DecidableEq, Repr

/-- R171: the code of an outcome. -/
def Reason.code : Reason → Byte
  | .accepted => 0x00#8
  | .format => 0x01#8
  | .unknownKind => 0x02#8
  | .range => 0x03#8
  | .mode => 0x04#8
  | .busy => 0x05#8
  | .state => 0x06#8
  | .locked => 0x07#8
  | .unsupervised => 0x08#8
  | .shutdown => 0x09#8
  | .conflict => 0x0A#8
  | .token => 0x0B#8
  | .early => 0x0C#8

/-- What a block answers to a request: an outcome and the reply's payload. -/
structure Reply where
  outcome : Reason
  payload : List Byte
  deriving DecidableEq, Repr

/-- A request's effect and answer. -/
abbrev Answer := State × Reply

/-- An accepted request with its payload. -/
def accept (s : State) (payload : List Byte) : Answer := (s, ⟨.accepted, payload⟩)

/-- A refused request: an empty payload (R170) and the state as it stood (R171). -/
def refuse (s : State) (reason : Reason) : Answer := (s, ⟨reason, []⟩)

/-! ## CRC (R169) -/

/-- R169: the CRC register after one bit shift of the generator x^16 + x^12 + x^5 + 1. -/
def crcShift (r : Word16) : Word16 := if r.msb then (r <<< 1) ^^^ 0x1021#16 else r <<< 1

/-- R169: the CRC register after one byte. -/
def crcByte (r : Word16) (b : Byte) : Word16 :=
  let x := r ^^^ (b ++ (0#8))
  crcShift (crcShift (crcShift (crcShift (crcShift (crcShift (crcShift (crcShift x)))))))

/-- R169: the CRC of a list of bytes; the register starts at all ones. -/
def crc16 (bytes : List Byte) : Word16 := bytes.foldl crcByte 0xFFFF#16

/-! ## The reply frame (R170, R188) -/

/-- R188: the reply frame, its flags as the state stands after the request's own effect. -/
def State.replyFrame (s : State) (kind : Byte) (r : Reply) : List Byte :=
  let body := [byteOf s.link.operating.address, kind + 0x80#8, r.outcome.code, s.replyFlags, byteOf r.payload.length] ++
    r.payload
  [0xD2#8] ++ body ++ bytes16 (crc16 body)

/-- R169, R170: the receiver enters REPLYING and the reply goes out. -/
def State.sendReply (s : State) (kind : Byte) (r : Reply) : State :=
  s.setLink { s.link with rx := .replying, reply := some (s.replyFrame kind r) }

/-- Whether a request can arrive (log 3): start-up is over and no reply is being sent (R149, R150, R168). -/
def State.listening (s : State) : Bool := s.running && s.link.rx != .replying

/-- A request of a kind arrives: its block acts and the reply is formed. -/
def State.answer (s : State) (kind : Byte) (handle : State → Answer) : State :=
  if s.listening then (handle s).1.sendReply kind (handle s).2 else s

end Sys2Proof.Machine
end

