-- ==== Sys2Proof/Machine/Queries.lean ====
section
/-! DEFINITION. The records of section 12.4 and the eight queries (R172 to R174). -/

namespace Sys2Proof.Machine

/-! ## Records (12.4) -/

/-- The last isolation record's part of a string record, offsets 31 to 44; zero bytes while it is absent. -/
def isoRecordBytes : Option IsoRecord → List Byte
  | none => List.replicate 14 0#8
  | some q =>
    [codeOfCause q.cause] ++ bytes32 q.round ++ bytes16 q.day ++
      [codeOrZero codeOfBreakKind q.kind] ++ bytes16OfInt (q.current.getD 0) ++
      [codeOrZero codeOfVerdict q.verdict, byteOf (q.missing.getD 0), byteOf (q.position.getD 0),
        byteOf q.closeFailed]

/-- The marks byte of a string record. -/
def StringRec.marks (r : StringRec) : Byte :=
  marksByte [r.cfg.used, r.saturated, r.sensorFault, r.alarm, r.tapFault, r.position == .closed]

/-- The presence byte of a string record. -/
def StringRec.presence (r : StringRec) : Byte :=
  marksByte [r.p.isSome, r.reconnectedAt.isSome, r.record.isSome, (r.record.bind (·.current)).isSome,
    (r.record.bind (·.missing)).isSome, (r.record.bind (·.position)).isSome]

/-- The 45-byte string record of string `n`. -/
def StringRec.bytes (r : StringRec) (n : Nat) : List Byte :=
  [byteOf n, r.marks, r.presence, byteOf r.cfg.group, byteOf r.cfg.input] ++ bytes16Of r.cfg.rated ++
    [byteOf r.cfg.modules] ++ bytes16Of r.cfg.voc25 ++ bytes16OfInt r.current ++ [byteOfInt r.offset] ++
    bytes16OfInt r.n ++ bytes16Of (r.p.getD 0) ++
    [byteOf r.reverseRun, byteOf r.overRun, byteOf r.openRun] ++ bytes16Of r.bucket ++
    [codeOfState r.state, codeOrZero codeOfCause r.cause, codeOrZero codeOfReqCause r.held,
      codeOrZero codeOfVerdict r.verdict, byteOf r.budget] ++
    bytes32 (r.reconnectedAt.getD 0) ++ isoRecordBytes r.record

/-- The 9-byte string configuration record of string `n`. -/
def stringConfigBytes (n : Nat) (c : StringSettings) : List Byte :=
  [byteOf n, byteOfBool c.used, byteOf c.group, byteOf c.input] ++ bytes16Of c.rated ++ [byteOf c.modules] ++
    bytes16Of c.voc25

/-- The 10-byte group configuration record of group `g`. -/
def groupConfigBytes (g : Nat) (c : GroupSettings) : List Byte :=
  [byteOf g, codeOfTempSource c.source, byteOfInt c.beta] ++ bytes16Of c.deficit ++ bytes16Of c.leak ++
    bytes16Of c.trip ++ [codeOfPolicy c.policy]

/-- The 15-byte group record of group `g`. -/
def GroupRec.bytes (r : GroupRec) (g : Nat) : List Byte :=
  groupConfigBytes g r.cfg ++ [byteOf r.members, byteOf r.eligible] ++ bytes16Of (r.reference.getD 0) ++
    [marksByte [r.reference.isSome, r.lit]]

/-- The 37-byte box configuration record. -/
def boxConfigBytes (b : BoxSettings) : List Byte :=
  bytes16Of b.dayPeriod ++ [byteOf b.nightPeriod, codeOfSource b.source, byteOf b.averaging] ++
    bytes16Of b.daylightFloor ++ bytes16Of b.nightRounds ++ bytes16Of b.reverseLimit ++ bytes16Of b.overLimit ++
    bytes16Of b.coldLimit ++ [byteOf b.quenchTimeout] ++ bytes16Of b.hMax ++ bytes16Of b.hResume ++
    [byteOfBool b.escalation] ++ bytes16Of b.contactTimeout ++ bytes16Of b.settle ++ bytes16Of b.nearEarth ++
    bytes16Of b.closeMargin ++ [byteOf b.attemptLimit, byteOf b.perDayMax] ++ bytes16Of b.recurrence ++
    bytes16Of b.longWindow ++ [byteOf b.closedWindow, byteOf b.openWindow]

/-- A rate code and a station address. -/
def linkBytes (l : LinkSettings) : List Byte := [codeOfRate l.rate, byteOf l.address]

/-- A temperature input in BOX_STATUS: state and value. -/
def tempBytes : Option Int → List Byte
  | none => [0#8, 0#8, 0#8]
  | some v => [1#8] ++ bytes16OfInt v

/-- An external temperature in BOX_STATUS: state, value and age. -/
def extBytes : ExtTemp → List Byte
  | .none => [0#8, 0#8, 0#8, 0#8]
  | .valid v age => [1#8, byteOfInt v] ++ bytes16Of age
  | .stale v => [2#8, byteOfInt v] ++ bytes16Of 900

/-- The 64-byte box status. -/
def State.statusBytes (s : State) : List Byte :=
  [codeOfReset s.part.cause, codeOfMode s.mode,
    marksByte [s.store.changed, s.isolator.pendingOpen, s.store.pending, s.supervision.token.isSome],
    byteOfBool s.peer.night] ++
    bytes16Of s.peer.dark ++ bytes16 s.peer.day ++ bytes16Of s.box.daylightFloor ++ bytes16Of s.box.nightRounds ++
    bytes32 s.scan.counter ++ [codeOfSourceState s.scan.source] ++ bytes16Of s.scan.bus ++
    s.scan.temps.flatMap tempBytes ++ s.scan.ext.flatMap extBytes ++
    [byteOfBool s.shutdown.asserted, codeOfSupervision s.supervision.state] ++
    bytes16 (s.supervision.token.getD 0) ++ bytes16Of s.secondsRemaining ++
    [codeOfIsolator s.isolator.state, byteOf s.link.errors, byteOfBool s.store.writing.isSome]

/-- A queue entry's 11 bytes. -/
def QueueEntry.bytes (e : QueueEntry) : List Byte :=
  [byteOf e.string, byteOf e.severity.rank, codeOfReqCause e.cause] ++ bytes32 e.round ++ bytes32 e.arrival

/-- The cell-fault record in QUEUE_READ, with its presence byte. -/
def cellFaultBytes : Option CellFault → List Byte
  | none => List.replicate 9 0#8
  | some f => [1#8, codeOfFaultStage f.stage, byteOf (f.string.getD 0)] ++ bytes16Of f.current ++ bytes32 f.round

/-- QUEUE_READ's payload from a first place (R173). -/
def State.queueBytes (s : State) (first : Nat) : List Byte :=
  [byteOf s.sched.queue.length, codeOfCellStage s.cell.stage] ++ bytes16Of s.cell.heat ++
    [byteOf (s.cell.served.getD 0)] ++ cellFaultBytes s.cell.fault ++
    ((s.sched.queue.drop (first - 1)).take 12).flatMap QueueEntry.bytes

/-- A probe list entry's 5 bytes. -/
def ProbeEntry.bytes (e : ProbeEntry) : List Byte :=
  [byteOf e.string, codeOfPurpose e.purpose, codeOfOrigin e.origin, byteOf e.attempts, byteOfBool e.waiting]

/-- The probe in flight in PROBE_LIST_READ. -/
def flightBytes : Option ProbeFlight → List Byte
  | none => [0#8, 0#8, 0#8, 0#8]
  | some f => [1#8, byteOf f.string, codeOfPurpose f.purpose, codeOfProbeStage f.stage]

/-- PROBE_LIST_READ's payload (R112). -/
def State.probeListBytes (s : State) : List Byte :=
  [byteOf s.probe.list.length] ++ s.probe.list.flatMap ProbeEntry.bytes ++ flightBytes s.probe.flight

/-- The attention set on the line (R192). -/
def State.attentionBytes (s : State) : List Byte :=
  (Config.stringNumbers.map fun n => marksByte (stringItems.map fun k => decide (Item.str k n ∈ s.attention))) ++
    bytes16 (marksWord (boxItems.map fun k => decide (Item.box k ∈ s.attention)))

/-- The lockout set in ascending string number (R174). -/
def State.lockoutBytes (s : State) : List Byte :=
  let found := Config.stringNumbers.filterMap fun n => s.lockouts.find? fun l => l.string == n
  [byteOf found.length] ++ found.flatMap fun l => [byteOf l.string, codeOfVerdict l.verdict] ++ bytes16 l.day

/-! ## Queries -/

/-- R172, R191: IDENTIFY. -/
def State.reqIdentify (s : State) : Answer :=
  accept s [Config.familyCode, Config.partCode, Config.revision, byteOf s.link.operating.address,
    codeOfRate s.link.operating.rate]

/-- R172: BOX_STATUS. -/
def State.reqBoxStatus (s : State) : Answer := accept s s.statusBytes

/-- The numbers of `count` strings from `first`. -/
def numbersFrom (first : Nat) : Nat → List Nat
  | 0 => []
  | k + 1 => first :: numbersFrom (first + 1) k

/-- R173: STRING_READ. -/
def State.reqStringRead (first count : Byte) (s : State) : Answer :=
  let f := first.toNat
  let c := count.toNat
  if 1 ≤ f ∧ f ≤ 24 ∧ 1 ≤ c ∧ c ≤ 4 ∧ f + c ≤ 25 then
    accept s ((numbersFrom f c).flatMap fun n => (s.str n).bytes n)
  else refuse s .range

/-- R48, R172: GROUP_READ. -/
def State.reqGroupRead (s : State) : Answer :=
  accept s (mapNum (fun g (r : GroupRec) => r.bytes g) 1 s.peer.groups).flatten

/-- R173: QUEUE_READ. -/
def State.reqQueueRead (first : Byte) (s : State) : Answer :=
  if 1 ≤ first.toNat ∧ first.toNat ≤ 24 then accept s (s.queueBytes first.toNat) else refuse s .range

/-- R112, R172: PROBE_LIST_READ. -/
def State.reqProbeListRead (s : State) : Answer := accept s s.probeListBytes

/-- R164, R172: ATTENTION_READ. -/
def State.reqAttentionRead (s : State) : Answer := accept s s.attentionBytes

/-- R174, R191: CONFIG_READ; the target byte is read first, then the payload's length is tested. -/
def State.reqConfigRead (target : Byte) (number : Option Byte) (s : State) : Answer :=
  if target = 0#8 then
    (match number with | none => accept s (boxConfigBytes s.box) | some _ => refuse s .format)
  else if target = 1#8 then
    (match number with
      | none => accept s (linkBytes s.link.configured ++ linkBytes s.link.operating)
      | some _ => refuse s .format)
  else if target = 2#8 then
    (match number with
      | none => refuse s .format
      | some g =>
        match s.grp g.toNat with
        | none => refuse s .range
        | some r => accept s (groupConfigBytes g.toNat r.cfg))
  else if target = 3#8 then
    (match number with
      | none => refuse s .format
      | some n =>
        match getNum s.strings n.toNat with
        | none => refuse s .range
        | some r => accept s (stringConfigBytes n.toNat r.cfg))
  else if target = 4#8 then
    (match number with | none => accept s s.lockoutBytes | some _ => refuse s .format)
  else refuse s .range

end Sys2Proof.Machine
end

