-- ==== Sys2Proof/Machine/Control.lean ====
section
/-! DEFINITION. The control messages (R175 to R179) and RESTART (R187). -/

namespace Sys2Proof.Machine

/-- The string number a byte carries, 1 to 24. -/
def stringOfByte (b : Byte) : Option Nat := if 1 ≤ b.toNat ∧ b.toNat ≤ 24 then some b.toNat else none

/-- The group number a byte carries, 1 to 6. -/
def groupOfByte (b : Byte) : Option Nat := if 1 ≤ b.toNat ∧ b.toNat ≤ 6 then some b.toNat else none

/-- The one-byte payload of string `n`'s state after the request (R191). -/
def State.stateByte (s : State) (n : Nat) : List Byte := [codeOfState (s.str n).state]

/-- R175, R191: ATTENTION_CLEAR; a mask of another length than 26 is refused FORMAT. -/
def State.reqAttentionClear (mask : List Byte) (s : State) : Answer :=
  if mask.length = 26 then accept (s.clearAttention mask) [] else refuse s .format

/-- The outcome that a heartbeat's judgement gives. -/
def BeatResult.reason : BeatResult → Reason
  | .accepted => .accepted
  | .early => .early
  | .token => .token
  | .unsupervised => .unsupervised

/-- R156 to R159, R175: HEARTBEAT. -/
def State.reqHeartbeat (token : Word16) (s : State) : Answer :=
  (s.heartbeat token, ⟨(s.judgeBeat token).reason, []⟩)

/-- R33, R175: TEMPERATURE. -/
def State.reqTemperature (group value : Byte) (s : State) : Answer :=
  match groupOfByte group with
  | none => refuse s .range
  | some g =>
    let v := clampInt (-40) 90 value.toInt
    accept (s.setScan { s.scan with ext := updNum (fun _ => .valid v 0) s.scan.ext g }) [byteOf g, byteOfInt v]

/-- R176: ISOLATE. -/
def State.reqIsolate (string : Byte) (s : State) : Answer :=
  match stringOfByte string with
  | none => refuse s .range
  | some n =>
    let st := (s.str n).state
    if st = .unused ∨ st = .stuckClosed ∨ st = .breakFailed then refuse s .state
    else
      let t := s.request n .manual
      accept t (t.stateByte n)

/-- R133: RECONNECT. A string whose entry has left the list is not BUSY for the RELEASE of its probe (log 39). -/
def State.reqReconnect (string : Byte) (s : State) : Answer :=
  match stringOfByte string with
  | none => refuse s .range
  | some n =>
    if (s.str n).state = .lockedOut then refuse s .locked
    else if (s.str n).state ≠ .isolated then refuse s .state
    else if s.holdsEntry n then refuse s .busy
    else if s.shutdown.asserted then refuse s .shutdown
    else if s.supervised = false then refuse s .unsupervised
    else
      let t := s.place n .preClose .controller
      accept t (t.stateByte n)

/-- R177: PROBE. A string whose entry has left the list is not BUSY for the RELEASE of its probe (log 39). -/
def State.reqProbe (string : Byte) (s : State) : Answer :=
  match stringOfByte string with
  | none => refuse s .range
  | some n =>
    let st := (s.str n).state
    if st ≠ .isolated ∧ st ≠ .lockedOut then refuse s .state
    else if s.holdsEntry n then refuse s .busy
    else
      let t := s.place n .diagnose .controller
      accept t (t.stateByte n)

/-- R134: the lockout record goes, the string becomes ISOLATED with its verdict absent, and a write is requested. -/
def State.releaseLockout (s : State) (n : Nat) : State :=
  ((s.setLockouts (s.lockouts.filter fun l => l.string != n)).updStr n fun r =>
    { r with state := .isolated, verdict := none }).requestWrite

/-- R134: RELEASE. -/
def State.reqRelease (string : Byte) (s : State) : Answer :=
  match stringOfByte string with
  | none => refuse s .range
  | some n =>
    if (s.str n).state ≠ .lockedOut then refuse s .state
    else if s.supervised = false then refuse s .unsupervised
    else
      let t := s.releaseLockout n
      accept t (t.stateByte n)

/-- R146: whether RESTORE acts on a string's record. -/
def StringRec.restorable (r : StringRec) : Bool :=
  r.state == .isolated && r.cause == some (.req .shutdown) && (r.verdict == none || r.verdict == some .healthy)

/-- R146: one string's visit, with the count of entries placed. A DIAGNOSE entry whose probe is in flight, up to the end
of its RELEASE, and a PRE_CLOSE entry already held are passed over (log 23). A string whose entry has left the list holds
no entry, even for the RELEASE of its probe (log 39). -/
def State.restoreOne (acc : State × Nat) (n : Nat) : State × Nat :=
  if (acc.1.str n).restorable then
    match acc.1.entryOf n with
    | none => (acc.1.enlist n .preClose .controller, acc.2 + 1)
    | some e =>
      if e.purpose = .diagnose ∧ acc.1.probing n = false then
        ((acc.1.withdraw n).enlist n .preClose .controller, acc.2 + 1)
      else acc
  else acc

/-- R146: the visit of every string in ascending number. -/
def State.restoreVisits (s : State) : State × Nat := Config.stringNumbers.foldl State.restoreOne (s, 0)

/-- R146, R115: the visits, and after them, when they have placed an entry, one look for work (the shutdown drill of
13_application_sequences.md: three entries placed, the first string's check first). -/
def State.restoreAll (s : State) : State × Nat :=
  let v := s.restoreVisits
  (if v.2 = 0 then v.1 else v.1.lookForWork, v.2)

/-- R146: RESTORE. -/
def State.reqRestore (s : State) : Answer :=
  if s.shutdown.asserted then refuse s .shutdown
  else if s.supervised = false then refuse s .unsupervised
  else accept s.restoreAll.1 [byteOf s.restoreAll.2]

/-- The two-byte payload of BOX_OUTPUT (R178). -/
def State.isolatorBytes (s : State) : List Byte := [codeOfIsolator s.isolator.state, byteOfBool s.isolator.pendingOpen]

/-- R106, R178: BOX_OUTPUT naming open. -/
def State.reqBoxOutputOpen (s : State) : Answer := accept s.openRequest s.openRequest.isolatorBytes

/-- R108: an accepted close request. -/
def State.closeRequest (s : State) : State := if s.isolator.state = .opened then s.startClosing else s

/-- R108, R178: BOX_OUTPUT naming close. -/
def State.reqBoxOutputClose (s : State) : Answer :=
  if s.isolator.state = .opening ∨ s.isolator.state = .closing then refuse s .busy
  else if s.shutdown.asserted then refuse s .shutdown
  else if s.supervised = false then refuse s .unsupervised
  else if s.strings.any (fun r => r.state == .breakFailed) = true ∨ s.isolator.state = .failed then refuse s .state
  else accept s.closeRequest s.closeRequest.isolatorBytes

/-- R91: an accepted CELL_RESTORE: the tap release is ordered and timed, or a cell whose record names no string goes
to IDLE or HOT at once. -/
def State.restoreCell (s : State) : State :=
  match s.cell.fault.bind (·.string) with
  | some _ => s.setCell { s.cell with releasing := true, since := s.part.now, timeout := 30 }
  | none => s.cellRested

/-- R178: the cell's stage after an accepted CELL_RESTORE: FAULTED while the release is timed, and the IDLE or HOT that it
enters when its record names no string. What the walk at IDLE then starts is not in the reply. -/
def State.restoredStage (s : State) : CellStage :=
  match s.cell.fault.bind (·.string) with
  | some _ => .faulted
  | none => if s.box.hMax < s.cell.heat then .hot else .idle

/-- R91, R178: CELL_RESTORE. -/
def State.reqCellRestore (s : State) : Answer :=
  if s.cell.stage ≠ .faulted ∨ s.cell.releasing = true then refuse s .conflict
  else if s.box.coldLimit < magnitude s.cell.monitor then refuse s .conflict
  else if s.supervised = false then refuse s .unsupervised
  else accept s.restoreCell [codeOfCellStage s.restoredStage]

/-- R18, R179: MODE naming SETUP. -/
def State.reqModeSetup (s : State) : Answer :=
  match s.mode with
  | .setup => accept s []
  | .run => if s.active then refuse s .busy else accept (s.setMode .setup) []

/-- R10, R18, R67: a string at the entry to RUN. -/
def StringRec.enterRun (r : StringRec) : StringRec :=
  let q := r.zeroCriteria
  if q.state = .suspect then { q with state := .connected, cause := none, verdict := none } else q

/-- R18, R179: MODE naming RUN. -/
def State.reqModeRun (s : State) : Answer :=
  match s.mode with
  | .run => accept s []
  | .setup => accept ((s.setMode .run).updAll (·.enterRun)) []

/-- R149, R187: RESTART. -/
def State.reqRestart (address : Byte) (s : State) : Answer :=
  if address.toNat ≠ s.link.operating.address then refuse s .conflict
  else if s.store.writing.isSome then refuse s .busy
  else accept (s.setLink { s.link with restartOrdered := true }) []

end Sys2Proof.Machine
end

