-- ==== Sys2Proof/Machine/Configure.lean ====
section
/-! DEFINITION. The configuration messages and STORE (R19, R38, R180 to R183, R186). -/

namespace Sys2Proof.Machine

/-- A value tested against a range: outside it the message is refused RANGE. -/
def inRange (lo hi x : Nat) : Option Nat := if lo ≤ x ∧ x ≤ hi then some x else none

/-- R180: the configuration-changed mark is set. -/
def State.markChanged (s : State) : State := s.setStore { s.store with changed := true }

/-! ## STRING_CONFIG (R19, R182) -/

/-- R182, test 1: the fields of a STRING_CONFIG, each within its range of R1. -/
def stringSettingsOf (m : StringConfigMsg) : Option StringSettings := do
  let used ← boolOfCode m.used
  let group ← inRange 0 6 m.group.toNat
  let input ← inRange 1 24 m.input.toNat
  let rated ← inRange 100 2000 m.rated.toNat
  let modules ← inRange 1 40 m.modules.toNat
  let voc25 ← inRange 100 800 m.voc25.toNat
  return ⟨used, group, input, rated, modules, voc25⟩

/-- R182, test 3: a used string other than `n` names the sensor input. -/
def State.inputTaken (s : State) (n input : Nat) : Bool :=
  (mapNum (fun k (r : StringRec) => k != n && r.cfg.used && r.cfg.input == input) 1 s.strings).any id

/-- R28: string `n` takes no figure from the round in progress. -/
def State.dropChannel (s : State) (n : Nat) : State :=
  s.setScan { s.scan with
    round := s.scan.round.map fun r => { r with channels := r.channels.filter (fun c => c.string != n) } }

/-- R19: a used string made unused. -/
def State.makeUnused (s : State) (n : Nat) (c : StringSettings) : State :=
  ((s.withdraw n).updStr n fun r => { StringRec.blank c r.position with dropPosition := r.dropPosition }).dropChannel n

/-- R19: an unused string made used takes its state from its contact. -/
def State.makeUsed (s : State) (n : Nat) (c : StringSettings) : State :=
  let t := s.updStr n fun r => { r with
    cfg := c, budget := s.box.perDayMax, tapFault := false, cause := none
    state := match r.position with | .closed => .connected | .opened => .isolated }
  if (t.str n).position = .closed then (t.connect n).shutdownCatch n else t

/-- R19, R29: a used string that stays used. -/
def State.keepUsed (s : State) (n : Nat) (c : StringSettings) : State :=
  let moved := (s.str n).cfg.input != c.input
  let t := s.updStr n fun r =>
    let q := { r.enterRun with cfg := c, tapFault := false }
    if moved then { q with offset := 0, sensorFault := false } else q
  if moved then t.dropChannel n else t

/-- R7, R19: an unused string that stays unused keeps its fields in the record. -/
def State.keepUnused (s : State) (n : Nat) (c : StringSettings) : State :=
  s.updStr n fun r => { r with cfg := c, tapFault := false }

/-- R19, R42: an accepted STRING_CONFIG. -/
def State.configureString (s : State) (n : Nat) (c : StringSettings) : State :=
  (match (s.str n).cfg.used, c.used with
    | true, false => s.makeUnused n c
    | false, true => s.makeUsed n c
    | true, true => s.keepUsed n c
    | false, false => s.keepUnused n c).recount.markChanged

/-- R19, R182: STRING_CONFIG. -/
def State.reqStringConfig (m : StringConfigMsg) (s : State) : Answer :=
  if s.mode = .run then refuse s .mode
  else match stringOfByte m.string, stringSettingsOf m with
    | some n, some c =>
      if 15000 < c.modules * c.voc25 then refuse s .range
      else if c.used = true ∧ s.inputTaken n c.input = true then refuse s .conflict
      else if (s.str n).state = .breaking ∨ (s.str n).state = .closing ∨ s.probing n = true then refuse s .busy
      else if (s.str n).cfg.used = true ∧ c.used = false ∧ (s.str n).state ≠ .isolated ∧ (s.str n).state ≠ .unused then
        refuse s .state
      else
        let t := s.configureString n c
        accept t (stringConfigBytes n (t.str n).cfg)
    | _, _ => refuse s .range

/-! ## GROUP_CONFIG (R38, R182) -/

/-- R38: the fields of a GROUP_CONFIG, each within its range. -/
def groupSettingsOf (m : GroupConfigMsg) : Option GroupSettings := do
  let source ← tempSourceOfCode m.source
  let beta ← if -60 ≤ m.beta.toInt ∧ m.beta.toInt ≤ 0 then some m.beta.toInt else none
  let deficit ← inRange 500 950 m.deficit.toNat
  let leak ← inRange 0 1000 m.leak.toNat
  let trip ← inRange 1000 60000 m.trip.toNat
  let policy ← policyOfCode m.policy
  return ⟨source, beta, deficit, leak, trip, policy⟩

/-- R38: an accepted GROUP_CONFIG replaces all six fields at once. -/
def State.configureGroup (s : State) (g : Nat) (c : GroupSettings) : State :=
  (s.setPeer { s.peer with groups := updNum (fun r => { r with cfg := c }) s.peer.groups g }).markChanged

/-- R38, R182: GROUP_CONFIG. -/
def State.reqGroupConfig (m : GroupConfigMsg) (s : State) : Answer :=
  if s.mode = .run then refuse s .mode
  else match groupOfByte m.group, groupSettingsOf m with
    | some g, some c => accept (s.configureGroup g c) (groupConfigBytes g c)
    | _, _ => refuse s .range

/-! ## BOX_CONFIG (R181) -/

/-- R181: the averaging factor rounded down to 1, 2, 4 or 8. -/
def averagingOf (x : Nat) : Nat := if 8 ≤ x then 8 else if 4 ≤ x then 4 else if 2 ≤ x then 2 else 1

/-- R181: the settings of a BOX_CONFIG, clamped fields clamped; none when a field is refused. -/
def boxSettingsOf (m : BoxConfigMsg) : Option BoxSettings := do
  let source ← sourceOfCode m.source
  let daylightFloor ← inRange 20 300 m.daylightFloor.toNat
  let nightRounds ← inRange 10 1000 m.nightRounds.toNat
  let reverseLimit ← inRange 20 2000 m.reverseLimit.toNat
  let overLimit ← inRange 1050 1500 m.overLimit.toNat
  let coldLimit ← inRange 10 300 m.coldLimit.toNat
  let hMax ← inRange 20 400 m.hMax.toNat
  let hResume ← inRange 0 (hMax - 10) m.hResume.toNat
  let escalation ← boolOfCode m.escalation
  let closeMargin ← inRange 0 1000 m.closeMargin.toNat
  let attemptLimit ← inRange 1 20 m.attemptLimit.toNat
  let perDayMax ← inRange 0 3 m.perDayMax.toNat
  let recurrence ← inRange 0 3600 m.recurrence.toNat
  return {
    dayPeriod := clampNat 200 5000 m.dayPeriod.toNat
    nightPeriod := clampNat 10 120 m.nightPeriod.toNat
    source := source
    averaging := averagingOf m.averaging.toNat
    daylightFloor := daylightFloor
    nightRounds := nightRounds
    reverseLimit := reverseLimit
    overLimit := overLimit
    coldLimit := coldLimit
    quenchTimeout := clampNat 1 50 m.quenchTimeout.toNat
    hMax := hMax
    hResume := hResume
    escalation := escalation
    contactTimeout := clampNat 20 500 m.contactTimeout.toNat
    settle := clampNat 100 2000 m.settle.toNat
    nearEarth := clampNat 50 1000 m.nearEarth.toNat
    closeMargin := closeMargin
    attemptLimit := attemptLimit
    perDayMax := perDayMax
    recurrence := recurrence
    longWindow := clampNat 10 600 m.longWindow.toNat
    closedWindow := clampNat 0 60 m.closedWindow.toNat
    openWindow := clampNat 1 120 m.openWindow.toNat }

/-- R26: the round source state after a change of the setting. -/
def State.takeSource (s : State) (old : RoundSource) : State :=
  match old, s.box.source with
  | .internal, .follow => s.setScan { s.scan with source := .following }
  | .follow, .internal => s.setScan { s.scan with source := .timed }
  | .internal, .internal => s
  | .follow, .follow => s

/-- R6: budgets above the per-day maximum are set to it. -/
def State.capBudgets (s : State) : State := s.updAll fun r => { r with budget := min r.budget s.box.perDayMax }

/-- R89: a HOT cell is tested against H_resume and an IDLE cell against H_max. -/
def State.testHeat (s : State) : State :=
  match s.cell.stage with
  | .hot => s.cellCooled
  | .idle => if s.box.hMax < s.cell.heat then s.cellHot else s
  | .attaching => s
  | .conducting => s
  | .quenching => s
  | .detaching => s
  | .resting => s
  | .faulted => s

/-- R23 to R26: a changed source or period acts on the round timer and the SYNC watch. -/
def State.newSource (s : State) (b : BoxSettings) : State :=
  let t := (s.setBox b).takeSource s.box.source
  if t.period = s.period ∧ b.source = s.box.source then t else t.recheckSource

/-- R181: an accepted BOX_CONFIG; its effects in the order of log 30. -/
def State.configureBox (s : State) (b : BoxSettings) : State :=
  ((((s.newSource b).capBudgets.testHeat).recheckWindows s.box).walk).markChanged

/-- R181: BOX_CONFIG. -/
def State.reqBoxConfig (m : BoxConfigMsg) (s : State) : Answer :=
  if s.mode = .run then refuse s .mode
  else match boxSettingsOf m with
    | none => refuse s .range
    | some b => accept (s.configureBox b) (boxConfigBytes b)

/-! ## LINK_CONFIG and STORE (R183, R186) -/

/-- R183: an accepted LINK_CONFIG writes the configured settings. -/
def State.configureLink (s : State) (l : LinkSettings) : State :=
  (s.setLink { s.link with configured := l }).markChanged

/-- R183: LINK_CONFIG. -/
def State.reqLinkConfig (rate address : Byte) (s : State) : Answer :=
  if s.mode = .run then refuse s .mode
  else match rateOfCode rate, inRange 1 99 address.toNat with
    | some r, some a => accept (s.configureLink ⟨r, a⟩) (linkBytes ⟨r, a⟩)
    | _, _ => refuse s .range

/-- R186: an accepted STORE. -/
def State.storeAll (s : State) : State := (s.setStore { s.store with stored := s.settings, changed := false }).startWrite

/-- R186: STORE. -/
def State.reqStore (s : State) : Answer :=
  if s.mode = .run then refuse s .mode
  else if s.store.writing.isSome then refuse s .busy
  else accept s.storeAll []

end Sys2Proof.Machine
end

