-- ==== Sys2Proof/Machine/Startup.lean ====
section
/-! DEFINITION. Resets and the start-up sequence (R94, R148 to R154, R184, R185), the end of a store write (R135, R136),
the end of a reply (R149, R170) and the loss of supply (R166). -/

namespace Sys2Proof.Machine

/-! ## DROP (R150) -/

/-- R136: what stands in the store after a reset or a loss of supply: a write in flight ends where it stands, with a
free outcome (log 10). -/
def State.imageLeft (s : State) : Option Image :=
  match s.store.writing with
  | none => s.store.image
  | some w =>
    match Config.residue s.free.draws with
    | .before => s.store.image
    | .after => some w
    | .fails => none

/-- One more free value drawn when a write was in flight. -/
def State.freeLeft (s : State) : FreeChoices :=
  if s.store.writing.isSome then s.drawn.free else s.free

/-- R150: the drop stage of a reset. -/
def State.drop (s : State) (kind : ResetKind) : State :=
  State.dropped kind s.part.now s.part.seconds (s.strings.map (·.position)) s.isolator.feedback s.cell.monitor
    s.shutdown.lineLow s.imageLeft s.freeLeft s.pending

/-- R166: the supply is lost: every drive stops and every volatile state goes; ALERT is not driven (log 28). -/
def State.supplyLost (s : State) : State :=
  if s.powered then
    let t := s.drop s.part.cause
    (t.setPart { t.part with stage := .off }).setAttention []
  else s

/-- R148: the reset input is released while the supply stands. -/
def State.resetReleased (s : State) : State := if s.powered then s.drop .resetLine else s

/-- R149, R168, R170: the reply's last byte has been sent; an ordered reset takes effect. -/
def State.replySent (s : State) : State :=
  match s.link.rx with
  | .replying =>
    if s.link.restartOrdered then s.drop .restartMessage
    else s.setLink { s.link with rx := .hunting, reply := none }
  | .quiet => s
  | .hunting => s
  | .receiving _ => s
  | .passing _ => s

/-! ## The image's validity (R184) -/

/-- A value within a range. -/
def within (lo hi x : Nat) : Bool := decide (lo ≤ x) && decide (x ≤ hi)

/-- R184: link settings within R183. -/
def linkValid (l : LinkSettings) : Bool := within 1 99 l.address

/-- R184: box settings within R181, with H_resume at most H_max less 10. -/
def boxValid (b : BoxSettings) : Bool :=
  within 200 5000 b.dayPeriod && within 10 120 b.nightPeriod && [1, 2, 4, 8].contains b.averaging &&
    within 20 300 b.daylightFloor && within 10 1000 b.nightRounds && within 20 2000 b.reverseLimit &&
    within 1050 1500 b.overLimit && within 10 300 b.coldLimit && within 1 50 b.quenchTimeout && within 20 400 b.hMax &&
    decide (b.hResume + 10 ≤ b.hMax) && within 20 500 b.contactTimeout && within 100 2000 b.settle &&
    within 50 1000 b.nearEarth && within 0 1000 b.closeMargin && within 1 20 b.attemptLimit && within 0 3 b.perDayMax &&
    within 0 3600 b.recurrence && within 10 600 b.longWindow && within 0 60 b.closedWindow && within 1 120 b.openWindow

/-- R184: a group configuration within R38. -/
def groupValid (g : GroupSettings) : Bool :=
  decide (-60 ≤ g.beta) && decide (g.beta ≤ 0) && within 500 950 g.deficit && within 0 1000 g.leak &&
    within 1000 60000 g.trip

/-- R184: a string configuration within R1, its M × Voc25 at most 15000. -/
def stringValid (c : StringSettings) : Bool :=
  within 0 6 c.group && within 1 24 c.input && within 100 2000 c.rated && within 1 40 c.modules &&
    within 100 800 c.voc25 && decide (c.modules * c.voc25 ≤ 15000)

/-- R184: the image's tests, other than the read and the CRC. A lockout record that names no string 1 to 24 makes the
image invalid (log 42). -/
def imageValid (i : Image) : Bool :=
  linkValid i.settings.link && boxValid i.settings.box &&
    i.settings.groups.length == 6 && i.settings.groups.all groupValid &&
    i.settings.strings.length == 24 && i.settings.strings.all stringValid &&
    decide ((i.settings.strings.filter (·.used)).map (·.input)).Nodup &&
    decide (i.lockouts.map (·.string)).Nodup &&
    i.lockouts.all (fun l => within 1 24 l.string && locking l.verdict)

/-! ## LOAD (R184, R185) -/

/-- The image that the load takes: the store answers (log 12), the CRC matches and the image is valid. -/
def State.loaded (s : State) (answers : Bool) : Option Image := if answers then s.store.image.filter imageValid else none

/-- The configuration in force replaced by a loaded one (R135, R167, R184). -/
def State.takeSettings (s : State) (c : Settings) : State :=
  let t := (s.setLink { s.link with operating := c.link, configured := c.link }).setBox c.box
  let u := t.setPeer { t.peer with groups := List.zipWith (fun r g => { r with cfg := g }) t.peer.groups c.groups }
  let v := u.setStrings (List.zipWith (fun r x => { r with cfg := x }) u.strings c.strings)
  (v.setStore { v.store with writing := none, pending := false, stored := c, changed := false }).recount

/-- R136: the loaded lockout set less the records that name an unused string. -/
def keptLockouts (i : Image) : List Lockout :=
  i.lockouts.filter fun l => ((getNum i.settings.strings l.string).map (·.used)).getD false

/-- R184, R185: the load ends. -/
def State.load (s : State) (answers : Bool) : State :=
  match s.loaded answers with
  | some i => ((s.takeSettings i.settings).setLockouts (keptLockouts i)).setMode .run
  | none => (((s.takeSettings Config.settings).setLockouts []).setMode .setup).raiseBox .storeFault

/-! ## RECONCILE (R94, R150 to R153) -/

/-- R94: the cell's start-up check. -/
def State.cellCheck (s : State) : State :=
  if s.box.coldLimit < magnitude s.cell.monitor then (s.cellFaulted .reset none).openRequest else s

/-- R151: a line found asserted at the end of the drop stage acts. -/
def State.lineCheck (s : State) : State :=
  if s.shutdown.foundAtDrop then s.openRequest.raiseBox .shutdown else s

/-- R152: one used string is placed from the contact read in the drop stage (log 20) and the lockout set. -/
def State.placeString (s : State) (n : Nat) : State :=
  if (s.str n).cfg.used = false then s
  else
    let t := s.updStr n fun r => { r with budget := s.box.perDayMax }
    match (s.str n).dropPosition, s.locked n with
    | .closed, false => (t.connect n).shutdownCatch n
    | .closed, true => t.queueString n .lockoutEnforce
    | .opened, true => t.updStr n fun r => { r with state := .lockedOut }
    | .opened, false =>
      ((t.updStr n fun r => { r with state := .isolated, cause := some .restart }).openRecord n .restart
        (some .alreadyOpen)).place n .diagnose .auto

/-- R152, R153: reconciliation, in ascending string number. With the line asserted the SHUTDOWN request of a string placed
CONNECTED (R144, R151) is made at its placement, in that same order (log 44). -/
def State.reconcile (s : State) : State := Config.stringNumbers.foldl State.placeString s

/-- R26: the round source state by the setting, and the first round. -/
def State.firstRound (s : State) : State :=
  (s.setScan { s.scan with source := match s.box.source with | .internal => .timed | .follow => .following }).startRound

/-- R150, R168: the part runs; the receiver enters QUIET. -/
def State.begin (s : State) : State :=
  (s.setPart { s.part with stage := .running }).setLink { s.link with rx := .quiet }

/-- R150, R184: the settings store's load ends, and with it the start-up sequence. -/
def State.loadEnded (s : State) (answers : Bool) : State :=
  if s.part.stage = .load then (s.load answers).cellCheck.lineCheck.reconcile.firstRound.begin else s

/-! ## The settings store's writes (R135, R136) -/

/-- R135: after a write's end, the pending flag starts a new write. -/
def State.writeEnded (s : State) : State :=
  if s.store.pending then (s.setStore { s.store with pending := false }).startWrite
  else s.setStore { s.store with writing := none }

/-- R135, R136: a write ends by read-back and verify. -/
def State.verified (s : State) (readBack : ReadBack) : State :=
  match s.store.writing, readBack with
  | none, _ => s
  | some w, .verified => (s.setStore { s.store with image := some w }).writeEnded
  | some _, .differs contents => ((s.setStore { s.store with image := contents }).raiseBox .storeFault).writeEnded

end Sys2Proof.Machine
end

