-- ==== Sys2Proof/Machine/Link.lean ====
section
/-! DEFINITION. The link port: the receiver (R168), the frame check (R169), and the dispatch of a request (R171, R191). -/

namespace Sys2Proof.Machine

/-! ## Dispatch (R171, R191) -/

/-- A message with an empty payload; any other length is refused FORMAT. -/
def emptyForm (payload : List Byte) (handle : State → Answer) (s : State) : Answer :=
  match payload with
  | [] => handle s
  | _ :: _ => refuse s .format

/-- A message with a one-byte payload; any other length is refused FORMAT. -/
def byteForm (payload : List Byte) (handle : Byte → State → Answer) (s : State) : Answer :=
  match payload with
  | [b] => handle b s
  | _ => refuse s .format

/-- A message with a two-byte payload; any other length is refused FORMAT. -/
def pairForm (payload : List Byte) (handle : Byte → Byte → State → Answer) (s : State) : Answer :=
  match payload with
  | [a, b] => handle a b s
  | _ => refuse s .format

/-- R178: BOX_OUTPUT's direction. -/
def reqBoxOutput (direction : Byte) (s : State) : Answer :=
  if direction = 0#8 then s.reqBoxOutputOpen else if direction = 1#8 then s.reqBoxOutputClose else refuse s .range

/-- R179: MODE's wanted mode. -/
def reqMode (wanted : Byte) (s : State) : Answer :=
  if wanted = 0#8 then s.reqModeSetup else if wanted = 1#8 then s.reqModeRun else refuse s .range

/-- R174, R191: CONFIG_READ by its payload. -/
def configReadForm (payload : List Byte) (s : State) : Answer :=
  match payload with
  | [t] => s.reqConfigRead t none
  | [t, n] => s.reqConfigRead t (some n)
  | _ => refuse s .format

/-- 12.4: STRING_CONFIG's payload. -/
def stringConfigForm (payload : List Byte) (s : State) : Answer :=
  match payload with
  | [n, used, group, input, r1, r0, modules, v1, v0] =>
    s.reqStringConfig ⟨n, used, group, input, word16 r1 r0, modules, word16 v1 v0⟩
  | _ => refuse s .format

/-- 12.4: GROUP_CONFIG's payload. -/
def groupConfigForm (payload : List Byte) (s : State) : Answer :=
  match payload with
  | [g, source, beta, d1, d0, l1, l0, t1, t0, policy] =>
    s.reqGroupConfig ⟨g, source, beta, word16 d1 d0, word16 l1 l0, word16 t1 t0, policy⟩
  | _ => refuse s .format

/-- Byte `k` of a payload. -/
def octet (payload : List Byte) (k : Nat) : Byte := payload.getD k 0#8

/-- The two-byte field at offset `k` of a payload. -/
def pairAt (payload : List Byte) (k : Nat) : Word16 := word16 (octet payload k) (octet payload (k + 1))

/-- 12.4: BOX_CONFIG's payload. -/
def boxConfigForm (p : List Byte) (s : State) : Answer :=
  if p.length = 37 then
    s.reqBoxConfig {
      dayPeriod := pairAt p 0
      nightPeriod := octet p 2
      source := octet p 3
      averaging := octet p 4
      daylightFloor := pairAt p 5
      nightRounds := pairAt p 7
      reverseLimit := pairAt p 9
      overLimit := pairAt p 11
      coldLimit := pairAt p 13
      quenchTimeout := octet p 15
      hMax := pairAt p 16
      hResume := pairAt p 18
      escalation := octet p 20
      contactTimeout := pairAt p 21
      settle := pairAt p 23
      nearEarth := pairAt p 25
      closeMargin := pairAt p 27
      attemptLimit := octet p 29
      perDayMax := octet p 30
      recurrence := pairAt p 31
      longWindow := pairAt p 33
      closedWindow := octet p 35
      openWindow := octet p 36 }
  else refuse s .format

/-- R171, R191: a request of a known kind: its form, then its block. -/
def Kind.dispatch (k : Kind) (payload : List Byte) (s : State) : Answer :=
  match k with
  | .identify => emptyForm payload State.reqIdentify s
  | .boxStatus => emptyForm payload State.reqBoxStatus s
  | .stringRead => pairForm payload State.reqStringRead s
  | .groupRead => emptyForm payload State.reqGroupRead s
  | .queueRead => byteForm payload State.reqQueueRead s
  | .probeListRead => emptyForm payload State.reqProbeListRead s
  | .attentionRead => emptyForm payload State.reqAttentionRead s
  | .configRead => configReadForm payload s
  | .attentionClear => s.reqAttentionClear payload
  | .heartbeat => pairForm payload (fun hi lo t => t.reqHeartbeat (word16 hi lo)) s
  | .temperature => pairForm payload State.reqTemperature s
  | .isolate => byteForm payload State.reqIsolate s
  | .reconnect => byteForm payload State.reqReconnect s
  | .probe => byteForm payload State.reqProbe s
  | .release => byteForm payload State.reqRelease s
  | .restore => emptyForm payload State.reqRestore s
  | .boxOutput => byteForm payload reqBoxOutput s
  | .cellRestore => emptyForm payload State.reqCellRestore s
  | .mode => byteForm payload reqMode s
  | .stringConfig => stringConfigForm payload s
  | .groupConfig => groupConfigForm payload s
  | .boxConfig => boxConfigForm payload s
  | .linkConfig => pairForm payload State.reqLinkConfig s
  | .store => emptyForm payload State.reqStore s
  | .restart => byteForm payload State.reqRestart s

/-- R171: a request of any kind. -/
def dispatch (kind : Byte) (payload : List Byte) (s : State) : Answer :=
  match Kind.ofCode kind with
  | none => refuse s .unknownKind
  | some k => k.dispatch payload s

/-! ## The receiver (R168, R169) -/

/-- The receiver in another state. -/
def State.setRx (s : State) (rx : Receiver) : State := s.setLink { s.link with rx := rx }

/-- R168: a discarded frame is counted, up to 255. -/
def State.discard (s : State) (rx : Receiver) : State :=
  s.setLink { s.link with rx := rx, errors := min 255 (s.link.errors + 1) }

/-- R169: the two steps of a complete request frame's check. -/
def State.frameCheck (s : State) (frame : List Byte) : State :=
  let covered := (frame.drop 1).take (frame.length - 3)
  let sent := pairAt frame (frame.length - 2)
  if crc16 covered ≠ sent then s.discard .quiet
  else if (octet frame 1).toNat ≠ s.link.operating.address then s.setRx .hunting
  else s.answer (octet frame 2) (dispatch (octet frame 2) (covered.drop 3))

/-- R168: a byte in RECEIVING. -/
def State.receive (s : State) (got : List Byte) (byte : Byte) (stopBit : Bool) : State :=
  let frame := got ++ [byte]
  if stopBit = false then s.discard .quiet
  else if frame.length = 4 ∧ 128 < byte.toNat then s.discard .quiet
  else if 4 ≤ frame.length ∧ frame.length = 6 + (octet frame 3).toNat then s.frameCheck frame
  else s.setRx (.receiving frame)

/-- R168: a byte in PASSING. -/
def State.pass (s : State) (got : List Byte) (byte : Byte) : State :=
  let frame := got ++ [byte]
  if 6 ≤ frame.length ∧ frame.length = 8 + (octet frame 5).toNat then s.setRx .hunting else s.setRx (.passing frame)

/-- R168: a byte in HUNTING; one without its stop bit is no lead byte (log 14). -/
def State.hunt (s : State) (byte : Byte) (stopBit : Bool) : State :=
  if stopBit = false then s
  else if byte = 0xD1#8 then s.setRx (.receiving [byte])
  else if byte = 0xD2#8 then s.setRx (.passing [byte])
  else s

/-- R168: a byte on the line. -/
def State.lineByte (s : State) (byte : Byte) (stopBit : Bool) : State :=
  if s.running then
    match s.link.rx with
    | .quiet => s
    | .hunting => s.hunt byte stopBit
    | .receiving got => s.receive got byte stopBit
    | .passing got => s.pass got byte
    | .replying => s
  else s

/-- R168: 2 ms with no byte in QUIET. -/
def State.quietExpired (s : State) : State := if s.running = true ∧ s.link.rx = .quiet then s.setRx .hunting else s

/-- R168: a gap reaches 2 ms. -/
def State.gapExpired (s : State) : State :=
  match s.link.rx with
  | .receiving _ => s.discard .hunting
  | .passing _ => s.setRx .hunting
  | .quiet => s
  | .hunting => s
  | .replying => s

end Sys2Proof.Machine
end

