-- ==== Sys2Proof/Machine/Requests.lean ====
section
/-! DEFINITION. The meanings of the request rows (R171 to R187): the arrival of a request of a kind, its block's answer
and the reply. A request that cannot arrive leaves the state as it stands (log 3). -/

namespace Sys2Proof.Machine

/-- IDENTIFY (R172). -/
def execIdentify (s : State) : Result := .next (s.answer Kind.identify.code State.reqIdentify)

/-- BOX_STATUS (R172). -/
def execBoxStatus (s : State) : Result := .next (s.answer Kind.boxStatus.code State.reqBoxStatus)

/-- STRING_READ (R173). -/
def execStringRead (first : Byte) (count : Byte) (s : State) : Result := .next (s.answer Kind.stringRead.code (State.reqStringRead first count))

/-- GROUP_READ (R48). -/
def execGroupRead (s : State) : Result := .next (s.answer Kind.groupRead.code State.reqGroupRead)

/-- QUEUE_READ (R173). -/
def execQueueRead (first : Byte) (s : State) : Result := .next (s.answer Kind.queueRead.code (State.reqQueueRead first))

/-- PROBE_LIST_READ (R112). -/
def execProbeListRead (s : State) : Result := .next (s.answer Kind.probeListRead.code State.reqProbeListRead)

/-- ATTENTION_READ (R164). -/
def execAttentionRead (s : State) : Result := .next (s.answer Kind.attentionRead.code State.reqAttentionRead)

/-- CONFIG_READ (R174). -/
def execConfigRead (target : Byte) (number : Option Byte) (s : State) : Result := .next (s.answer Kind.configRead.code (State.reqConfigRead target number))

/-- ATTENTION_CLEAR (R165). -/
def execAttentionClear (mask : List Byte) (s : State) : Result := .next (s.answer Kind.attentionClear.code (State.reqAttentionClear mask))

/-- HEARTBEAT (R156 to R159). -/
def execHeartbeat (token : Word16) (s : State) : Result := .next (s.answer Kind.heartbeat.code (State.reqHeartbeat token))

/-- TEMPERATURE (R33). -/
def execTemperature (group : Byte) (value : Byte) (s : State) : Result := .next (s.answer Kind.temperature.code (State.reqTemperature group value))

/-- ISOLATE (R176). -/
def execIsolate (string : Byte) (s : State) : Result := .next (s.answer Kind.isolate.code (State.reqIsolate string))

/-- RECONNECT (R133). -/
def execReconnect (string : Byte) (s : State) : Result := .next (s.answer Kind.reconnect.code (State.reqReconnect string))

/-- PROBE (R177). -/
def execProbe (string : Byte) (s : State) : Result := .next (s.answer Kind.probe.code (State.reqProbe string))

/-- RELEASE (R134). -/
def execRelease (string : Byte) (s : State) : Result := .next (s.answer Kind.release.code (State.reqRelease string))

/-- RESTORE (R146). -/
def execRestore (s : State) : Result := .next (s.answer Kind.restore.code State.reqRestore)

/-- BOX_OUTPUT naming open (R106). -/
def execBoxOutputOpen (s : State) : Result := .next (s.answer Kind.boxOutput.code State.reqBoxOutputOpen)

/-- BOX_OUTPUT naming close (R108). -/
def execBoxOutputClose (s : State) : Result := .next (s.answer Kind.boxOutput.code State.reqBoxOutputClose)

/-- CELL_RESTORE (R91). -/
def execCellRestore (s : State) : Result := .next (s.answer Kind.cellRestore.code State.reqCellRestore)

/-- MODE naming SETUP (R18). -/
def execModeSetup (s : State) : Result := .next (s.answer Kind.mode.code State.reqModeSetup)

/-- MODE naming RUN (R18). -/
def execModeRun (s : State) : Result := .next (s.answer Kind.mode.code State.reqModeRun)

/-- STRING_CONFIG (R19, R182). -/
def execStringConfig (m : StringConfigMsg) (s : State) : Result := .next (s.answer Kind.stringConfig.code (State.reqStringConfig m))

/-- GROUP_CONFIG (R38, R182). -/
def execGroupConfig (m : GroupConfigMsg) (s : State) : Result := .next (s.answer Kind.groupConfig.code (State.reqGroupConfig m))

/-- BOX_CONFIG (R181). -/
def execBoxConfig (m : BoxConfigMsg) (s : State) : Result := .next (s.answer Kind.boxConfig.code (State.reqBoxConfig m))

/-- LINK_CONFIG (R183). -/
def execLinkConfig (rate : Byte) (address : Byte) (s : State) : Result := .next (s.answer Kind.linkConfig.code (State.reqLinkConfig rate address))

/-- STORE (R186). -/
def execStore (s : State) : Result := .next (s.answer Kind.store.code State.reqStore)

/-- RESTART (R187). -/
def execRestart (address : Byte) (s : State) : Result := .next (s.answer Kind.restart.code (State.reqRestart address))

end Sys2Proof.Machine
end

