-- ==== Sys2Proof/Machine/PartEvents.lean ====
section
/-! DEFINITION. The meanings of the line's events, the resets, the settings store's events and the loss of supply. -/

namespace Sys2Proof.Machine

/-- LINK_BYTE (R168, R169, R171). -/
def execLinkByte (byte : Byte) (stopBit : Bool) (s : State) : Result := .next (s.lineByte byte stopBit)

/-- LINK_QUIET_EXPIRY (R168). -/
def execLinkQuietExpiry (s : State) : Result := .next (s.quietExpired)

/-- LINK_GAP_EXPIRY (R168). -/
def execLinkGapExpiry (s : State) : Result := .next (s.gapExpired)

/-- REPLY_COMPLETE (R149, R168, R170). -/
def execReplyComplete (s : State) : Result := .next (s.replySent)

/-- POWER_ON (R148, R150): the supply rises, from off or after falling below its level. -/
def execPowerOn (s : State) : Result := .next (s.drop .powerOn)

/-- RESET_LINE (R148, R150). -/
def execResetLine (s : State) : Result := .next (s.resetReleased)

/-- LOAD_END (R150, R184, R185). -/
def execLoadEnd (answers : Bool) (s : State) : Result := .next (s.loadEnded answers)

/-- STORE_WRITE_END (R135, R136). -/
def execStoreWriteEnd (readBack : ReadBack) (s : State) : Result := .next (s.verified readBack)

/-- SUPPLY_LOSS (R166). -/
def execSupplyLoss (s : State) : Result := .next (s.supplyLost)

end Sys2Proof.Machine
end

