-- ==== Sys2Proof/Machine/RoundEvents.lean ====
section
/-! DEFINITION. The meanings of the rounds' events and of the elapsed second. -/

namespace Sys2Proof.Machine

/-- ROUND_TIMER_EXPIRY (R23, R25). No round starts before the load ends (R26). -/
def execRoundTimerExpiry (s : State) : Result := .next (if s.running then s.roundTimer else s)

/-- SYNC_FALLING_EDGE (R24, R25): a low level shorter than 20 µs is not an edge. -/
def execSyncFallingEdge (lowMicros : Nat) (s : State) : Result := .next (if s.running = true ∧ 20 ≤ lowMicros then s.syncEdge else s)

/-- SYNC_WATCH_EXPIRY (R24, R25). -/
def execSyncWatchExpiry (s : State) : Result := .next (if s.running then s.syncWatch else s)

/-- SAMPLE_SET (R21, R22). -/
def execSampleSet (set : SampleSet) (s : State) : Result := .next (s.takeSet set)

/-- ELAPSED_SECOND (R33, R88). -/
def execElapsedSecond (s : State) : Result := .next (s.secondElapsed)

/-- CELL_HOT_END (R89). -/
def execCellHotEnd (s : State) : Result := .next (s.cellCooled)

/-- EXTERNAL_TEMP_STALE (R33). -/
def execExternalTempStale (group : Nat) (s : State) : Result := .next (s.extStale group)

end Sys2Proof.Machine
end

