-- ==== Sys2Proof/Machine/FieldEvents.lean ====
section
/-! DEFINITION. The meanings of the events of the tap relays, the cell, the contactors, the isolator, the probe unit, the
shutdown monitor and the supervision timer. -/

namespace Sys2Proof.Machine

/-- TAP_CLOSED_FEEDBACK (R84, R85). -/
def execTapClosedFeedback (string : Nat) (s : State) : Result := .next (s.tapClosed string)

/-- TAP_ATTACH_TIMEOUT (R84). -/
def execTapAttachTimeout (s : State) : Result := .next (s.attachExpired)

/-- TAP_RELEASED_FEEDBACK (R87, R91). -/
def execTapReleasedFeedback (string : Nat) (s : State) : Result := .next (s.tapReleased string)

/-- TAP_DETACH_TIMEOUT (R87). -/
def execTapDetachTimeout (s : State) : Result := .next (s.detachExpired)

/-- RESTORE_RELEASE_TIMEOUT (R91). -/
def execRestoreReleaseTimeout (s : State) : Result := .next (s.releaseExpired)

/-- QUENCH_END (R86): the monitor input reads a level (log 5). -/
def execQuenchEnd (monitor : Word16) (s : State) : Result := .next (s.monitorReads monitor)

/-- QUENCH_TIMEOUT (R90). -/
def execQuenchTimeout (s : State) : Result := .next (s.quenchExpired)

/-- RESTING_END (R89). -/
def execRestingEnd (s : State) : Result := .next (s.restEnded)

/-- CONTACT_POSITION_CHANGE (R97, R98). -/
def execContactPositionChange (string : Nat) (position : Contact) (s : State) : Result := .next (s.contactMoved string position)

/-- CONTACT_TIMEOUT (R98). -/
def execContactTimeout (string : Nat) (s : State) : Result := .next (s.contactExpired string)

/-- ISOLATOR_END_REACHED (R107, R109): the feedback reads a position (log 5). -/
def execIsolatorEndReached (feedback : Travel) (s : State) : Result := .next (s.isolatorReads feedback)

/-- ISOLATOR_TIMEOUT (R107, R109). -/
def execIsolatorTimeout (s : State) : Result := .next (s.isolatorExpired)

/-- PROBE_SETTLE_END (R116). -/
def execProbeSettleEnd (s : State) : Result := .next (s.settled)

/-- PROBE_READING (R116 to R125). -/
def execProbeReading (vp : List Word16) (vn : List Word16) (s : State) : Result := .next (s.reading vp vn)

/-- PROBE_RELEASE_END (R100, R116, R124, R129). -/
def execProbeReleaseEnd (s : State) : Result := .next (s.released)

/-- SHUTDOWN_ASSERTION (R142, R143). -/
def execShutdownAssertion (s : State) : Result := .next (s.lowTaken)

/-- SHUTDOWN_RELEASE (R142, R145). -/
def execShutdownRelease (s : State) : Result := .next (s.highTaken)

/-- LONG_WINDOW_EXPIRY (R156). -/
def execLongWindowExpiry (s : State) : Result := .next (s.longExpired)

/-- OPEN_WINDOW_EXPIRY (R158). -/
def execOpenWindowExpiry (s : State) : Result := .next (s.openExpired)

/-- SHUTDOWN_LEVEL_CHANGE (R142). -/
def execShutdownLevelChange (low : Bool) (s : State) : Result := .next (s.lineChanges low)

end Sys2Proof.Machine
end

