-- ==== Sys2Proof/Machine/Dispatch.lean ====
section
/-! DEFINITION. One arm per command: each calls its meaning. -/

namespace Sys2Proof.Machine

def exec (i : Instr) (s : State) : Host.Outcome State Fault Refusal :=
  match i with
  | .identify => Sys2Proof.Machine.execIdentify s
  | .boxStatus => Sys2Proof.Machine.execBoxStatus s
  | .stringRead first count => Sys2Proof.Machine.execStringRead first count s
  | .groupRead => Sys2Proof.Machine.execGroupRead s
  | .queueRead first => Sys2Proof.Machine.execQueueRead first s
  | .probeListRead => Sys2Proof.Machine.execProbeListRead s
  | .attentionRead => Sys2Proof.Machine.execAttentionRead s
  | .configRead target number => Sys2Proof.Machine.execConfigRead target number s
  | .attentionClear mask => Sys2Proof.Machine.execAttentionClear mask s
  | .heartbeat token => Sys2Proof.Machine.execHeartbeat token s
  | .temperature group value => Sys2Proof.Machine.execTemperature group value s
  | .isolate string => Sys2Proof.Machine.execIsolate string s
  | .reconnect string => Sys2Proof.Machine.execReconnect string s
  | .probe string => Sys2Proof.Machine.execProbe string s
  | .release string => Sys2Proof.Machine.execRelease string s
  | .restore => Sys2Proof.Machine.execRestore s
  | .boxOutputOpen => Sys2Proof.Machine.execBoxOutputOpen s
  | .boxOutputClose => Sys2Proof.Machine.execBoxOutputClose s
  | .cellRestore => Sys2Proof.Machine.execCellRestore s
  | .modeSetup => Sys2Proof.Machine.execModeSetup s
  | .modeRun => Sys2Proof.Machine.execModeRun s
  | .stringConfig m => Sys2Proof.Machine.execStringConfig m s
  | .groupConfig m => Sys2Proof.Machine.execGroupConfig m s
  | .boxConfig m => Sys2Proof.Machine.execBoxConfig m s
  | .linkConfig rate address => Sys2Proof.Machine.execLinkConfig rate address s
  | .store => Sys2Proof.Machine.execStore s
  | .restart address => Sys2Proof.Machine.execRestart address s
  | .linkByte byte stopBit => Sys2Proof.Machine.execLinkByte byte stopBit s
  | .linkQuietExpiry => Sys2Proof.Machine.execLinkQuietExpiry s
  | .linkGapExpiry => Sys2Proof.Machine.execLinkGapExpiry s
  | .replyComplete => Sys2Proof.Machine.execReplyComplete s
  | .powerOn => Sys2Proof.Machine.execPowerOn s
  | .resetLine => Sys2Proof.Machine.execResetLine s
  | .loadEnd answers => Sys2Proof.Machine.execLoadEnd answers s
  | .roundTimerExpiry => Sys2Proof.Machine.execRoundTimerExpiry s
  | .syncFallingEdge lowMicros => Sys2Proof.Machine.execSyncFallingEdge lowMicros s
  | .syncWatchExpiry => Sys2Proof.Machine.execSyncWatchExpiry s
  | .sampleSet set => Sys2Proof.Machine.execSampleSet set s
  | .elapsedSecond => Sys2Proof.Machine.execElapsedSecond s
  | .cellHotEnd => Sys2Proof.Machine.execCellHotEnd s
  | .externalTempStale group => Sys2Proof.Machine.execExternalTempStale group s
  | .tapClosedFeedback string => Sys2Proof.Machine.execTapClosedFeedback string s
  | .tapAttachTimeout => Sys2Proof.Machine.execTapAttachTimeout s
  | .tapReleasedFeedback string => Sys2Proof.Machine.execTapReleasedFeedback string s
  | .tapDetachTimeout => Sys2Proof.Machine.execTapDetachTimeout s
  | .restoreReleaseTimeout => Sys2Proof.Machine.execRestoreReleaseTimeout s
  | .quenchEnd monitor => Sys2Proof.Machine.execQuenchEnd monitor s
  | .quenchTimeout => Sys2Proof.Machine.execQuenchTimeout s
  | .restingEnd => Sys2Proof.Machine.execRestingEnd s
  | .contactPositionChange string position => Sys2Proof.Machine.execContactPositionChange string position s
  | .contactTimeout string => Sys2Proof.Machine.execContactTimeout string s
  | .isolatorEndReached feedback => Sys2Proof.Machine.execIsolatorEndReached feedback s
  | .isolatorTimeout => Sys2Proof.Machine.execIsolatorTimeout s
  | .probeSettleEnd => Sys2Proof.Machine.execProbeSettleEnd s
  | .probeReading vp vn => Sys2Proof.Machine.execProbeReading vp vn s
  | .probeReleaseEnd => Sys2Proof.Machine.execProbeReleaseEnd s
  | .shutdownAssertion => Sys2Proof.Machine.execShutdownAssertion s
  | .shutdownRelease => Sys2Proof.Machine.execShutdownRelease s
  | .longWindowExpiry => Sys2Proof.Machine.execLongWindowExpiry s
  | .openWindowExpiry => Sys2Proof.Machine.execOpenWindowExpiry s
  | .storeWriteEnd readBack => Sys2Proof.Machine.execStoreWriteEnd readBack s
  | .supplyLoss => Sys2Proof.Machine.execSupplyLoss s
  | .shutdownLevelChange low => Sys2Proof.Machine.execShutdownLevelChange low s

end Sys2Proof.Machine
end

