-- ==== Sys2Proof/WellFormed.lean ====
section
/-! DEFINITION. Which commands can be sent: the checks on operands that are not already the part's own range
tests. A request's payload fields may hold any value (the part refuses what is out of range, R171), but a mask has
its 26 bytes, and an event names equipment that exists and brings as many samples as the part takes. -/

namespace Sys2Proof

/-- Over-range samples carry the span's limit in the direction of the excess (R27). -/
def Sample.wellFormed (x : Sample) : Bool :=
  !x.beyond || x.value == 4095#13 || x.value == 4096#13

/-- A string number, 1 to 24. -/
def stringNumber (n : Nat) : Bool := decide (1 ≤ n) && decide (n ≤ 24)

/-- A group number, 1 to 6. -/
def groupNumber (n : Nat) : Bool := decide (1 ≤ n) && decide (n ≤ 6)

/-- A command that the outside can send. -/
def Instr.wellFormed : Instr → Bool
  | .attentionClear mask => mask.length == 26
  | .sampleSet set => set.currents.length == 24 && set.currents.all Sample.wellFormed && set.temps.length == 4
  | .externalTempStale g => groupNumber g
  | .tapClosedFeedback n => stringNumber n
  | .tapReleasedFeedback n => stringNumber n
  | .contactPositionChange n _ => stringNumber n
  | .contactTimeout n => stringNumber n
  | .probeReading vp vn => vp.length == 8 && vn.length == 8
  | .identify => true
  | .boxStatus => true
  | .stringRead _ _ => true
  | .groupRead => true
  | .queueRead _ => true
  | .probeListRead => true
  | .attentionRead => true
  | .configRead _ _ => true
  | .heartbeat _ => true
  | .temperature _ _ => true
  | .isolate _ => true
  | .reconnect _ => true
  | .probe _ => true
  | .release _ => true
  | .restore => true
  | .boxOutputOpen => true
  | .boxOutputClose => true
  | .cellRestore => true
  | .modeSetup => true
  | .modeRun => true
  | .stringConfig _ => true
  | .groupConfig _ => true
  | .boxConfig _ => true
  | .linkConfig _ _ => true
  | .store => true
  | .restart _ => true
  | .linkByte _ _ => true
  | .linkQuietExpiry => true
  | .linkGapExpiry => true
  | .replyComplete => true
  | .powerOn => true
  | .resetLine => true
  | .loadEnd _ => true
  | .roundTimerExpiry => true
  | .syncFallingEdge _ => true
  | .syncWatchExpiry => true
  | .elapsedSecond => true
  | .cellHotEnd => true
  | .tapAttachTimeout => true
  | .tapDetachTimeout => true
  | .restoreReleaseTimeout => true
  | .quenchEnd _ => true
  | .quenchTimeout => true
  | .restingEnd => true
  | .isolatorEndReached _ => true
  | .isolatorTimeout => true
  | .probeSettleEnd => true
  | .probeReleaseEnd => true
  | .shutdownAssertion => true
  | .shutdownRelease => true
  | .longWindowExpiry => true
  | .openWindowExpiry => true
  | .storeWriteEnd _ => true
  | .supplyLoss => true
  | .shutdownLevelChange _ => true

end Sys2Proof
end

