-- ==== Sys2Proof/Safety.lean ====
section
/-! DEFINITION. What a safe run keeps: the invariants that the spec states of every state, and the terms in which the
statements speak of a step and of a request's wire form. -/

namespace Sys2Proof.Machine

/-! ## Steps -/

/-- A property that every step keeps. -/
def StepKeeps (P : State → Prop) : Prop := ∀ s t : State, P s → step s = .next t → P t

/-! ## Invariants -/

/-- R162: the attention set holds no item twice. -/
def AttentionDistinct (s : State) : Prop := s.attention.Nodup

/-- R159: supervision is LAPSED exactly while SUPERVISION_LAPSED is in the attention set. -/
def LapseShown (s : State) : Prop := s.supervision.state = .lapsed ↔ Item.box .supervisionLapsed ∈ s.attention

/-- R17: the lockout set holds at most one record per string. -/
def LockoutsDistinct (s : State) : Prop := (s.lockouts.map (·.string)).Nodup

/-- R1, R37: 24 string records and six group records. -/
def TableSizes (s : State) : Prop := s.strings.length = 24 ∧ s.peer.groups.length = 6

/-- R6: every auto budget lies within the per-day maximum. Before the load has ended no round is in progress and every
budget is 0 (R1, R36). -/
def BudgetsBounded (s : State) : Prop :=
  (∀ r ∈ s.strings, r.budget ≤ s.box.perDayMax) ∧
    (s.part.stage ≠ .running → s.scan.round = none ∧ ∀ r ∈ s.strings, r.budget = 0)

/-- R1: the live figures of one record lie in their ranges. -/
structure FiguresOk (r : StringRec) : Prop where
  current : -4000 ≤ r.current ∧ r.current ≤ 4000
  offset : -50 ≤ r.offset ∧ r.offset ≤ 50
  normalized : -2000 ≤ r.n ∧ r.n ≤ 2000
  index : ∀ p, r.p = some p → p ≤ 4000
  reverseRun : r.reverseRun ≤ 2
  overRun : r.overRun ≤ 3
  openRun : r.openRun ≤ 3
  bucket : r.bucket ≤ 65535

/-- R1, R28, R30, R41, R47, R58, R62: the live figures of every record lie in their ranges. -/
def FiguresBounded (s : State) : Prop := ∀ r ∈ s.strings, FiguresOk r

/-- The cell serves a string in ATTACHING, CONDUCTING and QUENCHING. -/
def cellBreaking (stage : CellStage) : Bool := stage == .attaching || stage == .conducting || stage == .quenching

/-- R73, R80, R98, R112: the queue, the breaks in flight, the contact operations, the cell and the probe list name the
strings that their states say. -/
structure Sound (s : State) : Prop where
  size : s.strings.length = 24
  queueDistinct : (s.sched.queue.map (·.string)).Nodup
  queued : ∀ n, n ∈ s.sched.queue.map (·.string) ↔ (stringNumber n = true ∧ (s.str n).state = .queued)
  breaksDistinct : (s.sched.breaks.map (·.entry.string)).Nodup
  breaking : ∀ n, n ∈ s.sched.breaks.map (·.entry.string) ↔ (stringNumber n = true ∧ (s.str n).state = .breaking)
  opening : ∀ n a b, (s.str n).op = some (.opening a b) → (s.str n).state = .breaking
  closing : ∀ n o a b, (s.str n).op = some (.closing o a b) → (s.str n).state = .closing
  cell : cellBreaking s.cell.stage = true →
    ∃ n, s.cell.served = some n ∧ stringNumber n = true ∧ (s.str n).state = .breaking ∧
      (s.cell.stage ≠ .conducting → (s.str n).op = none)
  listDistinct : (s.probe.list.map (·.string)).Nodup
  listed : ∀ e ∈ s.probe.list, stringNumber e.string = true ∧
    ((s.str e.string).state = .isolated ∨ (s.str e.string).state = .lockedOut)
  check : ∀ f, s.probe.flight = some f → f.purpose = .preClose → f.stage ≠ .release →
    ∃ e ∈ s.probe.list, e.string = f.string ∧ e.purpose = .preClose
  pass : ∀ f, s.probe.flight = some f → f.pass = true →
    f.purpose = .preClose ∧ ∃ e ∈ s.probe.list, e.string = f.string ∧ e.purpose = .preClose
  configured : ∀ n, (s.str n).state ≠ .unused → (s.str n).cfg.used = true
  startUp : s.part.stage ≠ .running → s.scan.round = none ∧ ∀ n, (s.str n).state = .unused

/-- R17: once start-up is over a string that holds a lockout record is LOCKED_OUT, or on its way off the bus, and no
string is LOCKED_OUT without one; with what that rests on: a PRE_CLOSE entry belongs to an ISOLATED string, and a probe or
check in flight before its RELEASE has its entry in the list. -/
structure LockedOff (s : State) : Prop where
  sound : Sound s
  recorded : s.part.stage = .running → ∀ l ∈ s.lockouts,
    (s.str l.string).state ∈
      ([.lockedOut, .queued, .breaking, .stuckClosed, .breakFailed] : List StringState)
  lockedOut : ∀ n, (s.str n).state = .lockedOut → s.locked n = true
  closable : ∀ e ∈ s.probe.list, e.purpose = .preClose → (s.str e.string).state = .isolated
  inFlight : ∀ f, s.probe.flight = some f → f.stage ≠ .release →
    ∃ e ∈ s.probe.list, e.string = f.string ∧ e.purpose = f.purpose

/-! ## A reset's drop stage and the drives -/

/-- Every drive of the part is off (R150, R166). -/
structure DrivesOff (t : State) : Prop where
  gate : t.gateDrive = false
  tap : t.tapDrive = none
  probeTap : t.probeTap = none
  openDrive : t.isolatorOpenDrive = false
  closeDrive : t.isolatorCloseDrive = false
  coils : ∀ n, t.openCoil n = false ∧ t.closeCoil n = false
  driver : t.driverEnable = false

/-- R1: one string's record after a reset, before reconciliation, with its contact where it lay. -/
structure BlankString (r : StringRec) (position : Contact) : Prop where
  state : r.state = .unused
  standing : r.cause = none ∧ r.held = none ∧ r.verdict = none ∧ r.reconnectedAt = none ∧ r.record = none ∧ r.budget = 0
  figures : r.current = 0 ∧ r.saturated = false ∧ r.sensorFault = false ∧ r.offset = 0 ∧ r.n = 0 ∧ r.p = none
  criteria : r.reverseRun = 0 ∧ r.overRun = 0 ∧ r.openRun = 0 ∧ r.bucket = 0 ∧ r.alarm = false
  contact : r.tapFault = false ∧ r.op = none ∧ r.position = position ∧ r.dropPosition = position

/-- R150: what the drop stage of a reset of the given kind leaves. -/
structure Dropped (kind : ResetKind) (s t : State) : Prop where
  part : t.part = ⟨.load, kind, s.part.now, s.part.seconds⟩
  attention : t.attention = [.box .restarted]
  queue : t.sched = ⟨[], 0, []⟩
  probe : t.probe = ⟨[], none⟩
  cell : t.cell.stage = .idle ∧ t.cell.served = none ∧ t.cell.heat = 0 ∧ t.cell.fault = none
  isolator : t.isolator.pendingOpen = false ∧
    t.isolator.state = (match s.isolator.feedback with | .opened => .opened | .mid => .failed | .closed => .closed)
  shutdown : t.shutdown.asserted = s.shutdown.lineLow
  supervision : t.supervision.state = .waiting ∧ t.supervision.token = none ∧ t.supervision.longStart = s.part.now
  rounds : t.scan.round = none ∧ t.scan.pendingCapture = false ∧ t.scan.counter = 0 ∧ t.scan.bus = 0 ∧
    t.scan.temps = List.replicate 4 none ∧ t.scan.ext = List.replicate 6 .none
  dayAndNight : t.peer.night = false ∧ t.peer.dark = 0 ∧ t.peer.day = 0
  groups : ∀ g ∈ t.peer.groups, g.eligible = 0 ∧ g.reference = none ∧ g.lit = false
  link : t.link.errors = 0 ∧ t.link.reply = none
  store : t.store.writing = none ∧ t.store.pending = false ∧ t.store.changed = false
  strings : ∀ n, stringNumber n = true → BlankString (t.str n) (s.str n).position
  drives : DrivesOff t

/-! ## A valid image (R184) -/

/-- A figure within a range. -/
abbrev Between (lo hi x : Nat) : Prop := lo ≤ x ∧ x ≤ hi

/-- R181: the box settings' ranges, with H_resume at most H_max less 10 (R184). -/
structure ValidBox (b : BoxSettings) : Prop where
  periods : Between 200 5000 b.dayPeriod ∧ Between 10 120 b.nightPeriod
  averaging : b.averaging = 1 ∨ b.averaging = 2 ∨ b.averaging = 4 ∨ b.averaging = 8
  daylight : Between 20 300 b.daylightFloor ∧ Between 10 1000 b.nightRounds
  limits : Between 20 2000 b.reverseLimit ∧ Between 1050 1500 b.overLimit ∧ Between 10 300 b.coldLimit
  quench : Between 1 50 b.quenchTimeout
  heat : Between 20 400 b.hMax ∧ b.hResume + 10 ≤ b.hMax
  contact : Between 20 500 b.contactTimeout
  probe : Between 100 2000 b.settle ∧ Between 50 1000 b.nearEarth ∧ b.closeMargin ≤ 1000 ∧ Between 1 20 b.attemptLimit
  reconnection : b.perDayMax ≤ 3 ∧ b.recurrence ≤ 3600
  windows : Between 10 600 b.longWindow ∧ b.closedWindow ≤ 60 ∧ Between 1 120 b.openWindow

/-- R38: a group configuration's ranges. -/
structure ValidGroup (g : GroupSettings) : Prop where
  beta : -60 ≤ g.beta ∧ g.beta ≤ 0
  deficit : Between 500 950 g.deficit ∧ g.leak ≤ 1000 ∧ Between 1000 60000 g.trip

/-- R1: a string configuration's ranges, with M × Voc25 at most 15000 (R184). -/
structure ValidString (c : StringSettings) : Prop where
  place : c.group ≤ 6 ∧ Between 1 24 c.input
  rating : Between 100 2000 c.rated ∧ Between 1 40 c.modules ∧ Between 100 800 c.voc25
  product : c.modules * c.voc25 ≤ 15000

/-- R184: a valid image: every field within its range, no sensor input named by two used strings, and lockout records of
distinct strings, each with a locking verdict; a record that names no string 1 to 24 is the model's choice (log 42). -/
structure ValidImage (i : Image) : Prop where
  link : Between 1 99 i.settings.link.address
  box : ValidBox i.settings.box
  groups : i.settings.groups.length = 6 ∧ ∀ g ∈ i.settings.groups, ValidGroup g
  strings : i.settings.strings.length = 24 ∧ ∀ c ∈ i.settings.strings, ValidString c
  inputs : ∀ m n x y, getNum i.settings.strings m = some x → getNum i.settings.strings n = some y →
    x.used = true → y.used = true → x.input = y.input → m = n
  lockouts : i.lockouts.Pairwise fun x y => x.string ≠ y.string
  records : ∀ l ∈ i.lockouts, Between 1 24 l.string ∧
    (l.verdict = .earthPos ∨ l.verdict = .earthNeg ∨ l.verdict = .earthMid ∨ l.verdict = .poleShort)

/-! ## Requests on the line -/

/-- The 37 bytes of a BOX_CONFIG (12.4). -/
def boxMsgBytes (m : BoxConfigMsg) : List Byte :=
  bytes16 m.dayPeriod ++ [m.nightPeriod, m.source, m.averaging] ++ bytes16 m.daylightFloor ++ bytes16 m.nightRounds ++
    bytes16 m.reverseLimit ++ bytes16 m.overLimit ++ bytes16 m.coldLimit ++ [m.quenchTimeout] ++ bytes16 m.hMax ++
    bytes16 m.hResume ++ [m.escalation] ++ bytes16 m.contactTimeout ++ bytes16 m.settle ++ bytes16 m.nearEarth ++
    bytes16 m.closeMargin ++ [m.attemptLimit, m.perDayMax] ++ bytes16 m.recurrence ++ bytes16 m.longWindow ++
    [m.closedWindow, m.openWindow]

/-- R188, R191: the kind and the payload of a request row; none for an event row. -/
def wireOf : Instr → Option (Kind × List Byte)
  | .identify => some (.identify, [])
  | .boxStatus => some (.boxStatus, [])
  | .stringRead first count => some (.stringRead, [first, count])
  | .groupRead => some (.groupRead, [])
  | .queueRead first => some (.queueRead, [first])
  | .probeListRead => some (.probeListRead, [])
  | .attentionRead => some (.attentionRead, [])
  | .configRead target none => some (.configRead, [target])
  | .configRead target (some number) => some (.configRead, [target, number])
  | .attentionClear mask => some (.attentionClear, mask)
  | .heartbeat token => some (.heartbeat, bytes16 token)
  | .temperature group value => some (.temperature, [group, value])
  | .isolate string => some (.isolate, [string])
  | .reconnect string => some (.reconnect, [string])
  | .probe string => some (.probe, [string])
  | .release string => some (.release, [string])
  | .restore => some (.restore, [])
  | .boxOutputOpen => some (.boxOutput, [0#8])
  | .boxOutputClose => some (.boxOutput, [1#8])
  | .cellRestore => some (.cellRestore, [])
  | .modeSetup => some (.mode, [0#8])
  | .modeRun => some (.mode, [1#8])
  | .stringConfig m => some (.stringConfig,
      [m.string, m.used, m.group, m.input] ++ bytes16 m.rated ++ [m.modules] ++ bytes16 m.voc25)
  | .groupConfig m => some (.groupConfig,
      [m.group, m.source, m.beta] ++ bytes16 m.deficit ++ bytes16 m.leak ++ bytes16 m.trip ++ [m.policy])
  | .boxConfig m => some (.boxConfig, boxMsgBytes m)
  | .linkConfig rate address => some (.linkConfig, [rate, address])
  | .store => some (.store, [])
  | .restart address => some (.restart, [address])
  | .linkByte _ _ => none
  | .linkQuietExpiry => none
  | .linkGapExpiry => none
  | .replyComplete => none
  | .powerOn => none
  | .resetLine => none
  | .loadEnd _ => none
  | .roundTimerExpiry => none
  | .syncFallingEdge _ => none
  | .syncWatchExpiry => none
  | .sampleSet _ => none
  | .elapsedSecond => none
  | .cellHotEnd => none
  | .externalTempStale _ => none
  | .tapClosedFeedback _ => none
  | .tapAttachTimeout => none
  | .tapReleasedFeedback _ => none
  | .tapDetachTimeout => none
  | .restoreReleaseTimeout => none
  | .quenchEnd _ => none
  | .quenchTimeout => none
  | .restingEnd => none
  | .contactPositionChange _ _ => none
  | .contactTimeout _ => none
  | .isolatorEndReached _ => none
  | .isolatorTimeout => none
  | .probeSettleEnd => none
  | .probeReading _ _ => none
  | .probeReleaseEnd => none
  | .shutdownAssertion => none
  | .shutdownRelease => none
  | .longWindowExpiry => none
  | .openWindowExpiry => none
  | .storeWriteEnd _ => none
  | .supplyLoss => none
  | .shutdownLevelChange _ => none

/-- R169, R188: a request frame, its CRC over every byte from the address to the payload's last. -/
def requestFrame (address : Byte) (k : Kind) (payload : List Byte) : List Byte :=
  let body := [address, k.code, byteOf payload.length] ++ payload
  [0xD1#8] ++ body ++ bytes16 (crc16 body)

/-! ## What each row may change -/

/-- The blocks of the state, one per field of `State`. -/
inductive Block where
  | part
  | mode
  | link
  | scan
  | peer
  | strings
  | lockouts
  | sched
  | cell
  | isolator
  | probe
  | shutdown
  | supervision
  | attention
  | store
  | box
  | free
  | pending
  deriving DecidableEq, Repr

/-- Two states agree on a block. -/
def Agree (s t : State) : Block → Prop
  | .part => t.part = s.part
  | .mode => t.mode = s.mode
  | .link => t.link = s.link
  | .scan => t.scan = s.scan
  | .peer => t.peer = s.peer
  | .strings => t.strings = s.strings
  | .lockouts => t.lockouts = s.lockouts
  | .sched => t.sched = s.sched
  | .cell => t.cell = s.cell
  | .isolator => t.isolator = s.isolator
  | .probe => t.probe = s.probe
  | .shutdown => t.shutdown = s.shutdown
  | .supervision => t.supervision = s.supervision
  | .attention => t.attention = s.attention
  | .store => t.store = s.store
  | .box => t.box = s.box
  | .free => t.free = s.free
  | .pending => t.pending = s.pending

/-- The blocks of a break, a probe's start and a reconnection: the string table, the queue, the cell, the isolator, the
probe list and the attention set. -/
def breakPath : List Block := [.strings, .sched, .cell, .isolator, .probe, .attention]

/-- Every block that a reset changes: all but the waiting commands. -/
def resetBlocks : List Block :=
  [.part, .mode, .link, .scan, .peer, .lockouts, .shutdown, .supervision, .store, .box, .free] ++ breakPath

/-- The blocks that a row may change (its rules, and spec/95_what_each_step_holds.md). The rows that carry a request also
change the link port, whose reply they form; a row that times an event brings the clock forward (log 1). -/
def mayChange : Instr → List Block
  | .identify => [.link]
  | .boxStatus => [.link]
  | .stringRead _ _ => [.link]
  | .groupRead => [.link]
  | .queueRead _ => [.link]
  | .probeListRead => [.link]
  | .attentionRead => [.link]
  | .configRead _ _ => [.link]
  | .attentionClear _ => [.link, .supervision, .attention]
  | .heartbeat _ => [.link, .supervision, .attention, .probe]
  | .temperature _ _ => [.link, .scan]
  | .isolate _ => .link :: breakPath
  | .reconnect _ => [.link, .probe]
  | .probe _ => [.link, .probe]
  | .release _ => [.link, .strings, .lockouts, .store]
  | .restore => [.link, .probe]
  | .boxOutputOpen => .link :: breakPath
  | .boxOutputClose => .link :: breakPath
  | .cellRestore => .link :: breakPath
  | .modeSetup => [.link, .mode]
  | .modeRun => [.link, .mode, .strings]
  | .stringConfig _ => [.link, .scan, .peer, .store] ++ breakPath
  | .groupConfig _ => [.link, .peer, .store]
  | .boxConfig _ => [.link, .box, .scan, .supervision, .store] ++ breakPath
  | .linkConfig _ _ => [.link, .store]
  | .store => [.link, .store]
  | .restart _ => [.link]
  | .linkByte _ _ => [.link, .mode, .box, .scan, .peer, .lockouts, .supervision, .store] ++ breakPath
  | .linkQuietExpiry => [.link]
  | .linkGapExpiry => [.link]
  | .replyComplete => resetBlocks
  | .powerOn => resetBlocks
  | .resetLine => resetBlocks
  | .loadEnd _ => [.part, .mode, .link, .scan, .peer, .lockouts, .store, .box] ++ breakPath
  | .roundTimerExpiry => [.part, .scan]
  | .syncFallingEdge _ => [.scan]
  | .syncWatchExpiry => [.part, .scan, .attention]
  | .sampleSet _ => [.part, .scan, .peer, .free] ++ breakPath
  | .elapsedSecond => [.part, .cell, .scan]
  | .cellHotEnd => breakPath
  | .externalTempStale _ => [.scan, .attention]
  | .tapClosedFeedback _ => [.strings, .sched, .cell, .probe, .attention]
  | .tapAttachTimeout => .part :: breakPath
  | .tapReleasedFeedback _ => breakPath
  | .tapDetachTimeout => .part :: breakPath
  | .restoreReleaseTimeout => [.part, .cell, .attention]
  | .quenchEnd _ => [.strings, .sched, .cell, .probe, .attention]
  | .quenchTimeout => .part :: breakPath
  | .restingEnd => .part :: breakPath
  | .contactPositionChange _ _ => breakPath
  | .contactTimeout _ => .part :: breakPath
  | .isolatorEndReached _ => breakPath
  | .isolatorTimeout => .part :: breakPath
  | .probeSettleEnd => [.part, .probe]
  | .probeReading _ _ => [.part, .strings, .lockouts, .probe, .attention, .store]
  | .probeReleaseEnd => .part :: breakPath
  | .shutdownAssertion => [.part, .shutdown, .free] ++ breakPath
  | .shutdownRelease => [.part, .shutdown, .probe, .attention]
  | .longWindowExpiry => [.part, .supervision, .probe, .attention]
  | .openWindowExpiry => [.part, .supervision, .probe, .attention]
  | .storeWriteEnd _ => [.attention, .store]
  | .supplyLoss => resetBlocks
  | .shutdownLevelChange _ => [.shutdown]

end Sys2Proof.Machine
end

