-- ==== Sys2Proof/Certificates/Slice0/Obligations.lean ====
section
/-! DEFINITION. The statements for the provers, one `Obligations.<Name>` each; OBLIGATIONS.json lists them. -/

open Sys2Proof Sys2Proof.Machine

/-! ## The step, resets and start-up -/

/-- With a command at the front of the queue a step executes that command on the state with the queue's rest, and
answers its outcome. The queue is the form that a block's model takes (log 4). -/
def Obligations.StepRunsTheFrontCommand : Prop :=
  ∀ (s : State) (c : Instr) (rest : List Instr), s.pending = c :: rest → step s = exec c { s with pending := rest }

/-- The values that the reset tables of R1, R20, R36, R37, R56, R82, R111 and R155 give stand in the state right after
a POWER_ON reset's drop stage, with RESTARTED in the attention set, the ALERT flag set and the ALERT line asserted
(R150, R166); that state meets every invariant below. That it is the end of the drop stage of a new board is the
model's choice (log 7). -/
def Obligations.ResetLeavesTheStatedValues : Prop :=
  Dropped .powerOn State.reset State.reset ∧ State.reset.lockouts = [] ∧
    State.reset.replyFlags.getLsbD 0 = true ∧ State.reset.alertLine = true ∧
    AttentionDistinct State.reset ∧ LapseShown State.reset ∧ LockoutsDistinct State.reset ∧ TableSizes State.reset ∧
    BudgetsBounded State.reset ∧ FiguresBounded State.reset ∧ LockedOff State.reset

/-- R150, R94, R136, R166: POWER_ON, a RESET_LINE while the supply stands, and the end of the reply to an accepted
RESTART each run the drop stage; the image left in the store is the one before, or with a write in flight one of three
contents, whichever the free value is (log 10); that a loss of supply during a write does the same is the model's inference, since
R136 says it of a reset (log 37). The loss of supply stops every drive and releases ALERT; a part already without supply
is left as it is (log 28). -/
def Obligations.ResetsAndSupplyLossDropEverything : Prop :=
  ∀ s : State, s.strings.length = 24 →
    let image (t : State) : Prop := (s.store.writing = none → t.store.image = s.store.image) ∧
      ∀ w, s.store.writing = some w → t.store.image = s.store.image ∨ t.store.image = some w ∨ t.store.image = none
    (∃ t : State, exec .powerOn s = .next t ∧ Dropped .powerOn s t ∧ image t) ∧
    (s.powered = true → ∃ t : State, exec .resetLine s = .next t ∧ Dropped .resetLine s t ∧ image t) ∧
    (s.powered = false → exec .resetLine s = .next s) ∧
    (s.link.rx = .replying → s.link.restartOrdered = true →
      ∃ t : State, exec .replyComplete s = .next t ∧ Dropped .restartMessage s t ∧ image t) ∧
    (s.powered = true → ∃ t : State, exec .supplyLoss s = .next t ∧ t.powered = false ∧ t.alertLine = false ∧
      t.attention = [] ∧ DrivesOff t ∧ image t ∧
      ∀ n, stringNumber n = true → BlankString (t.str n) (s.str n).position) ∧
    (s.powered = false → exec .supplyLoss s = .next s)

/-- R184, R185, R150: the load's end takes a valid image, or the defaults with STORE_FAULT raised, and the part then
runs with its receiver in QUIET and its first round started. An image is valid when every one of R184's tests holds,
written out in `ValidImage`. That the store's answer is an operand is the model's form (log 12), and that a lockout record
naming no string 1 to 24 makes the image invalid its choice (log 42). -/
def Obligations.LoadEndTakesTheImageOrTheDefaults : Prop :=
  ∀ (s : State) (answers : Bool), s.part.stage = .load → TableSizes s →
    (∀ i, s.loaded answers = some i ↔ answers = true ∧ s.store.image = some i ∧ ValidImage i) ∧
    ∃ t : State, exec (.loadEnd answers) s = .next t ∧ t.part.stage = .running ∧ t.link.rx = .quiet ∧
      t.scan.round.isSome = true ∧ t.store.writing = none ∧ t.store.pending = false ∧ t.store.changed = false ∧
      (match s.loaded answers with
        | some i => t.mode = .run ∧ t.settings = i.settings ∧ t.store.stored = i.settings ∧
            t.link.operating = i.settings.link ∧ t.lockouts = keptLockouts i
        | none => t.mode = .setup ∧ t.settings = Config.settings ∧ t.store.stored = Config.settings ∧
            t.link.operating = Config.link ∧ t.lockouts = [] ∧ Item.box .storeFault ∈ t.attention)

/-- R152, R20: reconciliation places every used string from its contact and the lockout set. R94: a monitor current above the
cold-break limit leaves the cell FAULTED with a record of stage RESET, CELL_FAULT raised and the box output asked open. R151,
R144: a line found low at the end of the drop stage asks the box output open, raises SHUTDOWN and queues every string found
closed at severity SHUTDOWN, and no DIAGNOSE entry is started. The state that the load ends is any one that a drop stage
leaves (log 7); the monitor's reading is taken as a magnitude (log 13). -/
def Obligations.ReconciliationPlacesEveryUsedString : Prop :=
  ∀ (kind : ResetKind) (now seconds : Nat) (positions : List Contact) (feedback : Travel) (monitor : Word16) (low : Bool)
    (i : Image) (free : FreeChoices) (pending : List Instr),
    positions.length = 24 → imageValid i = true →
    let loud := i.settings.box.coldLimit < magnitude monitor
    ∃ t : State,
      exec (.loadEnd true) (State.dropped kind now seconds positions feedback monitor low (some i) free pending) = .next t ∧
      (loud → t.cell.stage = .faulted ∧ t.cell.served = none ∧ Item.box .cellFault ∈ t.attention ∧
        t.cell.fault = some ⟨.reset, none, magnitude monitor, 0⟩) ∧
      (¬loud → t.cell.stage = .idle ∧ t.cell.fault = none ∧ Item.box .cellFault ∉ t.attention) ∧
      (loud ∨ low = true → feedback ≠ .opened → t.isolator.state = .opening ∧ Item.box .output ∈ t.attention) ∧
      (feedback = .opened → t.isolator.state = .opened ∧ Item.box .output ∉ t.attention) ∧
      (¬loud → low = false → t.isolator.state = match feedback with | .opened => .opened | .mid => .failed | .closed => .closed) ∧
      t.shutdown.asserted = low ∧ (low = true ↔ Item.box .shutdown ∈ t.attention) ∧ (low = true → t.probe.flight = none) ∧
      (low = true → ∀ e ∈ t.sched.queue, e.severity = .shutdown ∧ e.cause = .shutdown) ∧
      ∀ n, stringNumber n = true →
        ((t.str n).cfg.used = false → (t.str n).state = .unused) ∧
        ((t.str n).cfg.used = true → (t.str n).budget = i.settings.box.perDayMax ∧ (t.str n).reconnectedAt = none ∧
          match getNum positions n, t.locked n with
          | some .closed, false =>
            (low = false → (t.str n).state = .connected ∧ (t.str n).cause = none) ∧
            (low = true → (t.str n).state = .queued ∧ (t.str n).cause = some (.req .shutdown) ∧
              (t.str n).record = some ⟨.req .shutdown, 0, 0, none, none, none, none, none, 0⟩ ∧
              ∃ e ∈ t.sched.queue, e.string = n)
          | some .closed, true =>
            let cause : ReqCause := if low = true then .shutdown else .lockoutEnforce
            (t.str n).state = .queued ∧ (t.str n).cause = some (.req cause) ∧
              (t.str n).record = some ⟨.req cause, 0, 0, none, none, none, none, none, 0⟩ ∧
              ∃ e ∈ t.sched.queue, e.string = n ∧ e.severity = cause.severity ∧ e.cause = cause
          | some .opened, true => (t.str n).state = .lockedOut ∧ (t.str n).cause = none ∧ (t.str n).record = none
          | some .opened, false => (t.str n).state = .isolated ∧ (t.str n).cause = some .restart ∧
              (t.str n).record = some ⟨.restart, 0, 0, some .alreadyOpen, none, none, none, none, 0⟩ ∧
              ∃ e ∈ t.probe.list, e.string = n ∧ e.purpose = .diagnose ∧ e.origin = .auto
          | none, _ => False)

/-! ## The site link -/

/-- R170, R188: the bytes of a reply frame at their offsets, its CRC over every byte after the lead byte, and the receiver
in REPLYING with that frame on the line; and the five flags of its flags byte, bit by bit, with three zero bits. -/
def Obligations.ReplyFlagsShowTheState : Prop :=
  ∀ s : State,
    (∀ (kind : Byte) (r : Reply), ∃ f : List Byte,
      s.sendReply kind r = { s with link := { s.link with rx := .replying, reply := some f } } ∧
      f.length = 8 + r.payload.length ∧ octet f 0 = 0xD2#8 ∧ octet f 1 = BitVec.ofNat 8 s.link.operating.address ∧
      octet f 2 = kind + 0x80#8 ∧ octet f 3 = r.outcome.code ∧ octet f 4 = s.replyFlags ∧
      octet f 5 = BitVec.ofNat 8 r.payload.length ∧ (f.drop 6).take r.payload.length = r.payload ∧
      pairAt f (6 + r.payload.length) = crc16 ((f.drop 1).take (5 + r.payload.length))) ∧
    (s.replyFlags.getLsbD 0 = true ↔ s.attention ≠ []) ∧
    (s.replyFlags.getLsbD 1 = true ↔ s.mode = .run) ∧
    (s.replyFlags.getLsbD 2 = true ↔ s.supervision.state = .supervised) ∧
    (s.replyFlags.getLsbD 3 = true ↔
      s.sched.breaks ≠ [] ∨ (∃ r ∈ s.strings, r.state = .closing) ∨ s.probe.flight ≠ none ∨ s.store.writing ≠ none) ∧
    (s.replyFlags.getLsbD 4 = true ↔ s.peer.night = true) ∧
    ∀ k, 5 ≤ k → s.replyFlags.getLsbD k = false

/-- R168, R169: the receiver's states and the events that change them, the discards that are counted up to 255, and
the two steps of a frame's check. That a byte without its stop bit is counted in PASSING and disregarded in QUIET is
the model's choice (log 14). -/
def Obligations.ReceiverFollowsItsTable : Prop :=
  ∀ s : State, s.running = true →
    let inRx (rx : Receiver) (errors : Nat) : State := { s with link := { s.link with rx := rx, errors := errors } }
    let counted := min 255 (s.link.errors + 1)
    (s.link.rx = .quiet → exec .linkQuietExpiry s = .next (inRx .hunting s.link.errors) ∧
      ∀ (b : Byte) (stop : Bool), exec (.linkByte b stop) s = .next s) ∧
    (s.link.rx = .hunting →
      exec (.linkByte 0xD1#8 true) s = .next (inRx (.receiving [0xD1#8]) s.link.errors) ∧
      exec (.linkByte 0xD2#8 true) s = .next (inRx (.passing [0xD2#8]) s.link.errors) ∧
      ∀ b : Byte, b ≠ 0xD1#8 → b ≠ 0xD2#8 → exec (.linkByte b true) s = .next s) ∧
    (∀ got : List Byte, s.link.rx = .receiving got →
      exec .linkGapExpiry s = .next (inRx .hunting counted) ∧
      (∀ b : Byte, exec (.linkByte b false) s = .next (inRx .quiet counted)) ∧
      (∀ b : Byte, got.length = 3 → 128 < b.toNat → exec (.linkByte b true) s = .next (inRx .quiet counted)) ∧
      (∀ b : Byte, got.length < 3 → exec (.linkByte b true) s = .next (inRx (.receiving (got ++ [b])) s.link.errors)) ∧
      (∀ b : Byte, got.length = 3 → b.toNat ≤ 128 →
        exec (.linkByte b true) s = .next (inRx (.receiving (got ++ [b])) s.link.errors)) ∧
      (∀ b : Byte, 4 ≤ got.length → got.length < 5 + (octet got 3).toNat →
        exec (.linkByte b true) s = .next (inRx (.receiving (got ++ [b])) s.link.errors)) ∧
      (∀ b : Byte, 4 ≤ got.length → got.length = 5 + (octet got 3).toNat →
        let frame := got ++ [b]
        let covered := (frame.drop 1).take (frame.length - 3)
        (crc16 covered ≠ pairAt frame (frame.length - 2) →
          exec (.linkByte b true) s = .next (inRx .quiet counted)) ∧
        (crc16 covered = pairAt frame (frame.length - 2) → (octet frame 1).toNat ≠ s.link.operating.address →
          exec (.linkByte b true) s = .next (inRx .hunting s.link.errors)) ∧
        (crc16 covered = pairAt frame (frame.length - 2) → (octet frame 1).toNat = s.link.operating.address →
          ∃ t : State, exec (.linkByte b true) s = .next t ∧ t.link.rx = .replying))) ∧
    (∀ got : List Byte, s.link.rx = .passing got →
      exec .linkGapExpiry s = .next (inRx .hunting s.link.errors) ∧
      (∀ (b : Byte) (stop : Bool), got.length < 6 → exec (.linkByte b stop) s = .next (inRx (.passing (got ++ [b])) s.link.errors)) ∧
      (∀ (b : Byte) (stop : Bool), 6 ≤ got.length → got.length = 7 + (octet got 5).toNat →
        exec (.linkByte b stop) s = .next (inRx .hunting s.link.errors)) ∧
      (∀ (b : Byte) (stop : Bool), 6 ≤ got.length → got.length < 7 + (octet got 5).toNat →
        exec (.linkByte b stop) s = .next (inRx (.passing (got ++ [b])) s.link.errors))) ∧
    (s.link.rx = .replying →
      (∀ (b : Byte) (stop : Bool), exec (.linkByte b stop) s = .next s) ∧
      (s.link.restartOrdered = false →
        exec .replyComplete s = .next { s with link := { s.link with rx := .hunting, reply := none } }))

/-- R169, R171, R188, R191: the byte that completes a good frame for the station's own address does exactly what the
row of the request that the frame carries does (log 3). -/
def Obligations.FrameOnTheLineIsTheRequestItCarries : Prop :=
  ∀ (s : State) (c : Instr) (k : Kind) (payload got : List Byte) (b : Byte),
    s.running = true → s.link.operating.address < 256 → wireOf c = some (k, payload) → payload.length ≤ 128 →
    requestFrame (byteOf s.link.operating.address) k payload = got ++ [b] → s.link.rx = .receiving got →
    exec (.linkByte b true) s = exec c s

/-! ## Supervision and attention -/

/-- R156, R157, R159: a heartbeat is judged by the state, then by its time, then by its token: in WAITING it is
accepted before the long window ends; in SUPERVISED it is EARLY below C, ACCEPTED from C to below C + W with the
complement of the last token, TOKEN with any other, each of the two refusals making the lapse; in LAPSED it is refused
UNSUPERVISED and changes nothing. The moments are the model's clock (log 1). -/
def Obligations.HeartbeatIsJudgedByTimeThenToken : Prop :=
  ∀ (s : State) (token last : Word16), s.listening = true →
    let since := s.supervision.lastBeat
    let closed := s.box.closedWindow * 1000
    let ended := (s.box.closedWindow + s.box.openWindow) * 1000
    let taken : State := { s with
      supervision := { s.supervision with state := .supervised, token := some token, lastBeat := s.part.now } }
    (s.supervision.state = .waiting → s.part.now < s.supervision.longStart + s.box.longWindow * 1000 →
      exec (.heartbeat token) s = .next (taken.sendReply Kind.heartbeat.code ⟨.accepted, []⟩)) ∧
    (s.supervision.state = .supervised → s.supervision.token = some last →
      (s.part.now < since + closed → exec (.heartbeat token) s = .next (s.lapse.sendReply Kind.heartbeat.code ⟨.early, []⟩)) ∧
      (since + closed ≤ s.part.now → s.part.now < since + ended → token = ~~~last →
        exec (.heartbeat token) s = .next (taken.sendReply Kind.heartbeat.code ⟨.accepted, []⟩)) ∧
      (since + closed ≤ s.part.now → s.part.now < since + ended → token ≠ ~~~last →
        exec (.heartbeat token) s = .next (s.lapse.sendReply Kind.heartbeat.code ⟨.token, []⟩))) ∧
    (s.supervision.state = .lapsed →
      exec (.heartbeat token) s = .next (s.sendReply Kind.heartbeat.code ⟨.unsupervised, []⟩))

/-- R156, R158, R159, R160: the expiry of the running window is the supervision lapse: SUPERVISION_LAPSED is raised,
every PRE_CLOSE entry is withdrawn, a check in flight is aborted, and no string, no break and no DIAGNOSE probe is
touched. The clock is brought to the window's end (log 1). -/
def Obligations.WindowExpiryLapsesSupervision : Prop :=
  ∀ (s : State) (c : Instr) (due : Nat), s.powered = true →
    (c = .longWindowExpiry ∧ s.supervision.state = .waiting ∧ due = s.supervision.longStart + s.box.longWindow * 1000 ∨
      c = .openWindowExpiry ∧ s.supervision.state = .supervised ∧
        due = s.supervision.lastBeat + (s.box.closedWindow + s.box.openWindow) * 1000) →
    ∃ t : State, exec c s = .next t ∧
      t = { s with
        part := { s.part with now := max s.part.now due }
        supervision := { s.supervision with state := .lapsed }
        attention := t.attention
        probe := t.probe } ∧
      (∀ i, i ∈ t.attention ↔ i ∈ s.attention ∨ i = .box .supervisionLapsed) ∧
      t.probe.list = s.probe.list.filter (fun e => e.purpose == .diagnose) ∧
      (∀ f, s.probe.flight = some f → f.purpose = .diagnose → t.probe.flight = some f) ∧
      (∀ f, s.probe.flight = some f → f.purpose = .preClose →
        ∃ g, t.probe.flight = some g ∧ g.stage = .release ∧ g.pass = false) ∧
      (s.probe.flight = none → t.probe.flight = none)

/-- R165: an ATTENTION_CLEAR removes exactly the items that its mask names and that are present, is accepted in every
mode and supervision state, and ends LAPSED when it removes SUPERVISION_LAPSED (R159); nothing else changes but the
reply. A mask of another length than 26 is refused FORMAT (R191). -/
def Obligations.AttentionClearRemovesTheNamedItems : Prop :=
  ∀ (s : State) (mask : List Byte), s.listening = true →
    (mask.length = 26 → ∃ sup : Supervision, ∃ left : List Item,
      exec (.attentionClear mask) s = .next (({ s with supervision := sup, attention := left } : State).sendReply
        Kind.attentionClear.code ⟨.accepted, []⟩) ∧
      (∀ i, i ∈ left ↔ i ∈ s.attention ∧ maskNames mask i = false) ∧
      (s.supervision.state = .lapsed → Item.box .supervisionLapsed ∈ s.attention →
        maskNames mask (.box .supervisionLapsed) = true →
        sup = { s.supervision with state := .waiting, token := none, longStart := s.part.now }) ∧
      (s.supervision.state ≠ .lapsed ∨ maskNames mask (.box .supervisionLapsed) = false → sup = s.supervision)) ∧
    (mask.length ≠ 26 →
      exec (.attentionClear mask) s = .next (s.sendReply Kind.attentionClear.code ⟨.format, []⟩))

/-- R192, R164, R165: a mask copied from ATTENTION_READ's 26 bytes names exactly the items that the set held. -/
def Obligations.MaskCopiedFromAReadNamesWhatItReturned : Prop :=
  ∀ s : State, s.attentionBytes.length = 26 ∧
    (∀ k n, stringNumber n = true → (maskNames s.attentionBytes (.str k n) = true ↔ Item.str k n ∈ s.attention)) ∧
    ∀ k, maskNames s.attentionBytes (.box k) = true ↔ Item.box k ∈ s.attention

/-! ## Invariants of every step -/

/-- R162: no step leaves an item twice in the attention set. -/
def Obligations.AttentionSetKeepsNoDuplicates : Prop := StepKeeps AttentionDistinct

/-- R159: every step keeps LAPSED and its item together. -/
def Obligations.LapseAndItsItemStandTogether : Prop := StepKeeps LapseShown

/-- R17: every step keeps at most one lockout record per string. -/
def Obligations.LockoutSetKeepsOneRecordPerString : Prop := StepKeeps LockoutsDistinct

/-- R1, R37: every step keeps 24 string records and six group records. -/
def Obligations.TablesKeepTheirSizes : Prop := StepKeeps TableSizes

/-- R6: every step keeps every auto budget within 0 to the per-day maximum in force. -/
def Obligations.BudgetsStayWithinThePerDayMaximum : Prop := StepKeeps BudgetsBounded

/-- R1, R28, R30, R41, R47, R58, R62: every step keeps every live figure in its range. -/
def Obligations.LiveFiguresStayInTheirRanges : Prop := StepKeeps FiguresBounded

/-- R73, R80, R112: every step keeps the queue, the breaks in flight and the probe list in accord with the string
states. -/
def Obligations.QueueHoldsExactlyTheQueuedStrings : Prop := StepKeeps Sound

/-- R17: every step keeps every string that holds a lockout record off the bus or on its way off it, and locks out no
other. -/
def Obligations.LockedStringsStayOffTheBus : Prop := StepKeeps LockedOff

/-- R100: while the shutdown state is ASSERTED no command starts a close pulse for any string or a close of the box
output isolator. -/
def Obligations.NoCloseStartsWhileShutdownIsAsserted : Prop :=
  ∀ (s t : State) (c : Instr), s.shutdown.asserted = true → exec c s = .next t →
    (∀ n, (t.str n).state = .closing → (s.str n).state = .closing) ∧
    (t.isolator.state = .closing → s.isolator.state = .closing)

/-! ## Queries -/

/-- R172 to R174, R191: a query leaves everything but the reply as it was; its payload has the length of R191, the
LOCKOUT target's by the number of the lockout records. -/
def Obligations.QueriesChangeOnlyTheReply : Prop :=
  ∀ (s : State) (first count target : Byte) (number : Option Byte), s.listening = true →
    s.peer.groups.length = 6 → s.scan.temps.length = 4 → s.scan.ext.length = 6 → s.strings.length = 24 →
    let answers (c : Instr) (k : Kind) (n : Nat) : Prop :=
      ∃ p : List Byte, exec c s = .next (s.sendReply k.code ⟨.accepted, p⟩) ∧ p.length = n
    let refused (c : Instr) (k : Kind) (r : Reason) : Prop := exec c s = .next (s.sendReply k.code ⟨r, []⟩)
    exec .identify s = .next (s.sendReply Kind.identify.code ⟨.accepted, [0x07#8, 0x18#8, 1#8,
      byteOf s.link.operating.address, codeOfRate s.link.operating.rate]⟩) ∧
    answers .boxStatus .boxStatus 64 ∧ answers .groupRead .groupRead 90 ∧
    answers .probeListRead .probeListRead (1 + 5 * s.probe.list.length + 4) ∧
    answers .attentionRead .attentionRead 26 ∧
    (if 1 ≤ first.toNat ∧ first.toNat ≤ 24 ∧ 1 ≤ count.toNat ∧ count.toNat ≤ 4 ∧ first.toNat + count.toNat - 1 ≤ 24
      then answers (.stringRead first count) .stringRead (45 * count.toNat)
      else refused (.stringRead first count) .stringRead .range) ∧
    (if 1 ≤ first.toNat ∧ first.toNat ≤ 24
      then answers (.queueRead first) .queueRead (14 + 11 * min 12 (s.sched.queue.length + 1 - first.toNat))
      else refused (.queueRead first) .queueRead .range) ∧
    (target.toNat = 0 → number = none → answers (.configRead target number) .configRead 37) ∧
    (target.toNat = 1 → number = none → answers (.configRead target number) .configRead 4) ∧
    (∀ g, target.toNat = 2 → number = some g →
      if 1 ≤ g.toNat ∧ g.toNat ≤ 6 then answers (.configRead target number) .configRead 10
      else refused (.configRead target number) .configRead .range) ∧
    (∀ n, target.toNat = 3 → number = some n →
      if 1 ≤ n.toNat ∧ n.toNat ≤ 24 then answers (.configRead target number) .configRead 9
      else refused (.configRead target number) .configRead .range) ∧
    (target.toNat = 4 → number = none → answers (.configRead target number) .configRead
      (1 + 4 * (Config.stringNumbers.filter fun n => s.locked n).length)) ∧
    (LockoutsDistinct s → (∀ l ∈ s.lockouts, stringNumber l.string = true) →
      (Config.stringNumbers.filter fun n => s.locked n).length = s.lockouts.length) ∧
    (target.toNat ≤ 4 → (number = none ↔ target.toNat = 2 ∨ target.toNat = 3) →
      refused (.configRead target number) .configRead .format) ∧
    (4 < target.toNat → refused (.configRead target number) .configRead .range)

/-- 12.4, R189, R190: the 45 bytes of a string record, every field at its offset, the unused bits of its marks and presence
bytes 0, and the bytes of an absent field 0. -/
def Obligations.StringRecordCarriesItsFields : Prop :=
  ∀ (r : StringRec) (n : Nat),
    let b := octet (r.bytes n)
    let w := pairAt (r.bytes n)
    (r.bytes n).length = 45 ∧ b 0 = byteOf n ∧ b 3 = byteOf r.cfg.group ∧ b 4 = byteOf r.cfg.input ∧
      w 5 = BitVec.ofNat 16 r.cfg.rated ∧ b 7 = byteOf r.cfg.modules ∧ w 8 = BitVec.ofNat 16 r.cfg.voc25 ∧
      w 10 = BitVec.ofInt 16 r.current ∧ b 12 = byteOfInt r.offset ∧ w 13 = BitVec.ofInt 16 r.n ∧
      w 15 = BitVec.ofNat 16 (r.p.getD 0) ∧ b 17 = byteOf r.reverseRun ∧ b 18 = byteOf r.overRun ∧
      b 19 = byteOf r.openRun ∧ w 20 = BitVec.ofNat 16 r.bucket ∧ b 22 = codeOfState r.state ∧
      b 23 = codeOrZero codeOfCause r.cause ∧ b 24 = codeOrZero codeOfReqCause r.held ∧
      b 25 = codeOrZero codeOfVerdict r.verdict ∧ b 26 = byteOf r.budget ∧
      w 27 ++ w 29 = r.reconnectedAt.getD 0#32 ∧
      ((b 1).getLsbD 0 = r.cfg.used ∧ (b 1).getLsbD 1 = r.saturated ∧ (b 1).getLsbD 2 = r.sensorFault ∧
        (b 1).getLsbD 3 = r.alarm ∧ (b 1).getLsbD 4 = r.tapFault ∧ (b 1).getLsbD 5 = (r.position == .closed)) ∧
      ((b 2).getLsbD 0 = r.p.isSome ∧ (b 2).getLsbD 1 = r.reconnectedAt.isSome ∧
        (b 2).getLsbD 2 = r.record.isSome) ∧
      (∀ k, 6 ≤ k → (b 1).getLsbD k = false ∧ (b 2).getLsbD k = false) ∧
      (r.record = none → (b 2).getLsbD 3 = false ∧ (b 2).getLsbD 4 = false ∧ (b 2).getLsbD 5 = false ∧
        ∀ k, 31 ≤ k → b k = 0#8) ∧
      (∀ q, r.record = some q → (b 2).getLsbD 3 = q.current.isSome ∧ (b 2).getLsbD 4 = q.missing.isSome ∧
        (b 2).getLsbD 5 = q.position.isSome ∧ b 31 = codeOfCause q.cause ∧ w 32 ++ w 34 = q.round ∧ w 36 = q.day ∧
        b 38 = codeOrZero codeOfBreakKind q.kind ∧ w 39 = BitVec.ofInt 16 (q.current.getD 0) ∧
        b 41 = codeOrZero codeOfVerdict q.verdict ∧ b 42 = byteOf (q.missing.getD 0) ∧
        b 43 = byteOf (q.position.getD 0) ∧ b 44 = byteOf q.closeFailed)

/-! ## Control messages -/

/-- R33, R88, R175: a TEMPERATURE is clamped and stored with age 0, an elapsed second ages every valid temperature and
cools the cell, and one of age 900 s becomes stale, with TEMP_STALE raised when its group uses it. That the age stops
at 900 and that the second and the staleness are two rows is the model's form (log 17); the clock and its count of
seconds are the model's own (log 1). -/
def Obligations.ExternalTemperatureFollowsItsRule : Prop :=
  ∀ (s : State) (g : Nat) (group value : Byte), s.scan.ext.length = 6 →
    (s.listening = true → groupNumber group.toNat = false →
      exec (.temperature group value) s = .next (s.sendReply Kind.temperature.code ⟨.range, []⟩)) ∧
    (s.listening = true → groupNumber group.toNat = true → ∃ ext : List ExtTemp,
      exec (.temperature group value) s = .next (({ s with scan := { s.scan with ext := ext } } : State).sendReply
        Kind.temperature.code ⟨.accepted, [group, byteOfInt (max (-40) (min 90 value.toInt))]⟩) ∧
      getNum ext group.toNat = some (.valid (max (-40) (min 90 value.toInt)) 0) ∧
      ∀ k, k ≠ group.toNat → getNum ext k = getNum s.scan.ext k) ∧
    (∃ ext : List ExtTemp, exec .elapsedSecond s = .next { s with
        part := { s.part with seconds := s.part.seconds + 1, now := max s.part.now ((s.part.seconds + 1) * 1000) }
        cell := { s.cell with heat := s.cell.heat - 1 }
        scan := { s.scan with ext := ext } } ∧
      ∀ k, getNum ext k = (getNum s.scan.ext k).map fun x =>
        match x with | .valid v age => .valid v (min 900 (age + 1)) | .stale v => .stale v | .none => .none) ∧
    (∀ v, getNum s.scan.ext g = some (.valid v 900) →
      ∃ t : State, exec (.externalTempStale g) s = .next t ∧
        t = { s with scan := { s.scan with ext := t.scan.ext }, attention := t.attention } ∧
        getNum t.scan.ext g = some (.stale v) ∧ (∀ k, k ≠ g → getNum t.scan.ext k = getNum s.scan.ext k) ∧
        ∀ i, i ∈ t.attention ↔ i ∈ s.attention ∨
          (i = .box .tempStale ∧ ∃ r, s.grp g = some r ∧ r.cfg.source = .external)) ∧
    (∀ v age, getNum s.scan.ext g = some (.valid v age) → age < 900 → exec (.externalTempStale g) s = .next s)

/-- R11, R176: ISOLATE for a string that is not on the bus, by its state. -/
def Obligations.IsolateActsByTheStringsState : Prop :=
  ∀ (s : State) (string : Byte), s.listening = true →
    let n := string.toNat
    let st := (s.str n).state
    let answered (t : State) (code : Byte) : Prop :=
      exec (.isolate string) s = .next (t.sendReply Kind.isolate.code ⟨.accepted, [code]⟩)
    (stringNumber n = false → exec (.isolate string) s = .next (s.sendReply Kind.isolate.code ⟨.range, []⟩)) ∧
    (stringNumber n = true → s.strings.length = 24 →
      (st = .unused ∨ st = .stuckClosed ∨ st = .breakFailed →
        exec (.isolate string) s = .next (s.sendReply Kind.isolate.code ⟨.state, []⟩)) ∧
      (st = .queued → answered s 3#8) ∧
      (st = .breaking → answered s 4#8) ∧
      (st = .closing → (s.str n).held = none →
        answered (s.updStr n fun r => { r with held := some .manual }) 6#8) ∧
      (∀ c, st = .closing → (s.str n).held = some c → answered s 6#8) ∧
      (st = .isolated → (∀ e ∈ s.probe.list, e.string = n → e.purpose = .diagnose) →
        answered (s.updStr n fun r => { r with cause := some (.req .manual) }) 5#8) ∧
      (st = .lockedOut → (∀ e ∈ s.probe.list, e.string = n → e.purpose = .diagnose) → answered s 7#8) ∧
      (∀ e ∈ s.probe.list, e.string = n → (∀ x ∈ s.probe.list, x.string = n → x = e) → e.purpose = .preClose →
        st = .isolated →
        ∃ t : State, answered t 5#8 ∧ (t.str n).cause = some (.req .manual) ∧ (t.str n).state = .isolated ∧
          t.probe.list = s.probe.list.filter (fun x => x.string != n) ∧
          ∀ f, s.probe.flight = some f → f.string = n → ∃ h, t.probe.flight = some h ∧ h.stage = .release ∧ h.pass = false))

/-- R11, R75, R79, R81, R84: ISOLATE for a string on the bus, the queue being empty: the string is queued, a new record
is opened, and the walk of the admission breaks it cold, commutates it, finds it already open, or lets it wait; the
reply carries the state in which it then stands. -/
def Obligations.IsolateOnTheBusIsQueuedAndWalked : Prop :=
  ∀ (s : State) (string : Byte), s.listening = true → s.strings.length = 24 → stringNumber string.toNat = true →
    s.shutdown.asserted = false → s.sched.queue = [] → s.scan.completed = true →
    (s.str string.toNat).state = .connected ∨ (s.str string.toNat).state = .suspect →
    let n := string.toNat
    let r := s.str n
    let entry : QueueEntry := ⟨n, .normal, .manual, s.scan.counter, s.sched.arrival⟩
    let opened (kind : Option BreakKind) (current : Option Int) : Option IsoRecord :=
      some ⟨.req .manual, s.scan.counter, s.peer.day, kind, current, none, none, none, 0⟩
    ∃ t : State,
      exec (.isolate string) s = .next (t.sendReply Kind.isolate.code ⟨.accepted, [codeOfState (t.str n).state]⟩) ∧
      t.sched.arrival = s.sched.arrival + 1 ∧ (t.str n).cause = some (.req .manual) ∧ t.lockouts = s.lockouts ∧
      (∀ m, m ≠ n → t.str m = s.str m) ∧
      (r.position = .opened → t.sched.queue = [] ∧ t.sched.breaks = s.sched.breaks ∧
        (t.str n).state = (if s.locked n then .lockedOut else .isolated) ∧
        (t.str n).record = opened (some .alreadyOpen) none ∧ Item.str .isolated n ∈ t.attention ∧
        t.cell = s.cell ∧ t.holdsEntry n = true) ∧
      (r.position = .closed → r.current.natAbs ≤ s.box.coldLimit →
        t.sched.queue = [] ∧ t.sched.breaks = s.sched.breaks ++ [⟨entry, false⟩] ∧ (t.str n).state = .breaking ∧
        (t.str n).record = opened (some .cold) (some r.current) ∧ t.openCoil n = true ∧ t.cell = s.cell) ∧
      (r.position = .closed → s.box.coldLimit < r.current.natAbs → r.tapFault = false → s.cell.stage = .idle →
        t.sched.queue = [] ∧ t.sched.breaks = s.sched.breaks ++ [⟨entry, true⟩] ∧ (t.str n).state = .breaking ∧
        (t.str n).record = opened none none ∧ t.cell.stage = .attaching ∧ t.cell.served = some n ∧
        t.tapDrive = some n) ∧
      (r.position = .closed → s.box.coldLimit < r.current.natAbs → r.tapFault = true ∨ s.cell.stage ≠ .idle →
        t.sched.queue = [entry] ∧ t.sched.breaks = s.sched.breaks ∧ (t.str n).state = .queued ∧
        (t.str n).record = opened none none ∧ t.cell = s.cell ∧ t.isolator = s.isolator)

/-- R133: RECONNECT is tested in order, and an accepted one places a PRE_CLOSE entry of origin CONTROLLER at the end of
the list. That a string without an entry is not BUSY while its probe is still in RELEASE is the model's choice, where
R127 can be read as BUSY (log 39). -/
def Obligations.ReconnectIsTestedInOrder : Prop :=
  ∀ (s : State) (string : Byte), s.listening = true →
    let n := string.toNat
    let st := (s.str n).state
    let refused (r : Reason) : Prop := exec (.reconnect string) s = .next (s.sendReply Kind.reconnect.code ⟨r, []⟩)
    (stringNumber n = false → refused .range) ∧
    (stringNumber n = true →
      (st = .lockedOut → refused .locked) ∧
      (st ≠ .lockedOut → st ≠ .isolated → refused .state) ∧
      (st = .isolated → (∃ e ∈ s.probe.list, e.string = n) → refused .busy) ∧
      (st = .isolated → (∀ e ∈ s.probe.list, e.string ≠ n) → s.shutdown.asserted = true → refused .shutdown) ∧
      (st = .isolated → (∀ e ∈ s.probe.list, e.string ≠ n) → s.shutdown.asserted = false →
        s.supervision.state ≠ .supervised → refused .unsupervised) ∧
      (st = .isolated → (∀ e ∈ s.probe.list, e.string ≠ n) → s.shutdown.asserted = false →
        s.supervision.state = .supervised →
        exec (.reconnect string) s = .next (({ s with probe := { s.probe with
          list := s.probe.list ++ [⟨n, .preClose, .controller, 0, false⟩] } } : State).lookForWork.sendReply
            Kind.reconnect.code ⟨.accepted, [5#8]⟩)))

/-- R177, R114, R115: PROBE is tested in order; an accepted one places a DIAGNOSE entry of origin CONTROLLER at the end of
the list, and the first eligible entry is started when no probe is in flight. That a string without an entry is not BUSY
while its probe is still in RELEASE (log 39), and that eligibility reads the group that the string's record now names (log
38), are the model's choices. -/
def Obligations.ProbePlacesADiagnoseEntry : Prop :=
  ∀ (s : State) (string : Byte), s.listening = true →
    let n := string.toNat
    let st := (s.str n).state
    let list := s.probe.list ++ [⟨n, .diagnose, .controller, 0, false⟩]
    let refused (r : Reason) : Prop := exec (.probe string) s = .next (s.sendReply Kind.probe.code ⟨r, []⟩)
    (stringNumber n = false → refused .range) ∧
    (stringNumber n = true →
      (st ≠ .isolated → st ≠ .lockedOut → refused .state) ∧
      (st = .isolated ∨ st = .lockedOut → (∃ e ∈ s.probe.list, e.string = n) → refused .busy) ∧
      (st = .isolated ∨ st = .lockedOut → (∀ e ∈ s.probe.list, e.string ≠ n) →
        ∃ flight : Option ProbeFlight, exec (.probe string) s = .next (({ s with probe := ⟨list, flight⟩ } : State).sendReply
            Kind.probe.code ⟨.accepted, [codeOfState st]⟩) ∧
          (s.probe.flight ≠ none → flight = s.probe.flight) ∧
          (s.probe.flight = none → (∀ e ∈ list, s.eligible e = false) → flight = none) ∧
          (s.probe.flight = none → ∀ e, list.find? s.eligible = some e →
            ∃ f, flight = some f ∧ f.string = e.string ∧ f.purpose = e.purpose ∧ f.origin = e.origin ∧
              f.stage = .p1 ∧ f.settle = s.box.settle ∧ f.nearEarth = s.box.nearEarth ∧
              f.closeMargin = s.box.closeMargin)))

/-- R134, R135, R17: RELEASE is tested in order; an accepted one removes the lockout record, makes the string ISOLATED
with its cause kept and its verdict absent, and requests a store write. -/
def Obligations.ReleaseRemovesTheLockout : Prop :=
  ∀ (s : State) (string : Byte), s.listening = true → s.strings.length = 24 →
    let n := string.toNat
    let st := (s.str n).state
    let left := s.lockouts.filter fun l => l.string != n
    let refused (r : Reason) : Prop := exec (.release string) s = .next (s.sendReply Kind.release.code ⟨r, []⟩)
    (stringNumber n = false → refused .range) ∧
    (stringNumber n = true →
      (st ≠ .lockedOut → refused .state) ∧
      (st = .lockedOut → s.supervision.state ≠ .supervised → refused .unsupervised) ∧
      (st = .lockedOut → s.supervision.state = .supervised →
        let store := match s.store.writing with
          | some _ => { s.store with pending := true }
          | none => { s.store with writing := some ⟨s.store.stored, left⟩, since := s.part.now }
        exec (.release string) s = .next ((({ s with lockouts := left, store := store } : State).updStr n fun r =>
          { r with state := .isolated, verdict := none }).sendReply Kind.release.code ⟨.accepted, [5#8]⟩)))

/-- R146, R177, R115: RESTORE is tested in order. An accepted one acts on every string isolated by shutdown with verdict
absent or HEALTHY that holds no entry or only a DIAGNOSE entry whose probe is not in flight: in ascending number, its
DIAGNOSE entry is withdrawn and a PRE_CLOSE entry of origin CONTROLLER placed at the end of the list; the reply carries the
number placed, and nothing else changes but that the probe unit then looks for work. An entry whose probe is in flight and
a PRE_CLOSE entry already held are passed over (log 23), the look for work comes once, after the visits (log 23), and a
string whose entry has left the list is acted on even while its probe is in RELEASE (log 39): the model's choices. -/
def Obligations.RestorePlacesPreCloseEntries : Prop :=
  ∀ s : State, s.listening = true → (s.probe.list.map (·.string)).Nodup →
    let acted := Config.stringNumbers.filter fun n =>
      (s.str n).state == .isolated && (s.str n).cause == some (.req .shutdown) &&
        ((s.str n).verdict == none || (s.str n).verdict == some .healthy) &&
        s.probe.list.all fun e => e.string != n || (e.purpose == .diagnose && !s.probing n)
    let list := s.probe.list.filter (fun e => !acted.contains e.string) ++
      acted.map fun n => ⟨n, .preClose, .controller, 0, false⟩
    (s.shutdown.asserted = true → exec .restore s = .next (s.sendReply Kind.restore.code ⟨.shutdown, []⟩)) ∧
    (s.shutdown.asserted = false → s.supervision.state ≠ .supervised →
      exec .restore s = .next (s.sendReply Kind.restore.code ⟨.unsupervised, []⟩)) ∧
    (s.shutdown.asserted = false → s.supervision.state = .supervised →
      (acted = [] → exec .restore s = .next (s.sendReply Kind.restore.code ⟨.accepted, [0#8]⟩)) ∧
      (acted ≠ [] → exec .restore s = .next (({ s with
        probe := { s.probe with list := list } } : State).lookForWork.sendReply Kind.restore.code
          ⟨.accepted, [BitVec.ofNat 8 acted.length]⟩)))

/-- R106, R107: BOX_OUTPUT naming open, by the isolator's state. -/
def Obligations.OpenRequestActsByTheIsolatorsState : Prop :=
  ∀ s : State, s.listening = true →
    let answered (t : State) (code pending : Byte) : Prop :=
      exec .boxOutputOpen s = .next (t.sendReply Kind.boxOutput.code ⟨.accepted, [code, pending]⟩)
    let flag := byteOfBool s.isolator.pendingOpen
    (s.isolator.state = .opening → answered s 1#8 flag) ∧
    (s.isolator.state = .opened → answered s 2#8 flag) ∧
    (s.isolator.state = .closing → answered { s with isolator := { s.isolator with pendingOpen := true } } 3#8 1#8) ∧
    (s.isolator.state = .closed ∨ s.isolator.state = .failed → s.isolator.feedback ≠ .opened →
      answered (({ s with isolator := { s.isolator with state := .opening, since := s.part.now } } : State).raise
        (.box .output)) 1#8 flag) ∧
    (s.isolator.state = .closed ∨ s.isolator.state = .failed → s.isolator.feedback = .opened →
      ∃ t : State, answered t 2#8 flag ∧ t.isolator.state = .opened ∧ Item.box .output ∈ t.attention)

/-- R108: BOX_OUTPUT naming close is tested in order; from OPEN an accepted one starts the close. -/
def Obligations.CloseRequestIsTestedInOrder : Prop :=
  ∀ s : State, s.listening = true →
    let iso := s.isolator.state
    let failed := (∃ r ∈ s.strings, r.state = .breakFailed) ∨ iso = .failed
    let refused (r : Reason) : Prop := exec .boxOutputClose s = .next (s.sendReply Kind.boxOutput.code ⟨r, []⟩)
    let flag := byteOfBool s.isolator.pendingOpen
    (iso = .opening ∨ iso = .closing → refused .busy) ∧
    (iso ≠ .opening → iso ≠ .closing → s.shutdown.asserted = true → refused .shutdown) ∧
    (iso ≠ .opening → iso ≠ .closing → s.shutdown.asserted = false → s.supervision.state ≠ .supervised →
      refused .unsupervised) ∧
    (iso ≠ .opening → iso ≠ .closing → s.shutdown.asserted = false → s.supervision.state = .supervised →
      (failed → refused .state) ∧
      (¬failed → iso = .closed →
        exec .boxOutputClose s = .next (s.sendReply Kind.boxOutput.code ⟨.accepted, [0#8, flag]⟩)) ∧
      (¬failed → iso = .opened → s.isolator.feedback ≠ .closed →
        exec .boxOutputClose s = .next ((({ s with
          isolator := { s.isolator with state := .closing, since := s.part.now } } : State).raise
            (.box .output)).sendReply Kind.boxOutput.code ⟨.accepted, [3#8, flag]⟩)))

/-- R91, R178: CELL_RESTORE is tested in order, the monitor's reading taken as a magnitude (log 13); with a string in
its record the cell releases the tap and times it, and without one it goes to HOT, or to IDLE, at once. The reply carries
the stage so entered, whatever break the walk at IDLE then starts. -/
def Obligations.CellRestoreReleasesTheTap : Prop :=
  ∀ s : State, s.listening = true →
    let refused (r : Reason) : Prop := exec .cellRestore s = .next (s.sendReply Kind.cellRestore.code ⟨r, []⟩)
    let ready := s.cell.stage = .faulted ∧ s.cell.releasing = false
    (¬ready → refused .conflict) ∧
    (ready → s.box.coldLimit < magnitude s.cell.monitor → refused .conflict) ∧
    (ready → magnitude s.cell.monitor ≤ s.box.coldLimit → s.supervision.state ≠ .supervised → refused .unsupervised) ∧
    (ready → magnitude s.cell.monitor ≤ s.box.coldLimit → s.supervision.state = .supervised →
      (∀ (f : CellFault) (n : Nat), s.cell.fault = some f → f.string = some n →
        exec .cellRestore s = .next (({ s with cell := { s.cell with
          releasing := true, since := s.part.now, timeout := 30 } } : State).sendReply
            Kind.cellRestore.code ⟨.accepted, [7#8]⟩)) ∧
      (∀ f : CellFault, s.cell.fault = some f → f.string = none →
        let hot : Cell := { s.cell with stage := .hot, served := none, releasing := false }
        (s.cell.heat ≤ s.box.hMax → ∃ t : State,
          exec .cellRestore s = .next (t.sendReply Kind.cellRestore.code ⟨.accepted, [0#8]⟩) ∧
          (s.sched.queue = [] →
            t = { s with cell := { s.cell with stage := .idle, served := none, releasing := false } })) ∧
        (s.box.hMax < s.cell.heat → ∃ t : State,
          exec .cellRestore s = .next (t.sendReply Kind.cellRestore.code ⟨.accepted, [6#8]⟩) ∧
          t.cell = hot ∧ Item.box .cellHot ∈ t.attention ∧
          (s.sched.queue = [] → t = ({ s with cell := hot } : State).raise (.box .cellHot)))))

/-- R18, R179, R10: MODE naming SETUP is refused BUSY while work is in flight in RUN; MODE naming RUN in SETUP sets every
criterion to 0 and makes every SUSPECT string CONNECTED; MODE naming the present mode changes nothing. -/
def Obligations.ModeMessagesChangeTheMode : Prop :=
  ∀ s : State, s.listening = true →
    (s.mode = .setup → exec .modeSetup s = .next (s.sendReply Kind.mode.code ⟨.accepted, []⟩)) ∧
    (s.mode = .run → exec .modeRun s = .next (s.sendReply Kind.mode.code ⟨.accepted, []⟩)) ∧
    (s.mode = .run →
      s.sched.breaks ≠ [] ∨ (∃ r ∈ s.strings, r.state = .closing) ∨ s.probe.flight ≠ none ∨ s.store.writing ≠ none →
      exec .modeSetup s = .next (s.sendReply Kind.mode.code ⟨.busy, []⟩)) ∧
    (s.mode = .run →
      s.sched.breaks = [] → (∀ r ∈ s.strings, r.state ≠ .closing) → s.probe.flight = none → s.store.writing = none →
      exec .modeSetup s = .next (({ s with mode := .setup } : State).sendReply Kind.mode.code ⟨.accepted, []⟩)) ∧
    (s.mode = .setup → ∃ strings : List StringRec,
      exec .modeRun s = .next (({ s with mode := .run, strings := strings } : State).sendReply
        Kind.mode.code ⟨.accepted, []⟩) ∧
      strings.length = s.strings.length ∧
      ∀ n r, getNum s.strings n = some r →
        ∃ q, getNum strings n = some q ∧
          q = { r with
            reverseRun := 0, overRun := 0, openRun := 0, bucket := 0, alarm := false
            state := if r.state = .suspect then .connected else r.state
            cause := if r.state = .suspect then none else r.cause
            verdict := if r.state = .suspect then none else r.verdict })

/-! ## Configuration messages -/

/-- R182, R171: the tests of STRING_CONFIG in their order. -/
def Obligations.StringConfigIsTestedInOrder : Prop :=
  ∀ (s : State) (m : StringConfigMsg), s.listening = true →
    let n := m.string.toNat
    let used := m.used = 1#8
    let refused (r : Reason) : Prop := exec (.stringConfig m) s = .next (s.sendReply Kind.stringConfig.code ⟨r, []⟩)
    let fields := stringNumber n = true ∧ (m.used = 0#8 ∨ m.used = 1#8) ∧ m.group.toNat ≤ 6 ∧
      1 ≤ m.input.toNat ∧ m.input.toNat ≤ 24 ∧ 100 ≤ m.rated.toNat ∧ m.rated.toNat ≤ 2000 ∧
      1 ≤ m.modules.toNat ∧ m.modules.toNat ≤ 40 ∧ 100 ≤ m.voc25.toNat ∧ m.voc25.toNat ≤ 800
    let product := m.modules.toNat * m.voc25.toNat ≤ 15000
    let shared := used ∧ ∃ (k : Nat) (r : StringRec), k ≠ n ∧ getNum s.strings k = some r ∧ r.cfg.used = true ∧ r.cfg.input = m.input.toNat
    let busy := (s.str n).state = .breaking ∨ (s.str n).state = .closing ∨ s.probing n = true
    (s.mode = .run → refused .mode) ∧
    (s.mode = .setup → ¬fields → refused .range) ∧
    (s.mode = .setup → fields → ¬product → refused .range) ∧
    (s.mode = .setup → fields → product → shared → refused .conflict) ∧
    (s.mode = .setup → fields → product → ¬shared → busy → refused .busy) ∧
    (s.mode = .setup → fields → product → ¬shared → ¬busy → ¬used → (s.str n).cfg.used = true →
      (s.str n).state ≠ .isolated → (s.str n).state ≠ .unused → refused .state)

/-- R19, R3, R29, R67: what an accepted STRING_CONFIG makes of the string's standing, the other strings staying as they
were. R42: every group's member count follows at once. R28: a string made unused, or moved to another input, takes no figure
from the round in progress. R144: a string made used with its contact CLOSED while shutdown is ASSERTED is queued by a SHUTDOWN
request, whose walk may take it and the entries that wait. -/
def Obligations.StringConfigMovesTheStanding : Prop :=
  ∀ (s : State) (m : StringConfigMsg) (c : StringSettings), s.listening = true → s.mode = .setup →
    s.strings.length = 24 → stringNumber m.string.toNat = true → stringSettingsOf m = some c →
    c.modules * c.voc25 ≤ 15000 →
    (c.used = true → s.inputTaken m.string.toNat c.input = false) →
    let n := m.string.toNat
    let r := s.str n
    let caught := r.cfg.used = false ∧ c.used = true ∧ r.position = .closed ∧ s.shutdown.asserted = true
    let dropped := r.cfg.used = true ∧ (c.used = false ∨ c.input ≠ r.cfg.input)
    let without (d : Round) : Round := { d with channels := d.channels.filter fun x => x.string != n }
    r.state ≠ .breaking → r.state ≠ .closing → s.probing n = false →
    (r.cfg.used = true → c.used = false → r.state = .isolated) →
    ∃ t : State, exec (.stringConfig m) s = .next (t.sendReply Kind.stringConfig.code ⟨.accepted, stringConfigBytes n c⟩) ∧
      (¬caught → (∀ k, k ≠ n → t.str k = s.str k) ∧ t.sched = s.sched) ∧
      t.store = { s.store with changed := true } ∧ t.lockouts = s.lockouts ∧
      (t.str n).cfg = c ∧ (t.str n).tapFault = false ∧
      t.peer = { s.peer with groups := t.peer.groups } ∧
      (∀ g q, getNum s.peer.groups g = some q → getNum t.peer.groups g = some { q with
        members := (Config.stringNumbers.filter fun k => (t.str k).cfg.used && (t.str k).cfg.group == g).length }) ∧
      (dropped → t.scan = { s.scan with round := s.scan.round.map without }) ∧ (¬dropped → t.scan = s.scan) ∧
      (caught → (t.str n).cause = some (.req .shutdown) ∧ (t.str n).budget = s.box.perDayMax ∧
        ((t.str n).state = .queued ∨ (t.str n).state = .breaking) ∧ t.sched.arrival = s.sched.arrival + 1 ∧
        (s.scan.completed = false → (t.str n).state = .queued ∧
          (⟨n, .shutdown, .shutdown, s.scan.counter, s.sched.arrival⟩ : QueueEntry) ∈ t.sched.queue)) ∧
      (r.cfg.used = true → c.used = false →
        t.str n = { StringRec.blank c r.position with dropPosition := r.dropPosition }) ∧
      (r.cfg.used = true → c.used = false → ∀ e ∈ t.probe.list, e.string ≠ n) ∧
      (r.cfg.used = false → c.used = true → ¬caught → (t.str n).cause = none ∧ (t.str n).budget = s.box.perDayMax ∧
        (r.position = .opened → (t.str n).state = .isolated) ∧
        (r.position = .closed → (t.str n).state = .connected ∧ (t.str n).bucket = 0 ∧ (t.str n).reverseRun = 0)) ∧
      (r.cfg.used = true → c.used = true →
        (t.str n).reverseRun = 0 ∧ (t.str n).overRun = 0 ∧ (t.str n).openRun = 0 ∧ (t.str n).bucket = 0 ∧
        (t.str n).alarm = false ∧ (t.str n).state = (if r.state = .suspect then .connected else r.state) ∧
        (t.str n).budget = r.budget ∧ (t.str n).record = r.record ∧
        (c.input = r.cfg.input → (t.str n).offset = r.offset ∧ (t.str n).sensorFault = r.sensorFault) ∧
        (c.input ≠ r.cfg.input → (t.str n).offset = 0 ∧ (t.str n).sensorFault = false))

/-- R38, R183, R167: GROUP_CONFIG replaces all six fields of one group, and LINK_CONFIG the configured settings alone;
each is refused as its entry states. -/
def Obligations.GroupAndLinkConfigReplaceTheirRecord : Prop :=
  ∀ (s : State) (m : GroupConfigMsg) (rate address : Byte), s.listening = true →
    let marked := { s.store with changed := true }
    (s.mode = .run →
      exec (.groupConfig m) s = .next (s.sendReply Kind.groupConfig.code ⟨.mode, []⟩) ∧
      exec (.linkConfig rate address) s = .next (s.sendReply Kind.linkConfig.code ⟨.mode, []⟩)) ∧
    (s.mode = .setup →
      (∀ (source : TempSource) (policy : Policy), groupNumber m.group.toNat = true → tempSourceOfCode m.source = some source →
        policyOfCode m.policy = some policy → -60 ≤ m.beta.toInt → m.beta.toInt ≤ 0 →
        500 ≤ m.deficit.toNat → m.deficit.toNat ≤ 950 → m.leak.toNat ≤ 1000 →
        1000 ≤ m.trip.toNat → m.trip.toNat ≤ 60000 →
        let c : GroupSettings := ⟨source, m.beta.toInt, m.deficit.toNat, m.leak.toNat, m.trip.toNat, policy⟩
        exec (.groupConfig m) s = .next (({ s with
          peer := { s.peer with groups := updNum (fun r => { r with cfg := c }) s.peer.groups m.group.toNat }
          store := marked } : State).sendReply Kind.groupConfig.code
            ⟨.accepted, groupConfigBytes m.group.toNat c⟩)) ∧
      (groupNumber m.group.toNat = false ∨ tempSourceOfCode m.source = none ∨ policyOfCode m.policy = none ∨
        m.beta.toInt < -60 ∨ 0 < m.beta.toInt ∨ m.deficit.toNat < 500 ∨ 950 < m.deficit.toNat ∨
        1000 < m.leak.toNat ∨ m.trip.toNat < 1000 ∨ 60000 < m.trip.toNat →
        exec (.groupConfig m) s = .next (s.sendReply Kind.groupConfig.code ⟨.range, []⟩)) ∧
      (∀ r : Rate, rateOfCode rate = some r → 1 ≤ address.toNat → address.toNat ≤ 99 →
        exec (.linkConfig rate address) s = .next (({ s with
          link := { s.link with configured := ⟨r, address.toNat⟩ }, store := marked } : State).sendReply
            Kind.linkConfig.code ⟨.accepted, [rate, address]⟩)) ∧
      (rateOfCode rate = none ∨ address.toNat = 0 ∨ 99 < address.toNat →
        exec (.linkConfig rate address) s = .next (s.sendReply Kind.linkConfig.code ⟨.range, []⟩)))

/-- R181, R180, R6: BOX_CONFIG is refused RANGE exactly when a field of the refused kind is out of range; otherwise the box
settings are replaced, with clamped fields clamped, every budget is lowered to the new maximum, and the reply carries
the record. With no entry waiting, the rest of the next state: a changed source setting sets the round source state, and
a moment already passed is taken at once (R23, R24, R26); a HOT cell at or below the new H_resume is IDLE and an IDLE one above
the new H_max is HOT (R89); a changed window that has already run out lapses supervision (R161); the walk (R78) finds nothing;
and nothing else changes. The order of these effects is the model's choice (log 30). -/
def Obligations.BoxConfigClampsOrRefuses : Prop :=
  ∀ (s : State) (m : BoxConfigMsg), s.listening = true →
    let inside (lo hi : Nat) (w : Word16) : Prop := lo ≤ w.toNat ∧ w.toNat ≤ hi
    let good := (m.source = 0#8 ∨ m.source = 1#8) ∧ inside 20 300 m.daylightFloor ∧ inside 10 1000 m.nightRounds ∧
      inside 20 2000 m.reverseLimit ∧ inside 1050 1500 m.overLimit ∧ inside 10 300 m.coldLimit ∧
      inside 20 400 m.hMax ∧ m.hResume.toNat + 10 ≤ m.hMax.toNat ∧ (m.escalation = 0#8 ∨ m.escalation = 1#8) ∧
      inside 0 1000 m.closeMargin ∧ 1 ≤ m.attemptLimit.toNat ∧ m.attemptLimit.toNat ≤ 20 ∧
      m.perDayMax.toNat ≤ 3 ∧ inside 0 3600 m.recurrence
    (s.mode = .run → exec (.boxConfig m) s = .next (s.sendReply Kind.boxConfig.code ⟨.mode, []⟩)) ∧
    (s.mode = .setup → ¬good → exec (.boxConfig m) s = .next (s.sendReply Kind.boxConfig.code ⟨.range, []⟩)) ∧
    (s.mode = .setup → good → ∃ (t : State) (b : BoxSettings),
      exec (.boxConfig m) s = .next (t.sendReply Kind.boxConfig.code ⟨.accepted, boxConfigBytes b⟩) ∧
      t.box = b ∧ t.store = { s.store with changed := true } ∧ t.lockouts = s.lockouts ∧
      (∀ n, (t.str n).budget = min (s.str n).budget m.perDayMax.toNat ∧ (t.str n).cfg = (s.str n).cfg) ∧
      b.dayPeriod = max 200 (min 5000 m.dayPeriod.toNat) ∧ b.nightPeriod = max 10 (min 120 m.nightPeriod.toNat) ∧
      b.averaging ∈ [1, 2, 4, 8] ∧ (b.averaging ≤ m.averaging.toNat ∨ m.averaging = 0#8 ∧ b.averaging = 1) ∧
      (m.averaging.toNat < 2 * b.averaging ∨ b.averaging = 8) ∧
      b.quenchTimeout = max 1 (min 50 m.quenchTimeout.toNat) ∧
      b.contactTimeout = max 20 (min 500 m.contactTimeout.toNat) ∧ b.settle = max 100 (min 2000 m.settle.toNat) ∧
      b.nearEarth = max 50 (min 1000 m.nearEarth.toNat) ∧ b.longWindow = max 10 (min 600 m.longWindow.toNat) ∧
      b.closedWindow = min 60 m.closedWindow.toNat ∧ b.openWindow = max 1 (min 120 m.openWindow.toNat) ∧
      b.source = (if m.source = 0#8 then .internal else .follow) ∧ b.escalation = decide (m.escalation = 1#8) ∧
      b.daylightFloor = m.daylightFloor.toNat ∧ b.nightRounds = m.nightRounds.toNat ∧
      b.reverseLimit = m.reverseLimit.toNat ∧ b.overLimit = m.overLimit.toNat ∧ b.coldLimit = m.coldLimit.toNat ∧
      b.hMax = m.hMax.toNat ∧ b.hResume = m.hResume.toNat ∧ b.closeMargin = m.closeMargin.toNat ∧
      b.attemptLimit = m.attemptLimit.toNat ∧ b.perDayMax = m.perDayMax.toNat ∧ b.recurrence = m.recurrence.toNat ∧
      (s.sched.queue = [] →
        let source : SourceState := match s.box.source, b.source with
          | .internal, .follow => .following
          | .follow, .internal => .timed
          | _, _ => s.scan.source
        let period (x : BoxSettings) : Nat := if s.peer.night = true then x.nightPeriod * 1000 else x.dayPeriod
        let length := if source = .following then 2 * period b else period b
        let begins := (period b ≠ period s.box ∨ b.source ≠ s.box.source) ∧ s.scan.round = none ∧
          s.scan.lastStart + length ≤ s.part.now
        let cools := s.cell.stage = .hot ∧ s.cell.heat ≤ b.hResume
        let heats := s.cell.stage = .idle ∧ b.hMax < s.cell.heat
        let lapses := s.supervision.state = .waiting ∧ b.longWindow ≠ s.box.longWindow ∧
            s.supervision.longStart + b.longWindow * 1000 ≤ s.part.now ∨
          s.supervision.state = .supervised ∧ (b.closedWindow ≠ s.box.closedWindow ∨ b.openWindow ≠ s.box.openWindow) ∧
            s.supervision.lastBeat + (b.closedWindow + b.openWindow) * 1000 ≤ s.part.now
        t = { s with
          box := b, scan := t.scan, cell := t.cell, supervision := t.supervision, strings := t.strings, probe := t.probe
          attention := t.attention, store := t.store } ∧
        (∀ n r, getNum s.strings n = some r → getNum t.strings n = some { r with budget := min r.budget b.perDayMax }) ∧
        (¬begins → t.scan = { s.scan with source := source }) ∧
        (begins → t.scan = { s.scan with
          source := if source = .following then .fallback else source
          round := some ⟨if s.scan.pendingCapture then 8 else b.averaging, 0, s.scan.pendingCapture,
            channelsOf s.strings, 0, []⟩
          lastStart := s.part.now, pendingCapture := false }) ∧
        (cools → t.cell = { s.cell with stage := .idle, served := none, releasing := false }) ∧
        (heats → t.cell = { s.cell with stage := .hot, served := none, releasing := false }) ∧
        (¬cools → ¬heats → t.cell = s.cell) ∧
        (¬lapses → t.supervision = s.supervision ∧ t.probe = s.probe) ∧
        (lapses → t.supervision = { s.supervision with state := .lapsed } ∧
          t.probe.list = s.probe.list.filter fun e => e.purpose == .diagnose) ∧
        ∀ i, i ∈ t.attention ↔ i ∈ s.attention ∨ (i = .box .syncLost ∧ begins ∧ source = .following) ∨
          (i = .box .cellHot ∧ heats) ∨ (i = .box .supervisionLapsed ∧ lapses)))

/-- R186, R135, R136: STORE makes the configuration in force the stored one and starts a write; a write's end verifies
the image and starts the pending write, if any, with the lockout set as it then stands. That a failed
read-back's contents come with the row (log 11) and that a write's end in IDLE is disregarded (log 16) is the model's choice.
-/
def Obligations.StoreWritesTheWholeImage : Prop :=
  ∀ (s : State) (w : Image) (contents : Option Image),
    (s.listening = true → s.mode = .run → exec .store s = .next (s.sendReply Kind.store.code ⟨.mode, []⟩)) ∧
    (s.listening = true → s.mode = .setup → s.store.writing ≠ none →
      exec .store s = .next (s.sendReply Kind.store.code ⟨.busy, []⟩)) ∧
    (s.listening = true → s.mode = .setup → s.store.writing = none →
      exec .store s = .next (({ s with store := { s.store with
        stored := s.settings, changed := false, writing := some ⟨s.settings, s.lockouts⟩,
        since := s.part.now } } : State).sendReply Kind.store.code ⟨.accepted, []⟩)) ∧
    (s.store.writing = some w → s.store.pending = false →
      exec (.storeWriteEnd .verified) s = .next { s with store := { s.store with image := some w, writing := none } } ∧
      exec (.storeWriteEnd (.differs contents)) s = .next (({ s with store := { s.store with
        image := contents, writing := none } } : State).raise (.box .storeFault))) ∧
    (s.store.writing = some w → s.store.pending = true →
      exec (.storeWriteEnd .verified) s = .next { s with store := { s.store with
        image := some w, pending := false, writing := some ⟨s.store.stored, s.lockouts⟩, since := s.part.now } } ∧
      exec (.storeWriteEnd (.differs contents)) s = .next (({ s with store := { s.store with
        image := contents, pending := false, writing := some ⟨s.store.stored, s.lockouts⟩,
        since := s.part.now } } : State).raise (.box .storeFault))) ∧
    (s.store.writing = none → ∀ readBack, exec (.storeWriteEnd readBack) s = .next s)

/-- R187, R149: RESTART is refused CONFLICT for another address, then BUSY while the store is WRITING; an accepted one
orders the reset, which the end of its reply makes with kind RESTART_MESSAGE. -/
def Obligations.RestartIsAnsweredBeforeItsReset : Prop :=
  ∀ (s : State) (address : Byte), s.listening = true →
    (address.toNat ≠ s.link.operating.address →
      exec (.restart address) s = .next (s.sendReply Kind.restart.code ⟨.conflict, []⟩)) ∧
    (address.toNat = s.link.operating.address → s.store.writing ≠ none →
      exec (.restart address) s = .next (s.sendReply Kind.restart.code ⟨.busy, []⟩)) ∧
    (address.toNat = s.link.operating.address → s.store.writing = none →
      ∃ t u : State, exec (.restart address) s = .next t ∧
        t = ({ s with link := { s.link with restartOrdered := true } } : State).sendReply
          Kind.restart.code ⟨.accepted, []⟩ ∧
        exec .replyComplete t = .next u ∧ u.part.cause = .restartMessage ∧ u.part.stage = .load ∧
        u.attention = [.box .restarted])

/-! ## Rounds -/

/-- R21, R23, R24, R25, R30: the round timer in TIMED and FALLBACK, a SYNC edge of at least 20 microseconds in
FOLLOWING and FALLBACK, and the expired SYNC watch start a round with the used strings' channels, or a capture round
when one is pending; a round in progress is left as it is. The clock is brought to the moment of the expiry (log 1).
That an expiry outside its source state is disregarded (log 16) and that one within a round moves the clock alone (logs 16,
34) is the model's choice. -/
def Obligations.RoundsStartBySource : Prop :=
  ∀ s : State, s.running = true →
    let began (now : Nat) (source : SourceState) : State := { s with
      part := { s.part with now := now }
      scan := { s.scan with
        round := some ⟨if s.scan.pendingCapture then 8 else s.box.averaging, 0, s.scan.pendingCapture,
          channelsOf s.strings, 0, []⟩
        source := source, lastStart := now, pendingCapture := false } }
    let due := max s.part.now (s.scan.lastStart + s.period)
    let watch := max s.part.now (s.scan.lastStart + 2 * s.period)
    (∀ c, c ∈ channelsOf s.strings ↔
      ∃ n r, getNum s.strings n = some r ∧ r.cfg.used = true ∧ c = ⟨n, r.cfg.input, 0, false⟩) ∧
    (s.scan.source = .timed → ∀ low, exec (.syncFallingEdge low) s = .next s ∧ exec .syncWatchExpiry s = .next s) ∧
    (s.scan.source = .fallback → exec .syncWatchExpiry s = .next s) ∧
    (s.scan.source = .following → exec .roundTimerExpiry s = .next s) ∧
    (∀ low, low < 20 → exec (.syncFallingEdge low) s = .next s) ∧
    (s.scan.round = none →
      (s.scan.source = .timed ∨ s.scan.source = .fallback →
        exec .roundTimerExpiry s = .next (began due s.scan.source)) ∧
      (∀ low, 20 ≤ low → s.scan.source = .following ∨ s.scan.source = .fallback →
        exec (.syncFallingEdge low) s = .next (began s.part.now .following)) ∧
      (s.scan.source = .following →
        exec .syncWatchExpiry s = .next ((began watch .fallback).raise (.box .syncLost)))) ∧
    (s.scan.round ≠ none →
      (s.scan.source = .timed ∨ s.scan.source = .fallback →
        exec .roundTimerExpiry s = .next { s with part := { s.part with now := due } }) ∧
      (∀ low, 20 ≤ low → s.scan.source = .following ∨ s.scan.source = .fallback →
        exec (.syncFallingEdge low) s = .next { s with scan := { s.scan with source := .following } }))

/-- R21, R22, R28, R30 to R32, R34, R35, R40: a sample set is added to the round in progress; the last one completes it:
the round counter rises by 1, each channel's string takes its current, saturated mark and, in a capture round, offset and
sensor-fault mark, the bus voltage and the temperature inputs are written, TEMP_STALE is raised for a newly missing source,
and the figures of every other string are held (the state `u`). On `u` the blocks then do their work in the order of R3: the
peer comparator compares and decides day and night, the waiting flags are cleared and a probe under an unlit group is
aborted, the fault monitor judges, the string controller answers, the isolator is compared, the queue is walked and the
probe unit looks for work; each of these is the subject of a statement of its own. A set with no round in progress is
disregarded (log 16), a set brings the clock to its moment (log 1), a reading comes in tenths of a degree (log 15), a sample
missing from a set reads 0 (log 29), and the comparison of the isolator before the walk (log 40), the look for work after it
(log 43) and a day start's restored budgets before the requests' recurrence test (log 45) are the model's choices. -/
def Obligations.SampleSetAddsOrCompletes : Prop :=
  ∀ (s : State) (set : SampleSet),
    (s.scan.round = none → exec (.sampleSet set) s = .next s) ∧
    (∀ r : Round, s.scan.round = some r →
      let now := max s.part.now (s.scan.lastStart + 5 * (r.taken + 1))
      let sampleOf (input : Nat) : Sample := (getNum set.currents input).getD ⟨0#13, false⟩
      let channels := r.channels.map fun c => { c with
        sum := c.sum + (sampleOf c.input).value.toInt, beyond := c.beyond || (sampleOf c.input).beyond }
      let busSum := r.busSum + set.bus.toInt
      (r.taken + 1 < r.total →
        exec (.sampleSet set) s = .next { s with
          part := { s.part with now := now }
          scan := { s.scan with round := some ⟨r.total, r.taken + 1, r.capture, channels, busSum,
            if r.taken = 0 then set.temps.map (·.toInt) else r.temps⟩ } }) ∧
      (r.total ≤ r.taken + 1 → s.strings.length = 24 → (r.channels.map (·.string)).Nodup →
        let readings := if r.taken = 0 then set.temps.map (·.toInt) else r.temps
        let temps : List (Option Int) := readings.map fun x => if -550 ≤ x ∧ x ≤ 1500 then some (x.tdiv 10) else none
        let named (k : Nat) (g : GroupRec) : Bool := g.cfg.source == match k with
          | 0 => .t1 | 1 => .t2 | 2 => .t3 | _ => .t4
        let missing := [0, 1, 2, 3].map fun k => (temps.getD k none).isNone && s.peer.groups.any (named k)
        let newly := ∃ k : Fin 4, missing[k.val]? = some true ∧ s.scan.missing[k.val]? = some false
        let capturedWell (c : Channel) := -50 ≤ c.sum.tdiv (r.total : Int) ∧ c.sum.tdiv (r.total : Int) ≤ 50 ∧ c.beyond = false
        ∃ t u : State, exec (.sampleSet set) s = .next t ∧
          u = { s with
            part := { s.part with now := now }
            scan := { s.scan with
              round := none, counter := s.scan.counter + 1, completed := true
              bus := (max 0 (min 16000 (busSum.tdiv (r.total : Int)))).toNat, temps := temps, missing := missing }
            strings := u.strings
            attention := u.attention } ∧ u.strings.length = 24 ∧
          (∀ n, stringNumber n = true → (∀ c ∈ channels, c.string ≠ n) → u.str n = s.str n) ∧
          (∀ c ∈ channels, stringNumber c.string = true →
            let mean := c.sum.tdiv (r.total : Int)
            let offset := if r.capture = true ∧ capturedWell c then mean else (s.str c.string).offset
            u.str c.string = { s.str c.string with
              offset := offset
              current := max (-4000) (min 4000 (mean - offset))
              saturated := decide (c.beyond = true ∨ mean - offset < -4000 ∨ 4000 < mean - offset)
              sensorFault := if r.capture = true then decide (¬capturedWell c) else (s.str c.string).sensorFault }) ∧
          (∀ i, i ∈ u.attention ↔ i ∈ s.attention ∨ (i = .box .tempStale ∧ newly) ∨
            (r.capture = true ∧ ∃ c ∈ channels, ¬capturedWell c ∧ i = .str .sensor c.string)) ∧
          (let v := (u.compare (r.channels.map (·.string))).decideDay
           let w := (v.newPeriod u).clearWaiting.abortUnlit
           t.peer = v.peer ∧ (∀ n, (t.str n).n = (v.str n).n ∧ (t.str n).p = (v.str n).p) ∧
             t = (((w.applyJudgements w.judgements).controllerTurn w.judgements).isolatorCompared.walk).lookForWork) ∧
          t.scan.counter = s.scan.counter + 1 ∧ t.scan.completed = true ∧ t.scan.temps = temps ∧
          t.scan.missing = missing ∧
          t.scan.bus = (max 0 (min 16000 (busSum.tdiv (r.total : Int)))).toNat ∧
          (∀ n, stringNumber n = true → (∀ c ∈ channels, c.string ≠ n) →
            (t.str n).current = (s.str n).current ∧ (t.str n).saturated = (s.str n).saturated ∧
            (t.str n).offset = (s.str n).offset ∧ (t.str n).sensorFault = (s.str n).sensorFault) ∧
          ∀ c ∈ channels, stringNumber c.string = true →
            let mean := c.sum.tdiv (r.total : Int)
            let good := -50 ≤ mean ∧ mean ≤ 50 ∧ c.beyond = false
            let offset := if r.capture = true ∧ good then mean else (s.str c.string).offset
            let q := t.str c.string
            q.offset = offset ∧ q.current = max (-4000) (min 4000 (mean - offset)) ∧
            (q.saturated = true ↔ c.beyond = true ∨ mean - offset < -4000 ∨ 4000 < mean - offset) ∧
            (r.capture = false → q.sensorFault = (s.str c.string).sensorFault) ∧
            (r.capture = true → (q.sensorFault = true ↔ ¬good)) ∧
            (r.capture = true → ¬good → Item.str .sensor c.string ∈ t.attention)))

/-! ## Peer comparison and the fault criteria -/

/-- R44: the median of a list of values, by any arrangement of them in ascending order: the middle value of an odd count,
the truncated mean of the two middle values of an even one. -/
def Obligations.MedianIsTakenInAscendingOrder : Prop :=
  ∀ (values ascending : List Nat) (h : Nat), ascending.Perm values → ascending.Pairwise (· ≤ ·) →
    (∀ x, values.length = 2 * h + 1 → ascending[h]? = some x → median values = x) ∧
    ∀ x y, values.length = 2 * h + 2 → ascending[h]? = some x → ascending[h + 1]? = some y →
      median values = (x + y) / 2

/-- R41 to R47: what the comparison writes into each string's record and each group's record. -/
def Obligations.ComparisonWritesReferencesAndIndices : Prop :=
  ∀ (s : State) (fresh : List Nat), TableSizes s →
    let t := s.compare fresh
    let eligible (g n : Nat) : Bool :=
      let r := t.str n
      r.cfg.used && r.cfg.group == g && (r.state == .connected || r.state == .suspect) && !r.saturated &&
        !r.sensorFault && decide (0 ≤ r.n) && fresh.contains n
    (∃ strings groups, t = { s with strings := strings, peer := { s.peer with groups := groups } }) ∧ TableSizes t ∧
    (∀ n, stringNumber n = true →
      { t.str n with n := (s.str n).n, p := (s.str n).p } = s.str n ∧
      ((s.str n).cfg.used = false → t.str n = s.str n) ∧
      ((s.str n).cfg.used = true →
        (t.str n).n = max (-2000) (min 2000 (roundDiv ((s.str n).current * 1000) ((s.str n).cfg.rated : Int))))) ∧
    (∀ g r, getNum s.peer.groups g = some r →
      let numbers := Config.stringNumbers.filter (eligible g)
      let values := numbers.map fun n => (t.str n).n.toNat
      let reference := if 3 ≤ values.length then some (median values) else none
      let lit := match reference with
        | none => false
        | some m => decide (s.box.daylightFloor ≤ m)
      getNum t.peer.groups g = some ⟨r.cfg,
        (Config.stringNumbers.filter fun n => (s.str n).cfg.used && (s.str n).cfg.group == g).length,
        values.length, reference, lit⟩ ∧
      ∀ n, stringNumber n = true → (t.str n).cfg.used = true → (t.str n).cfg.group = g →
        (t.str n).p = (match reference with
          | none => none
          | some m =>
            if lit = true ∧ eligible g n = true then
              some (max 0 (min 4000 (roundDiv ((t.str n).n * 1000) (m : Int)))).toNat
            else none)) ∧
    ∀ n, stringNumber n = true → (t.str n).cfg.used = true → s.grp (t.str n).cfg.group = none → (t.str n).p = none

/-- R50 to R55: the day/night decision of a completion. What the completion then does: a period changed by that decision takes
effect at once (R23, R24), every waiting flag is cleared (R125), a probe in flight on a string whose group is published unlit
is aborted with its entry kept (R126), and with no probe in flight the first eligible entry in list order is started (R114,
R115, R116). The eligibility and the start read the configuration as it stands: the model's choice (log 38). -/
def Obligations.NightAndDayFollowTheDarkRounds : Prop :=
  ∀ s : State,
    let dark := (∀ g ∈ s.peer.groups, g.lit = false) ∧
      ∀ r ∈ s.strings, r.cfg.used = true → r.cfg.group = 0 → r.state = .connected ∨ r.state = .suspect →
        r.sensorFault = false → r.n < (s.box.daylightFloor : Int)
    (s.peer.night = false → ¬dark → s.decideDay = { s with peer := { s.peer with dark := 0 } }) ∧
    (s.peer.night = false → dark → s.peer.dark + 1 < s.box.nightRounds →
      s.decideDay = { s with peer := { s.peer with dark := s.peer.dark + 1 } }) ∧
    (s.peer.night = false → dark → s.box.nightRounds ≤ s.peer.dark + 1 → ∃ probe,
      s.decideDay = { ({ s with
        peer := { s.peer with night := true, dark := 0 }
        scan := { s.scan with pendingCapture := true } } : State).raise (.box .daylight) with probe := probe } ∧
      (∀ f, probe.flight = some f → f.stage = .release ∧ f.pass = false) ∧
      probe.list.map (fun e => (e.string, e.purpose, e.origin, e.waiting)) =
        s.probe.list.map (fun e => (e.string, e.purpose, e.origin, e.waiting))) ∧
    (s.peer.night = true → dark → s.decideDay = s) ∧
    (s.peer.night = true → ¬dark →
      s.decideDay = ({ s with
        peer := { s.peer with night := false, dark := 0, day := s.peer.day + 1 }
        strings := s.strings.map fun r => if r.cfg.used then { r with budget := s.box.perDayMax } else r } :
          State).raise (.box .daylight)) ∧
    (let began (source : SourceState) : State := { s with scan := { s.scan with
        round := some ⟨if s.scan.pendingCapture then 8 else s.box.averaging, 0, s.scan.pendingCapture,
          channelsOf s.strings, 0, []⟩
        source := source, lastStart := s.part.now, pendingCapture := false } }
     let period := if s.peer.night = true then s.box.nightPeriod * 1000 else s.box.dayPeriod
     let length := match s.scan.source with
       | .following => 2 * period
       | _ => period
     ∀ b : State,
      (b.peer.night = s.peer.night ∨ s.part.now < s.scan.lastStart + length ∨ s.scan.round ≠ none →
        s.newPeriod b = s) ∧
      (b.peer.night ≠ s.peer.night → s.scan.lastStart + length ≤ s.part.now → s.scan.round = none →
        (s.scan.source ≠ .following → s.newPeriod b = began s.scan.source) ∧
        (s.scan.source = .following → s.newPeriod b = (began .fallback).raise (.box .syncLost)))) ∧
    (let sky (n : Nat) : Prop :=
       (s.str n).cfg.group = 0 ∨ ∃ g, s.grp (s.str n).cfg.group = some g ∧ g.lit = true
     let eligible (e : ProbeEntry) : Prop :=
       s.peer.night = false ∧ s.shutdown.asserted = false ∧ sky e.string ∧ e.waiting = false
     s.clearWaiting = { s with probe := { s.probe with list := s.probe.list.map fun e => { e with waiting := false } } } ∧
     (s.probe.flight = none → s.abortUnlit = s) ∧
     (∀ f, s.probe.flight = some f →
       (sky f.string → s.abortUnlit = s) ∧
       (¬sky f.string → s.abortUnlit = { s with probe := ⟨s.probe.list.map fun e =>
           if e.string = f.string ∧ e.purpose = .diagnose then { e with attempts := 0 } else e,
         some (if f.stage = .release then { f with pass := false } else { f with
           stage := .release, sampling := false, p1 := none, p2 := none, pass := false, since := s.part.now })⟩ })) ∧
     (s.probe.flight ≠ none ∨ (∀ e ∈ s.probe.list, ¬eligible e) → s.lookForWork = s) ∧
     (s.probe.flight = none → ∀ earlier e later, s.probe.list = earlier ++ e :: later →
       (∀ x ∈ earlier, ¬eligible x) → eligible e →
       let c := (s.str e.string).cfg
       s.lookForWork = { s with probe := { s.probe with flight := some {
         string := e.string, purpose := e.purpose, origin := e.origin, stage := .p1, sampling := false
         p1 := none, p2 := none, tg := 25, beta := 0
         settle := s.box.settle, nearEarth := s.box.nearEarth, closeMargin := s.box.closeMargin
         grouped := c.group != 0, modules := c.modules, voc25 := c.voc25, pass := false, since := s.part.now } } }))

/-- R58 to R64, R69: one round's judgement of a judged string: its run counters, its bucket and alarm, and the one cause
that it gives. R57: which strings are judged; a held string keeps its counters, bucket and alarm, and gives no request and no
item. R10: the SUSPECT test of a string. Clauses on a state say that a completion makes these judgements of every string, with
DEFICIT raised for an alarm set (R64), and the SUSPECT test of every string; and what the request of a cause then does at the
string controller and the queue: the severity that its cause fixes (R68), the entry admitted (R75), the entry of a queued
string raised by a higher severity alone (R76), the recurrence test of the fault monitor's causes (R131), and the discards
and holds of R11. An entry admitted while shutdown is ASSERTED is raised (R144) before the walk of its admission: the model's
choice (log 21). -/
def Obligations.CriteriaMatureAndGiveOneCause : Prop :=
  ∀ (r : StringRec) (box : BoxSettings) (night : Bool) (group : Option GroupRec),
    let j := r.judge box night group
    let q := j.figures
    let lit := night = false ∧ ∃ g, group = some g ∧ g.lit = true
    let bright := night = false ∧ ∃ g m, group = some g ∧ g.lit = true ∧ g.reference = some m ∧ 200 ≤ m
    { q with reverseRun := r.reverseRun, overRun := r.overRun, openRun := r.openRun, bucket := r.bucket, alarm := r.alarm }
      = r ∧
    q.reverseRun = (if r.current ≤ -(box.reverseLimit : Int) then min 2 (r.reverseRun + 1) else 0) ∧
    (night = true → q.overRun = r.overRun) ∧
    (night = false → q.overRun = if (box.overLimit : Int) ≤ r.n then min 3 (r.overRun + 1) else 0) ∧
    (bright → q.openRun = if r.n ≤ 10 then min 3 (r.openRun + 1) else 0) ∧
    (¬bright → q.openRun = r.openRun) ∧
    (∀ g p, lit → group = some g → r.p = some p →
      q.bucket = (if p < g.cfg.deficit then min 65535 (r.bucket + (g.cfg.deficit - p)) else r.bucket - g.cfg.leak) ∧
      (q.alarm = true ↔ (r.alarm = false ∧ g.cfg.trip ≤ q.bucket) ∨ (r.alarm = true ∧ g.cfg.trip / 4 ≤ q.bucket))) ∧
    (¬lit ∨ r.p = none → q.bucket = r.bucket ∧ q.alarm = r.alarm) ∧
    (j.alarmed = true ↔ r.alarm = false ∧ q.alarm = true) ∧
    let reverse := q.reverseRun = 2
    let exceeded := night = false ∧ q.overRun = 3
    let silent := bright ∧ q.openRun = 3
    let deficit := j.alarmed = true ∧ ∃ g, group = some g ∧ g.cfg.policy = .isolate
    (reverse → j.cause = some .reverse) ∧
    (¬reverse → exceeded → j.cause = some .overCurrent) ∧
    (¬reverse → ¬exceeded → silent → j.cause = some .openString) ∧
    (¬reverse → ¬exceeded → ¬silent → deficit → j.cause = some .deficit) ∧
    (¬reverse → ¬exceeded → ¬silent → ¬deficit → j.cause = none) ∧
    (∀ mode,
      let judged := r.cfg.used = true ∧ mode = .run ∧ (r.state = .connected ∨ r.state = .suspect) ∧ r.sensorFault = false
      (judged → r.monitor mode box night group = j) ∧ (¬judged → r.monitor mode box night group = ⟨r, none, false⟩)) ∧
    (let counting := r.reverseRun ≠ 0 ∨ r.overRun ≠ 0 ∨ r.openRun ≠ 0
     let watched := ∃ g, group = some g ∧ g.cfg.trip / 2 ≤ r.bucket
     let released := ∀ g, group = some g → r.bucket < g.cfg.trip / 4
     (r.state = .connected → counting ∨ watched → r.suspectTest group = { r with state := .suspect }) ∧
     (r.state = .connected → ¬counting → ¬watched → r.suspectTest group = r) ∧
     (r.state = .suspect → ¬counting → released →
       r.suspectTest group = { r with state := .connected, cause := none, verdict := none }) ∧
     (r.state = .suspect → counting ∨ ¬released → r.suspectTest group = r) ∧
     (r.state ≠ .connected → r.state ≠ .suspect → r.suspectTest group = r)) ∧
    ∀ s : State,
      let js := s.judgements
      let applied := s.applyJudgements js
      (∀ n, getNum js n = (getNum s.strings n).map fun x => x.monitor s.mode s.box s.peer.night (s.grp x.cfg.group)) ∧
      applied = { s with strings := js.map (·.figures), attention := applied.attention } ∧
      (∀ i, i ∈ applied.attention ↔ i ∈ s.attention ∨
        ∃ n x, getNum js n = some x ∧ x.alarmed = true ∧ i = .str .deficit n) ∧
      s.suspectTests = { s with strings := s.strings.map fun x => x.suspectTest (s.grp x.cfg.group) } ∧
      [ReqCause.reverse, .overCurrent, .openString, .deficit, .manual, .shutdown, .lockoutEnforce].map (·.severity) =
        [.critical, .high, .normal, .normal, .normal, .shutdown, .normal] ∧
      ∀ (n : Nat) (c : ReqCause), s.strings.length = 24 → stringNumber n = true →
        let x := s.str n
        let fault := c = .reverse ∨ c = .overCurrent ∨ c = .openString ∨ c = .deficit
        let recurs (round : Word32) : Bool := decide fault && decide (1 ≤ s.box.recurrence) &&
          (x.reconnectedAt.map fun a => decide ((round - a).toNat < s.box.recurrence)).getD false
        let others := s.sched.queue.filter fun e => e.string != n
        let opened (d : ReqCause) : State := s.updStr n fun q => { q with
          state := .queued, cause := some (.req d), verdict := none
          record := some ⟨.req d, s.scan.counter, s.peer.day, none, none, none, none, none, 0⟩
          budget := if recurs s.scan.counter then 0 else q.budget }
        (x.state = .connected ∨ x.state = .suspect → s.shutdown.asserted = false ∨ c = .shutdown →
          s.request n c = ({ opened c with sched := { s.sched with
            queue := insertEntry s.scan.counter s.sched.arrival ⟨n, c.severity, c, s.scan.counter, s.sched.arrival⟩
              s.sched.queue
            arrival := s.sched.arrival + 1 } } : State).walk) ∧
        (x.state = .connected ∨ x.state = .suspect → s.shutdown.asserted = true → c ≠ .shutdown →
          s.request n c = ({ opened .shutdown with sched := { s.sched with
            queue := insertEntry s.scan.counter (s.sched.arrival + 1)
              ⟨n, .shutdown, .shutdown, s.scan.counter, s.sched.arrival⟩ others
            arrival := s.sched.arrival + 1 } } : State).walk) ∧
        (∀ e, x.state = .queued → s.queued n = some e → c.severity.rank ≤ e.severity.rank → s.request n c = s) ∧
        (∀ e, x.state = .queued → s.queued n = some e → e.severity.rank < c.severity.rank →
          s.request n c = ((({ s with sched := { s.sched with
              queue := insertEntry s.scan.counter s.sched.arrival { e with severity := c.severity, cause := c } others } } :
                State).updStr n fun q => { q with
            cause := some (.req c), record := q.record.map fun d => { d with cause := .req c }
            budget := match q.record with
              | some d => if recurs d.round then 0 else q.budget
              | none => q.budget }).walk)) ∧
        (x.state = .closing → s.request n c = s.updStr n fun q => { q with held := match q.held with
          | none => some c
          | some d => if d.severity.rank < c.severity.rank then some c else some d }) ∧
        (x.state = .isolated ∨ x.state = .lockedOut → c ≠ .manual → c ≠ .lockoutEnforce → s.request n c = s) ∧
        (x.state = .breaking ∨ x.state = .unused ∨ x.state = .stuckClosed ∨ x.state = .breakFailed → s.request n c = s)

/-! ## The queue, the cell and the contactors -/

/-- R74, R75: an entry put into an ordered queue takes its place and the others keep theirs; the order is by severity,
then the older request round first, then the lower arrival index first, rounds and indices compared as differences modulo
2^32 from the counters. The service walk over that order (R78): every entry present is visited in turn, and decided by the
string's contact and its current at the last completion (R79, R153): already open, broken cold, broken through the cell when
it is IDLE and no entry visited before had the turn, or left to wait, with the escalation test of R92. The cell's return to
IDLE starts a walk (R78, R89, R91), and its entry to HOT or FAULTED makes that test for the entries that wait. An arrival at
OPEN within a walk starts a second one, and an isolator asked open with its feedback already there is OPEN at once (log 22);
the clock is the model's (log 1) and the monitor's reading a magnitude (log 13). -/
def Obligations.QueueKeepsItsOrder : Prop :=
  ∀ (counter arrival : Word32) (e : QueueEntry) (queue : List QueueEntry),
    (∀ x ∈ queue, x.arrival ≠ e.arrival) →
    queue.Pairwise (fun a b => a.before counter arrival b = true) →
    (insertEntry counter arrival e queue).Pairwise (fun a b => a.before counter arrival b = true) ∧
    (insertEntry counter arrival e queue).Perm (e :: queue) ∧
    (insertEntry counter arrival e queue).filter (fun x => x.arrival != e.arrival) = queue ∧
    ∀ a b : QueueEntry,
      let goesFirst := a.before counter arrival b = true ∧ b.before counter arrival a = false
      (b.severity.rank < a.severity.rank → goesFirst) ∧
      (a.severity = b.severity → (counter - b.round).toNat < (counter - a.round).toNat → goesFirst) ∧
      (a.severity = b.severity → a.round = b.round → (arrival - b.arrival).toNat < (arrival - a.arrival).toNat →
        goesFirst) ∧
    ∀ s : State, s.strings.length = 24 →
      let iso := s.isolator
      let asked : State := match iso.state with
        | .opening => s
        | .opened => s
        | .closing => { s with isolator := { iso with pendingOpen := true } }
        | _ => ({ s with isolator := { iso with
            state := if iso.feedback = .opened then .opened else .opening, since := s.part.now } } : State).raise (.box .output)
      let needs (x : QueueEntry) : Prop := (s.str x.string).position = .closed ∧ s.scan.completed = true ∧
        s.box.coldLimit < (s.str x.string).current.natAbs
      let escalates (x : QueueEntry) : Prop := s.box.escalation = true ∧
        ((x.severity ≠ .normal ∧ (s.str x.string).tapFault = true) ∨
          ((x.severity = .critical ∨ x.severity = .shutdown) ∧ (s.cell.stage = .hot ∨ s.cell.stage = .faulted)))
      let pressing := s.box.escalation = true ∧ ∃ x ∈ s.sched.queue, (x.severity = .critical ∨ x.severity = .shutdown) ∧ needs x
      let once (u : State) : State := (u.sched.queue.foldl (fun v x => v.1.visit v.2 x) (u, false)).1
      let late := max s.part.now (s.cell.since + s.cell.timeout)
      let left (stage : CellStage) : State := { s with
        cell := { s.cell with stage := stage, served := none, releasing := false } }
      let resting (stage : CellStage) : State := { left stage with part := { s.part with now := late } }
      (∀ (x : QueueEntry) (earlier : Bool), stringNumber x.string = true →
        let r := s.str x.string
        let sched (breaks : List BreakFlight) : Scheduler := { s.sched with
          queue := s.sched.queue.filter fun y => y.string != x.string, breaks := breaks }
        let turn := r.tapFault = false ∧ earlier = false ∧ s.cell.stage = .idle
        (r.position = .opened → s.visit earlier x = (((({ s with sched := sched s.sched.breaks } : State).updStr x.string
          fun q => { q with
            record := q.record.map fun d => { d with kind := some .alreadyOpen, current := none }
            state := if s.locked x.string then .lockedOut else .isolated }).raise (.str .isolated x.string)).place x.string
              .diagnose .auto, earlier)) ∧
        (r.position = .closed → s.scan.completed = false → s.visit earlier x = (s, earlier)) ∧
        (r.position = .closed → s.scan.completed = true → r.current.natAbs ≤ s.box.coldLimit →
          s.visit earlier x = (({ s with sched := sched (s.sched.breaks ++ [⟨x, false⟩]) } : State).updStr x.string
            fun q => { q with
              record := q.record.map fun d => { d with kind := some .cold, current := some q.current }
              state := .breaking, op := some (.opening s.part.now s.box.contactTimeout) }, earlier)) ∧
        (needs x → turn → s.visit earlier x = (({ s with
          sched := sched (s.sched.breaks ++ [⟨x, true⟩])
          cell := { s.cell with stage := .attaching, served := some x.string, since := s.part.now, timeout := 30 } } :
            State).updStr x.string fun q => { q with state := .breaking }, true)) ∧
        (needs x → ¬turn → ¬escalates x → s.visit earlier x = (s, earlier || !r.tapFault)) ∧
        (needs x → ¬turn → escalates x → s.visit earlier x = (asked, earlier || !r.tapFault))) ∧
      (let reached := (once s).isolator.state = .opened ∧ iso.state ≠ .opened
       (¬reached → s.walk = once s) ∧ (reached → s.walk = once (once s))) ∧
      (¬pressing → s.escalateWaiting = s) ∧
      (let reached := asked.isolator.state = .opened ∧ iso.state ≠ .opened
       pressing → (¬reached → s.escalateWaiting = asked) ∧ (reached → s.escalateWaiting = asked.walk)) ∧
      (s.cell.stage = .resting → s.cell.heat ≤ s.box.hMax → exec .restingEnd s = .next (resting .idle).walk) ∧
      (s.cell.stage = .resting → s.box.hMax < s.cell.heat →
        exec .restingEnd s = .next ((resting .hot).raise (.box .cellHot)).escalateWaiting) ∧
      (s.cell.stage = .hot → s.cell.heat ≤ s.box.hResume → exec .cellHotEnd s = .next (left .idle).walk) ∧
      (∀ n, s.cell.stage = .faulted → s.cell.releasing = true → s.cell.served = some n → stringNumber n = true →
        (s.str n).state ≠ .breakFailed →
        (s.cell.heat ≤ s.box.hMax → exec (.tapReleasedFeedback n) s = .next (left .idle).walk) ∧
        (s.box.hMax < s.cell.heat →
          exec (.tapReleasedFeedback n) s = .next ((left .hot).raise (.box .cellHot)).escalateWaiting)) ∧
      ∀ n, s.cell.stage = .detaching → s.cell.served = some n →
        exec .tapDetachTimeout s = .next (((({ s with
          part := { s.part with now := late }
          cell := { s.cell with
            stage := .faulted, releasing := false
            fault := some ⟨.detaching, some n, magnitude s.cell.monitor, s.scan.counter⟩ } } : State).raise
              (.box .cellFault)).updStr n fun q => { q with tapFault := true }).escalateWaiting)

/-- R84, R85: in ATTACHING the tap feedback of the string served starts the conduction and the open pulse; without it the
string is QUEUED again with its tap fault mark set, and a severity of HIGH or above asks for the box output open (R92). A
contact already OPEN ends the pulse at once (R98). The clock at the timeout (log 1) and the one walk after the return and
the cell's IDLE (log 25) are the model's; Iq is a magnitude (R86). -/
def Obligations.TapFeedbackAttachesOrReturns : Prop :=
  ∀ (s : State) (n : Nat), s.strings.length = 24 → stringNumber n = true →
    s.cell.stage = .attaching → s.cell.served = some n →
    let pulse := s.box.contactTimeout
    (∀ m, m ≠ n → exec (.tapClosedFeedback m) s = .next s) ∧
    ((s.str n).position = .closed →
      exec (.tapClosedFeedback n) s = .next (({ s with
        cell := { s.cell with stage := .conducting, since := s.part.now, timeout := pulse } } : State).updStr n
          fun r => { r with
            op := some (.opening s.part.now pulse)
            record := r.record.map fun q => { q with kind := some .commutated, current := none } })) ∧
    ((s.str n).position = .opened →
      let iq := min (magnitude s.cell.monitor) 4000
      ∃ t : State, exec (.tapClosedFeedback n) s = .next t ∧ t.cell.heat = s.cell.heat + max 1 ((iq + 99) / 100) ∧
        t.gateDrive = false ∧ (t.str n).op = (s.str n).op ∧
        (s.box.coldLimit < iq → t.cell.stage = .quenching ∧ (t.str n).state = (s.str n).state) ∧
        (iq ≤ s.box.coldLimit → t.cell.stage = .detaching ∧ t.breakOf n = none ∧
          (t.str n).state = (if s.locked n then .lockedOut else .isolated))) ∧
    (∃ t : State, exec .tapAttachTimeout s = .next t ∧ (t.str n).tapFault = true ∧
      t.part.now = max s.part.now (s.cell.since + s.cell.timeout)) ∧
    (∀ b, s.breakOf n = some b → s.sched.queue = [] → (s.str n).position = .closed → s.scan.completed = true →
      s.box.coldLimit < (s.str n).current.natAbs → b.entry.string = n →
      let now := max s.part.now (s.cell.since + s.cell.timeout)
      let returned : State := ({ s with
        part := { s.part with now := now }
        sched := { s.sched with
          queue := [b.entry], breaks := s.sched.breaks.filter fun x => x.entry.string != n }
        cell := { s.cell with stage := .idle, served := none, releasing := false } } : State).updStr n
          fun r => { r with state := .queued, tapFault := true }
      (b.entry.severity = .normal ∨ s.box.escalation = false → exec .tapAttachTimeout s = .next returned) ∧
      (1 ≤ b.entry.severity.rank → s.box.escalation = true →
        s.isolator.state = .closed ∨ s.isolator.state = .failed → s.isolator.feedback ≠ .opened →
        exec .tapAttachTimeout s = .next (({ returned with
          isolator := { s.isolator with state := .opening, since := now } } : State).raise (.box .output))))

/-- R87, R89, R91: the cell's way back to service, when no entry waits. A CELL_HOT_END above H_resume is disregarded (log
17), the record's current is the monitor's magnitude (log 13) and the clock is the model's own (log 1). -/
def Obligations.CellDetachesRestsAndCools : Prop :=
  ∀ (s : State) (n : Nat), s.strings.length = 24 → stringNumber n = true → s.sched.queue = [] →
    let now := max s.part.now (s.cell.since + s.cell.timeout)
    let idle : Cell := { s.cell with stage := .idle, served := none, releasing := false }
    let hot : Cell := { s.cell with stage := .hot, served := none, releasing := false }
    (s.cell.stage = .detaching → s.cell.served = some n →
      exec (.tapReleasedFeedback n) s = .next { s with
        cell := { s.cell with stage := .resting, since := s.part.now, timeout := 100 } } ∧
      exec .tapDetachTimeout s = .next ((({ s with
        part := { s.part with now := now }
        cell := { s.cell with
          stage := .faulted, releasing := false
          fault := some ⟨.detaching, some n, magnitude s.cell.monitor, s.scan.counter⟩ } } : State).raise
            (.box .cellFault)).updStr n fun r => { r with tapFault := true })) ∧
    (s.cell.stage = .resting → s.cell.heat ≤ s.box.hMax →
      exec .restingEnd s = .next { s with part := { s.part with now := now }, cell := idle }) ∧
    (s.cell.stage = .resting → s.box.hMax < s.cell.heat →
      exec .restingEnd s = .next (({ s with part := { s.part with now := now }, cell := hot } : State).raise
        (.box .cellHot))) ∧
    (s.cell.stage = .hot → s.cell.heat ≤ s.box.hResume → exec .cellHotEnd s = .next { s with cell := idle }) ∧
    (s.cell.stage = .hot → s.box.hResume < s.cell.heat → exec .cellHotEnd s = .next s) ∧
    (s.cell.stage = .faulted → s.cell.releasing = true → s.cell.served = some n →
      exec .restoreReleaseTimeout s = .next (({ s with
        part := { s.part with now := now }
        cell := { s.cell with
          releasing := false, fault := s.cell.fault.map fun f => { f with stage := .restore } } } : State).raise
            (.box .cellFault)) ∧
      (s.cell.heat ≤ s.box.hMax → (s.str n).state ≠ .breakFailed →
        exec (.tapReleasedFeedback n) s = .next { s with cell := idle }) ∧
      (s.cell.heat ≤ s.box.hMax → (s.str n).state = .breakFailed →
        exec (.tapReleasedFeedback n) s = .next ((({ s with cell := idle } : State).updStr n fun r => { r with
          state := if s.locked n then .lockedOut else .isolated }).place n .diagnose .auto)) ∧
      (s.box.hMax < s.cell.heat → (s.str n).state ≠ .breakFailed →
        exec (.tapReleasedFeedback n) s = .next (({ s with cell := hot } : State).raise (.box .cellHot))) ∧
      (s.box.hMax < s.cell.heat → (s.str n).state = .breakFailed →
        exec (.tapReleasedFeedback n) s = .next (((({ s with cell := hot } : State).raise (.box .cellHot)).updStr n
          fun r => { r with state := if s.locked n then .lockedOut else .isolated }).place n .diagnose .auto)))

/-- R86, R88, R90: in QUENCHING a monitor current at or below the limit in force ends the quench, with the string off
the bus and the cell detaching, and the quench timeout faults the cell with its tap held and opens the box output; in
any other stage the monitor's reading is all that changes. The reading is an operand (log 5), taken as a magnitude
(log 13); a quench timeout outside QUENCHING is disregarded (log 16). -/
def Obligations.QuenchEndsOrFails : Prop :=
  ∀ (s : State) (n : Nat) (w : Word16), s.cell.served = some n → s.strings.length = 24 → stringNumber n = true →
    let read : Cell := { s.cell with monitor := w }
    let left := s.sched.breaks.filter fun b => b.entry.string != n
    (s.cell.stage ≠ .quenching → exec (.quenchEnd w) s = .next { s with cell := read } ∧ exec .quenchTimeout s = .next s) ∧
    (s.cell.stage = .quenching →
      (s.cell.limit < magnitude w → exec (.quenchEnd w) s = .next { s with cell := read }) ∧
      (magnitude w ≤ s.cell.limit →
        exec (.quenchEnd w) s = .next (((({ s with
          cell := { read with stage := .detaching, since := s.part.now, timeout := 30 }
          sched := { s.sched with breaks := left } } : State).updStr n fun r => { r with
            state := if s.locked n then .lockedOut else .isolated }).raise (.str .isolated n)).place n
              .diagnose .auto)) ∧
      ∃ t : State, exec .quenchTimeout s = .next t ∧ t.cell.stage = .faulted ∧ t.tapDrive = some n ∧
        t.cell.fault = some ⟨.quenching, some n, magnitude s.cell.monitor, s.scan.counter⟩ ∧ t.cell.heat = s.cell.heat ∧
        Item.box .cellFault ∈ t.attention ∧
        ((∀ e ∈ s.sched.queue, e.string ≠ n) → (t.str n).state = .breakFailed ∧ (t.str n).cause = (s.str n).cause) ∧
        (s.isolator.state = .closed → s.isolator.feedback ≠ .opened → t.isolator.state = .opening) ∧
        (s.isolator.state = .closing → t.isolator.pendingOpen = true))

/-- R12, R15, R85, R86, R88, R97, R98: a contact that reads its target ends the operation in flight: a cold break ends
with the string off the bus, a commutated break starts its quench and heats the cell, a close puts the string on the
bus and makes its held request. Any other change is only read. The cell's monitor is read as a magnitude (log 13). -/
def Obligations.ContactPositionEndsItsOperation : Prop :=
  ∀ (s : State) (n since timeout : Nat) (origin : Origin), s.strings.length = 24 → stringNumber n = true →
    let iq := min (magnitude s.cell.monitor) 4000
    let lies (position : Contact) : State := s.updStr n fun r => { r with position := position }
    let off : StringState := if s.locked n then .lockedOut else .isolated
    ((s.str n).op = none → ∀ position, exec (.contactPositionChange n position) s = .next (lies position)) ∧
    ((s.str n).op = some (.opening since timeout) →
      exec (.contactPositionChange n .closed) s = .next (lies .closed) ∧
      (s.cell.stage ≠ .conducting ∨ s.cell.served ≠ some n →
        exec (.contactPositionChange n .opened) s = .next (((({ s with
          sched := { s.sched with breaks := s.sched.breaks.filter fun b => b.entry.string != n } } : State).updStr n
            fun r => { r with position := .opened, op := none, state := off }).raise (.str .isolated n)).place n
              .diagnose .auto)) ∧
      (s.cell.stage = .conducting → s.cell.served = some n → s.box.coldLimit < iq →
        exec (.contactPositionChange n .opened) s = .next (({ s with
          cell := { s.cell with
            stage := .quenching, since := s.part.now, timeout := s.box.quenchTimeout, limit := s.box.coldLimit
            heat := s.cell.heat + max 1 ((iq + 99) / 100) } } : State).updStr n fun r => { r with
              position := .opened, op := none
              record := r.record.map fun q => { q with kind := some .commutated, current := some (iq : Int) } })) ∧
      (s.cell.stage = .conducting → s.cell.served = some n → iq ≤ s.box.coldLimit →
        ∃ t : State, exec (.contactPositionChange n .opened) s = .next t ∧ t.cell.stage = .detaching ∧
          t.cell.heat = s.cell.heat + max 1 ((iq + 99) / 100) ∧ (t.str n).state = off ∧ t.gateDrive = false ∧
          Item.str .isolated n ∈ t.attention ∧ t.holdsEntry n = true ∧ t.breakOf n = none)) ∧
    ((s.str n).op = some (.closing origin since timeout) →
      exec (.contactPositionChange n .opened) s = .next (lies .opened) ∧
      ((s.str n).held = none → s.shutdown.asserted = false →
        exec (.contactPositionChange n .closed) s = .next ((s.updStr n fun r => { r with
          position := .closed, op := none, state := .connected, cause := none, verdict := none
          reverseRun := 0, overRun := 0, openRun := 0, bucket := 0, alarm := false
          reconnectedAt := if origin = .auto then some s.scan.counter else r.reconnectedAt }).raise
            (.str .closed n))) ∧
      (∀ c, (s.str n).held = some c → s.shutdown.asserted = false →
        ∃ t : State, exec (.contactPositionChange n .closed) s = .next t ∧ (t.str n).held = none ∧
          (t.str n).cause = some (.req c) ∧ (t.str n).state ≠ .connected ∧ (t.str n).state ≠ .closing ∧
          Item.str .closed n ∈ t.attention ∧ t.sched.arrival = s.sched.arrival + 1))

/-- R12, R15, R85, R92, R98: the contact timeout drops the coil drive. A break leaves its string STUCK_CLOSED, and opens the
box output for a severity of HIGH or above while escalation is enabled; a failed close leaves its string ISOLATED. That a
timeout with no operation is disregarded (log 16) and that the clock is brought to the timeout (log 1) is the model's form.
-/
def Obligations.ContactTimeoutEndsItsOperation : Prop :=
  ∀ (s : State) (n since timeout : Nat) (origin : Origin), s.strings.length = 24 → stringNumber n = true →
    let now := max s.part.now (since + timeout)
    let late : State := { s with part := { s.part with now := now } }
    let left := s.sched.breaks.filter fun b => b.entry.string != n
    let high := s.box.escalation = true ∧ ∃ b, s.breakOf n = some b ∧ 1 ≤ b.entry.severity.rank
    ((s.str n).op = none → exec (.contactTimeout n) s = .next s) ∧
    ((s.str n).op = some (.closing origin since timeout) →
      exec (.contactTimeout n) s = .next (((late.updStr n fun r => { r with
        op := none, state := .isolated, held := none
        cause := (match r.held with | none => r.cause | some c => some (.req c))
        record := r.record.map fun q => { q with closeFailed := min 20 (q.closeFailed + 1) } }).raise
          (.str .closeFailed n)).raise (.str .contact n))) ∧
    ((s.str n).op = some (.opening since timeout) →
      let cell : Cell := if s.cell.stage = .conducting ∧ s.cell.served = some n then
        { s.cell with stage := .detaching, since := now, timeout := 30 } else s.cell
      let stuck : State := ({ late with
        sched := { s.sched with breaks := left }, cell := cell } : State).updStr n fun r => { r with
          op := none, state := .stuckClosed }
      (¬high → exec (.contactTimeout n) s = .next (stuck.raise (.str .contact n))) ∧
      (high → s.isolator.state = .opening ∨ s.isolator.state = .opened →
        exec (.contactTimeout n) s = .next (stuck.raise (.str .contact n))) ∧
      (high → s.isolator.state = .closed ∨ s.isolator.state = .failed → s.isolator.feedback ≠ .opened →
        exec (.contactTimeout n) s = .next ((({ stuck.raise (.str .contact n) with
          isolator := { s.isolator with state := .opening, since := now } } : State)).raise (.box .output))) ∧
      (high → s.isolator.state = .closing →
        exec (.contactTimeout n) s = .next { stuck.raise (.str .contact n) with
          isolator := { s.isolator with pendingOpen := true } }))

/-- R104, R107, R109, R110: the isolator's operations end at their feedback or after 3 s, a pending open is carried
out at the end of a close, and a CLOSED or OPEN isolator is compared with its feedback at a completion, when no entry
waits. R102, R13, R14: the sister comparison of the contacts: a used string without an operation in flight whose contact
disagrees with its state is answered by that state, and no other string is; at a completion the requests and the
discrepancies due after the SUSPECT tests reach the string controller one by one, in an order that is free (R70, R75, log 9).
That a LOCKED_OUT string found CLOSED while shutdown is ASSERTED ends with cause SHUTDOWN even when that very walk breaks it is
the model's choice (log 21: the entry is raised before the walk of its admission).
That the row brings every reading of the feedback (log 5), that a timeout with no operation is disregarded (log 16)
and that the clock is brought to the timeout (log 1) is the model's form. -/
def Obligations.IsolatorEndsOrTimesOut : Prop :=
  ∀ s : State,
   (s.sched.queue = [] →
    let iso := s.isolator
    let now := max s.part.now (iso.since + 3000)
    let at_ (state : IsolatorState) (feedback : Travel) : State := { s with
      isolator := { iso with state := state, feedback := feedback, pendingOpen := false } }
    (∀ feedback, ¬(iso.state = .opening ∧ feedback = .opened) → ¬(iso.state = .closing ∧ feedback = .closed) →
      exec (.isolatorEndReached feedback) s = .next { s with isolator := { iso with feedback := feedback } }) ∧
    (iso.state = .opening →
      exec (.isolatorEndReached .opened) s = .next (({ s with
        isolator := { iso with state := .opened, feedback := .opened } } : State).raise (.box .output)) ∧
      exec .isolatorTimeout s = .next (({ s with
        part := { s.part with now := now }, isolator := { iso with state := .failed } } : State).raise (.box .output))) ∧
    (iso.state = .closing → iso.pendingOpen = false →
      exec (.isolatorEndReached .closed) s = .next ((at_ .closed .closed).raise (.box .output)) ∧
      exec .isolatorTimeout s = .next (({ at_ .failed iso.feedback with
        part := { s.part with now := now } } : State).raise (.box .output))) ∧
    (iso.state = .closing → iso.pendingOpen = true →
      exec (.isolatorEndReached .closed) s = .next (({ s with isolator := ⟨.opening, false, .closed, s.part.now⟩ } :
        State).raise (.box .output)) ∧
      (iso.feedback ≠ .opened →
        exec .isolatorTimeout s = .next (({ s with
          part := { s.part with now := now }, isolator := ⟨.opening, false, iso.feedback, now⟩ } : State).raise
            (.box .output)))) ∧
    (iso.state ≠ .opening → iso.state ≠ .closing → exec .isolatorTimeout s = .next s) ∧
    (iso.state = .closed ∨ iso.state = .opened → iso.feedback = .mid →
      s.isolatorCompared = ({ s with isolator := { iso with state := .failed } } : State).raise (.box .output)) ∧
    (iso.state = .closed → iso.feedback = .opened →
      s.isolatorCompared = ({ s with isolator := { iso with state := .opened } } : State).raise (.box .output)) ∧
    (iso.state = .opened → iso.feedback = .closed → s.shutdown.asserted = false →
      s.isolatorCompared = ({ s with isolator := { iso with state := .closed } } : State).raise (.box .output)) ∧
    (iso.state = .opened → iso.feedback = .closed → s.shutdown.asserted = true →
      s.isolatorCompared = ({ s with isolator := { iso with state := .opening, since := s.part.now } } : State).raise
        (.box .output))) ∧
   (let differs (u : State) (n : Nat) : Prop := let r := u.str n
      r.cfg.used = true ∧ r.op = none ∧
        ((r.state = .connected ∨ r.state = .suspect ∨ r.state = .stuckClosed) ∧ r.position = .opened ∨
          (r.state = .isolated ∨ r.state = .lockedOut) ∧ r.position = .closed)
    (∀ js : List Judgement, ∃ order : List Nat, order.Nodup ∧
      (∀ k, k ∈ order ↔ 1 ≤ k ∧ k ≤ 24 ∧ (∃ j c, getNum js k = some j ∧ j.cause = some c) ∨
        25 ≤ k ∧ k ≤ 48 ∧ differs s.suspectTests (k - 24)) ∧
      s.controllerTurn js = (order.foldl (fun (u : State) k => if 24 < k then u.discrepancy (k - 24) else
        match (getNum js k).bind (·.cause) with
        | none => u
        | some c => u.request k c) s.suspectTests).drawn) ∧
    ∀ n, s.strings.length = 24 → stringNumber n = true →
      let r := s.str n
      let t := s.discrepancy n
      (¬differs s n → t = s) ∧
      (differs s n → r.state = .connected ∨ r.state = .suspect →
        t = ((s.updStr n fun q => { q with
          state := .isolated, cause := some .externalOpen, verdict := none
          record := some ⟨.externalOpen, s.scan.counter, s.peer.day, some .alreadyOpen, none, none, none, none, 0⟩ }).raise
            (.str .contact n)).place n .diagnose .auto) ∧
      (differs s n → r.state = .stuckClosed →
        t = ((s.updStr n fun q => { q with state := if s.locked n then .lockedOut else .isolated }).raise
          (.str .contact n)).place n .diagnose .auto) ∧
      (differs s n → r.state = .isolated → ∃ flight : Option ProbeFlight, t.probe.flight = flight ∧
        (∀ f, s.probe.flight = some f → f.string = n → s.holdsEntry n = true →
          ∃ g, flight = some g ∧ g.string = n ∧ g.stage = .release ∧ g.pass = false) ∧
        (s.probing n = false ∨ s.holdsEntry n = false → flight = s.probe.flight) ∧
        (s.shutdown.asserted = false →
          t = (({ s with probe := ⟨s.probe.list.filter (fun e => e.string != n), flight⟩ } : State).updStr n fun q =>
            { q with
              state := .connected, cause := none, verdict := none
              reverseRun := 0, overRun := 0, openRun := 0, bucket := 0, alarm := false }).raise (.str .contact n)) ∧
        (s.shutdown.asserted = true → (t.str n).cause = some (.req .shutdown) ∧ Item.str .contact n ∈ t.attention ∧
          ((t.str n).state = .queued ∨ (t.str n).state = .breaking) ∧ ∀ e ∈ t.probe.list, e.string ≠ n)) ∧
      (differs s n → r.state = .lockedOut →
        Item.str .contact n ∈ t.attention ∧ t.lockouts = s.lockouts ∧ (∀ e ∈ t.probe.list, e.string ≠ n) ∧
        ((t.str n).state = .queued ∨ (t.str n).state = .breaking) ∧ t.sched.arrival = s.sched.arrival + 1 ∧
        (s.shutdown.asserted = false → (t.str n).cause = some (.req .lockoutEnforce) ∧
          (s.scan.completed = false → (t.str n).state = .queued ∧
            (⟨n, .normal, .lockoutEnforce, s.scan.counter, s.sched.arrival⟩ : QueueEntry) ∈ t.sched.queue)) ∧
        (s.shutdown.asserted = true → (t.str n).cause = some (.req .shutdown))))

/-! ## The probe unit -/

/-- R116, R120: the configurations P1, P2 and P3 follow each other, each held for the settle time and then read; the
probe tap is driven in them and not in RELEASE, and the bias is on the positive pole in P2 and on the negative pole in
P3. A reading is the sum of its eight samples divided by 8, truncated toward zero and clamped. The group temperature and βv
are taken with the P1 reading by the table of R120; an ungrouped string has no βv, which is kept as 0. A reading before the
settle time's end (log 36), one in RELEASE and a settle end out of its stage (log 16) are disregarded; the moments are the
model's clock (log 1). -/
def Obligations.ProbeStagesFollowEachOther : Prop :=
  ∀ (s : State) (f : ProbeFlight) (vp vn : List Word16), s.probe.flight = some f →
    let settled := max s.part.now (f.since + f.settle)
    let read := max s.part.now (f.since + f.settle + 8)
    let poles : Poles := ⟨poleReading vp, poleReading vn⟩
    let goes (now : Nat) (g : ProbeFlight) : State :=
      { s with part := { s.part with now := now }, probe := { s.probe with flight := some g } }
    let input (k : Nat) : Int := match s.scan.temps[k]? with
      | some (some v) => max (-40) (min 90 v)
      | _ => 25
    let group := (s.str f.string).cfg.group
    let tg : Int := match (s.grp group).map fun (g : GroupRec) => g.cfg.source with
      | none => 25
      | some .none => 25
      | some .t1 => input 0
      | some .t2 => input 1
      | some .t3 => input 2
      | some .t4 => input 3
      | some .external => match getNum s.scan.ext group with
        | some (.valid v _) => v
        | _ => 25
    let beta : Int := ((s.grp group).map fun (g : GroupRec) => g.cfg.beta).getD 0
    (f.stage ≠ .release → f.sampling = false →
      exec .probeSettleEnd s = .next (goes settled { f with sampling := true }) ∧
      exec (.probeReading vp vn) s = .next s) ∧
    (f.stage = .release ∨ f.sampling = true → exec .probeSettleEnd s = .next s) ∧
    (f.stage = .release → exec (.probeReading vp vn) s = .next s ∧ s.probeTap = none) ∧
    (f.stage ≠ .release → s.probeTap = some (f.string, f.stage)) ∧
    (s.positiveBias = true ↔ f.stage = .p2) ∧ (s.negativeBias = true ↔ f.stage = .p3) ∧
    (f.stage = .p1 → f.purpose = .diagnose → f.sampling = true →
      exec (.probeReading vp vn) s = .next (goes read { f with
        stage := .p2, sampling := false, p1 := some poles, since := read
        tg := tg, beta := beta })) ∧
    (f.stage = .p2 → f.sampling = true →
      exec (.probeReading vp vn) s = .next (goes read { f with
        stage := .p3, sampling := false, p2 := some poles, since := read })) ∧
    poles.vp = max (-16000) (min 16000 ((vp.map fun (x : Word16) => x.toInt).sum.tdiv 8)) ∧
    poles.vn = max (-16000) (min 16000 ((vn.map fun (x : Word16) => x.toInt).sum.tdiv 8))

/-- R117, R118, R119, R122, R123: the pattern of six near-earth marks fixes the verdict; the entry leaves the list, the unit
enters RELEASE, and the verdict is reported. A first inconsistent pattern repeats the probe from P1.
The moments are the model's clock (log 1). -/
def Obligations.ProbePatternGivesTheVerdict : Prop :=
  ∀ (s : State) (f : ProbeFlight) (p1 p2 : Poles) (vp vn : List Word16), s.probe.flight = some f → f.stage = .p3 →
    f.sampling = true → f.p1 = some p1 → f.p2 = some p2 →
    let now := max s.part.now (f.since + f.settle + 8)
    let near (x : Int) : Bool := decide (x.natAbs < f.nearEarth)
    let pattern := [near p1.vp, near p1.vn, near p2.vp, near p2.vn, near (poleReading vp), near (poleReading vn)]
    let vpn := p1.vp - p1.vn
    let q := max 0 (min 2000 (roundDiv (vpn * 1000) (expectedVoltage f.modules f.voc25 f.beta f.tg)))
    let ended (v : Verdict) (missing position : Option Nat) : Prop :=
      exec (.probeReading vp vn) s = .next (({ s with
        part := { s.part with now := now }
        probe := ⟨s.probe.list.filter (fun e => e.string != f.string), some { f with
          stage := .release, sampling := false, p1 := none, p2 := none, pass := false, since := now }⟩ } :
            State).verdictReported f.string ⟨v, missing, position⟩)
    let intact := [false, false, false, true, true, false]
    let openPattern := [true, true, false, true, true, false]
    let known := [intact, openPattern, [false, true, false, true, false, true], [true, false, true, false, true, false],
      [false, false, false, false, false, false], [true, true, false, false, false, false]]
    (pattern = intact → vpn ≤ 0 → ended .miswired none none) ∧
    (pattern = intact → 0 < vpn → q < 900 → 1 ≤ f.modules → ended .degraded
      (some (max 1 (min (f.modules : Int) (roundDiv ((f.modules : Int) * (1000 - q)) 1000))).toNat) none) ∧
    (pattern = intact → 0 < vpn → 900 ≤ q → q ≤ 1100 → ended .healthy none none) ∧
    (pattern = intact → 0 < vpn → 1100 < q → ended .miswired none none) ∧
    (pattern = [false, true, false, true, false, true] → ended .earthNeg none none) ∧
    (pattern = [true, false, true, false, true, false] → ended .earthPos none none) ∧
    (pattern = [false, false, false, false, false, false] → f.modules < 2 → ended .earthMid none none) ∧
    (pattern = [false, false, false, false, false, false] → 2 ≤ f.modules → vpn ≠ 0 → ended .earthMid none
      (some (max 1 (min ((f.modules : Int) - 1) (roundDiv ((f.modules : Int) * (-p1.vn)) vpn))).toNat)) ∧
    (pattern = [false, false, false, false, false, false] → 2 ≤ f.modules → vpn = 0 → ended .earthMid none (some 1)) ∧
    (pattern = [true, true, false, false, false, false] → ended .poleShort none none) ∧
    (pattern = openPattern → f.grouped = true → ended .openCircuit none none) ∧
    (pattern = openPattern → f.grouped = false → ended .unresolved none none) ∧
    (pattern ∉ known → ∀ e, s.entryOf f.string = some e →
      (e.attempts ≠ 0 → ended .unresolved none none) ∧
      (e.attempts = 0 →
        exec (.probeReading vp vn) s = .next { s with
          part := { s.part with now := now }
          probe := ⟨s.probe.list.map (fun x => if x.string = f.string then { x with attempts := 1 } else x),
            some { f with stage := .p1, sampling := false, p1 := none, p2 := none, since := now }⟩ }))

/-- R16, R17, R128: a reported verdict is written into the record; a locking one locks the string out and requests a store
write, a HEALTHY one starts an automatic reconnection when every condition holds. -/
def Obligations.VerdictLocksOrReconnects : Prop :=
  ∀ (s : State) (n : Nat) (x : Finding), s.strings.length = 24 → stringNumber n = true →
    let written : State := (s.updStr n fun r => { r with
      verdict := some x.verdict
      record := r.record.map fun q => { q with
        verdict := some x.verdict, missing := x.missing, position := x.position } }).raise (.str .verdict n)
    let locks := x.verdict = .earthPos ∨ x.verdict = .earthNeg ∨ x.verdict = .earthMid ∨ x.verdict = .poleShort
    let r := s.str n
    let returns := x.verdict = .healthy ∧ r.state = .isolated ∧
      (r.cause = some (.req .overCurrent) ∨ r.cause = some (.req .openString) ∨ r.cause = some (.req .deficit) ∨
        r.cause = some .externalOpen ∨ r.cause = some .restart) ∧
      s.mode = .run ∧ s.supervision.state = .supervised ∧ s.shutdown.asserted = false ∧ 1 ≤ r.budget
    (¬locks → ¬returns → s.verdictReported n x = written) ∧
    (returns → s.verdictReported n x =
      (written.updStr n fun r => { r with budget := r.budget - 1 }).place n .preClose .auto) ∧
    (locks → ∃ t : State, s.verdictReported n x = t ∧
      t.lockouts = (if s.locked n then s.lockouts else s.lockouts ++ [⟨n, x.verdict, s.peer.day⟩]) ∧
      t.strings = (written.updStr n fun q => { q with
        state := if q.state = .isolated then .lockedOut else q.state }).strings ∧
      (∀ i, i ∈ t.attention ↔ i ∈ s.attention ∨ i = .str .verdict n ∨ i = .str .locked n) ∧
      t.store = (if s.locked n then s.store else if s.store.writing.isSome then { s.store with pending := true }
        else { s.store with writing := some ⟨s.store.stored, t.lockouts⟩, since := s.part.now }) ∧
      t.probe = s.probe ∧ t.sched = s.sched)

/-- R100, R124, R125, R129: a check passes when Vpn reaches the bus voltage and the close margin; a failure counts and
waits for a round or withdraws the entry; a pass orders the close at the end of its RELEASE, and a
contact already CLOSED ends that close at once (R98). A RELEASE end outside RELEASE is disregarded (log 16), and the moments
are the model's clock (log 1). -/
def Obligations.CheckPassesOrWaitsForARound : Prop :=
  ∀ (s : State) (f : ProbeFlight) (vp vn : List Word16), s.probe.flight = some f → s.strings.length = 24 →
    stringNumber f.string = true →
    let read := max s.part.now (f.since + f.settle + 8)
    let late := max s.part.now (f.since + 20)
    let left := s.probe.list.filter fun e => e.string != f.string
    let reached := (s.scan.bus : Int) + (f.closeMargin : Int) ≤ poleReading vp - poleReading vn
    let releasing (pass : Bool) : ProbeFlight := { f with
      stage := .release, sampling := false, p1 := none, p2 := none, pass := pass, since := read }
    let failed (list : List ProbeEntry) : State := ({ s with
      part := { s.part with now := read }, probe := ⟨list, some (releasing false)⟩ } : State).updStr f.string fun r => { r with
        record := r.record.map fun q => { q with closeFailed := min 20 (q.closeFailed + 1) } }
    let held := s.shutdown.asserted = true ∨
      (f.origin = .auto ∧ (s.mode = .setup ∨ s.supervision.state ≠ .supervised))
    let freed (list : List ProbeEntry) : State := { s with
      part := { s.part with now := late }, probe := ⟨list, none⟩ }
    (f.stage = .p1 → f.purpose = .preClose → f.sampling = true →
      (reached → exec (.probeReading vp vn) s = .next { s with
        part := { s.part with now := read }, probe := { s.probe with flight := some (releasing true) } }) ∧
      (¬reached → ∀ e, s.entryOf f.string = some e →
        (e.attempts + 1 < s.box.attemptLimit →
          exec (.probeReading vp vn) s = .next (failed (s.probe.list.map fun x =>
            if x.string = f.string then { x with attempts := x.attempts + 1, waiting := true } else x))) ∧
        (s.box.attemptLimit ≤ e.attempts + 1 →
          exec (.probeReading vp vn) s = .next ((failed left).raise (.str .closeFailed f.string))))) ∧
    (f.stage ≠ .release → exec .probeReleaseEnd s = .next s) ∧
    (f.stage = .release → f.pass = false → exec .probeReleaseEnd s = .next (freed s.probe.list).lookForWork) ∧
    (f.stage = .release → f.pass = true → held → exec .probeReleaseEnd s = .next (freed left).lookForWork) ∧
    (f.stage = .release → f.pass = true → ¬held → (s.str f.string).position = .opened →
      exec .probeReleaseEnd s = .next (((freed left).updStr f.string fun r => { r with
        state := .closing, op := some (.closing f.origin late s.box.contactTimeout) }).lookForWork)) ∧
    (f.stage = .release → f.pass = true → ¬held → (s.str f.string).position = .closed → (s.str f.string).held = none →
      exec .probeReleaseEnd s = .next ((((freed left).updStr f.string fun r => { r with
        state := .connected, cause := none, verdict := none
        reverseRun := 0, overRun := 0, openRun := 0, bucket := 0, alarm := false
        reconnectedAt := if f.origin = .auto then some s.scan.counter else r.reconnectedAt }).raise
          (.str .closed f.string)).lookForWork))

/-- R121: the expected open-circuit voltage, and the range it lies in for every string and temperature that the part can
hold. -/
def Obligations.ExpectedVoltageStaysInItsRange : Prop :=
  ∀ (modules voc25 : Nat) (beta tg : Int), 1 ≤ modules → 100 ≤ voc25 → modules * voc25 ≤ 15000 → -60 ≤ beta → beta ≤ 0 →
    -40 ≤ tg → tg ≤ 90 →
    let exact : Int := (modules : Int) * (voc25 : Int) * (10000 + beta * (tg - 25))
    6100 ≤ 10000 + beta * (tg - 25) ∧ 10000 + beta * (tg - 25) ≤ 13900 ∧
    20000 * expectedVoltage modules voc25 beta tg ≤ 2 * exact + 10000 ∧
    2 * exact + 10000 < 20000 * (expectedVoltage modules voc25 beta tg + 1) ∧
    61 ≤ expectedVoltage modules voc25 beta tg ∧ expectedVoltage modules voc25 beta tg ≤ 20850

/-! ## Shutdown, and what each row may change -/

/-- R142, R143, R145, R76, R113, R126: the SHUTDOWN line's level, an assertion and a release. An assertion opens the box
output, takes every string off the bus or holds its request, raises every entry of the queue to SHUTDOWN with its round and
index kept, withdraws every PRE_CLOSE entry, keeps every DIAGNOSE entry and aborts the probe in flight; a release only
raises SHUTDOWN and looks for work. The line's level and its filter are held in State (log 26), the clock is the model's
(log 1), and an order of the blocks' work that shows is the model's choice (log 41). -/
def Obligations.ShutdownActsOnEveryBlock : Prop :=
  ∀ s : State,
    (∀ low, exec (.shutdownLevelChange low) s = .next { s with
      shutdown := { s.shutdown with lineLow := low, since := s.part.now } }) ∧
    (s.powered = true → s.shutdown.asserted = false → s.shutdown.lineLow = true → Sound s →
      ∃ t : State, exec .shutdownAssertion s = .next t ∧ t.shutdown = { s.shutdown with asserted := true } ∧
        t.part.now = max s.part.now (s.shutdown.since + 20) ∧ Item.box .shutdown ∈ t.attention ∧
        (∀ n, (t.str n).state ≠ .connected ∧ (t.str n).state ≠ .suspect) ∧
        (∀ n, (s.str n).state = .connected ∨ (s.str n).state = .suspect →
          (t.str n).cause = some (.req .shutdown) ∧ (t.str n).budget = (s.str n).budget) ∧
        (∀ n, (s.str n).state = .closing → (t.str n).state = .closing ∧ (t.str n).held = some .shutdown) ∧
        (∀ e ∈ t.sched.queue, e.severity = .shutdown ∧
          ((∃ x ∈ s.sched.queue, x.string = e.string ∧ x.severity = .shutdown) ∨
            e.cause = .shutdown ∧ (t.str e.string).cause = some (.req .shutdown))) ∧
        (∀ x ∈ s.sched.queue, (t.str x.string).state = .queued →
          ∃ e ∈ t.sched.queue, e.string = x.string ∧ e.round = x.round ∧ e.arrival = x.arrival) ∧
        (∀ e ∈ t.probe.list, e.purpose = .diagnose) ∧
        (∀ e ∈ s.probe.list, e.purpose = .diagnose →
          (if s.probing e.string then { e with attempts := 0 } else e) ∈ t.probe.list) ∧
        (∀ f, t.probe.flight = some f → f.stage = .release ∧ f.pass = false) ∧
        (s.isolator.state = .closed ∨ s.isolator.state = .failed → s.isolator.feedback ≠ .opened →
          t.isolator.state = .opening) ∧
        (s.isolator.state = .closing → t.isolator.state = .closing ∧ t.isolator.pendingOpen = true)) ∧
    (s.powered = true → s.shutdown.asserted = true → s.shutdown.lineLow = false →
      exec .shutdownRelease s = .next ((({ s with
        part := { s.part with now := max s.part.now (s.shutdown.since + 20) }
        shutdown := { s.shutdown with asserted := false } } : State).raise (.box .shutdown)).lookForWork))

/-- The blocks' ownership of their state (00, Block overview): a row changes no block but those that its rules name,
none but a completion, an assertion, a reset and a loss of supply draws a free value, and no row touches the waiting
commands. The clock and the blocks are the model's division (log 1). -/
def Obligations.EveryRowKeepsToItsBlocks : Prop :=
  ∀ (s t : State) (c : Instr), exec c s = .next t → ∀ b : Block, b ∉ mayChange c → Agree s t b
end

