-- ==== Sys2Proof/Laws/State.lean ====
section
/-! SUPPORT. One lemma per field per replacement of a block's state. -/

namespace Sys2Proof.Machine

/-! ## `setPart` -/

@[simp] theorem State.setPart_part (s : State) (x : Part) : (s.setPart x).part = x := rfl
@[simp] theorem State.setPart_mode (s : State) (x : Part) : (s.setPart x).mode = s.mode := rfl
@[simp] theorem State.setPart_link (s : State) (x : Part) : (s.setPart x).link = s.link := rfl
@[simp] theorem State.setPart_scan (s : State) (x : Part) : (s.setPart x).scan = s.scan := rfl
@[simp] theorem State.setPart_peer (s : State) (x : Part) : (s.setPart x).peer = s.peer := rfl
@[simp] theorem State.setPart_strings (s : State) (x : Part) : (s.setPart x).strings = s.strings := rfl
@[simp] theorem State.setPart_lockouts (s : State) (x : Part) : (s.setPart x).lockouts = s.lockouts := rfl
@[simp] theorem State.setPart_sched (s : State) (x : Part) : (s.setPart x).sched = s.sched := rfl
@[simp] theorem State.setPart_cell (s : State) (x : Part) : (s.setPart x).cell = s.cell := rfl
@[simp] theorem State.setPart_isolator (s : State) (x : Part) : (s.setPart x).isolator = s.isolator := rfl
@[simp] theorem State.setPart_probe (s : State) (x : Part) : (s.setPart x).probe = s.probe := rfl
@[simp] theorem State.setPart_shutdown (s : State) (x : Part) : (s.setPart x).shutdown = s.shutdown := rfl
@[simp] theorem State.setPart_supervision (s : State) (x : Part) : (s.setPart x).supervision = s.supervision := rfl
@[simp] theorem State.setPart_attention (s : State) (x : Part) : (s.setPart x).attention = s.attention := rfl
@[simp] theorem State.setPart_store (s : State) (x : Part) : (s.setPart x).store = s.store := rfl
@[simp] theorem State.setPart_box (s : State) (x : Part) : (s.setPart x).box = s.box := rfl
@[simp] theorem State.setPart_free (s : State) (x : Part) : (s.setPart x).free = s.free := rfl
@[simp] theorem State.setPart_pending (s : State) (x : Part) : (s.setPart x).pending = s.pending := rfl

/-! ## `setMode` -/

@[simp] theorem State.setMode_part (s : State) (x : Mode) : (s.setMode x).part = s.part := rfl
@[simp] theorem State.setMode_mode (s : State) (x : Mode) : (s.setMode x).mode = x := rfl
@[simp] theorem State.setMode_link (s : State) (x : Mode) : (s.setMode x).link = s.link := rfl
@[simp] theorem State.setMode_scan (s : State) (x : Mode) : (s.setMode x).scan = s.scan := rfl
@[simp] theorem State.setMode_peer (s : State) (x : Mode) : (s.setMode x).peer = s.peer := rfl
@[simp] theorem State.setMode_strings (s : State) (x : Mode) : (s.setMode x).strings = s.strings := rfl
@[simp] theorem State.setMode_lockouts (s : State) (x : Mode) : (s.setMode x).lockouts = s.lockouts := rfl
@[simp] theorem State.setMode_sched (s : State) (x : Mode) : (s.setMode x).sched = s.sched := rfl
@[simp] theorem State.setMode_cell (s : State) (x : Mode) : (s.setMode x).cell = s.cell := rfl
@[simp] theorem State.setMode_isolator (s : State) (x : Mode) : (s.setMode x).isolator = s.isolator := rfl
@[simp] theorem State.setMode_probe (s : State) (x : Mode) : (s.setMode x).probe = s.probe := rfl
@[simp] theorem State.setMode_shutdown (s : State) (x : Mode) : (s.setMode x).shutdown = s.shutdown := rfl
@[simp] theorem State.setMode_supervision (s : State) (x : Mode) : (s.setMode x).supervision = s.supervision := rfl
@[simp] theorem State.setMode_attention (s : State) (x : Mode) : (s.setMode x).attention = s.attention := rfl
@[simp] theorem State.setMode_store (s : State) (x : Mode) : (s.setMode x).store = s.store := rfl
@[simp] theorem State.setMode_box (s : State) (x : Mode) : (s.setMode x).box = s.box := rfl
@[simp] theorem State.setMode_free (s : State) (x : Mode) : (s.setMode x).free = s.free := rfl
@[simp] theorem State.setMode_pending (s : State) (x : Mode) : (s.setMode x).pending = s.pending := rfl

/-! ## `setLink` -/

@[simp] theorem State.setLink_part (s : State) (x : LinkPort) : (s.setLink x).part = s.part := rfl
@[simp] theorem State.setLink_mode (s : State) (x : LinkPort) : (s.setLink x).mode = s.mode := rfl
@[simp] theorem State.setLink_link (s : State) (x : LinkPort) : (s.setLink x).link = x := rfl
@[simp] theorem State.setLink_scan (s : State) (x : LinkPort) : (s.setLink x).scan = s.scan := rfl
@[simp] theorem State.setLink_peer (s : State) (x : LinkPort) : (s.setLink x).peer = s.peer := rfl
@[simp] theorem State.setLink_strings (s : State) (x : LinkPort) : (s.setLink x).strings = s.strings := rfl
@[simp] theorem State.setLink_lockouts (s : State) (x : LinkPort) : (s.setLink x).lockouts = s.lockouts := rfl
@[simp] theorem State.setLink_sched (s : State) (x : LinkPort) : (s.setLink x).sched = s.sched := rfl
@[simp] theorem State.setLink_cell (s : State) (x : LinkPort) : (s.setLink x).cell = s.cell := rfl
@[simp] theorem State.setLink_isolator (s : State) (x : LinkPort) : (s.setLink x).isolator = s.isolator := rfl
@[simp] theorem State.setLink_probe (s : State) (x : LinkPort) : (s.setLink x).probe = s.probe := rfl
@[simp] theorem State.setLink_shutdown (s : State) (x : LinkPort) : (s.setLink x).shutdown = s.shutdown := rfl
@[simp] theorem State.setLink_supervision (s : State) (x : LinkPort) : (s.setLink x).supervision = s.supervision := rfl
@[simp] theorem State.setLink_attention (s : State) (x : LinkPort) : (s.setLink x).attention = s.attention := rfl
@[simp] theorem State.setLink_store (s : State) (x : LinkPort) : (s.setLink x).store = s.store := rfl
@[simp] theorem State.setLink_box (s : State) (x : LinkPort) : (s.setLink x).box = s.box := rfl
@[simp] theorem State.setLink_free (s : State) (x : LinkPort) : (s.setLink x).free = s.free := rfl
@[simp] theorem State.setLink_pending (s : State) (x : LinkPort) : (s.setLink x).pending = s.pending := rfl

/-! ## `setScan` -/

@[simp] theorem State.setScan_part (s : State) (x : ScanUnit) : (s.setScan x).part = s.part := rfl
@[simp] theorem State.setScan_mode (s : State) (x : ScanUnit) : (s.setScan x).mode = s.mode := rfl
@[simp] theorem State.setScan_link (s : State) (x : ScanUnit) : (s.setScan x).link = s.link := rfl
@[simp] theorem State.setScan_scan (s : State) (x : ScanUnit) : (s.setScan x).scan = x := rfl
@[simp] theorem State.setScan_peer (s : State) (x : ScanUnit) : (s.setScan x).peer = s.peer := rfl
@[simp] theorem State.setScan_strings (s : State) (x : ScanUnit) : (s.setScan x).strings = s.strings := rfl
@[simp] theorem State.setScan_lockouts (s : State) (x : ScanUnit) : (s.setScan x).lockouts = s.lockouts := rfl
@[simp] theorem State.setScan_sched (s : State) (x : ScanUnit) : (s.setScan x).sched = s.sched := rfl
@[simp] theorem State.setScan_cell (s : State) (x : ScanUnit) : (s.setScan x).cell = s.cell := rfl
@[simp] theorem State.setScan_isolator (s : State) (x : ScanUnit) : (s.setScan x).isolator = s.isolator := rfl
@[simp] theorem State.setScan_probe (s : State) (x : ScanUnit) : (s.setScan x).probe = s.probe := rfl
@[simp] theorem State.setScan_shutdown (s : State) (x : ScanUnit) : (s.setScan x).shutdown = s.shutdown := rfl
@[simp] theorem State.setScan_supervision (s : State) (x : ScanUnit) : (s.setScan x).supervision = s.supervision := rfl
@[simp] theorem State.setScan_attention (s : State) (x : ScanUnit) : (s.setScan x).attention = s.attention := rfl
@[simp] theorem State.setScan_store (s : State) (x : ScanUnit) : (s.setScan x).store = s.store := rfl
@[simp] theorem State.setScan_box (s : State) (x : ScanUnit) : (s.setScan x).box = s.box := rfl
@[simp] theorem State.setScan_free (s : State) (x : ScanUnit) : (s.setScan x).free = s.free := rfl
@[simp] theorem State.setScan_pending (s : State) (x : ScanUnit) : (s.setScan x).pending = s.pending := rfl

/-! ## `setPeer` -/

@[simp] theorem State.setPeer_part (s : State) (x : Comparator) : (s.setPeer x).part = s.part := rfl
@[simp] theorem State.setPeer_mode (s : State) (x : Comparator) : (s.setPeer x).mode = s.mode := rfl
@[simp] theorem State.setPeer_link (s : State) (x : Comparator) : (s.setPeer x).link = s.link := rfl
@[simp] theorem State.setPeer_scan (s : State) (x : Comparator) : (s.setPeer x).scan = s.scan := rfl
@[simp] theorem State.setPeer_peer (s : State) (x : Comparator) : (s.setPeer x).peer = x := rfl
@[simp] theorem State.setPeer_strings (s : State) (x : Comparator) : (s.setPeer x).strings = s.strings := rfl
@[simp] theorem State.setPeer_lockouts (s : State) (x : Comparator) : (s.setPeer x).lockouts = s.lockouts := rfl
@[simp] theorem State.setPeer_sched (s : State) (x : Comparator) : (s.setPeer x).sched = s.sched := rfl
@[simp] theorem State.setPeer_cell (s : State) (x : Comparator) : (s.setPeer x).cell = s.cell := rfl
@[simp] theorem State.setPeer_isolator (s : State) (x : Comparator) : (s.setPeer x).isolator = s.isolator := rfl
@[simp] theorem State.setPeer_probe (s : State) (x : Comparator) : (s.setPeer x).probe = s.probe := rfl
@[simp] theorem State.setPeer_shutdown (s : State) (x : Comparator) : (s.setPeer x).shutdown = s.shutdown := rfl
@[simp] theorem State.setPeer_supervision (s : State) (x : Comparator) : (s.setPeer x).supervision = s.supervision := rfl
@[simp] theorem State.setPeer_attention (s : State) (x : Comparator) : (s.setPeer x).attention = s.attention := rfl
@[simp] theorem State.setPeer_store (s : State) (x : Comparator) : (s.setPeer x).store = s.store := rfl
@[simp] theorem State.setPeer_box (s : State) (x : Comparator) : (s.setPeer x).box = s.box := rfl
@[simp] theorem State.setPeer_free (s : State) (x : Comparator) : (s.setPeer x).free = s.free := rfl
@[simp] theorem State.setPeer_pending (s : State) (x : Comparator) : (s.setPeer x).pending = s.pending := rfl

/-! ## `setStrings` -/

@[simp] theorem State.setStrings_part (s : State) (x : List StringRec) : (s.setStrings x).part = s.part := rfl
@[simp] theorem State.setStrings_mode (s : State) (x : List StringRec) : (s.setStrings x).mode = s.mode := rfl
@[simp] theorem State.setStrings_link (s : State) (x : List StringRec) : (s.setStrings x).link = s.link := rfl
@[simp] theorem State.setStrings_scan (s : State) (x : List StringRec) : (s.setStrings x).scan = s.scan := rfl
@[simp] theorem State.setStrings_peer (s : State) (x : List StringRec) : (s.setStrings x).peer = s.peer := rfl
@[simp] theorem State.setStrings_strings (s : State) (x : List StringRec) : (s.setStrings x).strings = x := rfl
@[simp] theorem State.setStrings_lockouts (s : State) (x : List StringRec) : (s.setStrings x).lockouts = s.lockouts := rfl
@[simp] theorem State.setStrings_sched (s : State) (x : List StringRec) : (s.setStrings x).sched = s.sched := rfl
@[simp] theorem State.setStrings_cell (s : State) (x : List StringRec) : (s.setStrings x).cell = s.cell := rfl
@[simp] theorem State.setStrings_isolator (s : State) (x : List StringRec) : (s.setStrings x).isolator = s.isolator := rfl
@[simp] theorem State.setStrings_probe (s : State) (x : List StringRec) : (s.setStrings x).probe = s.probe := rfl
@[simp] theorem State.setStrings_shutdown (s : State) (x : List StringRec) : (s.setStrings x).shutdown = s.shutdown := rfl
@[simp] theorem State.setStrings_supervision (s : State) (x : List StringRec) : (s.setStrings x).supervision = s.supervision := rfl
@[simp] theorem State.setStrings_attention (s : State) (x : List StringRec) : (s.setStrings x).attention = s.attention := rfl
@[simp] theorem State.setStrings_store (s : State) (x : List StringRec) : (s.setStrings x).store = s.store := rfl
@[simp] theorem State.setStrings_box (s : State) (x : List StringRec) : (s.setStrings x).box = s.box := rfl
@[simp] theorem State.setStrings_free (s : State) (x : List StringRec) : (s.setStrings x).free = s.free := rfl
@[simp] theorem State.setStrings_pending (s : State) (x : List StringRec) : (s.setStrings x).pending = s.pending := rfl

/-! ## `setLockouts` -/

@[simp] theorem State.setLockouts_part (s : State) (x : List Lockout) : (s.setLockouts x).part = s.part := rfl
@[simp] theorem State.setLockouts_mode (s : State) (x : List Lockout) : (s.setLockouts x).mode = s.mode := rfl
@[simp] theorem State.setLockouts_link (s : State) (x : List Lockout) : (s.setLockouts x).link = s.link := rfl
@[simp] theorem State.setLockouts_scan (s : State) (x : List Lockout) : (s.setLockouts x).scan = s.scan := rfl
@[simp] theorem State.setLockouts_peer (s : State) (x : List Lockout) : (s.setLockouts x).peer = s.peer := rfl
@[simp] theorem State.setLockouts_strings (s : State) (x : List Lockout) : (s.setLockouts x).strings = s.strings := rfl
@[simp] theorem State.setLockouts_lockouts (s : State) (x : List Lockout) : (s.setLockouts x).lockouts = x := rfl
@[simp] theorem State.setLockouts_sched (s : State) (x : List Lockout) : (s.setLockouts x).sched = s.sched := rfl
@[simp] theorem State.setLockouts_cell (s : State) (x : List Lockout) : (s.setLockouts x).cell = s.cell := rfl
@[simp] theorem State.setLockouts_isolator (s : State) (x : List Lockout) : (s.setLockouts x).isolator = s.isolator := rfl
@[simp] theorem State.setLockouts_probe (s : State) (x : List Lockout) : (s.setLockouts x).probe = s.probe := rfl
@[simp] theorem State.setLockouts_shutdown (s : State) (x : List Lockout) : (s.setLockouts x).shutdown = s.shutdown := rfl
@[simp] theorem State.setLockouts_supervision (s : State) (x : List Lockout) : (s.setLockouts x).supervision = s.supervision := rfl
@[simp] theorem State.setLockouts_attention (s : State) (x : List Lockout) : (s.setLockouts x).attention = s.attention := rfl
@[simp] theorem State.setLockouts_store (s : State) (x : List Lockout) : (s.setLockouts x).store = s.store := rfl
@[simp] theorem State.setLockouts_box (s : State) (x : List Lockout) : (s.setLockouts x).box = s.box := rfl
@[simp] theorem State.setLockouts_free (s : State) (x : List Lockout) : (s.setLockouts x).free = s.free := rfl
@[simp] theorem State.setLockouts_pending (s : State) (x : List Lockout) : (s.setLockouts x).pending = s.pending := rfl

/-! ## `setSched` -/

@[simp] theorem State.setSched_part (s : State) (x : Scheduler) : (s.setSched x).part = s.part := rfl
@[simp] theorem State.setSched_mode (s : State) (x : Scheduler) : (s.setSched x).mode = s.mode := rfl
@[simp] theorem State.setSched_link (s : State) (x : Scheduler) : (s.setSched x).link = s.link := rfl
@[simp] theorem State.setSched_scan (s : State) (x : Scheduler) : (s.setSched x).scan = s.scan := rfl
@[simp] theorem State.setSched_peer (s : State) (x : Scheduler) : (s.setSched x).peer = s.peer := rfl
@[simp] theorem State.setSched_strings (s : State) (x : Scheduler) : (s.setSched x).strings = s.strings := rfl
@[simp] theorem State.setSched_lockouts (s : State) (x : Scheduler) : (s.setSched x).lockouts = s.lockouts := rfl
@[simp] theorem State.setSched_sched (s : State) (x : Scheduler) : (s.setSched x).sched = x := rfl
@[simp] theorem State.setSched_cell (s : State) (x : Scheduler) : (s.setSched x).cell = s.cell := rfl
@[simp] theorem State.setSched_isolator (s : State) (x : Scheduler) : (s.setSched x).isolator = s.isolator := rfl
@[simp] theorem State.setSched_probe (s : State) (x : Scheduler) : (s.setSched x).probe = s.probe := rfl
@[simp] theorem State.setSched_shutdown (s : State) (x : Scheduler) : (s.setSched x).shutdown = s.shutdown := rfl
@[simp] theorem State.setSched_supervision (s : State) (x : Scheduler) : (s.setSched x).supervision = s.supervision := rfl
@[simp] theorem State.setSched_attention (s : State) (x : Scheduler) : (s.setSched x).attention = s.attention := rfl
@[simp] theorem State.setSched_store (s : State) (x : Scheduler) : (s.setSched x).store = s.store := rfl
@[simp] theorem State.setSched_box (s : State) (x : Scheduler) : (s.setSched x).box = s.box := rfl
@[simp] theorem State.setSched_free (s : State) (x : Scheduler) : (s.setSched x).free = s.free := rfl
@[simp] theorem State.setSched_pending (s : State) (x : Scheduler) : (s.setSched x).pending = s.pending := rfl

/-! ## `setCell` -/

@[simp] theorem State.setCell_part (s : State) (x : Cell) : (s.setCell x).part = s.part := rfl
@[simp] theorem State.setCell_mode (s : State) (x : Cell) : (s.setCell x).mode = s.mode := rfl
@[simp] theorem State.setCell_link (s : State) (x : Cell) : (s.setCell x).link = s.link := rfl
@[simp] theorem State.setCell_scan (s : State) (x : Cell) : (s.setCell x).scan = s.scan := rfl
@[simp] theorem State.setCell_peer (s : State) (x : Cell) : (s.setCell x).peer = s.peer := rfl
@[simp] theorem State.setCell_strings (s : State) (x : Cell) : (s.setCell x).strings = s.strings := rfl
@[simp] theorem State.setCell_lockouts (s : State) (x : Cell) : (s.setCell x).lockouts = s.lockouts := rfl
@[simp] theorem State.setCell_sched (s : State) (x : Cell) : (s.setCell x).sched = s.sched := rfl
@[simp] theorem State.setCell_cell (s : State) (x : Cell) : (s.setCell x).cell = x := rfl
@[simp] theorem State.setCell_isolator (s : State) (x : Cell) : (s.setCell x).isolator = s.isolator := rfl
@[simp] theorem State.setCell_probe (s : State) (x : Cell) : (s.setCell x).probe = s.probe := rfl
@[simp] theorem State.setCell_shutdown (s : State) (x : Cell) : (s.setCell x).shutdown = s.shutdown := rfl
@[simp] theorem State.setCell_supervision (s : State) (x : Cell) : (s.setCell x).supervision = s.supervision := rfl
@[simp] theorem State.setCell_attention (s : State) (x : Cell) : (s.setCell x).attention = s.attention := rfl
@[simp] theorem State.setCell_store (s : State) (x : Cell) : (s.setCell x).store = s.store := rfl
@[simp] theorem State.setCell_box (s : State) (x : Cell) : (s.setCell x).box = s.box := rfl
@[simp] theorem State.setCell_free (s : State) (x : Cell) : (s.setCell x).free = s.free := rfl
@[simp] theorem State.setCell_pending (s : State) (x : Cell) : (s.setCell x).pending = s.pending := rfl

/-! ## `setIsolator` -/

@[simp] theorem State.setIsolator_part (s : State) (x : Isolator) : (s.setIsolator x).part = s.part := rfl
@[simp] theorem State.setIsolator_mode (s : State) (x : Isolator) : (s.setIsolator x).mode = s.mode := rfl
@[simp] theorem State.setIsolator_link (s : State) (x : Isolator) : (s.setIsolator x).link = s.link := rfl
@[simp] theorem State.setIsolator_scan (s : State) (x : Isolator) : (s.setIsolator x).scan = s.scan := rfl
@[simp] theorem State.setIsolator_peer (s : State) (x : Isolator) : (s.setIsolator x).peer = s.peer := rfl
@[simp] theorem State.setIsolator_strings (s : State) (x : Isolator) : (s.setIsolator x).strings = s.strings := rfl
@[simp] theorem State.setIsolator_lockouts (s : State) (x : Isolator) : (s.setIsolator x).lockouts = s.lockouts := rfl
@[simp] theorem State.setIsolator_sched (s : State) (x : Isolator) : (s.setIsolator x).sched = s.sched := rfl
@[simp] theorem State.setIsolator_cell (s : State) (x : Isolator) : (s.setIsolator x).cell = s.cell := rfl
@[simp] theorem State.setIsolator_isolator (s : State) (x : Isolator) : (s.setIsolator x).isolator = x := rfl
@[simp] theorem State.setIsolator_probe (s : State) (x : Isolator) : (s.setIsolator x).probe = s.probe := rfl
@[simp] theorem State.setIsolator_shutdown (s : State) (x : Isolator) : (s.setIsolator x).shutdown = s.shutdown := rfl
@[simp] theorem State.setIsolator_supervision (s : State) (x : Isolator) : (s.setIsolator x).supervision = s.supervision := rfl
@[simp] theorem State.setIsolator_attention (s : State) (x : Isolator) : (s.setIsolator x).attention = s.attention := rfl
@[simp] theorem State.setIsolator_store (s : State) (x : Isolator) : (s.setIsolator x).store = s.store := rfl
@[simp] theorem State.setIsolator_box (s : State) (x : Isolator) : (s.setIsolator x).box = s.box := rfl
@[simp] theorem State.setIsolator_free (s : State) (x : Isolator) : (s.setIsolator x).free = s.free := rfl
@[simp] theorem State.setIsolator_pending (s : State) (x : Isolator) : (s.setIsolator x).pending = s.pending := rfl

/-! ## `setProbe` -/

@[simp] theorem State.setProbe_part (s : State) (x : ProbeUnit) : (s.setProbe x).part = s.part := rfl
@[simp] theorem State.setProbe_mode (s : State) (x : ProbeUnit) : (s.setProbe x).mode = s.mode := rfl
@[simp] theorem State.setProbe_link (s : State) (x : ProbeUnit) : (s.setProbe x).link = s.link := rfl
@[simp] theorem State.setProbe_scan (s : State) (x : ProbeUnit) : (s.setProbe x).scan = s.scan := rfl
@[simp] theorem State.setProbe_peer (s : State) (x : ProbeUnit) : (s.setProbe x).peer = s.peer := rfl
@[simp] theorem State.setProbe_strings (s : State) (x : ProbeUnit) : (s.setProbe x).strings = s.strings := rfl
@[simp] theorem State.setProbe_lockouts (s : State) (x : ProbeUnit) : (s.setProbe x).lockouts = s.lockouts := rfl
@[simp] theorem State.setProbe_sched (s : State) (x : ProbeUnit) : (s.setProbe x).sched = s.sched := rfl
@[simp] theorem State.setProbe_cell (s : State) (x : ProbeUnit) : (s.setProbe x).cell = s.cell := rfl
@[simp] theorem State.setProbe_isolator (s : State) (x : ProbeUnit) : (s.setProbe x).isolator = s.isolator := rfl
@[simp] theorem State.setProbe_probe (s : State) (x : ProbeUnit) : (s.setProbe x).probe = x := rfl
@[simp] theorem State.setProbe_shutdown (s : State) (x : ProbeUnit) : (s.setProbe x).shutdown = s.shutdown := rfl
@[simp] theorem State.setProbe_supervision (s : State) (x : ProbeUnit) : (s.setProbe x).supervision = s.supervision := rfl
@[simp] theorem State.setProbe_attention (s : State) (x : ProbeUnit) : (s.setProbe x).attention = s.attention := rfl
@[simp] theorem State.setProbe_store (s : State) (x : ProbeUnit) : (s.setProbe x).store = s.store := rfl
@[simp] theorem State.setProbe_box (s : State) (x : ProbeUnit) : (s.setProbe x).box = s.box := rfl
@[simp] theorem State.setProbe_free (s : State) (x : ProbeUnit) : (s.setProbe x).free = s.free := rfl
@[simp] theorem State.setProbe_pending (s : State) (x : ProbeUnit) : (s.setProbe x).pending = s.pending := rfl

/-! ## `setShutdown` -/

@[simp] theorem State.setShutdown_part (s : State) (x : ShutdownMonitor) : (s.setShutdown x).part = s.part := rfl
@[simp] theorem State.setShutdown_mode (s : State) (x : ShutdownMonitor) : (s.setShutdown x).mode = s.mode := rfl
@[simp] theorem State.setShutdown_link (s : State) (x : ShutdownMonitor) : (s.setShutdown x).link = s.link := rfl
@[simp] theorem State.setShutdown_scan (s : State) (x : ShutdownMonitor) : (s.setShutdown x).scan = s.scan := rfl
@[simp] theorem State.setShutdown_peer (s : State) (x : ShutdownMonitor) : (s.setShutdown x).peer = s.peer := rfl
@[simp] theorem State.setShutdown_strings (s : State) (x : ShutdownMonitor) : (s.setShutdown x).strings = s.strings := rfl
@[simp] theorem State.setShutdown_lockouts (s : State) (x : ShutdownMonitor) : (s.setShutdown x).lockouts = s.lockouts := rfl
@[simp] theorem State.setShutdown_sched (s : State) (x : ShutdownMonitor) : (s.setShutdown x).sched = s.sched := rfl
@[simp] theorem State.setShutdown_cell (s : State) (x : ShutdownMonitor) : (s.setShutdown x).cell = s.cell := rfl
@[simp] theorem State.setShutdown_isolator (s : State) (x : ShutdownMonitor) : (s.setShutdown x).isolator = s.isolator := rfl
@[simp] theorem State.setShutdown_probe (s : State) (x : ShutdownMonitor) : (s.setShutdown x).probe = s.probe := rfl
@[simp] theorem State.setShutdown_shutdown (s : State) (x : ShutdownMonitor) : (s.setShutdown x).shutdown = x := rfl
@[simp] theorem State.setShutdown_supervision (s : State) (x : ShutdownMonitor) : (s.setShutdown x).supervision = s.supervision := rfl
@[simp] theorem State.setShutdown_attention (s : State) (x : ShutdownMonitor) : (s.setShutdown x).attention = s.attention := rfl
@[simp] theorem State.setShutdown_store (s : State) (x : ShutdownMonitor) : (s.setShutdown x).store = s.store := rfl
@[simp] theorem State.setShutdown_box (s : State) (x : ShutdownMonitor) : (s.setShutdown x).box = s.box := rfl
@[simp] theorem State.setShutdown_free (s : State) (x : ShutdownMonitor) : (s.setShutdown x).free = s.free := rfl
@[simp] theorem State.setShutdown_pending (s : State) (x : ShutdownMonitor) : (s.setShutdown x).pending = s.pending := rfl

/-! ## `setSupervision` -/

@[simp] theorem State.setSupervision_part (s : State) (x : Supervision) : (s.setSupervision x).part = s.part := rfl
@[simp] theorem State.setSupervision_mode (s : State) (x : Supervision) : (s.setSupervision x).mode = s.mode := rfl
@[simp] theorem State.setSupervision_link (s : State) (x : Supervision) : (s.setSupervision x).link = s.link := rfl
@[simp] theorem State.setSupervision_scan (s : State) (x : Supervision) : (s.setSupervision x).scan = s.scan := rfl
@[simp] theorem State.setSupervision_peer (s : State) (x : Supervision) : (s.setSupervision x).peer = s.peer := rfl
@[simp] theorem State.setSupervision_strings (s : State) (x : Supervision) : (s.setSupervision x).strings = s.strings := rfl
@[simp] theorem State.setSupervision_lockouts (s : State) (x : Supervision) : (s.setSupervision x).lockouts = s.lockouts := rfl
@[simp] theorem State.setSupervision_sched (s : State) (x : Supervision) : (s.setSupervision x).sched = s.sched := rfl
@[simp] theorem State.setSupervision_cell (s : State) (x : Supervision) : (s.setSupervision x).cell = s.cell := rfl
@[simp] theorem State.setSupervision_isolator (s : State) (x : Supervision) : (s.setSupervision x).isolator = s.isolator := rfl
@[simp] theorem State.setSupervision_probe (s : State) (x : Supervision) : (s.setSupervision x).probe = s.probe := rfl
@[simp] theorem State.setSupervision_shutdown (s : State) (x : Supervision) : (s.setSupervision x).shutdown = s.shutdown := rfl
@[simp] theorem State.setSupervision_supervision (s : State) (x : Supervision) : (s.setSupervision x).supervision = x := rfl
@[simp] theorem State.setSupervision_attention (s : State) (x : Supervision) : (s.setSupervision x).attention = s.attention := rfl
@[simp] theorem State.setSupervision_store (s : State) (x : Supervision) : (s.setSupervision x).store = s.store := rfl
@[simp] theorem State.setSupervision_box (s : State) (x : Supervision) : (s.setSupervision x).box = s.box := rfl
@[simp] theorem State.setSupervision_free (s : State) (x : Supervision) : (s.setSupervision x).free = s.free := rfl
@[simp] theorem State.setSupervision_pending (s : State) (x : Supervision) : (s.setSupervision x).pending = s.pending := rfl

/-! ## `setAttention` -/

@[simp] theorem State.setAttention_part (s : State) (x : List Item) : (s.setAttention x).part = s.part := rfl
@[simp] theorem State.setAttention_mode (s : State) (x : List Item) : (s.setAttention x).mode = s.mode := rfl
@[simp] theorem State.setAttention_link (s : State) (x : List Item) : (s.setAttention x).link = s.link := rfl
@[simp] theorem State.setAttention_scan (s : State) (x : List Item) : (s.setAttention x).scan = s.scan := rfl
@[simp] theorem State.setAttention_peer (s : State) (x : List Item) : (s.setAttention x).peer = s.peer := rfl
@[simp] theorem State.setAttention_strings (s : State) (x : List Item) : (s.setAttention x).strings = s.strings := rfl
@[simp] theorem State.setAttention_lockouts (s : State) (x : List Item) : (s.setAttention x).lockouts = s.lockouts := rfl
@[simp] theorem State.setAttention_sched (s : State) (x : List Item) : (s.setAttention x).sched = s.sched := rfl
@[simp] theorem State.setAttention_cell (s : State) (x : List Item) : (s.setAttention x).cell = s.cell := rfl
@[simp] theorem State.setAttention_isolator (s : State) (x : List Item) : (s.setAttention x).isolator = s.isolator := rfl
@[simp] theorem State.setAttention_probe (s : State) (x : List Item) : (s.setAttention x).probe = s.probe := rfl
@[simp] theorem State.setAttention_shutdown (s : State) (x : List Item) : (s.setAttention x).shutdown = s.shutdown := rfl
@[simp] theorem State.setAttention_supervision (s : State) (x : List Item) : (s.setAttention x).supervision = s.supervision := rfl
@[simp] theorem State.setAttention_attention (s : State) (x : List Item) : (s.setAttention x).attention = x := rfl
@[simp] theorem State.setAttention_store (s : State) (x : List Item) : (s.setAttention x).store = s.store := rfl
@[simp] theorem State.setAttention_box (s : State) (x : List Item) : (s.setAttention x).box = s.box := rfl
@[simp] theorem State.setAttention_free (s : State) (x : List Item) : (s.setAttention x).free = s.free := rfl
@[simp] theorem State.setAttention_pending (s : State) (x : List Item) : (s.setAttention x).pending = s.pending := rfl

/-! ## `setStore` -/

@[simp] theorem State.setStore_part (s : State) (x : SettingsStore) : (s.setStore x).part = s.part := rfl
@[simp] theorem State.setStore_mode (s : State) (x : SettingsStore) : (s.setStore x).mode = s.mode := rfl
@[simp] theorem State.setStore_link (s : State) (x : SettingsStore) : (s.setStore x).link = s.link := rfl
@[simp] theorem State.setStore_scan (s : State) (x : SettingsStore) : (s.setStore x).scan = s.scan := rfl
@[simp] theorem State.setStore_peer (s : State) (x : SettingsStore) : (s.setStore x).peer = s.peer := rfl
@[simp] theorem State.setStore_strings (s : State) (x : SettingsStore) : (s.setStore x).strings = s.strings := rfl
@[simp] theorem State.setStore_lockouts (s : State) (x : SettingsStore) : (s.setStore x).lockouts = s.lockouts := rfl
@[simp] theorem State.setStore_sched (s : State) (x : SettingsStore) : (s.setStore x).sched = s.sched := rfl
@[simp] theorem State.setStore_cell (s : State) (x : SettingsStore) : (s.setStore x).cell = s.cell := rfl
@[simp] theorem State.setStore_isolator (s : State) (x : SettingsStore) : (s.setStore x).isolator = s.isolator := rfl
@[simp] theorem State.setStore_probe (s : State) (x : SettingsStore) : (s.setStore x).probe = s.probe := rfl
@[simp] theorem State.setStore_shutdown (s : State) (x : SettingsStore) : (s.setStore x).shutdown = s.shutdown := rfl
@[simp] theorem State.setStore_supervision (s : State) (x : SettingsStore) : (s.setStore x).supervision = s.supervision := rfl
@[simp] theorem State.setStore_attention (s : State) (x : SettingsStore) : (s.setStore x).attention = s.attention := rfl
@[simp] theorem State.setStore_store (s : State) (x : SettingsStore) : (s.setStore x).store = x := rfl
@[simp] theorem State.setStore_box (s : State) (x : SettingsStore) : (s.setStore x).box = s.box := rfl
@[simp] theorem State.setStore_free (s : State) (x : SettingsStore) : (s.setStore x).free = s.free := rfl
@[simp] theorem State.setStore_pending (s : State) (x : SettingsStore) : (s.setStore x).pending = s.pending := rfl

/-! ## `setBox` -/

@[simp] theorem State.setBox_part (s : State) (x : BoxSettings) : (s.setBox x).part = s.part := rfl
@[simp] theorem State.setBox_mode (s : State) (x : BoxSettings) : (s.setBox x).mode = s.mode := rfl
@[simp] theorem State.setBox_link (s : State) (x : BoxSettings) : (s.setBox x).link = s.link := rfl
@[simp] theorem State.setBox_scan (s : State) (x : BoxSettings) : (s.setBox x).scan = s.scan := rfl
@[simp] theorem State.setBox_peer (s : State) (x : BoxSettings) : (s.setBox x).peer = s.peer := rfl
@[simp] theorem State.setBox_strings (s : State) (x : BoxSettings) : (s.setBox x).strings = s.strings := rfl
@[simp] theorem State.setBox_lockouts (s : State) (x : BoxSettings) : (s.setBox x).lockouts = s.lockouts := rfl
@[simp] theorem State.setBox_sched (s : State) (x : BoxSettings) : (s.setBox x).sched = s.sched := rfl
@[simp] theorem State.setBox_cell (s : State) (x : BoxSettings) : (s.setBox x).cell = s.cell := rfl
@[simp] theorem State.setBox_isolator (s : State) (x : BoxSettings) : (s.setBox x).isolator = s.isolator := rfl
@[simp] theorem State.setBox_probe (s : State) (x : BoxSettings) : (s.setBox x).probe = s.probe := rfl
@[simp] theorem State.setBox_shutdown (s : State) (x : BoxSettings) : (s.setBox x).shutdown = s.shutdown := rfl
@[simp] theorem State.setBox_supervision (s : State) (x : BoxSettings) : (s.setBox x).supervision = s.supervision := rfl
@[simp] theorem State.setBox_attention (s : State) (x : BoxSettings) : (s.setBox x).attention = s.attention := rfl
@[simp] theorem State.setBox_store (s : State) (x : BoxSettings) : (s.setBox x).store = s.store := rfl
@[simp] theorem State.setBox_box (s : State) (x : BoxSettings) : (s.setBox x).box = x := rfl
@[simp] theorem State.setBox_free (s : State) (x : BoxSettings) : (s.setBox x).free = s.free := rfl
@[simp] theorem State.setBox_pending (s : State) (x : BoxSettings) : (s.setBox x).pending = s.pending := rfl

/-! ## `setFree` -/

@[simp] theorem State.setFree_part (s : State) (x : FreeChoices) : (s.setFree x).part = s.part := rfl
@[simp] theorem State.setFree_mode (s : State) (x : FreeChoices) : (s.setFree x).mode = s.mode := rfl
@[simp] theorem State.setFree_link (s : State) (x : FreeChoices) : (s.setFree x).link = s.link := rfl
@[simp] theorem State.setFree_scan (s : State) (x : FreeChoices) : (s.setFree x).scan = s.scan := rfl
@[simp] theorem State.setFree_peer (s : State) (x : FreeChoices) : (s.setFree x).peer = s.peer := rfl
@[simp] theorem State.setFree_strings (s : State) (x : FreeChoices) : (s.setFree x).strings = s.strings := rfl
@[simp] theorem State.setFree_lockouts (s : State) (x : FreeChoices) : (s.setFree x).lockouts = s.lockouts := rfl
@[simp] theorem State.setFree_sched (s : State) (x : FreeChoices) : (s.setFree x).sched = s.sched := rfl
@[simp] theorem State.setFree_cell (s : State) (x : FreeChoices) : (s.setFree x).cell = s.cell := rfl
@[simp] theorem State.setFree_isolator (s : State) (x : FreeChoices) : (s.setFree x).isolator = s.isolator := rfl
@[simp] theorem State.setFree_probe (s : State) (x : FreeChoices) : (s.setFree x).probe = s.probe := rfl
@[simp] theorem State.setFree_shutdown (s : State) (x : FreeChoices) : (s.setFree x).shutdown = s.shutdown := rfl
@[simp] theorem State.setFree_supervision (s : State) (x : FreeChoices) : (s.setFree x).supervision = s.supervision := rfl
@[simp] theorem State.setFree_attention (s : State) (x : FreeChoices) : (s.setFree x).attention = s.attention := rfl
@[simp] theorem State.setFree_store (s : State) (x : FreeChoices) : (s.setFree x).store = s.store := rfl
@[simp] theorem State.setFree_box (s : State) (x : FreeChoices) : (s.setFree x).box = s.box := rfl
@[simp] theorem State.setFree_free (s : State) (x : FreeChoices) : (s.setFree x).free = x := rfl
@[simp] theorem State.setFree_pending (s : State) (x : FreeChoices) : (s.setFree x).pending = s.pending := rfl

/-! ## `setPending` -/

@[simp] theorem State.setPending_part (s : State) (x : List Instr) : (s.setPending x).part = s.part := rfl
@[simp] theorem State.setPending_mode (s : State) (x : List Instr) : (s.setPending x).mode = s.mode := rfl
@[simp] theorem State.setPending_link (s : State) (x : List Instr) : (s.setPending x).link = s.link := rfl
@[simp] theorem State.setPending_scan (s : State) (x : List Instr) : (s.setPending x).scan = s.scan := rfl
@[simp] theorem State.setPending_peer (s : State) (x : List Instr) : (s.setPending x).peer = s.peer := rfl
@[simp] theorem State.setPending_strings (s : State) (x : List Instr) : (s.setPending x).strings = s.strings := rfl
@[simp] theorem State.setPending_lockouts (s : State) (x : List Instr) : (s.setPending x).lockouts = s.lockouts := rfl
@[simp] theorem State.setPending_sched (s : State) (x : List Instr) : (s.setPending x).sched = s.sched := rfl
@[simp] theorem State.setPending_cell (s : State) (x : List Instr) : (s.setPending x).cell = s.cell := rfl
@[simp] theorem State.setPending_isolator (s : State) (x : List Instr) : (s.setPending x).isolator = s.isolator := rfl
@[simp] theorem State.setPending_probe (s : State) (x : List Instr) : (s.setPending x).probe = s.probe := rfl
@[simp] theorem State.setPending_shutdown (s : State) (x : List Instr) : (s.setPending x).shutdown = s.shutdown := rfl
@[simp] theorem State.setPending_supervision (s : State) (x : List Instr) : (s.setPending x).supervision = s.supervision := rfl
@[simp] theorem State.setPending_attention (s : State) (x : List Instr) : (s.setPending x).attention = s.attention := rfl
@[simp] theorem State.setPending_store (s : State) (x : List Instr) : (s.setPending x).store = s.store := rfl
@[simp] theorem State.setPending_box (s : State) (x : List Instr) : (s.setPending x).box = s.box := rfl
@[simp] theorem State.setPending_free (s : State) (x : List Instr) : (s.setPending x).free = s.free := rfl
@[simp] theorem State.setPending_pending (s : State) (x : List Instr) : (s.setPending x).pending = x := rfl

end Sys2Proof.Machine
end

