-- ==== Sys2Proof/Laws/Tables.lean ====
section
/-! SUPPORT. What the table and arithmetic operations of Operands.lean do: reading and changing numbered tables, and
putting values in ascending order. -/

namespace Sys2Proof.Machine

/-! ## Tables numbered from 1 -/

theorem getNum_updNum_self {α : Type} (f : α → α) (l : List α) (n : Nat) :
    getNum (updNum f l n) n = (getNum l n).map f := by
  induction l, n using getNum.induct <;> simp_all [getNum, updNum]

theorem getNum_updNum_ne {α : Type} (f : α → α) (l : List α) (n m : Nat) (h : m ≠ n) :
    getNum (updNum f l n) m = getNum l m := by
  induction l, n using getNum.induct generalizing m with
  | case1 => simp [updNum]
  | case2 => simp [updNum]
  | case3 x xs =>
    match m with
    | 0 => simp [updNum, getNum]
    | 1 => exact absurd rfl h
    | m + 2 => simp [updNum, getNum]
  | case4 x xs n ih =>
    match m with
    | 0 => simp [updNum, getNum]
    | 1 => simp [updNum, getNum]
    | m + 2 => simpa [updNum, getNum] using ih (m + 1) (by omega)

theorem updNum_updNum {α : Type} (f g : α → α) (l : List α) (n : Nat) :
    updNum f (updNum g l n) n = updNum (fun x => f (g x)) l n := by
  induction l, n using getNum.induct <;> simp_all [updNum]

theorem updNum_congr {α : Type} (f g : α → α) (l : List α) (n : Nat) (h : ∀ x, getNum l n = some x → f x = g x) :
    updNum f l n = updNum g l n := by
  induction l, n using getNum.induct <;> simp_all [updNum, getNum]

@[simp] theorem updNum_length {α : Type} (f : α → α) (l : List α) (n : Nat) : (updNum f l n).length = l.length := by
  induction l, n using getNum.induct <;> simp_all [updNum]

/-- Every entry after a change was there before it, or is the changed entry. -/
theorem mem_updNum {α : Type} (f : α → α) (l : List α) (n : Nat) (x : α) (h : x ∈ updNum f l n) :
    x ∈ l ∨ ∃ y, getNum l n = some y ∧ x = f y := by
  induction l, n using getNum.induct with
  | case1 => simp [updNum] at h
  | case2 y ys => exact .inl h
  | case3 y ys => rcases List.mem_cons.1 h with rfl | h <;> simp_all [getNum]
  | case4 y ys n ih => rcases List.mem_cons.1 h with rfl | h <;> simp_all [getNum]; tauto

theorem getNum_some {α : Type} (l : List α) (n : Nat) (h1 : 1 ≤ n) (h2 : n ≤ l.length) : ∃ x, getNum l n = some x := by
  induction l, n using getNum.induct with
  | case1 => simp at h2; omega
  | case2 => omega
  | case3 => simp [getNum]
  | case4 x xs n ih => simpa [getNum] using ih (by omega) (by simp at h2; omega)

theorem getNum_eq {α : Type} (l : List α) (n : Nat) : getNum l (n + 1) = l[n]? := by
  induction n generalizing l with
  | zero => cases l <;> simp [getNum]
  | succ n ih => cases l <;> simp [getNum, ih]

theorem getNum_mem {α : Type} {l : List α} {n : Nat} {x : α} (h : getNum l n = some x) : x ∈ l := by
  match n with
  | 0 => cases l <;> simp [getNum] at h
  | n + 1 => rw [getNum_eq] at h; exact List.mem_of_getElem? h

theorem mem_getNum {α : Type} {l : List α} {x : α} (h : x ∈ l) : ∃ n, getNum l (n + 1) = some x := by
  obtain ⟨n, hn⟩ := List.getElem?_of_mem h
  exact ⟨n, by rw [getNum_eq, hn]⟩

theorem getNum_map {α β : Type} (f : α → β) (l : List α) (n : Nat) : getNum (l.map f) n = (getNum l n).map f := by
  match n with
  | 0 => cases l <;> simp [getNum]
  | n + 1 => simp [getNum_eq]

theorem getNum_mapNum {α β : Type} (f : Nat → α → β) (k : Nat) (l : List α) (n : Nat) :
    getNum (mapNum f k l) (n + 1) = (getNum l (n + 1)).map (f (k + n)) := by
  induction l generalizing k n with
  | nil => simp [mapNum, getNum]
  | cons x xs ih =>
    cases n with
    | zero => simp [mapNum, getNum]
    | succ n => simp only [mapNum, getNum, ih]; congr 2; omega

@[simp] theorem mapNum_length {α β : Type} (f : Nat → α → β) (k : Nat) (l : List α) :
    (mapNum f k l).length = l.length := by
  induction l generalizing k <;> simp_all [mapNum]

/-! ## String records -/

@[simp] theorem State.updStr_length (s : State) (n : Nat) (f : StringRec → StringRec) :
    (s.updStr n f).strings.length = s.strings.length := by simp [State.updStr, State.setStrings]

theorem State.str_updStr_self (s : State) (f : StringRec → StringRec) (n : Nat) (hl : s.strings.length = 24)
    (h1 : 1 ≤ n) (h2 : n ≤ 24) : (s.updStr n f).str n = f (s.str n) := by
  obtain ⟨x, hx⟩ := getNum_some s.strings n h1 (by omega)
  simp [State.str, State.updStr, State.setStrings, getNum_updNum_self, hx]

theorem State.str_updStr_ne (s : State) (f : StringRec → StringRec) (n m : Nat) (h : m ≠ n) :
    (s.updStr n f).str m = s.str m := by
  simp [State.str, State.updStr, State.setStrings, getNum_updNum_ne _ _ _ _ h]

theorem State.updStr_updStr (s : State) (f g : StringRec → StringRec) (n : Nat) :
    (s.updStr n g).updStr n f = s.updStr n (fun r => f (g r)) := by
  simp [State.updStr, State.setStrings, updNum_updNum]

/-- A number outside the table reads as an unused string, whatever is changed. -/
theorem State.str_outside (s : State) (n : Nat) (h : s.strings.length < n ∨ n = 0) :
    s.str n = StringRec.blank (Config.string n) .opened := by
  have : getNum s.strings n = none := by
    match n with
    | 0 => cases s.strings <;> simp [getNum]
    | n + 1 => rw [getNum_eq]; exact List.getElem?_eq_none (by omega)
  simp [State.str, this]

/-! ## Ascending order (R44) -/

theorem insertAsc_perm (x : Nat) (l : List Nat) : (insertAsc x l).Perm (x :: l) := by
  induction l with
  | nil => rfl
  | cons y ys ih =>
    rw [insertAsc]
    split
    · rfl
    · exact (List.Perm.cons y ih).trans (List.Perm.swap x y ys)

theorem insertAsc_ascending (x : Nat) (l : List Nat) (h : l.Pairwise (· ≤ ·)) :
    (insertAsc x l).Pairwise (· ≤ ·) := by
  induction l with
  | nil => simp [insertAsc]
  | cons y ys ih =>
    obtain ⟨hy, hys⟩ := List.pairwise_cons.1 h
    rw [insertAsc]
    split
    · rename_i hxy
      refine List.pairwise_cons.2 ⟨fun z hz => ?_, h⟩
      rcases List.mem_cons.1 hz with rfl | hz
      · exact hxy
      · exact Nat.le_trans hxy (hy z hz)
    · refine List.pairwise_cons.2 ⟨fun z hz => ?_, ih hys⟩
      rcases List.mem_cons.1 ((insertAsc_perm x ys).mem_iff.1 hz) with rfl | hz
      · omega
      · exact hy z hz

theorem sortAsc_perm (l : List Nat) : (sortAsc l).Perm l := by
  induction l with
  | nil => rfl
  | cons x xs ih => exact (insertAsc_perm x (sortAsc xs)).trans (ih.cons x)

theorem sortAsc_ascending (l : List Nat) : (sortAsc l).Pairwise (· ≤ ·) := by
  induction l with
  | nil => exact List.Pairwise.nil
  | cons x xs ih => exact insertAsc_ascending x (sortAsc xs) ih

/-! ## Orders left open (R70, R75) -/

theorem orderedBy_perm (wish due : List Nat) : (orderedBy wish due).Perm due := by
  induction wish generalizing due with
  | nil => rfl
  | cons x xs ih =>
    rw [orderedBy]
    split
    · rename_i h
      exact ((ih (due.erase x)).cons x).trans (List.perm_cons_erase (by simpa using h)).symm
    · exact ih due

/-- Whatever the free order is, each event comes once. -/
theorem arranged_perm (wish due : List Nat) : (arranged wish due).Perm due := by
  unfold arranged
  split
  · rfl
  · rfl
  · exact orderedBy_perm wish _

end Sys2Proof.Machine
end

