-- ==== Sys2Proof/Laws/Operations.lean ====
section
/-! SUPPORT. What the shared operations of Ops.lean and Isolation.lean can do, said once for each. -/

namespace Sys2Proof.Machine

/-! ## Attention items -/

theorem State.raise_eq (s : State) (i : Item) : s.raise i = s.setAttention (s.raise i).attention := by
  unfold State.raise
  split <;> rfl

theorem State.mem_raise (s : State) (i j : Item) : j ∈ (s.raise i).attention ↔ j ∈ s.attention ∨ j = i := by
  unfold State.raise
  split
  · exact ⟨.inl, fun h => h.elim id (fun h => h ▸ ‹_›)⟩
  · simp [State.setAttention]

theorem State.raise_nodup (s : State) (i : Item) (h : s.attention.Nodup) : (s.raise i).attention.Nodup := by
  unfold State.raise
  split
  · exact h
  · simp only [State.setAttention, List.nodup_append]
    refine ⟨h, by simp, fun a ha b hb => ?_⟩
    rw [List.mem_singleton] at hb
    rintro rfl
    exact absurd (hb ▸ ha) ‹_›

/-! ## The settings store -/

/-- R135: a write request leaves everything but the store; in IDLE the image being written is the one of this moment. -/
theorem State.requestWrite_cases (s : State) :
    (∃ w, s.store.writing = some w ∧ s.requestWrite = s.setStore { s.store with pending := true }) ∨
      (s.store.writing = none ∧
        s.requestWrite = s.setStore { s.store with writing := some s.imageNow, since := s.part.now }) := by
  unfold State.requestWrite State.startWrite
  cases h : s.store.writing with
  | none => exact .inr ⟨rfl, by simp⟩
  | some w => exact .inl ⟨w, rfl, by simp⟩

/-! ## The probe list -/

/-- R115: the look for work starts the first eligible entry when no probe or check is in flight, and does nothing else. -/
theorem State.lookForWork_cases (s : State) :
    (s.lookForWork = s ∧ (s.probe.flight ≠ none ∨ ∀ e ∈ s.probe.list, s.eligible e = false)) ∨
      ∃ e, s.probe.flight = none ∧ s.probe.list.find? s.eligible = some e ∧ s.lookForWork = s.startProbe e := by
  unfold State.lookForWork
  cases hf : s.probe.flight with
  | some f => exact .inl ⟨rfl, .inl (by simp)⟩
  | none =>
    cases he : s.probe.list.find? s.eligible with
    | some e => exact .inr ⟨e, rfl, rfl, rfl⟩
    | none => exact .inl ⟨rfl, .inr (by simpa using he)⟩

theorem State.lookForWork_list (s : State) : s.lookForWork.probe.list = s.probe.list := by
  rcases s.lookForWork_cases with ⟨h, -⟩ | ⟨e, -, -, h⟩ <;> rw [h]
  rfl

theorem State.lookForWork_eq (s : State) : s.lookForWork = s.setProbe s.lookForWork.probe := by
  rcases s.lookForWork_cases with ⟨h, -⟩ | ⟨e, -, -, h⟩ <;> rw [h] <;> rfl

/-- R112: placing an entry changes the probe unit alone. -/
theorem State.place_eq (s : State) (n : Nat) (purpose : Purpose) (origin : Origin) :
    s.place n purpose origin = s.setProbe (s.place n purpose origin).probe := by
  unfold State.place
  split
  · rfl
  · rw [State.lookForWork_eq]; rfl

/-- R112: the list after a placement. -/
theorem State.place_list (s : State) (n : Nat) (purpose : Purpose) (origin : Origin) :
    (s.place n purpose origin).probe.list =
      if s.holdsEntry n then s.probe.list else s.probe.list ++ [⟨n, purpose, origin, 0, false⟩] := by
  unfold State.place
  split
  · rfl
  · rw [State.lookForWork_list]; rfl

/-- R112: an enlisted entry changes the probe list alone. -/
@[simp] theorem State.enlist_list (s : State) (n : Nat) (purpose : Purpose) (origin : Origin) :
    (s.enlist n purpose origin).probe.list = s.probe.list ++ [⟨n, purpose, origin, 0, false⟩] := rfl

@[simp] theorem State.enlist_flight (s : State) (n : Nat) (purpose : Purpose) (origin : Origin) :
    (s.enlist n purpose origin).probe.flight = s.probe.flight := rfl

@[simp] theorem State.enlist_str (s : State) (n m : Nat) (purpose : Purpose) (origin : Origin) :
    (s.enlist n purpose origin).str m = s.str m := rfl

theorem State.holdsEntry_iff (s : State) (n : Nat) : s.holdsEntry n = true ↔ ∃ e ∈ s.probe.list, e.string = n := by
  simp [State.holdsEntry]

/-- R126: an abort leaves the flight in RELEASE without a held pass. -/
theorem ProbeFlight.abort_stage (f : ProbeFlight) (now : Nat) :
    (f.abort now).stage = .release ∧ (f.abort now).pass = false ∧ (f.abort now).string = f.string ∧
      (f.abort now).purpose = f.purpose := by
  unfold ProbeFlight.abort
  split <;> simp_all

theorem State.withdraw_eq (s : State) (n : Nat) : s.withdraw n = s.setProbe (s.withdraw n).probe := by
  unfold State.withdraw
  simp only
  repeat' split
  all_goals rfl

/-- R113: the list after a withdrawal. -/
theorem State.withdraw_list (s : State) (n : Nat) :
    (s.withdraw n).probe.list = s.probe.list.filter (fun e => e.string != n) := by
  unfold State.withdraw
  simp only
  split
  · split <;> rfl
  · rename_i h
    refine (List.filter_eq_self.2 fun e he => ?_).symm
    simp only [State.holdsEntry_iff, not_exists, not_and] at h
    simpa using h e he

/-! ## The isolation queue -/

/-- R74: an entry put in its place changes the queue alone. -/
theorem mem_insertEntry (counter arrival : Word32) (e x : QueueEntry) (q : List QueueEntry) :
    x ∈ insertEntry counter arrival e q ↔ x = e ∨ x ∈ q := by
  induction q with
  | nil => simp [insertEntry]
  | cons y ys ih =>
    rw [insertEntry]
    split
    · simp
    · simp [ih]; tauto

/-- R79: the five outcomes of one visit. -/
theorem State.visit_cases (s : State) (earlier : Bool) (e : QueueEntry) :
    (s.visit earlier e).1 = s.alreadyOpen e.string ∨ (s.visit earlier e).1 = s ∨
      (s.visit earlier e).1 = s.startCold e ∨ (s.visit earlier e).1 = s.startCommutated e ∨
      (s.visit earlier e).1 = s.openOrder := by
  unfold State.visit
  simp only
  repeat' split
  all_goals simp

/-- A property that every visit keeps is kept by a walk. -/
theorem State.walkOnce_keeps (P : State → Prop) (s : State) (h : P s)
    (step : ∀ (t : State) (earlier : Bool) (e : QueueEntry), e ∈ s.sched.queue → P t → P (t.visit earlier e).1) :
    P s.walkOnce := by
  unfold State.walkOnce
  suffices ∀ (l : List QueueEntry) (acc : State × Bool), (∀ e ∈ l, e ∈ s.sched.queue) → P acc.1 →
      P (l.foldl (fun (acc : State × Bool) e => acc.1.visit acc.2 e) acc).1 from this _ _ (fun _ h => h) h
  intro l
  induction l with
  | nil => exact fun _ _ h => h
  | cons e es ih =>
    intro acc hm hP
    exact ih _ (fun x hx => hm x (List.mem_cons_of_mem _ hx)) (step acc.1 acc.2 e (hm e List.mem_cons_self) hP)

theorem State.walkOnce_empty (s : State) (h : s.sched.queue = []) : s.walkOnce = s := by
  simp [State.walkOnce, h]

/-- R78: with no entry a walk does nothing. -/
theorem State.walk_empty (s : State) (h : s.sched.queue = []) : s.walk = s := by
  unfold State.walk
  simp only [State.walkOnce_empty s h]
  split <;> rfl

/-- R106: what an open request does to the isolator. -/
theorem State.openOrder_cases (s : State) :
    (s.openOrder = s ∧ (s.isolator.state = .opening ∨ s.isolator.state = .opened)) ∨
      (s.openOrder = s.setIsolator { s.isolator with pendingOpen := true } ∧ s.isolator.state = .closing) ∨
      (s.openOrder = s.startOpening ∧ (s.isolator.state = .closed ∨ s.isolator.state = .failed)) := by
  unfold State.openOrder
  split <;> simp_all

/-! ## Commands -/

/-- Every command answers a next state (log 35). -/
theorem exec_total (c : Instr) (s : State) : ∃ t : State, exec c s = .next t := by
  cases c <;> exact ⟨_, rfl⟩

end Sys2Proof.Machine
end

