-- ==== Sys2Proof/Laws/Frames.lean ====
section
/-! SUPPORT. Which blocks the shared operations leave as they were. -/

namespace Sys2Proof.Machine

/-- The two states agree on every block outside the list. -/
def Within (bs : List Block) (s t : State) : Prop := ∀ b, b ∉ bs → Agree s t b

theorem Within.refl (bs : List Block) (s : State) : Within bs s s := fun b _ => by cases b <;> rfl

theorem Within.trans {bs : List Block} {s t u : State} (h : Within bs s t) (k : Within bs t u) : Within bs s u := by
  intro b hb
  have h1 := h b hb
  have h2 := k b hb
  cases b <;> exact Eq.trans h2 h1

theorem Within.mono {bs cs : List Block} {s t : State} (h : Within bs s t) (hs : ∀ b ∈ bs, b ∈ cs) :
    Within cs s t := fun b hb => h b fun hb' => hb (hs b hb')

theorem Within.ite {bs : List Block} {s t u : State} {p : Prop} [Decidable p] (h : Within bs s t)
    (k : Within bs s u) : Within bs s (if p then t else u) := by
  split
  · exact h
  · exact k

theorem Within.foldl {α : Type} {bs : List Block} (f : State → α → State) (h : ∀ t x, Within bs t (f t x))
    (l : List α) (s : State) : Within bs s (l.foldl f s) := by
  induction l generalizing s with
  | nil => exact Within.refl bs s
  | cons x xs ih => exact (h s x).trans (ih (f s x))

/-! ## One block replaced -/

theorem State.setPart_within (s : State) (x) : Within [.part] s (s.setPart x) := by
  intro b hb; cases b <;> first | rfl | exact absurd (List.mem_singleton_self _) hb

theorem State.setMode_within (s : State) (x) : Within [.mode] s (s.setMode x) := by
  intro b hb; cases b <;> first | rfl | exact absurd (List.mem_singleton_self _) hb

theorem State.setLink_within (s : State) (x) : Within [.link] s (s.setLink x) := by
  intro b hb; cases b <;> first | rfl | exact absurd (List.mem_singleton_self _) hb

theorem State.setScan_within (s : State) (x) : Within [.scan] s (s.setScan x) := by
  intro b hb; cases b <;> first | rfl | exact absurd (List.mem_singleton_self _) hb

theorem State.setPeer_within (s : State) (x) : Within [.peer] s (s.setPeer x) := by
  intro b hb; cases b <;> first | rfl | exact absurd (List.mem_singleton_self _) hb

theorem State.setStrings_within (s : State) (x) : Within [.strings] s (s.setStrings x) := by
  intro b hb; cases b <;> first | rfl | exact absurd (List.mem_singleton_self _) hb

theorem State.setLockouts_within (s : State) (x) : Within [.lockouts] s (s.setLockouts x) := by
  intro b hb; cases b <;> first | rfl | exact absurd (List.mem_singleton_self _) hb

theorem State.setSched_within (s : State) (x) : Within [.sched] s (s.setSched x) := by
  intro b hb; cases b <;> first | rfl | exact absurd (List.mem_singleton_self _) hb

theorem State.setCell_within (s : State) (x) : Within [.cell] s (s.setCell x) := by
  intro b hb; cases b <;> first | rfl | exact absurd (List.mem_singleton_self _) hb

theorem State.setIsolator_within (s : State) (x) : Within [.isolator] s (s.setIsolator x) := by
  intro b hb; cases b <;> first | rfl | exact absurd (List.mem_singleton_self _) hb

theorem State.setProbe_within (s : State) (x) : Within [.probe] s (s.setProbe x) := by
  intro b hb; cases b <;> first | rfl | exact absurd (List.mem_singleton_self _) hb

theorem State.setShutdown_within (s : State) (x) : Within [.shutdown] s (s.setShutdown x) := by
  intro b hb; cases b <;> first | rfl | exact absurd (List.mem_singleton_self _) hb

theorem State.setSupervision_within (s : State) (x) : Within [.supervision] s (s.setSupervision x) := by
  intro b hb; cases b <;> first | rfl | exact absurd (List.mem_singleton_self _) hb

theorem State.setAttention_within (s : State) (x) : Within [.attention] s (s.setAttention x) := by
  intro b hb; cases b <;> first | rfl | exact absurd (List.mem_singleton_self _) hb

theorem State.setStore_within (s : State) (x) : Within [.store] s (s.setStore x) := by
  intro b hb; cases b <;> first | rfl | exact absurd (List.mem_singleton_self _) hb

theorem State.setBox_within (s : State) (x) : Within [.box] s (s.setBox x) := by
  intro b hb; cases b <;> first | rfl | exact absurd (List.mem_singleton_self _) hb

theorem State.setFree_within (s : State) (x) : Within [.free] s (s.setFree x) := by
  intro b hb; cases b <;> first | rfl | exact absurd (List.mem_singleton_self _) hb

theorem State.setPending_within (s : State) (x) : Within [.pending] s (s.setPending x) := by
  intro b hb; cases b <;> first | rfl | exact absurd (List.mem_singleton_self _) hb

/-! ## Shared operations -/

theorem State.reach_within (s : State) (due : Nat) : Within [.part] s (s.reach due) := s.setPart_within _

theorem State.updStr_within (s : State) (n : Nat) (f : StringRec → StringRec) : Within [.strings] s (s.updStr n f) :=
  s.setStrings_within _

theorem State.raise_within (s : State) (i : Item) : Within [.attention] s (s.raise i) := by
  rw [State.raise_eq]; exact s.setAttention_within _

theorem State.requestWrite_within (s : State) : Within [.store] s s.requestWrite := by
  rcases s.requestWrite_cases with ⟨w, -, h⟩ | ⟨-, h⟩ <;> rw [h] <;> exact s.setStore_within _

theorem State.lookForWork_within (s : State) : Within [.probe] s s.lookForWork := by
  rw [State.lookForWork_eq]; exact s.setProbe_within _

theorem State.place_within (s : State) (n : Nat) (p : Purpose) (o : Origin) : Within [.probe] s (s.place n p o) := by
  rw [State.place_eq]; exact s.setProbe_within _

theorem State.withdraw_within (s : State) (n : Nat) : Within [.probe] s (s.withdraw n) := by
  rw [State.withdraw_eq]; exact s.setProbe_within _

theorem State.withdrawPreClose_within (s : State) (n : Nat) : Within [.probe] s (s.withdrawPreClose n) := by
  unfold State.withdrawPreClose
  split
  · exact Within.ite (s.withdraw_within n) (Within.refl _ s)
  · exact Within.refl _ s

theorem State.abortProbe_within (s : State) : Within [.probe] s s.abortProbe := s.setProbe_within _

theorem State.withdrawAllPreClose_within (s : State) : Within [.probe] s s.withdrawAllPreClose := by
  unfold State.withdrawAllPreClose
  simp only
  split
  · exact Within.ite ((s.setProbe_within _).trans (State.abortProbe_within _)) (s.setProbe_within _)
  · exact s.setProbe_within _

theorem State.abortKeeping_within (s : State) : Within [.probe] s s.abortKeeping := by
  unfold State.abortKeeping
  split
  · exact Within.refl _ s
  · exact (s.setProbe_within _).trans (State.abortProbe_within _)

/-! ## Taking a string off the bus -/

/-- The blocks of `breakPath` hold each of these. -/
theorem Within.path {b : Block} {s t : State} (h : Within [b] s t) (hb : b ∈ breakPath) : Within breakPath s t :=
  h.mono fun _ hx => (List.mem_singleton.1 hx) ▸ hb

theorem State.settleOff_within (s : State) (n : Nat) : Within breakPath s (s.settleOff n) :=
  (s.updStr_within n _).path (by decide)

theorem State.isolatorOpened_within (s : State) : Within breakPath s s.isolatorOpened :=
  ((s.setIsolator_within _).path (by decide)).trans ((State.raise_within _ _).path (by decide))

theorem State.startOpening_within (s : State) : Within breakPath s s.startOpening := by
  have h : Within breakPath s ((s.setIsolator { s.isolator with state := .opening, since := s.part.now }).raiseBox .output) :=
    ((s.setIsolator_within _).path (by decide)).trans ((State.raise_within _ _).path (by decide))
  unfold State.startOpening
  simp only
  exact Within.ite (h.trans (State.isolatorOpened_within _)) h

theorem State.openOrder_within (s : State) : Within breakPath s s.openOrder := by
  rcases s.openOrder_cases with ⟨h, -⟩ | ⟨h, -⟩ | ⟨h, -⟩ <;> rw [h]
  · exact Within.refl _ s
  · exact (s.setIsolator_within _).path (by decide)
  · exact s.startOpening_within

theorem State.offBus_within (s : State) (n : Nat) : Within breakPath s (s.offBus n) :=
  ((s.settleOff_within n).trans ((State.raise_within _ _).path (by decide))).trans
    ((State.place_within _ _ _ _).path (by decide))

theorem State.alreadyOpen_within (s : State) (n : Nat) : Within breakPath s (s.alreadyOpen n) :=
  (((s.setSched_within _).path (by decide)).trans ((State.updStr_within _ n _).path (by decide))).trans
    (State.offBus_within _ n)

theorem State.startCold_within (s : State) (e : QueueEntry) : Within breakPath s (s.startCold e) :=
  (((s.setSched_within _).path (by decide)).trans ((State.setSched_within _ _).path (by decide))).trans
    ((State.updStr_within _ _ _).path (by decide))

theorem State.startCommutated_within (s : State) (e : QueueEntry) : Within breakPath s (s.startCommutated e) :=
  ((((s.setSched_within _).path (by decide)).trans ((State.setSched_within _ _).path (by decide))).trans
    ((State.updStr_within _ _ _).path (by decide))).trans ((State.setCell_within _ _).path (by decide))

theorem State.visit_within (s : State) (earlier : Bool) (e : QueueEntry) :
    Within breakPath s (s.visit earlier e).1 := by
  rcases s.visit_cases earlier e with h | h | h | h | h <;> rw [h]
  · exact s.alreadyOpen_within _
  · exact Within.refl _ s
  · exact s.startCold_within e
  · exact s.startCommutated_within e
  · exact s.openOrder_within

theorem State.walkOnce_within (s : State) : Within breakPath s s.walkOnce :=
  s.walkOnce_keeps (fun t => Within breakPath s t) (Within.refl _ s)
    fun t earlier e _ h => h.trans (t.visit_within earlier e)

theorem State.walk_within (s : State) : Within breakPath s s.walk := by
  unfold State.walk
  simp only
  exact Within.ite (s.walkOnce_within.trans (State.walkOnce_within _)) s.walkOnce_within

theorem State.openRequest_within (s : State) : Within breakPath s s.openRequest := by
  unfold State.openRequest
  simp only
  exact Within.ite (s.openOrder_within.trans (State.walk_within _)) s.openOrder_within

theorem State.recurrenceTest_within (s : State) (n : Nat) (c : ReqCause) :
    Within breakPath s (s.recurrenceTest n c) :=
  Within.ite ((s.updStr_within n _).path (by decide)) (Within.refl _ s)

theorem State.raiseEntry_within (s : State) (e : QueueEntry) (c : ReqCause) : Within breakPath s (s.raiseEntry e c) :=
  ((((s.setSched_within _).path (by decide)).trans ((State.setSched_within _ _).path (by decide))).trans
    ((State.updStr_within _ _ _).path (by decide))).trans (State.recurrenceTest_within _ _ _)

theorem State.merge_within (s : State) (n : Nat) (c : ReqCause) : Within breakPath s (s.merge n c) := by
  unfold State.merge
  split
  · exact Within.refl _ s
  · exact Within.ite ((s.raiseEntry_within _ c).trans (State.walk_within _)) (Within.refl _ s)

theorem State.admitEntry_within (s : State) (n : Nat) (c : ReqCause) : Within breakPath s (s.admitEntry n c) := by
  unfold State.admitEntry State.shutdownRaise
  simp only
  refine Within.trans ?_ (State.walk_within _)
  have h : ∀ x y, Within breakPath s ((s.enqueue x).setSched y) := fun x y =>
    ((s.setSched_within _).path (by decide)).trans ((State.setSched_within _ _).path (by decide))
  exact Within.ite ((h _ _).trans (State.raiseEntry_within _ _ _)) (h _ _)

theorem State.queueString_within (s : State) (n : Nat) (c : ReqCause) : Within breakPath s (s.queueString n c) :=
  ((((s.updStr_within n _).path (by decide)).trans ((State.updStr_within _ n _).path (by decide))).trans
    (State.recurrenceTest_within _ n c)).trans (State.admitEntry_within _ n c)

/-- R11: an isolation request changes no block outside the way off the bus. -/
theorem State.request_within (s : State) (n : Nat) (c : ReqCause) : Within breakPath s (s.request n c) := by
  unfold State.request
  split
  · exact s.queueString_within n c
  · exact s.queueString_within n c
  · exact s.merge_within n c
  · exact Within.refl _ s
  · exact Within.ite (((s.withdrawPreClose_within n).path (by decide)).trans
      ((State.updStr_within _ n _).path (by decide))) (Within.refl _ s)
  · exact Within.ite ((s.withdrawPreClose_within n).path (by decide))
      (Within.ite (((s.withdraw_within n).path (by decide)).trans (State.queueString_within _ n c)) (Within.refl _ s))
  · exact (s.updStr_within n _).path (by decide)
  · exact Within.refl _ s
  · exact Within.refl _ s
  · exact Within.refl _ s

/-! ## Replies and steps -/

/-- R170: a reply changes the link port alone. -/
theorem State.sendReply_within (s : State) (kind : Byte) (r : Reply) : Within [.link] s (s.sendReply kind r) :=
  s.setLink_within _

/-- A property of the state that holds whatever the waiting commands and the clock are, and that every command keeps, is
one that every step keeps. -/
theorem StepKeeps.of_exec {P : State → Prop} (hp : ∀ s x, P s → P (s.setPending x))
    (ht : ∀ s, P s → P (s.setPart { s.part with now := s.part.now + 1 }))
    (he : ∀ s t c, P s → exec c s = .next t → P t) : StepKeeps P := by
  intro s t h hs
  unfold step at hs
  split at hs
  · cases hs; exact ht s h
  · exact he _ _ _ (hp _ _ h) hs

end Sys2Proof.Machine
end

