-- ==== Sys2Proof/Laws/PerInstr.lean ====
section
/-! SUPPORT. One statement about every command as syntax, proved constructor by constructor: the payload of a command
that can be sent fits a frame (R171, R188: at most 128 bytes). -/

namespace Sys2Proof.Laws.Sendable

open Sys2Proof.Machine

/-- R188: the payload of a well-formed request row has at most 128 bytes. -/
def Statement (i : Instr) : Prop :=
  i.wellFormed = true → ∀ (k : Kind) (p : List Byte), wireOf i = some (k, p) → p.length ≤ 128

/-- A row whose payload has a known length. -/
theorem of_payload {i : Instr} {k : Kind} {p : List Byte} (h : wireOf i = some (k, p)) (hp : p.length ≤ 128) :
    Statement i := by
  intro _ k' p' h'
  rw [h] at h'
  obtain ⟨-, rfl⟩ := Prod.mk.inj (Option.some.inj h')
  exact hp

/-- An event row has no payload. -/
theorem of_event {i : Instr} (h : wireOf i = none) : Statement i := by
  intro _ k p h'
  rw [h] at h'
  cases h'

theorem identify : Statement .identify := of_payload rfl (by decide)

theorem boxStatus : Statement .boxStatus := of_payload rfl (by decide)

theorem stringRead (first count : Byte) : Statement (.stringRead first count) := of_payload rfl (by simp)

theorem groupRead : Statement .groupRead := of_payload rfl (by decide)

theorem queueRead (first : Byte) : Statement (.queueRead first) := of_payload rfl (by simp)

theorem probeListRead : Statement .probeListRead := of_payload rfl (by decide)

theorem attentionRead : Statement .attentionRead := of_payload rfl (by decide)

theorem configRead (target : Byte) (number : Option Byte) : Statement (.configRead target number) := by
  cases number with
  | none => exact of_payload rfl (by simp)
  | some number => exact of_payload rfl (by simp)

theorem attentionClear (mask : List Byte) : Statement (.attentionClear mask) := by
  intro h k p e
  obtain ⟨-, rfl⟩ := Prod.mk.inj (Option.some.inj e)
  simp only [Instr.wellFormed, beq_iff_eq] at h
  omega

theorem heartbeat (token : Word16) : Statement (.heartbeat token) := of_payload rfl (by simp [bytes16])

theorem temperature (group value : Byte) : Statement (.temperature group value) := of_payload rfl (by simp)

theorem isolate (string : Byte) : Statement (.isolate string) := of_payload rfl (by simp)

theorem reconnect (string : Byte) : Statement (.reconnect string) := of_payload rfl (by simp)

theorem probe (string : Byte) : Statement (.probe string) := of_payload rfl (by simp)

theorem release (string : Byte) : Statement (.release string) := of_payload rfl (by simp)

theorem restore : Statement .restore := of_payload rfl (by decide)

theorem boxOutputOpen : Statement .boxOutputOpen := of_payload rfl (by decide)

theorem boxOutputClose : Statement .boxOutputClose := of_payload rfl (by decide)

theorem cellRestore : Statement .cellRestore := of_payload rfl (by decide)

theorem modeSetup : Statement .modeSetup := of_payload rfl (by decide)

theorem modeRun : Statement .modeRun := of_payload rfl (by decide)

theorem stringConfig (m : StringConfigMsg) : Statement (.stringConfig m) := of_payload rfl (by simp [bytes16])

theorem groupConfig (m : GroupConfigMsg) : Statement (.groupConfig m) := of_payload rfl (by simp [bytes16])

theorem boxConfig (m : BoxConfigMsg) : Statement (.boxConfig m) := of_payload rfl (by simp [bytes16, boxMsgBytes])

theorem linkConfig (rate address : Byte) : Statement (.linkConfig rate address) := of_payload rfl (by simp)

theorem store : Statement .store := of_payload rfl (by decide)

theorem restart (address : Byte) : Statement (.restart address) := of_payload rfl (by simp)

theorem linkByte (byte : Byte) (stopBit : Bool) : Statement (.linkByte byte stopBit) := of_event rfl

theorem linkQuietExpiry : Statement .linkQuietExpiry := of_event rfl

theorem linkGapExpiry : Statement .linkGapExpiry := of_event rfl

theorem replyComplete : Statement .replyComplete := of_event rfl

theorem powerOn : Statement .powerOn := of_event rfl

theorem resetLine : Statement .resetLine := of_event rfl

theorem loadEnd (answers : Bool) : Statement (.loadEnd answers) := of_event rfl

theorem roundTimerExpiry : Statement .roundTimerExpiry := of_event rfl

theorem syncFallingEdge (lowMicros : Nat) : Statement (.syncFallingEdge lowMicros) := of_event rfl

theorem syncWatchExpiry : Statement .syncWatchExpiry := of_event rfl

theorem sampleSet (set : SampleSet) : Statement (.sampleSet set) := of_event rfl

theorem elapsedSecond : Statement .elapsedSecond := of_event rfl

theorem cellHotEnd : Statement .cellHotEnd := of_event rfl

theorem externalTempStale (group : Nat) : Statement (.externalTempStale group) := of_event rfl

theorem tapClosedFeedback (string : Nat) : Statement (.tapClosedFeedback string) := of_event rfl

theorem tapAttachTimeout : Statement .tapAttachTimeout := of_event rfl

theorem tapReleasedFeedback (string : Nat) : Statement (.tapReleasedFeedback string) := of_event rfl

theorem tapDetachTimeout : Statement .tapDetachTimeout := of_event rfl

theorem restoreReleaseTimeout : Statement .restoreReleaseTimeout := of_event rfl

theorem quenchEnd (monitor : Word16) : Statement (.quenchEnd monitor) := of_event rfl

theorem quenchTimeout : Statement .quenchTimeout := of_event rfl

theorem restingEnd : Statement .restingEnd := of_event rfl

theorem contactPositionChange (string : Nat) (position : Contact) : Statement (.contactPositionChange string position) := of_event rfl

theorem contactTimeout (string : Nat) : Statement (.contactTimeout string) := of_event rfl

theorem isolatorEndReached (feedback : Travel) : Statement (.isolatorEndReached feedback) := of_event rfl

theorem isolatorTimeout : Statement .isolatorTimeout := of_event rfl

theorem probeSettleEnd : Statement .probeSettleEnd := of_event rfl

theorem probeReading (vp vn : List Word16) : Statement (.probeReading vp vn) := of_event rfl

theorem probeReleaseEnd : Statement .probeReleaseEnd := of_event rfl

theorem shutdownAssertion : Statement .shutdownAssertion := of_event rfl

theorem shutdownRelease : Statement .shutdownRelease := of_event rfl

theorem longWindowExpiry : Statement .longWindowExpiry := of_event rfl

theorem openWindowExpiry : Statement .openWindowExpiry := of_event rfl

theorem storeWriteEnd (readBack : ReadBack) : Statement (.storeWriteEnd readBack) := of_event rfl

theorem supplyLoss : Statement .supplyLoss := of_event rfl

theorem shutdownLevelChange (low : Bool) : Statement (.shutdownLevelChange low) := of_event rfl

end Sys2Proof.Laws.Sendable
end

