-- ==== Sys2Proof/Tests/Slice0.lean ====
section
/-! SUPPORT. The model's own tests: ill-formed commands refused, the spec's worked figures, a few steps of each family
of commands, and for every statement of Obligations.lean a state and operands that meet its hypotheses. Each test's
source is the rule or worked case that its comment names. -/

namespace Sys2Proof.Tests

-- The evaluations run one after another: side by side each would hold a thread of its own.
set_option Elab.async false

open Sys2Proof Sys2Proof.Machine

/-! ## Small states -/

/-- The state a command leaves. -/
def after (c : Instr) (s : State) : State :=
  match exec c s with
  | .next t => t
  | .fault _ => s
  | .refused _ => s

/-- A used string of group 1 on its own input, with a budget of 2. -/
def used (n : Nat) (state : StringState) (position : Contact) : StringRec :=
  { StringRec.blank ⟨true, 1, n, 1000, 20, 400⟩ position with state := state, budget := 2 }

/-- A running part in RUN with string 1 on the bus and string 2 isolated. -/
def plant : State := { State.reset with
  part := ⟨.running, .powerOn, 1000, 1⟩
  mode := .run
  link := { State.reset.link with rx := .hunting }
  scan := { State.reset.scan with completed := true }
  strings := used 1 .connected .closed :: used 2 .isolated .opened :: State.reset.strings.drop 2 }

/-- The plant under supervision, the last heartbeat at 0. -/
def watched : State := { plant with supervision := ⟨.supervised, some 5#16, 0, 0⟩ }

/-- The plant in SETUP. -/
def setUp : State := { plant with mode := .setup }

/-- The part with one string's record replaced. -/
def withStr (s : State) (n : Nat) (r : StringRec) : State := s.updStr n fun _ => r

/-- A last isolation record. -/
def record : IsoRecord := ⟨.req .manual, 5#32, 1#16, none, none, none, none, none, 0⟩

/-- A queue entry of string `n`. -/
def entry (n : Nat) (c : ReqCause) : QueueEntry := ⟨n, c.severity, c, 5#32, 0#32⟩

/-- The default BOX_CONFIG. -/
def boxMsg : BoxConfigMsg where
  dayPeriod := 2000#16
  nightPeriod := 60#8
  source := 0#8
  averaging := 4#8
  daylightFloor := 60#16
  nightRounds := 300#16
  reverseLimit := 150#16
  overLimit := 1250#16
  coldLimit := 50#16
  quenchTimeout := 10#8
  hMax := 120#16
  hResume := 60#16
  escalation := 1#8
  contactTimeout := 80#16
  settle := 500#16
  nearEarth := 200#16
  closeMargin := 200#16
  attemptLimit := 5#8
  perDayMax := 2#8
  recurrence := 900#16
  longWindow := 120#16
  closedWindow := 2#8
  openWindow := 20#8

/-- A STRING_CONFIG of string 3: used, group 1, input 3. -/
def stringMsg : StringConfigMsg := ⟨3#8, 1#8, 1#8, 3#8, 1000#16, 20#8, 400#16⟩

/-- A GROUP_CONFIG of group 6. -/
def groupMsg : GroupConfigMsg := ⟨6#8, 2#8, 0xC4#8, 800#16, 100#16, 6000#16, 0#8⟩

/-- A sample set with one value on every input. -/
def flat (value : BitVec 13) : SampleSet :=
  ⟨List.replicate 24 ⟨value, false⟩, 1000#16, [250#16, 250#16, 250#16, 250#16]⟩

/-- A round of one set over strings 1 and 2. -/
def oneSet (capture : Bool) : Round := ⟨1, 0, capture, [⟨1, 1, 0, false⟩, ⟨2, 2, 0, false⟩], 0, []⟩

/-- A probe in flight on string 2. -/
def flight (purpose : Purpose) (stage : ProbeStage) (sampling : Bool) : ProbeFlight :=
  ⟨2, purpose, .controller, stage, sampling, none, none, 25, 0, 500, 200, 200, true, 20, 400, false, 100⟩

/-- The plant with a probe list and a flight. -/
def probingPlant (list : List ProbeEntry) (f : Option ProbeFlight) : State := { plant with probe := ⟨list, f⟩ }

/-- The plant with its cell in a stage, serving string 1 in a commutated break. -/
def breakingPlant (stage : CellStage) (op : Option ContactOp) : State :=
  withStr { plant with
    sched := ⟨[], 1, [⟨entry 1 .manual, true⟩]⟩
    cell := { plant.cell with stage := stage, served := some 1, timeout := 30, limit := 50 } }
    1 { used 1 .breaking .closed with op := op, current := 655, record := some record }

/-- A cell FAULTED at its start-up check, with an entry of string 1 that waits for commutation. -/
def restoring : State := withStr { watched with
  sched := ⟨[entry 1 .manual], 1, []⟩
  cell := { watched.cell with stage := .faulted, fault := some ⟨.reset, none, 600, 5#32⟩ } }
  1 { used 1 .queued .closed with current := 655, record := some record }

/-- The state in which the drill of 13_application_sequences.md sends RESTORE: 7, 8 and 10 ungrouped and isolated by
shutdown, 12 isolated by hand, the waiting DIAGNOSE entries of all four in the order of their breaks. -/
def drill : State := { watched with
  mode := .setup
  strings := plant.strings.take 6 ++
    [shut 7, shut 8, StringRec.blank (Config.string 9) .opened, shut 10, StringRec.blank (Config.string 11) .opened,
      { used 12 .isolated .opened with cause := some (.req .manual) }] ++ plant.strings.drop 12
  probe := ⟨[12, 7, 8, 10].map fun n => ⟨n, .diagnose, .auto, 0, false⟩, none⟩ }
where
  shut (n : Nat) : StringRec := { used n .isolated .opened with
    cfg := { (used n .isolated .opened).cfg with group := 0 }, cause := some (.req .shutdown) }

/-- A monitor reading. -/
def amps (x : Int) : Word16 := BitVec.ofInt 16 x

/-! ## Ill-formed commands -/

theorem test_mask_of_25_bytes_refused : (Instr.attentionClear (List.replicate 25 0#8)).wellFormed = false := by decide
theorem test_mask_of_26_bytes_accepted : (Instr.attentionClear (List.replicate 26 0#8)).wellFormed = true := by decide
theorem test_23_samples_refused :
    (Instr.sampleSet ⟨List.replicate 23 ⟨0#13, false⟩, 0#16, List.replicate 4 0#16⟩).wellFormed = false := by decide
theorem test_over_range_sample_inside_the_span_refused :
    (Instr.sampleSet ⟨List.replicate 24 ⟨100#13, true⟩, 0#16, List.replicate 4 0#16⟩).wellFormed = false := by decide
theorem test_three_temperatures_refused :
    (Instr.sampleSet ⟨List.replicate 24 ⟨0#13, false⟩, 0#16, List.replicate 3 0#16⟩).wellFormed = false := by decide
theorem test_group_0_refused : (Instr.externalTempStale 0).wellFormed = false := by decide
theorem test_group_7_refused : (Instr.externalTempStale 7).wellFormed = false := by decide
theorem test_tap_of_string_25_refused : (Instr.tapClosedFeedback 25).wellFormed = false := by decide
theorem test_release_of_string_0_refused : (Instr.tapReleasedFeedback 0).wellFormed = false := by decide
theorem test_contact_of_string_25_refused : (Instr.contactPositionChange 25 .closed).wellFormed = false := by decide
theorem test_timeout_of_string_0_refused : (Instr.contactTimeout 0).wellFormed = false := by decide
theorem test_seven_positive_samples_refused :
    (Instr.probeReading (List.replicate 7 0#16) (List.replicate 8 0#16)).wellFormed = false := by decide
theorem test_nine_negative_samples_refused :
    (Instr.probeReading (List.replicate 8 0#16) (List.replicate 9 0#16)).wellFormed = false := by decide

/-! ## Words -/

/-- The table gives no row any bits (log 4). -/
theorem test_no_word_spells_a_command : decodeTableWord 16 7 = none := by decide
theorem test_fetch_word_leaves_the_state : State.reset.withFetchWord 8 0 = State.reset := rfl

/-! ## The spec's worked figures -/

/-- 03, the table of n: 812, halves away from zero, and the two clamps. -/
theorem test_normalized_currents :
    [normalized 650 800, normalized 1 2000, normalized (-1) 2000, normalized (-1235) 600, normalized 4000 150]
      = [813, 1, -1, -2000, 2000] := by decide

/-- 03, the six-string group: r is 807. -/
theorem test_median_of_six : referenceOf [812, 805, 813, 560, 801, 810] = some 807 := by decide
/-- 03, the same group with members excluded: r is 806. -/
theorem test_median_of_four : referenceOf [812, 813, 560, 801] = some 806 := by decide
/-- R45: two eligible members give no reference. -/
theorem test_two_values_give_no_reference : referenceOf [812, 813] = none := by decide
/-- 03: string 10's p is 694, and its bucket gains 106. -/
theorem test_index_of_string_10 : roundDiv (560 * 1000) 807 = 694 ∧ bucketAfter 0 694 800 100 = 106 := by decide
/-- 07, a diagnosis ending DEGRADED: the expected voltage at four temperatures. -/
theorem test_expected_voltages :
    [expectedVoltage 18 495 (-29) (-40), expectedVoltage 18 495 (-29) 25, expectedVoltage 18 495 (-29) 55,
      expectedVoltage 18 495 (-29) 90] = [10590, 8910, 8135, 7230] := by decide
/-- 07: Vpn 7240 at 55 °C is DEGRADED with 2 missing modules, at 25 °C with 3; Vpn 7680 is HEALTHY. -/
theorem test_voltage_tests :
    [voltageTest 18 495 (-29) 55 7240, voltageTest 18 495 (-29) 25 7240, voltageTest 18 495 (-29) 55 7680]
      = [⟨.degraded, some 2, none⟩, ⟨.degraded, some 3, none⟩, ⟨.healthy, none, none⟩] := by decide
/-- 07: the marks 00, 01, 10 of the same diagnosis are intact. -/
theorem test_marks_of_an_intact_string :
    classify true (Poles.marks ⟨3625, -3615⟩ 200) (Poles.marks ⟨7230, 10⟩ 200) (Poles.marks ⟨-15, -7250⟩ 200)
      = .intact := by decide
/-- R88, and the worked cases of 05: 655 adds 7, 1480 adds 15; a current of 0 adds 1 and 4000 adds 40. -/
theorem test_heat : [heatOf 655, heatOf 1480, heatOf 0, heatOf 4000] = [7, 15, 1, 40] := by decide
/-- R169: the CRC of the generator x^16 + x^12 + x^5 + 1 from all ones, over the nine ASCII digits, is 0x29B1, the check
value published for this CRC. -/
theorem test_crc_of_the_nine_digits :
    crc16 [0x31#8, 0x32#8, 0x33#8, 0x34#8, 0x35#8, 0x36#8, 0x37#8, 0x38#8, 0x39#8] = 0x29B1#16 := by decide +kernel
/-- R116: eight samples of a pole, truncated toward zero. -/
theorem test_pole_reading : poleReading [amps (-1), 0, 0, 0, 0, 0, 0, amps (-10)] = -1 := by decide

/-! ## Requests -/

/-- R170, R188: an IDENTIFY reply has five payload bytes, 13 bytes in all. -/
theorem test_identify_reply : (after .identify plant).link.reply.map (fun f => (f.take 8, f.length)) =
    some ([0xD2#8, 1#8, 0x81#8, 0#8, 0x03#8, 5#8, 0x07#8, 0x18#8], 13) := by decide +kernel
/-- R191: BOX_STATUS carries 64 bytes. -/
theorem test_box_status_length : (after .boxStatus plant).link.reply.map (·.length) = some 72 := by decide +kernel
/-- R173: strings 24 and 25 cannot be read together. -/
theorem test_string_read_past_24 : (plant.reqStringRead 24#8 2#8).2.outcome = .range := by decide
theorem test_string_read_of_24 : (plant.reqStringRead 24#8 1#8).2.payload.length = 45 := by decide
theorem test_group_read_length : plant.reqGroupRead.2.payload.length = 90 := by decide
theorem test_queue_read_place_25 : (plant.reqQueueRead 25#8).2.outcome = .range := by decide
theorem test_queue_read_of_an_empty_queue : (plant.reqQueueRead 1#8).2.payload.length = 14 := by decide
theorem test_probe_list_read_of_one_entry :
    (probingPlant [⟨2, .diagnose, .auto, 0, false⟩] none).reqProbeListRead.2.payload =
      [1#8, 2#8, 0#8, 0#8, 0#8, 0#8, 0#8, 0#8, 0#8, 0#8] := by decide
/-- R192: RESTARTED is bit 0 of the box word. -/
theorem test_attention_read_after_reset : plant.reqAttentionRead.2.payload.drop 24 = [0#8, 1#8] := by decide +kernel
/-- R191: a group read without its number is refused FORMAT. -/
theorem test_config_read_without_number : (plant.reqConfigRead 2#8 none).2.outcome = .format := by decide
theorem test_config_read_of_the_box : (plant.reqConfigRead 0#8 none).2.payload.length = 37 := by decide
/-- R165: a mask of ones clears the set. -/
theorem test_attention_clear_of_all :
    (after (.attentionClear (List.replicate 26 0xFF#8)) plant).attention = [] := by decide +kernel
/-- R157: the complement of 5 is accepted at the moment C; 2 s is C. -/
theorem test_heartbeat_at_c :
    ({ watched with part := ⟨.running, .powerOn, 2000, 2⟩ } : State).judgeBeat 0xFFFA#16 = .accepted := by decide
theorem test_heartbeat_before_c :
    ({ watched with part := ⟨.running, .powerOn, 1999, 1⟩ } : State).judgeBeat 0xFFFA#16 = .early := by decide
/-- R33: 100 °C is stored as 90. -/
theorem test_temperature_clamped : getNum (after (.temperature 1#8 100#8) plant).scan.ext 1 = some (.valid 90 0) := by
  decide +kernel
/-- R79, R81: a string without current is broken cold by its own admission. -/
theorem test_isolate_breaks_cold :
    ((after (.isolate 1#8) plant).str 1).state = .breaking ∧ (after (.isolate 1#8) plant).openCoil 1 = true := by
  decide +kernel
theorem test_isolate_of_an_unused_string : (plant.reqIsolate 3#8).2.outcome = .state := by decide
theorem test_reconnect_places_a_check :
    ((after (.reconnect 2#8) watched).entryOf 2).map (·.purpose) = some .preClose := by decide +kernel
theorem test_reconnect_without_supervision : (plant.reqReconnect 2#8).2.outcome = .unsupervised := by decide
theorem test_probe_of_an_isolated_string : (plant.reqProbe 2#8).2.payload = [5#8] := by decide +kernel
theorem test_release_of_an_isolated_string : (watched.reqRelease 2#8).2.outcome = .state := by decide
/-- R146: one string isolated by shutdown gets its check. -/
theorem test_restore_places_one :
    (withStr watched 2 { used 2 .isolated .opened with cause := some (.req .shutdown) }).reqRestore.2.payload = [1#8] := by
  decide +kernel
/-- 13, a shutdown drill during a break: with 7, 8 and 10 ungrouped, all three are placed behind 12 and the check of 7 runs
first. -/
theorem test_restore_of_the_drill :
    drill.reqRestore.2.payload = [3#8] ∧
      (after .restore drill).probe.list.map (fun e => (e.string, e.purpose)) =
        [(12, .diagnose), (7, .preClose), (8, .preClose), (10, .preClose)] ∧
      (after .restore drill).probe.flight.map (fun f => (f.string, f.purpose)) = some (7, .preClose) := by decide +kernel
theorem test_open_request_opens : (after .boxOutputOpen plant).isolator.state = .opening := by decide +kernel
theorem test_close_request_needs_supervision : plant.reqBoxOutputClose.2.outcome = .unsupervised := by decide
theorem test_close_request_from_open :
    (after .boxOutputClose { watched with isolator := ⟨.opened, false, .opened, 0⟩ }).isolator.state = .closing := by
  decide +kernel
/-- R178: the reply says IDLE (0), though the walk at IDLE starts the commutated break of the entry that waits. -/
theorem test_cell_restore_replies_idle :
    restoring.reqCellRestore.2.payload = [0#8] ∧ (after .cellRestore restoring).cell.stage = .attaching := by
  decide +kernel
theorem test_cell_restore_times_30_ms :
    watched.reqCellRestore.2.outcome = .conflict ∧ (after .cellRestore { watched with cell := { watched.cell with
      stage := .faulted, served := some 1, fault := some ⟨.quenching, some 1, 600, 5#32⟩ } }).cell.timeout = 30 := by
  decide +kernel
theorem test_mode_setup_from_run : (after .modeSetup plant).mode = .setup := by decide +kernel
theorem test_mode_run_from_setup : (after .modeRun setUp).mode = .run := by decide +kernel
/-- R42: the member count follows at once. -/
theorem test_string_config_joins_the_group :
    ((after (.stringConfig stringMsg) setUp).grp 1).map (·.members) = some 3 := by decide +kernel
theorem test_string_config_in_run : (plant.reqStringConfig stringMsg).2.outcome = .mode := by decide
theorem test_group_config_in_run : (plant.reqGroupConfig groupMsg).2.outcome = .mode := by decide
theorem test_group_config_beta : ((after (.groupConfig groupMsg) setUp).grp 6).map (·.cfg.beta) = some (-60) := by
  decide +kernel
/-- R181: a clamped field is clamped, a refused one refuses the message. -/
theorem test_box_config_clamps : (after (.boxConfig { boxMsg with quenchTimeout := 51#8 }) setUp).box.quenchTimeout = 50 := by
  decide +kernel
theorem test_box_config_refuses : (setUp.reqBoxConfig { boxMsg with hResume := 111#16 }).2.outcome = .range := by
  decide
theorem test_link_config_address_100 : (setUp.reqLinkConfig 1#8 100#8).2.outcome = .range := by decide
theorem test_link_config_keeps_operating : (after (.linkConfig 2#8 99#8) setUp).link.operating = ⟨.b38400, 1⟩ := by
  decide +kernel
theorem test_store_starts_a_write : (after .store setUp).store.writing.isSome = true := by decide +kernel
theorem test_store_in_run : plant.reqStore.2.outcome = .mode := by decide
theorem test_restart_of_another_address : (plant.reqRestart 2#8).2.outcome = .conflict := by decide
theorem test_restart_waits_for_its_reply : (after (.restart 1#8) plant).part.stage = .running := by decide +kernel

/-! ## The line, resets and start-up -/

theorem test_lead_byte : (after (.linkByte 0xD1#8 true) plant).link.rx = .receiving [0xD1#8] := by decide
/-- R168: a length above 128 is discarded and counted. -/
theorem test_length_129 :
    (after (.linkByte 129#8 true) { plant with link := { plant.link with rx := .receiving [0xD1#8, 1#8, 1#8] } }).link.errors
      = 1 := by decide
theorem test_quiet_ends : (after .linkQuietExpiry { plant with link := { plant.link with rx := .quiet } }).link.rx
    = .hunting := by decide
theorem test_gap_discards :
    (after .linkGapExpiry { plant with link := { plant.link with rx := .receiving [0xD1#8] } }).link.errors = 1 := by decide
theorem test_reply_complete : (after .replyComplete { plant with link := { plant.link with rx := .replying } }).link.rx
    = .hunting := by decide
theorem test_power_on_drops : (after .powerOn plant).attention = [.box .restarted] := by decide
theorem test_reset_line_keeps_positions : ((after .resetLine plant).str 1).position = .closed := by decide
theorem test_supply_loss_releases_alert : (after .supplyLoss plant).alertLine = false := by decide
/-- R185: with no valid image the part comes up in SETUP with STORE_FAULT. -/
theorem test_load_of_a_new_board :
    (after (.loadEnd true) State.reset).attention = [.box .restarted, .box .storeFault] := by decide +kernel
theorem test_write_end : (after (.storeWriteEnd .verified) (after .store setUp)).store.image.isSome = true := by
  decide +kernel
theorem test_failed_write : (after (.storeWriteEnd (.differs none)) (after .store setUp)).attention =
    [.box .restarted, .box .storeFault] := by decide +kernel

/-! ## Rounds -/

theorem test_round_timer : (after .roundTimerExpiry plant).scan.round.map (·.total) = some 4 := by decide +kernel
theorem test_short_sync_is_no_edge :
    (after (.syncFallingEdge 19) { plant with scan := { plant.scan with source := .following } }).scan.round = none := by
  decide
theorem test_sync_edge :
    (after (.syncFallingEdge 20) { plant with scan := { plant.scan with source := .following } }).scan.round.isSome
      = true := by decide +kernel
theorem test_sync_watch :
    (after .syncWatchExpiry { plant with scan := { plant.scan with source := .following } }).scan.source = .fallback := by
  decide +kernel
/-- R28: the last set's average becomes the current. -/
theorem test_sample_set_completes :
    ((after (.sampleSet (flat 300#13)) { plant with scan := { plant.scan with round := some (oneSet false) } }).str 1).current
      = 300 := by decide +kernel
/-- R30: a capture beyond 50 fails. -/
theorem test_failed_capture :
    ((after (.sampleSet (flat 51#13)) { plant with scan := { plant.scan with round := some (oneSet true) } }).str 1).sensorFault
      = true := by decide +kernel
theorem test_second_cools : (after .elapsedSecond { plant with cell := { plant.cell with heat := 7 } }).cell.heat = 6 := by
  decide
theorem test_stale_at_900 : getNum (after (.externalTempStale 2) { plant with scan := { plant.scan with
    ext := [.none, .valid 40 900, .none, .none, .none, .none] } }).scan.ext 2 = some (.stale 40) := by decide +kernel

/-! ## The cell, contacts, isolator, probe, shutdown and supervision -/

theorem test_hot_end : (after .cellHotEnd { plant with cell := { plant.cell with stage := .hot, heat := 60 } }).cell.stage
    = .idle := by decide +kernel
theorem test_tap_closed : (after (.tapClosedFeedback 1) (breakingPlant .attaching none)).gateDrive = true := by
  decide +kernel
theorem test_attach_timeout : ((after .tapAttachTimeout (breakingPlant .attaching none)).str 1).tapFault = true := by
  decide +kernel
theorem test_tap_released : (after (.tapReleasedFeedback 1) (breakingPlant .detaching none)).cell.stage = .resting := by
  decide +kernel
theorem test_detach_timeout : (after .tapDetachTimeout (breakingPlant .detaching none)).cell.stage = .faulted := by
  decide +kernel
theorem test_release_timeout :
    (after .restoreReleaseTimeout { plant with cell := { plant.cell with
      stage := .faulted, releasing := true, fault := some ⟨.quenching, some 1, 600, 5#32⟩ } }).cell.fault.map (·.stage)
      = some .restore := by decide +kernel
/-- R86: 50 is at the limit, 51 above it. -/
theorem test_quench_at_the_limit : (after (.quenchEnd (amps (-50))) (breakingPlant .quenching none)).cell.stage
    = .detaching := by decide +kernel
theorem test_quench_above_the_limit : (after (.quenchEnd (amps 51)) (breakingPlant .quenching none)).cell.stage
    = .quenching := by decide +kernel
theorem test_quench_timeout : ((after .quenchTimeout (breakingPlant .quenching none)).str 1).state = .breakFailed := by
  decide +kernel
/-- 05, worked case: heat 130 above 120 leaves RESTING for HOT. -/
theorem test_resting_end : (after .restingEnd { plant with cell := { plant.cell with stage := .resting, heat := 130 } }).cell.stage
    = .hot := by decide +kernel
/-- 05, worked case: Iq 655 on heat 40 gives 47. -/
theorem test_contact_opens_into_the_quench :
    (after (.contactPositionChange 1 .opened) { breakingPlant .conducting (some (.opening 990 80)) with
      cell := { (breakingPlant .conducting none).cell with heat := 40, monitor := amps 655 } }).cell.heat = 47 := by
  decide +kernel
theorem test_contact_timeout_sticks :
    ((after (.contactTimeout 1) (breakingPlant .conducting (some (.opening 990 80)))).str 1).state = .stuckClosed := by
  decide +kernel
theorem test_isolator_opened :
    (after (.isolatorEndReached .opened) { plant with isolator := ⟨.opening, false, .mid, 0⟩ }).isolator.state = .opened := by
  decide +kernel
theorem test_isolator_timeout :
    (after .isolatorTimeout { plant with isolator := ⟨.opening, false, .mid, 0⟩ }).part.now = 3000 := by decide +kernel
theorem test_settle_end :
    (after .probeSettleEnd (probingPlant [] (some (flight .diagnose .p1 false)))).part.now = 1000 := by decide +kernel
/-- R124: Vpn of 1200 meets a bus of 1000 and a margin of 200. -/
theorem test_check_passes :
    (after (.probeReading (List.replicate 8 (amps 600)) (List.replicate 8 (amps (-600))))
      { probingPlant [⟨2, .preClose, .controller, 0, false⟩] (some (flight .preClose .p1 true)) with
        scan := { plant.scan with bus := 1000 } }).probe.flight.map (·.pass) = some true := by decide +kernel
theorem test_pass_closes :
    ((after .probeReleaseEnd (probingPlant [⟨2, .preClose, .controller, 0, false⟩]
      (some { flight .preClose .release false with pass := true }))).str 2).state = .closing := by decide +kernel
theorem test_assertion_breaks :
    ((after .shutdownAssertion { plant with shutdown := ⟨false, true, 980, false⟩ }).str 1).state = .breaking := by
  decide +kernel
theorem test_release_of_the_line :
    (after .shutdownRelease { plant with shutdown := ⟨true, false, 980, false⟩ }).shutdown.asserted = false := by
  decide +kernel
theorem test_level_change : (after (.shutdownLevelChange true) plant).shutdown.since = 1000 := by decide
theorem test_long_window : (after .longWindowExpiry plant).part.now = 120000 := by decide +kernel
theorem test_open_window : (after .openWindowExpiry watched).supervision.state = .lapsed := by decide +kernel

/-! ## Witnesses: a state and operands for the hypotheses of each statement

One theorem per statement, named after it; its parts are the statement's clauses in their order, at the ends of their
ranges where a clause has a range. -/

theorem witness_StepRunsTheFrontCommand :
    ({ plant with pending := [.store, .identify] } : State).pending = .store :: [.identify] := rfl

/-- The plant with a write in flight. -/
def writing : State := { plant with store := { plant.store with writing := some ⟨Config.settings, []⟩ } }

theorem witness_ResetsAndSupplyLossDropEverything :
    plant.strings.length = 24 ∧ plant.powered = true ∧ plant.store.writing = none ∧ writing.strings.length = 24 ∧
      writing.store.writing = some ⟨Config.settings, []⟩ ∧
      ({ plant with part := ⟨.off, .powerOn, 1000, 1⟩ } : State).powered = false ∧
      (let s : State := { plant with link := { plant.link with rx := .replying, restartOrdered := true } }
       s.link.rx = .replying ∧ s.link.restartOrdered = true ∧ s.strings.length = 24) := by decide

/-- A property of every number, from its truth on the 24 strings and outside them. -/
theorem for_all_numbers (P : Nat → Prop) (inside : ∀ n ∈ Config.stringNumbers, P n)
    (outside : ∀ n, n = 0 ∨ 24 < n → P n) (n : Nat) : P n := by
  by_cases h : n ∈ Config.stringNumbers
  · exact inside n h
  · refine outside n ?_
    simp only [Config.stringNumbers, List.mem_cons, List.not_mem_nil, or_false, not_or] at h
    omega

/-- An image with string 1 to 4 used and strings 3 and 4 locked. -/
def image : Image where
  settings := { Config.settings with strings :=
    (Config.stringNumbers.take 4).map (fun n => ⟨true, 1, n, 1000, 20, 400⟩) ++
      (Config.stringNumbers.drop 4).map Config.string }
  lockouts := [⟨3, .earthPos, 7#16⟩, ⟨4, .poleShort, 9#16⟩]

/-- The drop stage's state with the image in the store and contacts 1 and 3 closed, by the isolator's feedback, the cell's
monitor and the level of the SHUTDOWN line. -/
def loadingWith (feedback : Travel) (monitor : Int) (low : Bool) : State :=
  State.dropped .resetLine 5 0 ([.closed, .opened, .closed, .opened] ++ List.replicate 20 .opened) feedback (amps monitor)
    low (some image) ⟨0⟩ []

/-- The same with the isolator at its closed end, the monitor at the cold-break limit and the line released. -/
def loading : State := loadingWith .closed (-50) false

/-- R184: the image is a valid one; another with one lockout record of string 25 is not. -/
theorem image_valid : ValidImage image where
  link := by decide
  box := ⟨by decide, by decide, by decide, by decide, by decide, by decide, by decide, by decide, by decide, by decide⟩
  groups := ⟨by decide, fun g hg => by
    have : g = Config.group := by
      simpa [image, Config.settings] using hg
    subst this
    exact ⟨by decide, by decide⟩⟩
  strings := ⟨by decide, fun c hc =>
    have h : ∀ c ∈ image.settings.strings, (c.group ≤ 6 ∧ Between 1 24 c.input) ∧
        (Between 100 2000 c.rated ∧ Between 1 40 c.modules ∧ Between 100 800 c.voc25) ∧ c.modules * c.voc25 ≤ 15000 := by
      decide
    ⟨(h c hc).1, (h c hc).2.1, (h c hc).2.2⟩⟩
  inputs := by
    have inside : ∀ n, n ∉ Config.stringNumbers → getNum image.settings.strings n = none :=
      for_all_numbers _ (fun n h h' => absurd h h') fun n h _ => by
        rcases h with rfl | h
        · decide
        · obtain ⟨k, rfl⟩ : ∃ k, n = k + 25 := ⟨n - 25, by omega⟩
          rfl
    have key : ∀ m ∈ Config.stringNumbers, ∀ n ∈ Config.stringNumbers, ∀ x ∈ getNum image.settings.strings m,
        ∀ y ∈ getNum image.settings.strings n, x.used = true → y.used = true → x.input = y.input → m = n := by
      decide +kernel
    intro m n x y hx hy
    by_cases hm : m ∈ Config.stringNumbers
    · by_cases hn : n ∈ Config.stringNumbers
      · exact key m hm n hn x hx y hy
      · rw [inside n hn] at hy; cases hy
    · rw [inside m hm] at hx; cases hx
  lockouts := by decide
  records := by decide

theorem witness_LoadEndTakesTheImageOrTheDefaults :
    State.reset.part.stage = .load ∧ State.reset.strings.length = 24 ∧ State.reset.peer.groups.length = 6 ∧
      State.reset.loaded true = none ∧ loading.part.stage = .load ∧ loading.strings.length = 24 ∧
      loading.peer.groups.length = 6 ∧ loading.loaded true = some image ∧ loading.loaded false = none ∧
      loading.store.image = some image ∧
      imageValid { image with lockouts := [⟨25, .earthPos, 7#16⟩] } = false := by decide +kernel

theorem witness_ReconciliationPlacesEveryUsedString :
    ([Contact.closed, .opened, .closed, .opened] ++ List.replicate 20 Contact.opened).length = 24 ∧ imageValid image = true ∧
      ¬ image.settings.box.coldLimit < magnitude (amps (-50)) ∧ image.settings.box.coldLimit < magnitude (amps (-51)) ∧
      ∀ t ∈ [(Travel.closed, -50, false), (.closed, -51, false), (.mid, -50, true), (.opened, -51, true)].map fun x =>
          after (.loadEnd true) (loadingWith x.1 x.2.1 x.2.2),
      ((t.str 1).cfg.used = true ∧ t.locked 1 = false ∧ (t.str 2).cfg.used = true ∧ t.locked 2 = false ∧
         (t.str 3).cfg.used = true ∧ t.locked 3 = true ∧ (t.str 4).cfg.used = true ∧ t.locked 4 = true ∧
         (t.str 24).cfg.used = false) := by decide +kernel

/-- The plant with the receiver in a state. -/
def listening (rx : Receiver) : State := { plant with link := { plant.link with rx := rx } }

theorem witness_ReceiverFollowsItsTable :
    (listening .quiet).running = true ∧ (listening .hunting).running = true ∧ (0xD3#8 ≠ 0xD1#8 ∧ 0xD3#8 ≠ 0xD2#8) ∧
      (listening (.receiving [0xD1#8])).running = true ∧ [0xD1#8, 1#8].length < 3 ∧
      [0xD1#8, 1#8, 1#8].length = 3 ∧ 128 < (129#8).toNat ∧ (128#8).toNat ≤ 128 ∧
      (let got := [0xD1#8, 1#8, 1#8, 0#8]
       4 ≤ got.length ∧ got.length < 5 + (octet got 3).toNat) ∧
      (let got := [0xD1#8, 1#8, 1#8, 0#8, 0#8]
       4 ≤ got.length ∧ got.length = 5 + (octet got 3).toNat ∧
         crc16 (((got ++ [0#8]).drop 1).take 3) ≠ pairAt (got ++ [0#8]) 4) ∧
      (let frame := requestFrame 1#8 .identify []
       crc16 ((frame.drop 1).take 3) = pairAt frame 4 ∧ (octet frame 1).toNat = plant.link.operating.address) ∧
      (let frame := requestFrame 2#8 .identify []
       crc16 ((frame.drop 1).take 3) = pairAt frame 4 ∧ (octet frame 1).toNat ≠ plant.link.operating.address) ∧
      (listening (.passing [0xD2#8])).running = true ∧ [0xD2#8, 1#8, 0x81#8, 0#8, 0#8].length < 6 ∧
      (let got := [0xD2#8, 1#8, 0x81#8, 0#8, 0#8, 0#8, 9#8]
       6 ≤ got.length ∧ got.length = 7 + (octet got 5).toNat) ∧
      (let got := [0xD2#8, 1#8, 0x81#8, 0#8, 0#8, 0#8]
       6 ≤ got.length ∧ got.length < 7 + (octet got 5).toNat) ∧
      (listening .replying).running = true ∧ (listening .replying).link.restartOrdered = false := by decide +kernel

theorem witness_FrameOnTheLineIsTheRequestItCarries :
    (let frame := requestFrame 1#8 .isolate [1#8]
     let s := listening (.receiving (frame.take 6))
     s.running = true ∧ s.link.operating.address < 256 ∧ wireOf (.isolate 1#8) = some (.isolate, [1#8]) ∧
       [1#8].length ≤ 128 ∧ requestFrame (byteOf s.link.operating.address) .isolate [1#8] =
         frame.take 6 ++ [octet frame 6] ∧ s.link.rx = .receiving (frame.take 6)) ∧
      (List.replicate 26 0#8).length ≤ 128 := by decide +kernel

/-- A state at a moment. -/
def atTime (s : State) (now : Nat) : State := { s with part := { s.part with now := now } }

theorem witness_HeartbeatIsJudgedByTimeThenToken :
    (let s := atTime plant 119999
     s.listening = true ∧ s.supervision.state = .waiting ∧
       s.part.now < s.supervision.longStart + s.box.longWindow * 1000) ∧
      watched.supervision.state = .supervised ∧ watched.supervision.token = some 5#16 ∧
      (atTime watched 1999).listening = true ∧ 1999 < watched.box.closedWindow * 1000 ∧
      (atTime watched 2000).listening = true ∧ watched.box.closedWindow * 1000 ≤ 2000 ∧
      (atTime watched 21999).listening = true ∧ 21999 < (watched.box.closedWindow + watched.box.openWindow) * 1000 ∧
      0xFFFA#16 = ~~~5#16 ∧ 5#16 ≠ ~~~5#16 ∧
      (let s : State := { plant with supervision := ⟨.lapsed, none, 0, 0⟩ }
       s.listening = true ∧ s.supervision.state = .lapsed) := by decide

theorem witness_WindowExpiryLapsesSupervision :
    plant.powered = true ∧ plant.supervision.state = .waiting ∧
      120000 = plant.supervision.longStart + plant.box.longWindow * 1000 ∧ watched.powered = true ∧
      watched.supervision.state = .supervised ∧
      22000 = watched.supervision.lastBeat + (watched.box.closedWindow + watched.box.openWindow) * 1000 ∧
      (let s := probingPlant [⟨2, .preClose, .controller, 0, false⟩] (some (flight .preClose .p1 true))
       s.powered = true ∧ s.probe.flight = some (flight .preClose .p1 true)) ∧
      (probingPlant [⟨2, .diagnose, .auto, 0, false⟩] (some (flight .diagnose .p1 true))).powered = true := by decide

/-- The plant in LAPSED. -/
def lapsed : State := { plant with
  supervision := ⟨.lapsed, some 5#16, 0, 0⟩, attention := [.box .restarted, .box .supervisionLapsed] }

theorem witness_AttentionClearRemovesTheNamedItems :
    lapsed.listening = true ∧ (List.replicate 26 0xFF#8).length = 26 ∧ lapsed.supervision.state = .lapsed ∧
      Item.box .supervisionLapsed ∈ lapsed.attention ∧
      maskNames (List.replicate 26 0xFF#8) (.box .supervisionLapsed) = true ∧
      maskNames (List.replicate 26 0#8) (.box .supervisionLapsed) = false ∧
      plant.listening = true ∧ plant.supervision.state ≠ .lapsed ∧ (List.replicate 25 0#8).length ≠ 26 ∧
      (List.replicate 27 0#8).length ≠ 26 := by decide

theorem witness_MaskCopiedFromAReadNamesWhatItReturned :
    stringNumber 1 = true ∧ stringNumber 24 = true ∧
      (let s : State := { plant with attention := [.str .closeFailed 24, .box .storeFault] }
       Item.str .closeFailed 24 ∈ s.attention ∧ Item.box .storeFault ∈ s.attention) := by decide

/-! ### Invariants

One state serves every invariant: a string in each of six states, a queue entry, a commutated break, a close in flight, a
lockout, a check in flight and a waiting diagnosis. -/

/-- The state in which everything is under way. -/
def busy : State := { plant with
  strings := [used 1 .connected .closed, { used 2 .isolated .opened with cause := some (.req .shutdown) },
    { used 3 .queued .closed with current := 500, cause := some (.req .manual), record := some record },
    { used 4 .breaking .closed with op := some (.opening 990 80), cause := some (.req .overCurrent) },
    { used 5 .closing .opened with op := some (.closing .controller 990 80), cause := some .restart },
    { used 6 .lockedOut .opened with verdict := some .earthPos }] ++ State.reset.strings.drop 6
  lockouts := [⟨6, .earthPos, 1#16⟩]
  sched := ⟨[entry 3 .manual], 2, [⟨entry 4 .overCurrent, true⟩]⟩
  cell := { plant.cell with stage := .conducting, served := some 4, timeout := 80 }
  probe := ⟨[⟨2, .preClose, .controller, 0, false⟩, ⟨6, .diagnose, .auto, 1, false⟩], some (flight .preClose .p1 true)⟩
  supervision := ⟨.lapsed, none, 0, 0⟩
  attention := [.box .restarted, .box .supervisionLapsed]
  pending := [.shutdownAssertion] }

theorem busy_outside (n : Nat) (h : n = 0 ∨ 24 < n) : busy.str n = StringRec.blank (Config.string n) .opened := by
  refine busy.str_outside n ?_
  have : busy.strings.length = 24 := by decide
  omega

/-- What the figures of a number outside the table are. -/
theorem number_outside (n : Nat) (h : n = 0 ∨ 24 < n) : stringNumber n = false := by
  unfold stringNumber
  rcases h with rfl | h
  · rfl
  · simp; omega

theorem busy_sound : Sound busy where
  size := by decide
  queueDistinct := by decide
  breaksDistinct := by decide
  listDistinct := by decide
  queued := by
    refine for_all_numbers _ (by decide +kernel) fun n h => ?_
    simp only [number_outside n h, Bool.false_eq_true, false_and, iff_false]
    have : busy.sched.queue.map (·.string) = [3] := by decide
    simp only [this, List.mem_singleton]
    omega
  breaking := by
    refine for_all_numbers _ (by decide +kernel) fun n h => ?_
    simp only [number_outside n h, Bool.false_eq_true, false_and, iff_false]
    have : busy.sched.breaks.map (·.entry.string) = [4] := by decide
    simp only [this, List.mem_singleton]
    omega
  opening := by
    intro n a b h
    have key : ∀ n, (match (busy.str n).op with | some (.opening _ _) => (busy.str n).state == .breaking | _ => true) = true := by
      refine for_all_numbers _ (by decide +kernel) fun n h => ?_
      simp only [busy_outside n h, StringRec.blank]
    have := key n
    simpa only [h, beq_iff_eq] using this
  closing := by
    intro n o a b h
    have key : ∀ n, (match (busy.str n).op with | some (.closing _ _ _) => (busy.str n).state == .closing | _ => true) = true := by
      refine for_all_numbers _ (by decide +kernel) fun n h => ?_
      simp only [busy_outside n h, StringRec.blank]
    have := key n
    simpa only [h, beq_iff_eq] using this
  cell := fun _ => ⟨4, by decide, by decide, by decide, fun h => absurd (by decide) h⟩
  listed := by decide
  check := by
    intro f hf _ _
    have : some (flight .preClose .p1 true) = some f := hf
    cases this
    exact ⟨⟨2, .preClose, .controller, 0, false⟩, by decide, rfl, rfl⟩
  pass := by
    intro f hf hp
    have : some (flight .preClose .p1 true) = some f := hf
    cases this
    exact absurd hp (by decide)
  configured := by
    refine for_all_numbers _ (by decide +kernel) fun n h => ?_
    simp only [busy_outside n h, StringRec.blank, ne_eq, not_true_eq_false, false_imp_iff]
  startUp := fun h => absurd (by decide) h

theorem busy_locked_off : LockedOff busy where
  sound := busy_sound
  recorded := fun _ => by decide
  lockedOut := by
    refine for_all_numbers _ (by decide +kernel) fun n h => ?_
    simp only [busy_outside n h, StringRec.blank, reduceCtorEq, false_imp_iff]
  closable := by decide
  inFlight := by
    intro f hf _
    have : some (flight .preClose .p1 true) = some f := hf
    cases this
    exact ⟨⟨2, .preClose, .controller, 0, false⟩, by decide, rfl, rfl⟩

/-- Every step has an answer (the hypothesis of each invariant). -/
theorem busy_steps : ∃ t : State, step busy = .next t := ⟨_, rfl⟩

theorem witness_AttentionSetKeepsNoDuplicates : AttentionDistinct busy ∧ ∃ t : State, step busy = .next t :=
  ⟨by unfold AttentionDistinct; decide, busy_steps⟩

theorem witness_LapseAndItsItemStandTogether : LapseShown busy ∧ ∃ t : State, step busy = .next t :=
  ⟨by unfold LapseShown; decide, busy_steps⟩

theorem witness_LockoutSetKeepsOneRecordPerString : LockoutsDistinct busy ∧ ∃ t : State, step busy = .next t :=
  ⟨by unfold LockoutsDistinct; decide, busy_steps⟩

theorem witness_TablesKeepTheirSizes : TableSizes busy ∧ ∃ t : State, step busy = .next t :=
  ⟨by unfold TableSizes; decide, busy_steps⟩

theorem witness_BudgetsStayWithinThePerDayMaximum : BudgetsBounded busy ∧ ∃ t : State, step busy = .next t :=
  ⟨⟨by decide, fun h => absurd (by decide) h⟩, busy_steps⟩

/-- The ranges of one record, as a test. -/
theorem figuresOk_of (r : StringRec) (h : (-4000 ≤ r.current ∧ r.current ≤ 4000) ∧ (-50 ≤ r.offset ∧ r.offset ≤ 50) ∧
    (-2000 ≤ r.n ∧ r.n ≤ 2000) ∧ r.p = none ∧ r.reverseRun ≤ 2 ∧ r.overRun ≤ 3 ∧ r.openRun ≤ 3 ∧ r.bucket ≤ 65535) :
    FiguresOk r :=
  ⟨h.1, h.2.1, h.2.2.1, (by intro p hp; rw [h.2.2.2.1] at hp; cases hp), h.2.2.2.2.1, h.2.2.2.2.2.1, h.2.2.2.2.2.2.1,
    h.2.2.2.2.2.2.2⟩

theorem witness_LiveFiguresStayInTheirRanges : FiguresBounded busy ∧ ∃ t : State, step busy = .next t := by
  refine ⟨fun r hr => figuresOk_of r ?_, busy_steps⟩
  revert r
  decide +kernel

theorem witness_QueueHoldsExactlyTheQueuedStrings : Sound busy ∧ ∃ t : State, step busy = .next t :=
  ⟨busy_sound, busy_steps⟩

theorem witness_LockedStringsStayOffTheBus : LockedOff busy ∧ ∃ t : State, step busy = .next t :=
  ⟨busy_locked_off, busy_steps⟩

theorem witness_NoCloseStartsWhileShutdownIsAsserted :
    (let s : State := { busy with shutdown := ⟨true, true, 0, false⟩ }
     s.shutdown.asserted = true ∧ (s.str 5).state = .closing ∧ ∃ t : State, exec .probeReleaseEnd s = .next t) :=
  ⟨rfl, by decide, _, rfl⟩

theorem witness_EveryRowKeepsToItsBlocks :
    (∃ t : State, exec .modeSetup busy = .next t) ∧ Block.cell ∉ mayChange .modeSetup := ⟨⟨_, rfl⟩, by decide⟩

/-! ### Queries and control messages -/

theorem witness_QueriesChangeOnlyTheReply :
    plant.listening = true ∧ plant.peer.groups.length = 6 ∧ plant.scan.temps.length = 4 ∧ plant.scan.ext.length = 6 ∧
      plant.strings.length = 24 ∧ (1 ≤ (21#8).toNat ∧ (21#8).toNat ≤ 24 ∧ (21#8).toNat + (4#8).toNat - 1 ≤ 24) ∧
      ¬ (22#8).toNat + (4#8).toNat - 1 ≤ 24 ∧ ¬ 1 ≤ (0#8).toNat ∧ ¬ (25#8).toNat ≤ 24 ∧
      (6#8).toNat ≤ 6 ∧ ¬ (7#8).toNat ≤ 6 ∧ (24#8).toNat ≤ 24 ∧
      ((2#8).toNat ≤ 4 ∧ ((none : Option Byte) = none ↔ (2#8).toNat = 2 ∨ (2#8).toNat = 3)) ∧
      ((4#8).toNat ≤ 4 ∧ (some 1#8 = none ↔ (4#8).toNat = 2 ∨ (4#8).toNat = 3)) ∧ 4 < (5#8).toNat ∧
      (∀ l ∈ busy.lockouts, stringNumber l.string = true) ∧ busy.lockouts.length = 1 ∧
      LockoutsDistinct busy := by unfold LockoutsDistinct; decide

theorem witness_StringRecordCarriesItsFields :
    plant.strings.all (fun r => r.record == none) = true ∧ (busy.str 3).record = some record ∧
      (busy.str 3).reconnectedAt = none ∧
      (let r : StringRec := { busy.str 3 with reconnectedAt := some 0x01020304#32 }
       r.reconnectedAt = some 0x01020304#32 ∧ (r.bytes 3).drop 27 = [1#8, 2#8, 3#8, 4#8] ++ (r.bytes 3).drop 31) := by
  decide

theorem witness_ExternalTemperatureFollowsItsRule :
    (let s : State := { plant with scan := { plant.scan with
      ext := [.valid 40 900, .none, .none, .none, .none, .valid (-40) 899] } }
     s.scan.ext.length = 6 ∧ s.listening = true ∧ groupNumber (0#8).toNat = false ∧ groupNumber (7#8).toNat = false ∧
       groupNumber (1#8).toNat = true ∧ groupNumber (6#8).toNat = true ∧ getNum s.scan.ext 1 = some (.valid 40 900) ∧
       getNum s.scan.ext 6 = some (.valid (-40) 899) ∧ 899 < 900) := by decide

/-- The plant with string 24 in a state. -/
def in24 (s : State) (state : StringState) (held : Option ReqCause) : State :=
  withStr s 24 { used 24 state .opened with held := held }

theorem witness_IsolateActsByTheStringsState :
    plant.listening = true ∧ stringNumber (25#8).toNat = false ∧ stringNumber (0#8).toNat = false ∧
      stringNumber (24#8).toNat = true ∧ plant.strings.length = 24 ∧ (in24 plant .unused none).strings.length = 24 ∧
      ((in24 plant .stuckClosed none).str 24).state = .stuckClosed ∧
      ((in24 plant .breakFailed none).str 24).state = .breakFailed ∧
      ((in24 plant .queued none).str 24).state = .queued ∧ ((in24 plant .breaking none).str 24).state = .breaking ∧
      ((in24 plant .closing none).str 24).state = .closing ∧ ((in24 plant .closing none).str 24).held = none ∧
      ((in24 plant .closing (some .shutdown)).str 24).held = some .shutdown ∧
      ((in24 plant .isolated none).str 24).state = .isolated ∧
      (∀ e ∈ (in24 plant .isolated none).probe.list, e.string = 24 → e.purpose = .diagnose) ∧
      ((in24 plant .lockedOut none).str 24).state = .lockedOut ∧
      (let e : ProbeEntry := ⟨24, .preClose, .controller, 0, false⟩
       let s : State := { in24 plant .isolated none with probe := ⟨[e], some { flight .preClose .p1 true with string := 24 }⟩ }
       e ∈ s.probe.list ∧ (∀ x ∈ s.probe.list, x.string = 24 → x = e) ∧ (s.str 24).state = .isolated ∧
         s.listening = true) := by decide +kernel

theorem witness_IsolateOnTheBusIsQueuedAndWalked :
    plant.listening = true ∧ plant.strings.length = 24 ∧ stringNumber (1#8).toNat = true ∧
      plant.shutdown.asserted = false ∧ plant.sched.queue = [] ∧ plant.scan.completed = true ∧
      (plant.str 1).state = .connected ∧ ((withStr plant 1 (used 1 .suspect .closed)).str 1).state = .suspect ∧
      ((withStr plant 1 (used 1 .connected .opened)).str 1).position = .opened ∧
      (({ used 1 .connected .closed with current := -50 } : StringRec)).current.natAbs ≤ plant.box.coldLimit ∧
      plant.box.coldLimit < (({ used 1 .connected .closed with current := -51 } : StringRec)).current.natAbs ∧
      (plant.str 1).tapFault = false ∧ plant.cell.stage = .idle ∧
      ({ plant with cell := { plant.cell with stage := .hot } } : State).cell.stage ≠ .idle := by decide

theorem witness_ReconnectIsTestedInOrder :
    plant.listening = true ∧ stringNumber (0#8).toNat = false ∧ stringNumber (25#8).toNat = false ∧
      stringNumber (2#8).toNat = true ∧ ((withStr plant 2 (used 2 .lockedOut .opened)).str 2).state = .lockedOut ∧
      (plant.str 1).state ≠ .lockedOut ∧ (plant.str 1).state ≠ .isolated ∧ (plant.str 2).state = .isolated ∧
      (∃ e ∈ (probingPlant [⟨2, .diagnose, .auto, 0, false⟩] none).probe.list, e.string = 2) ∧
      (∀ e ∈ plant.probe.list, e.string ≠ 2) ∧
      ({ plant with shutdown := ⟨true, true, 0, false⟩ } : State).shutdown.asserted = true ∧
      plant.shutdown.asserted = false ∧ plant.supervision.state ≠ .supervised ∧ watched.listening = true ∧
      watched.shutdown.asserted = false ∧ watched.supervision.state = .supervised ∧
      (watched.str 2).state = .isolated ∧ (∀ e ∈ watched.probe.list, e.string ≠ 2) := by decide

theorem witness_ProbePlacesADiagnoseEntry :
    plant.listening = true ∧ stringNumber (0#8).toNat = false ∧ stringNumber (2#8).toNat = true ∧
      ((plant.str 1).state ≠ .isolated ∧ (plant.str 1).state ≠ .lockedOut) ∧ (plant.str 2).state = .isolated ∧
      (∃ e ∈ (probingPlant [⟨2, .diagnose, .auto, 0, false⟩] none).probe.list, e.string = 2) ∧
      (∀ e ∈ plant.probe.list, e.string ≠ 2) ∧ plant.probe.flight = none ∧
      (∀ e ∈ plant.probe.list ++ [⟨2, .diagnose, .controller, 0, false⟩], plant.eligible e = false) ∧
      (let s := withStr plant 2 { used 2 .isolated .opened with cfg := { (used 2 .isolated .opened).cfg with group := 0 } }
       let list := s.probe.list ++ [(⟨2, .diagnose, .controller, 0, false⟩ : ProbeEntry)]
       list.find? s.eligible = some ⟨2, .diagnose, .controller, 0, false⟩) ∧
      (probingPlant [] (some { flight .diagnose .p1 true with string := 24 })).probe.flight ≠ none := by decide +kernel

/-- Supervision standing and string 6 locked out. -/
def watchedLock : State := { withStr watched 6 (used 6 .lockedOut .opened) with lockouts := [⟨6, .earthPos, 1#16⟩] }

theorem witness_ReleaseRemovesTheLockout :
    watchedLock.listening = true ∧ watchedLock.strings.length = 24 ∧ stringNumber (25#8).toNat = false ∧
      stringNumber (6#8).toNat = true ∧ (watchedLock.str 1).state ≠ .lockedOut ∧
      (watchedLock.str 6).state = .lockedOut ∧ watchedLock.supervision.state = .supervised ∧
      (let s : State := { watchedLock with supervision := ⟨.waiting, none, 0, 0⟩ }
       (s.str 6).state = .lockedOut ∧ s.supervision.state ≠ .supervised ∧ s.listening = true) := by decide +kernel

/-- The strings on which the statement says that a RESTORE acts. -/
def restoreActed (s : State) : List Nat := Config.stringNumbers.filter fun n =>
  (s.str n).state == .isolated && (s.str n).cause == some (.req .shutdown) &&
    ((s.str n).verdict == none || (s.str n).verdict == some .healthy) &&
    s.probe.list.all fun e => e.string != n || (e.purpose == .diagnose && !s.probing n)

theorem witness_RestorePlacesPreCloseEntries :
    (drill.listening = true ∧ (drill.probe.list.map (·.string)).Nodup) ∧
      ({ drill with shutdown := ⟨true, true, 0, false⟩ } : State).shutdown.asserted = true ∧
      (plant.listening = true ∧ (plant.probe.list.map (·.string)).Nodup ∧ plant.shutdown.asserted = false ∧
        plant.supervision.state ≠ .supervised) ∧
      (drill.shutdown.asserted = false ∧ drill.supervision.state = .supervised) ∧
      restoreActed watched = [] ∧ restoreActed drill = [7, 8, 10] ∧
      (∃ e ∈ drill.probe.list, drill.eligible e = true) ∧ drill.probe.flight = none ∧
      restoreActed { drill with probe := ⟨drill.probe.list, some { flight .diagnose .p2 true with string := 8 }⟩ } = [7, 10] ∧
      restoreActed { drill with probe := ⟨[⟨7, .preClose, .controller, 0, false⟩], none⟩ } = [8, 10] := by decide +kernel

/-- The plant with its isolator in a state. -/
def isolatorAt (s : State) (state : IsolatorState) (feedback : Travel) : State :=
  { s with isolator := ⟨state, false, feedback, 0⟩ }

theorem witness_OpenRequestActsByTheIsolatorsState :
    plant.listening = true ∧ (isolatorAt plant .opening .mid).isolator.state = .opening ∧
      (isolatorAt plant .opened .opened).isolator.state = .opened ∧
      (isolatorAt plant .closing .mid).isolator.state = .closing ∧
      (plant.isolator.state = .closed ∧ plant.isolator.feedback ≠ .opened) ∧
      (let s := isolatorAt plant .failed .mid
       s.listening = true ∧ s.isolator.state = .failed ∧ s.isolator.feedback ≠ .opened) ∧
      (let s := isolatorAt plant .closed .opened
       s.listening = true ∧ s.isolator.state = .closed ∧ s.isolator.feedback = .opened) := by decide

theorem witness_CloseRequestIsTestedInOrder :
    watched.listening = true ∧ (isolatorAt watched .opening .mid).isolator.state = .opening ∧
      (watched.isolator.state ≠ .opening ∧ watched.isolator.state ≠ .closing) ∧
      ({ watched with shutdown := ⟨true, true, 0, false⟩ } : State).shutdown.asserted = true ∧
      (plant.listening = true ∧ plant.shutdown.asserted = false ∧ plant.supervision.state ≠ .supervised) ∧
      (watched.shutdown.asserted = false ∧ watched.supervision.state = .supervised) ∧
      (∃ r ∈ (in24 watched .breakFailed none).strings, r.state = .breakFailed) ∧
      (isolatorAt watched .failed .mid).isolator.state = .failed ∧ (∀ r ∈ watched.strings, r.state ≠ .breakFailed) ∧
      watched.isolator.state = .closed ∧
      (let s := isolatorAt watched .opened .opened
       s.isolator.state = .opened ∧ s.isolator.feedback ≠ .closed ∧ s.supervision.state = .supervised) := by
  decide +kernel

/-- A FAULTED cell under supervision, its record naming a string or none. -/
def faulted (string : Option Nat) (monitor : Int) (heat : Nat) : State := { watched with
  cell := { watched.cell with
    stage := .faulted, served := string, fault := some ⟨.quenching, string, 600, 5#32⟩, monitor := amps monitor, heat := heat } }

theorem witness_CellRestoreReleasesTheTap :
    watched.listening = true ∧ watched.cell.stage ≠ .faulted ∧ (faulted (some 1) 0 0).listening = true ∧
      (faulted (some 1) 0 0).cell.stage = .faulted ∧ (faulted (some 1) 0 0).cell.releasing = false ∧
      (faulted (some 1) 0 0).box.coldLimit < magnitude (faulted (some 1) (-51) 0).cell.monitor ∧
      magnitude (faulted (some 1) (-50) 0).cell.monitor ≤ (faulted (some 1) 0 0).box.coldLimit ∧
      ({ faulted (some 1) 0 0 with supervision := ⟨.waiting, none, 0, 0⟩ } : State).supervision.state ≠ .supervised ∧
      (faulted (some 1) 0 0).supervision.state = .supervised ∧
      (faulted (some 1) 0 0).cell.fault = some ⟨.quenching, some 1, 600, 5#32⟩ ∧
      (faulted none 50 120).cell.fault = some ⟨.quenching, none, 600, 5#32⟩ ∧ (faulted none 50 120).sched.queue = [] ∧
      (∃ e ∈ (restoring).sched.queue, e.string = 1) ∧ restoring.cell.fault = some ⟨.reset, none, 600, 5#32⟩ ∧
      (faulted none 50 120).cell.heat ≤ (faulted none 50 120).box.hMax ∧
      (faulted none 50 121).box.hMax < (faulted none 50 121).cell.heat := by decide

theorem witness_ModeMessagesChangeTheMode :
    plant.listening = true ∧ setUp.listening = true ∧ setUp.mode = .setup ∧ plant.mode = .run ∧
      (busy.mode = .run ∧ busy.listening = true ∧ busy.sched.breaks ≠ [] ∧ (∃ r ∈ busy.strings, r.state = .closing) ∧
        busy.probe.flight ≠ none) ∧ writing.store.writing ≠ none ∧
      (plant.sched.breaks = [] ∧ (∀ r ∈ plant.strings, r.state ≠ .closing) ∧ plant.probe.flight = none ∧
        plant.store.writing = none) ∧ (getNum setUp.strings 24).isSome = true := by decide +kernel

/-! ### Configuration messages -/

theorem witness_StringConfigIsTestedInOrder :
    plant.listening = true ∧ plant.mode = .run ∧ setUp.listening = true ∧ setUp.mode = .setup ∧
      ¬ 100 ≤ ({ stringMsg with rated := 99#16 } : StringConfigMsg).rated.toNat ∧
      (let m := stringMsg
       stringNumber m.string.toNat = true ∧ m.used = 1#8 ∧ m.group.toNat ≤ 6 ∧ 1 ≤ m.input.toNat ∧ m.input.toNat ≤ 24 ∧
         100 ≤ m.rated.toNat ∧ m.rated.toNat ≤ 2000 ∧ 1 ≤ m.modules.toNat ∧ m.modules.toNat ≤ 40 ∧
         100 ≤ m.voc25.toNat ∧ m.voc25.toNat ≤ 800 ∧ m.modules.toNat * m.voc25.toNat ≤ 15000 ∧
         setUp.inputTaken 3 m.input.toNat = false) ∧
      ¬ ({ stringMsg with modules := 20#8, voc25 := 751#16 } : StringConfigMsg).modules.toNat *
        ({ stringMsg with modules := 20#8, voc25 := 751#16 } : StringConfigMsg).voc25.toNat ≤ 15000 ∧
      (∃ k ∈ Config.stringNumbers, k ≠ 3 ∧ (setUp.str k).cfg.used = true ∧ (setUp.str k).cfg.input = 1) ∧
      ((withStr setUp 3 (used 3 .breaking .closed)).str 3).state = .breaking ∧
      ((withStr setUp 3 (used 3 .connected .closed)).str 3).cfg.used = true ∧
      ((withStr setUp 3 (used 3 .connected .closed)).str 3).state = .connected ∧
      ({ stringMsg with used := 0#8 } : StringConfigMsg).used ≠ 1#8 := by decide +kernel

/-- The settings of `stringMsg`. -/
def newString : StringSettings := ⟨true, 1, 3, 1000, 20, 400⟩

/-- The plant in SETUP with shutdown ASSERTED and the contact of the unused string 3 closed, before or after a first
completion. -/
def asserting (completed : Bool) : State := withStr { setUp with
  shutdown := { setUp.shutdown with asserted := true }, scan := { setUp.scan with completed := completed } }
  3 (StringRec.blank (Config.string 3) .closed)

/-- R42, R28, R144: the member count without string 2, the round's channel gone, and the string made used queued. -/
theorem test_string_config_side_effects :
    (let s := { setUp with scan := { setUp.scan with round := some (oneSet false) } }
     let t := after (.stringConfig { stringMsg with string := 2#8, used := 0#8, input := 2#8 }) s
     (t.grp 1).map (·.members) = some 1 ∧ t.scan.round.map (fun d => d.channels.map (·.string)) = some [1]) ∧
      ((after (.stringConfig stringMsg) (asserting false)).str 3).state = .queued ∧
      ((after (.stringConfig stringMsg) (asserting true)).str 3).state = .breaking := by decide +kernel

theorem witness_StringConfigMovesTheStanding :
    setUp.listening = true ∧ setUp.mode = .setup ∧ setUp.strings.length = 24 ∧
      stringNumber stringMsg.string.toNat = true ∧ stringSettingsOf stringMsg = some newString ∧
      newString.modules * newString.voc25 ≤ 15000 ∧ setUp.shutdown.asserted = false ∧
      setUp.inputTaken 3 newString.input = false ∧ (setUp.str 3).state ≠ .breaking ∧ (setUp.str 3).state ≠ .closing ∧
      setUp.probing 3 = false ∧ (setUp.str 3).cfg.used = false ∧ (setUp.str 3).position = .opened ∧
      ((withStr setUp 3 (StringRec.blank (Config.string 3) .closed)).str 3).position = .closed ∧
      (let s := withStr setUp 3 (used 3 .suspect .closed)
       (s.str 3).cfg.used = true ∧ s.inputTaken 3 newString.input = false ∧ newString.input = (s.str 3).cfg.input) ∧
      (let s := withStr setUp 3 { used 3 .connected .closed with cfg := { newString with input := 9 } }
       (s.str 3).cfg.used = true ∧ newString.input ≠ (s.str 3).cfg.input ∧ s.inputTaken 3 newString.input = false) ∧
      (let m : StringConfigMsg := { stringMsg with used := 0#8 }
       let s := withStr setUp 3 (used 3 .isolated .opened)
       stringSettingsOf m = some { newString with used := false } ∧ (s.str 3).cfg.used = true ∧
         (s.str 3).state = .isolated ∧ getNum s.peer.groups 1 = some ⟨Config.group, 0, 0, none, false⟩) ∧
      ((asserting true).shutdown.asserted = true ∧ ((asserting true).str 3).cfg.used = false ∧
        ((asserting true).str 3).position = .closed ∧ (asserting true).scan.completed = true ∧
        (asserting false).scan.completed = false ∧ (asserting true).inputTaken 3 newString.input = false ∧
        ((asserting true).str 3).state ≠ .breaking ∧ (asserting true).probing 3 = false) := by decide +kernel

theorem witness_GroupAndLinkConfigReplaceTheirRecord :
    plant.listening = true ∧ plant.mode = .run ∧ setUp.listening = true ∧ setUp.mode = .setup ∧
      (let m := { groupMsg with deficit := 950#16, leak := 1000#16, trip := 60000#16 }
       groupNumber m.group.toNat = true ∧ tempSourceOfCode m.source = some .t2 ∧ policyOfCode m.policy = some .isolate ∧
         m.beta.toInt = -60 ∧ 500 ≤ m.deficit.toNat ∧ m.deficit.toNat ≤ 950 ∧ m.leak.toNat ≤ 1000 ∧
         1000 ≤ m.trip.toNat ∧ m.trip.toNat ≤ 60000) ∧
      ({ groupMsg with beta := 0xC3#8 } : GroupConfigMsg).beta.toInt < -60 ∧
      0 < ({ groupMsg with beta := 1#8 } : GroupConfigMsg).beta.toInt ∧ groupNumber (7#8).toNat = false ∧
      tempSourceOfCode 6#8 = none ∧ policyOfCode 2#8 = none ∧ (499#16).toNat < 500 ∧
      rateOfCode 2#8 = some .b115200 ∧ 1 ≤ (99#8).toNat ∧ (99#8).toNat ≤ 99 ∧ rateOfCode 3#8 = none ∧
      99 < (100#8).toNat := by decide

/-- The plant with its cell in a stage at a heat. -/
def cellAt (stage : CellStage) (heat : Nat) (served : Option Nat) (releasing : Bool) : State := { plant with
  cell := { plant.cell with stage := stage, heat := heat, served := served, releasing := releasing } }

/-- The plant with a round source state and a round in progress or none. -/
def sourced (source : SourceState) (round : Option Round) : State :=
  { plant with scan := { plant.scan with source := source, round := round } }

theorem witness_BoxConfigClampsOrRefuses :
    plant.listening = true ∧ plant.mode = .run ∧ setUp.listening = true ∧ setUp.mode = .setup ∧
      (let m := { boxMsg with
        daylightFloor := 300#16, nightRounds := 10#16, reverseLimit := 2000#16, overLimit := 1050#16, coldLimit := 300#16
        hMax := 20#16, hResume := 10#16, closeMargin := 1000#16, attemptLimit := 20#8, perDayMax := 3#8
        recurrence := 3600#16, quenchTimeout := 0#8, averaging := 0#8 }
       (m.source = 0#8 ∨ m.source = 1#8) ∧ m.hResume.toNat + 10 ≤ m.hMax.toNat ∧ (boxSettingsOf m).isSome = true) ∧
      (setUp.sched.queue = [] ∧ setUp.box.source = .internal ∧ (sourced .following none).scan.round = none ∧
        setUp.scan.round = none) ∧
      (let b := { Config.box with source := .follow }
       let s := atTime setUp 4000
       b.source ≠ s.box.source ∧ s.scan.lastStart + 2 * b.dayPeriod ≤ s.part.now ∧
         ¬ s.scan.lastStart + 2 * b.dayPeriod ≤ (atTime setUp 3999).part.now) ∧
      (let b := { Config.box with dayPeriod := 200, nightPeriod := 10 }
       setUp.scan.lastStart + b.dayPeriod ≤ (atTime setUp 200).part.now ∧
         ¬ setUp.scan.lastStart + b.dayPeriod ≤ (atTime setUp 199).part.now ∧
         setUp.scan.lastStart + b.nightPeriod * 1000 ≤ (atTime setUp 10000).part.now) ∧
      ((cellAt .hot 60 none false).cell.heat ≤ Config.box.hResume ∧
        ¬ (cellAt .hot 61 none false).cell.heat ≤ Config.box.hResume ∧
        ¬ Config.box.hMax < (cellAt .idle 120 none false).cell.heat ∧
        Config.box.hMax < (cellAt .idle 121 none false).cell.heat) ∧
      (plant.supervision.state = .waiting ∧ 10 ≠ Config.box.longWindow ∧
        plant.supervision.longStart + 10 * 1000 ≤ (atTime plant 10000).part.now ∧
        ¬ plant.supervision.longStart + 10 * 1000 ≤ (atTime plant 9999).part.now) ∧
      (watched.supervision.state = .supervised ∧ 0 ≠ Config.box.closedWindow ∧ 1 ≠ Config.box.openWindow ∧
        watched.supervision.lastBeat + (0 + 1) * 1000 ≤ (atTime watched 1000).part.now ∧
        ¬ watched.supervision.lastBeat + (0 + 1) * 1000 ≤ (atTime watched 999).part.now) ∧
      ¬ ({ boxMsg with hResume := 111#16 } : BoxConfigMsg).hResume.toNat + 10 ≤ boxMsg.hMax.toNat := by decide +kernel

/-- A write in flight with another pending. -/
def writingTwice : State := { writing with store := { writing.store with pending := true } }

theorem witness_StoreWritesTheWholeImage :
    (plant.listening = true ∧ plant.mode = .run) ∧
      (let s : State := { writing with mode := .setup }
       s.listening = true ∧ s.mode = .setup ∧ s.store.writing ≠ none) ∧
      (setUp.listening = true ∧ setUp.mode = .setup ∧ setUp.store.writing = none) ∧
      (writing.store.writing = some ⟨Config.settings, []⟩ ∧ writing.store.pending = false) ∧
      (writingTwice.store.writing = some ⟨Config.settings, []⟩ ∧ writingTwice.store.pending = true) := by decide

theorem witness_RestartIsAnsweredBeforeItsReset :
    plant.listening = true ∧ (2#8).toNat ≠ plant.link.operating.address ∧
      (1#8).toNat = plant.link.operating.address ∧ writing.listening = true ∧
      (1#8).toNat = writing.link.operating.address ∧ writing.store.writing ≠ none ∧ plant.store.writing = none := by
  decide

/-! ### Rounds and judgements -/

theorem witness_RoundsStartBySource :
    plant.running = true ∧ (sourced .timed none).scan.source = .timed ∧ (sourced .fallback none).scan.round = none ∧
      (sourced .following none).scan.source = .following ∧ (sourced .following none).running = true ∧
      (sourced .timed (some (oneSet false))).scan.round ≠ none ∧
      (sourced .fallback (some (oneSet false))).scan.source = .fallback ∧ 19 < 20 ∧ 20 ≤ 20 := by decide

theorem witness_SampleSetAddsOrCompletes :
    plant.scan.round = none ∧
      (let s := sourced .timed (some { oneSet false with total := 4, taken := 2 })
       s.scan.round = some { oneSet false with total := 4, taken := 2 } ∧ 2 + 1 < 4) ∧
      (let s := sourced .timed (some { oneSet true with total := 8, taken := 7 })
       s.scan.round = some { oneSet true with total := 8, taken := 7 } ∧ 8 ≤ 7 + 1 ∧ s.strings.length = 24 ∧
         ((oneSet true).channels.map (·.string)).Nodup ∧ stringNumber 24 = true ∧
         s.scan.missing[0]? = some false ∧ (-550 ≤ (1500 : Int) ∧ ¬ (1501 : Int) ≤ 1500) ∧
         (∀ c ∈ (oneSet true).channels, c.string ≠ 24) ∧
         ∀ c ∈ (oneSet true).channels, stringNumber c.string = true) := by decide

theorem witness_MedianIsTakenInAscendingOrder :
    ([560, 801, 812, 813].Perm [812, 813, 560, 801] ∧ [560, 801, 812, 813].Pairwise (· ≤ ·) ∧
      [812, 813, 560, 801].length = 2 * 1 + 2 ∧ [560, 801, 812, 813][1]? = some 801 ∧
      [560, 801, 812, 813][1 + 1]? = some 812) ∧
      ([801, 801, 805].Perm [801, 805, 801] ∧ [801, 801, 805].Pairwise (· ≤ ·) ∧ [801, 805, 801].length = 2 * 1 + 1 ∧
        [801, 801, 805][1]? = some 801) := by decide

theorem witness_ComparisonWritesReferencesAndIndices :
    plant.strings.length = 24 ∧ plant.peer.groups.length = 6 ∧ stringNumber 1 = true ∧
      (plant.str 1).cfg.used = true ∧ (plant.str 24).cfg.used = false ∧
      getNum plant.peer.groups 1 = some ⟨Config.group, 0, 0, none, false⟩ ∧
      ((plant.compare [1]).str 1).cfg.group = 1 ∧
      (let s := withStr plant 24 { used 24 .connected .closed with cfg := { (used 24 .connected .closed).cfg with group := 0 } }
       ((s.compare [24]).str 24).cfg.used = true ∧ s.grp ((s.compare [24]).str 24).cfg.group = none) := by decide +kernel

/-- The plant with its day/night state and dark-round count, its groups lit or not. -/
def sky (night lit : Bool) (dark : Nat) : State := { plant with
  peer := { plant.peer with
    night := night, dark := dark, groups := plant.peer.groups.map fun g => { g with lit := lit } } }

theorem witness_NightAndDayFollowTheDarkRounds :
    (∀ g ∈ (sky false false 298).peer.groups, g.lit = false) ∧
      (∀ r ∈ (sky false false 298).strings, r.cfg.used = true → r.cfg.group ≠ 0) ∧
      ¬ (∀ g ∈ (sky false true 0).peer.groups, g.lit = false) ∧ (sky false true 0).peer.night = false ∧
      (sky false false 298).peer.dark + 1 < (sky false false 298).box.nightRounds ∧
      (sky false false 299).box.nightRounds ≤ (sky false false 299).peer.dark + 1 ∧
      (sky true false 0).peer.night = true ∧ (∀ g ∈ (sky true false 0).peer.groups, g.lit = false) ∧
      (sky true true 0).peer.night = true ∧ ¬ (∀ g ∈ (sky true true 0).peer.groups, g.lit = false) ∧
      ((sky true true 0).peer.night ≠ (sky false true 0).peer.night ∧ plant.scan.round = none ∧
        (atTime plant 1999).part.now < plant.scan.lastStart + plant.box.dayPeriod ∧
        plant.scan.lastStart + plant.box.dayPeriod ≤ (atTime plant 2000).part.now ∧
        (sourced .following none).scan.source = .following ∧
        2 * plant.box.dayPeriod ≤ (atTime (sourced .following none) 4000).part.now) ∧
      (let entries : List ProbeEntry := [⟨1, .preClose, .auto, 1, true⟩, ⟨2, .diagnose, .auto, 0, false⟩]
       let lit : State := { sky false true 0 with probe := ⟨entries, none⟩ }
       let unlit : State := { sky false false 0 with probe := ⟨entries, some (flight .diagnose .p1 true)⟩ }
       lit.probe.flight = none ∧ (lit.str 2).cfg.group = 1 ∧ (lit.grp 1).map (·.lit) = some true ∧
         lit.eligible ⟨1, .preClose, .auto, 1, true⟩ = false ∧ lit.eligible ⟨2, .diagnose, .auto, 0, false⟩ = true ∧
         unlit.probe.flight = some (flight .diagnose .p1 true) ∧ (unlit.str 2).cfg.group = 1 ∧
         (unlit.grp 1).map (·.lit) = some false ∧ ∀ e ∈ unlit.probe.list, unlit.eligible e = false) := by decide +kernel

/-- A lit group with a reference. -/
def litGroup (reference : Nat) : GroupRec := ⟨Config.group, 6, 6, some reference, true⟩

/-- String 1, reconnected some rounds ago, on the bus or queued at NORMAL, before the first completion. -/
def reconnected (ago : Nat) (state : StringState) : State := withStr { plant with
  scan := { plant.scan with completed := false, counter := BitVec.ofNat 32 (5 + ago) }
  sched := if state = .queued then ⟨[entry 1 .openString], 1, []⟩ else plant.sched }
  1 { used 1 state .closed with
    reconnectedAt := some 5#32, record := if state = .queued then some record else none }

theorem witness_CriteriaMatureAndGiveOneCause :
    (litGroup 200).lit = true ∧ (litGroup 200).reference = some 200 ∧ 200 ≤ 200 ∧ ¬ 200 ≤ 199 ∧
      (let r : StringRec := { used 1 .connected .closed with reverseRun := 1, current := -150 }
       (r.judge Config.box true none).figures.reverseRun = 2) ∧
      (let r : StringRec := { used 1 .connected .closed with overRun := 2, n := 1250 }
       (r.judge Config.box false none).figures.reverseRun ≠ 2 ∧ (r.judge Config.box false none).figures.overRun = 3) ∧
      (let r : StringRec := { used 1 .connected .closed with openRun := 2, n := 10 }
       let j := r.judge Config.box false (some (litGroup 200))
       j.figures.reverseRun ≠ 2 ∧ j.figures.overRun ≠ 3 ∧ j.figures.openRun = 3) ∧
      (let r : StringRec := { used 1 .connected .closed with n := 560, p := some 694, bucket := 5936 }
       let j := r.judge Config.box false (some (litGroup 807))
       r.p = some 694 ∧ j.figures.openRun ≠ 3 ∧ j.alarmed = true ∧ (litGroup 807).cfg.policy = .isolate) ∧
      ((used 1 .connected .closed).judge Config.box false (some (litGroup 807))).alarmed = false ∧
      ((used 1 .connected .closed).cfg.used = true ∧ (used 1 .suspect .closed).state = .suspect ∧
        (used 1 .connected .closed).sensorFault = false ∧ (used 1 .queued .closed).state ≠ .suspect) ∧
      ((litGroup 807).cfg.trip / 2 ≤ 3000 ∧ ¬ (litGroup 807).cfg.trip / 2 ≤ 2999 ∧ 1499 < (litGroup 807).cfg.trip / 4 ∧
        ¬ 1500 < (litGroup 807).cfg.trip / 4) ∧
      (let s := withStr plant 1 { used 1 .connected .closed with overRun := 2, n := 1250 }
       getNum s.strings 1 = some { used 1 .connected .closed with overRun := 2, n := 1250 } ∧
         (getNum s.judgements 1).map (·.cause) = some (some .overCurrent)) ∧
      ((reconnected 900 .connected).strings.length = 24 ∧ stringNumber 1 = true ∧
        ((reconnected 900 .connected).str 1).state = .connected ∧
        (reconnected 900 .connected).shutdown.asserted = false ∧ (asserting true).shutdown.asserted = true ∧
        ((asserting true).str 1).state = .connected ∧ ReqCause.reverse ≠ .shutdown) ∧
      ((reconnected 900 .queued).queued 1 = some (entry 1 .openString) ∧
        ReqCause.manual.severity.rank ≤ (entry 1 .openString).severity.rank ∧
        (entry 1 .openString).severity.rank < ReqCause.overCurrent.severity.rank) ∧
      (∀ held ∈ [none, some ReqCause.manual, some .reverse],
        ((withStr plant 1 { used 1 .closing .opened with held := held }).str 1).state = .closing) ∧
      (∀ x ∈ [StringState.isolated, .lockedOut, .breaking, .unused, .stuckClosed, .breakFailed],
        ((withStr plant 1 (used 1 x .opened)).str 1).state = x) := by decide +kernel

/-- R131, R76: a request 899 rounds after the reconnection leaves the budget 0 and one of 900 keeps it; a queued string's entry
is raised by a higher cause alone, with its round kept. -/
theorem test_request_recurs :
    [899, 900].map (fun d => (((reconnected d .connected).request 1 .reverse).str 1).budget) = [0, 2] ∧
      (((reconnected 899 .connected).request 1 .manual).str 1).budget = 2 ∧
      ([ReqCause.manual, .reverse].map fun c => (((reconnected 900 .queued).request 1 c).queued 1).map (·.severity)) =
        [some .normal, some .critical] := by decide +kernel

/-! ### The queue, the cell, the contacts and the isolator -/

/-- String 1 queued at CRITICAL with a current and its tap fault mark. -/
def loaded (current : Int) (tapFault : Bool) : State := withStr { plant with sched := ⟨[entry 1 .reverse], 1, []⟩ }
  1 { used 1 .queued .closed with current := current, tapFault := tapFault, record := some record }

/-- The same above the cold-break limit, with the cell in a stage. -/
def inStage (stage : CellStage) : State :=
  { loaded 655 false with cell := { plant.cell with stage := stage } }

theorem witness_QueueKeepsItsOrder :
    (let q : List QueueEntry := [⟨1, .high, .overCurrent, 5#32, 1#32⟩, ⟨3, .normal, .manual, 4#32, 0#32⟩]
     let e : QueueEntry := ⟨2, .high, .overCurrent, 5#32, 2#32⟩
     (∀ x ∈ q, x.arrival ≠ e.arrival) ∧ q.Pairwise (fun a b => a.before 6#32 3#32 b = true) ∧
       Severity.normal.rank < Severity.high.rank) ∧
      ((5#32 - 4#32).toNat < (5#32 - 3#32).toNat ∧ (1#32 - 0xFFFFFFFF#32).toNat < (1#32 - 0xFFFFFFFE#32).toNat ∧
        (2#32 - 1#32).toNat < (2#32 - 0#32).toNat) ∧
      (stringNumber (entry 1 .reverse).string = true ∧ (loaded 51 false).strings.length = 24) ∧
      (withStr plant 1 (used 1 .queued .opened)).str 1 = used 1 .queued .opened ∧
      (loaded 51 false).scan.completed = true ∧ (reconnected 900 .queued).scan.completed = false ∧
      ((reconnected 900 .queued).str 1).position = .closed ∧ ((loaded 51 false).str 1).position = .closed ∧
      ((loaded (-50) false).str 1).current.natAbs ≤ (loaded (-50) false).box.coldLimit ∧
      (loaded (-51) false).box.coldLimit < ((loaded (-51) false).str 1).current.natAbs ∧
      ((loaded 51 false).str 1).tapFault = false ∧ ((loaded 51 true).str 1).tapFault = true ∧
      (∀ stage ∈ [CellStage.idle, .attaching, .hot, .faulted], (inStage stage).cell.stage = stage ∧
        (inStage stage).sched.queue = [entry 1 .reverse] ∧ (inStage stage).box.escalation = true ∧
        (inStage stage).box.coldLimit < ((inStage stage).str 1).current.natAbs) ∧
      ((entry 1 .reverse).severity = .critical ∧ (entry 1 .shutdown).severity = .shutdown ∧
        (entry 1 .overCurrent).severity = .high ∧ (entry 1 .manual).severity = .normal) ∧
      (∀ x ∈ [(IsolatorState.closed, Travel.closed), (.closed, .opened), (.closing, .mid), (.opening, .mid),
          (.opened, .opened), (.failed, .mid)],
        (isolatorAt (inStage .hot) x.1 x.2).isolator = ⟨x.1, false, x.2, 0⟩) ∧
      ({ loaded 51 false with box := { Config.box with escalation := false } } : State).box.escalation = false ∧
      (let s := isolatorAt (inStage .hot) .closed .opened
       s.walkOnce.isolator.state = .opened ∧ s.isolator.state ≠ .opened) ∧
      (let s := isolatorAt (inStage .hot) .closed .closed
       s.walkOnce.isolator.state ≠ .opened) ∧
      ((cellAt .resting 120 none false).cell.heat ≤ plant.box.hMax ∧
        plant.box.hMax < (cellAt .resting 121 none false).cell.heat) ∧
      (cellAt .hot 60 none false).cell.heat ≤ plant.box.hResume ∧
      (∀ heat ∈ [120, 121], let s := cellAt .faulted heat (some 1) true
        s.cell.stage = .faulted ∧ s.cell.releasing = true ∧ s.cell.served = some 1 ∧ (s.str 1).state ≠ .breakFailed) ∧
      ((cellAt .detaching 0 (some 1) false).cell.stage = .detaching ∧
        (cellAt .detaching 0 (some 1) false).cell.served = some 1) := by decide +kernel

/-- R79: behind an entry that took the turn, or one that waits with a clear mark, a commutated break waits and a cold break
does not; an entry whose tap fault mark is set bars nobody. R92: it asks for the box output open at HIGH. -/
theorem test_walk_turns :
    (let states (s : State) (tail : StringRec) : List StringState :=
       let t := (withStr { s with sched := ⟨[entry 1 .overCurrent, entry 2 .manual], 2, []⟩ } 2 tail).walk
       [(t.str 1).state, (t.str 2).state]
     let tail := used 2 .queued .closed
     states (loaded 655 false) { tail with current := 655 } = [.breaking, .queued] ∧
       states (loaded 655 false) { tail with current := 50 } = [.breaking, .breaking] ∧
       states (loaded 655 true) { tail with current := 655 } = [.queued, .breaking]) ∧
      (loaded 655 true).walk.isolator.state = .opening ∧ (inStage .hot).walk.isolator.state = .opening ∧
      (inStage .attaching).walk.isolator.state = .closed := by decide +kernel

/-- The cell attaching to string 1 for an over-current break, with escalation enabled or not. -/
def attachingHigh (escalation : Bool) : State := { breakingPlant .attaching none with
  sched := ⟨[], 1, [⟨entry 1 .overCurrent, true⟩]⟩, box := { Config.box with escalation := escalation } }

theorem witness_TapFeedbackAttachesOrReturns :
    (let s := breakingPlant .attaching none
     s.strings.length = 24 ∧ stringNumber 1 = true ∧ s.cell.stage = .attaching ∧ s.cell.served = some 1 ∧
       (s.str 1).position = .closed ∧ s.breakOf 1 = some ⟨entry 1 .manual, true⟩ ∧ s.sched.queue = [] ∧
       s.scan.completed = true ∧ s.box.coldLimit < (s.str 1).current.natAbs ∧ (entry 1 .manual).string = 1 ∧
       (entry 1 .manual).severity = .normal ∧ s.box.coldLimit < min (magnitude (amps 51)) 4000 ∧
       min (magnitude (amps (-50))) 4000 ≤ s.box.coldLimit) ∧
      ((withStr (breakingPlant .attaching none) 1 (used 1 .breaking .opened)).str 1).position = .opened ∧
      (let s := attachingHigh true
       s.breakOf 1 = some ⟨entry 1 .overCurrent, true⟩ ∧ 1 ≤ (entry 1 .overCurrent).severity.rank ∧
         s.box.escalation = true ∧ s.isolator.state = .closed ∧ s.isolator.feedback ≠ .opened ∧ s.sched.queue = [] ∧
         (s.str 1).position = .closed ∧ s.scan.completed = true ∧ s.box.coldLimit < (s.str 1).current.natAbs) ∧
      (attachingHigh false).box.escalation = false := by decide

theorem witness_CellDetachesRestsAndCools :
    plant.strings.length = 24 ∧ stringNumber 1 = true ∧ plant.sched.queue = [] ∧
      (cellAt .detaching 0 (some 1) false).cell.served = some 1 ∧
      (cellAt .resting 120 none false).cell.heat ≤ plant.box.hMax ∧
      plant.box.hMax < (cellAt .resting 121 none false).cell.heat ∧
      (cellAt .hot 60 none false).cell.heat ≤ plant.box.hResume ∧
      plant.box.hResume < (cellAt .hot 61 none false).cell.heat ∧
      (let s := cellAt .faulted 120 (some 1) true
       s.cell.stage = .faulted ∧ s.cell.releasing = true ∧ s.cell.served = some 1 ∧ s.cell.heat ≤ s.box.hMax ∧
         (s.str 1).state ≠ .breakFailed ∧ ((withStr s 1 (used 1 .breakFailed .opened)).str 1).state = .breakFailed) ∧
      (let s := cellAt .faulted 121 (some 1) true
       s.cell.releasing = true ∧ s.box.hMax < s.cell.heat ∧ (s.str 1).state ≠ .breakFailed ∧
         ((withStr s 1 (used 1 .breakFailed .opened)).str 1).state = .breakFailed) := by
  decide +kernel

theorem witness_QuenchEndsOrFails :
    (cellAt .detaching 0 (some 1) false).cell.stage ≠ .quenching ∧
      (let s := breakingPlant .quenching none
       s.cell.served = some 1 ∧ s.strings.length = 24 ∧ stringNumber 1 = true ∧ s.cell.stage = .quenching ∧
         s.cell.limit < magnitude (amps (-51)) ∧ magnitude (amps (-50)) ≤ s.cell.limit ∧
         (∀ e ∈ s.sched.queue, e.string ≠ 1) ∧ s.isolator.state = .closed ∧ s.isolator.feedback ≠ .opened ∧
         (isolatorAt s .closing .mid).isolator.state = .closing) := by decide

/-- A commutated break at the moment its contact opens, with a monitor current. -/
def opening (monitor : Int) : State :=
  { breakingPlant .conducting (some (.opening 990 80)) with
    cell := { (breakingPlant .conducting none).cell with monitor := amps monitor } }

/-- String 2 in a close, with a held request or none. -/
def closing (held : Option ReqCause) : State :=
  withStr plant 2 { used 2 .closing .opened with op := some (.closing .auto 990 80), held := held }

theorem witness_ContactPositionEndsItsOperation :
    plant.strings.length = 24 ∧ stringNumber 1 = true ∧ (plant.str 1).op = none ∧
      (let s := breakingPlant .idle (some (.opening 990 80))
       (s.str 1).op = some (.opening 990 80) ∧ s.cell.stage ≠ .conducting) ∧
      (((opening 51).str 1).op = some (.opening 990 80) ∧ (opening 51).cell.stage = .conducting ∧
        (opening 51).cell.served = some 1 ∧
        (opening 51).box.coldLimit < min (magnitude (opening 51).cell.monitor) 4000) ∧
      min (magnitude (opening (-50)).cell.monitor) 4000 ≤ (opening (-50)).box.coldLimit ∧
      (closing none).strings.length = 24 ∧ ((closing none).str 2).op = some (.closing .auto 990 80) ∧
      ((closing none).str 2).held = none ∧ (closing none).shutdown.asserted = false ∧
      ((closing (some .manual)).str 2).held = some .manual := by decide +kernel

theorem witness_ContactTimeoutEndsItsOperation :
    (plant.str 1).op = none ∧ ((closing none).str 2).op = some (.closing .auto 990 80) ∧
      (closing none).strings.length = 24 ∧ stringNumber 2 = true ∧
      (let s := breakingPlant .conducting (some (.opening 990 80))
       (s.str 1).op = some (.opening 990 80) ∧ s.breakOf 1 = some ⟨entry 1 .manual, true⟩ ∧
         ¬ 1 ≤ (entry 1 .manual).severity.rank) ∧
      (let s : State := { breakingPlant .idle (some (.opening 990 80)) with
        sched := ⟨[], 1, [⟨entry 1 .overCurrent, false⟩]⟩ }
       s.box.escalation = true ∧ s.breakOf 1 = some ⟨entry 1 .overCurrent, false⟩ ∧
         1 ≤ (entry 1 .overCurrent).severity.rank ∧ (isolatorAt s .opened .opened).isolator.state = .opened ∧
         s.isolator.state = .closed ∧ s.isolator.feedback ≠ .opened ∧
         (isolatorAt s .closing .mid).isolator.state = .closing) := by decide +kernel

/-- The states and positions of R102's table that disagree. -/
def contactCases : List (StringState × Contact) :=
  [(.connected, .opened), (.suspect, .opened), (.stuckClosed, .opened), (.isolated, .closed), (.lockedOut, .closed)]

theorem witness_IsolatorEndsOrTimesOut :
    plant.sched.queue = [] ∧ plant.isolator.state ≠ .opening ∧ plant.isolator.state ≠ .closing ∧
      (isolatorAt plant .opening .mid).isolator.state = .opening ∧
      ((isolatorAt plant .closing .mid).isolator.state = .closing ∧
        (isolatorAt plant .closing .mid).isolator.pendingOpen = false) ∧
      (let s : State := { plant with isolator := ⟨.closing, true, .mid, 0⟩ }
       s.isolator.pendingOpen = true ∧ s.isolator.feedback ≠ .opened) ∧
      ((isolatorAt plant .closed .mid).isolator.feedback = .mid ∧ (isolatorAt plant .opened .mid).isolator.feedback = .mid) ∧
      (isolatorAt plant .closed .opened).isolator.feedback = .opened ∧
      ((isolatorAt plant .opened .closed).isolator.feedback = .closed ∧ plant.shutdown.asserted = false) ∧
      ({ isolatorAt plant .opened .closed with shutdown := ⟨true, true, 0, false⟩ } : State).shutdown.asserted = true ∧
      (plant.strings.length = 24 ∧ stringNumber 2 = true ∧ plant.disagrees 2 = false ∧
        contactCases.all (fun x => (withStr plant 2 (used 2 x.1 x.2)).disagrees 2) = true ∧
        (plant.str 2).cfg.used = true ∧ (plant.str 2).op = none) ∧
      (let s := probingPlant [⟨2, .preClose, .controller, 0, false⟩] (some (flight .preClose .p1 true))
       s.holdsEntry 2 = true ∧ s.probing 2 = true ∧ plant.holdsEntry 2 = false ∧ plant.probing 2 = false) ∧
      plant.scan.completed = true ∧
      ({ plant with scan := { plant.scan with completed := false } } : State).scan.completed = false := by
  decide +kernel

/-! ### The probe unit and the shutdown -/

/-- The plant with T1 at 120 °C, T2 at −50 °C, T3 absent, T4 at 30 °C and 41 °C from outside, its groups naming a source. -/
def warm (source : TempSource) : State := { plant with
  scan := { plant.scan with temps := [some 120, some (-50), none, some 30], ext := [.valid 41 0] }
  peer := { plant.peer with groups := plant.peer.groups.map fun g =>
    { g with cfg := { g.cfg with source := source, beta := -29 } } } }

theorem witness_ProbeStagesFollowEachOther :
    (probingPlant [] (some (flight .diagnose .p1 false))).probe.flight = some (flight .diagnose .p1 false) ∧
      ((flight .diagnose .p1 false).stage ≠ .release ∧ (flight .diagnose .p1 false).sampling = false) ∧
      (flight .diagnose .release false).stage = .release ∧ (flight .diagnose .p2 true).sampling = true ∧
      ((flight .diagnose .p1 true).stage = .p1 ∧ (flight .diagnose .p1 true).purpose = .diagnose ∧
        (flight .diagnose .p1 true).sampling = true) ∧ (flight .diagnose .p2 true).stage = .p2 ∧
      [TempSource.none, .t1, .t2, .t3, .t4, .external].map (fun x => (warm x).groupTemperature 2) =
        [(25, -29), (90, -29), (-40, -29), (25, -29), (30, -29), (41, -29)] ∧
      ({ warm .external with scan := { plant.scan with ext := [.stale 41] } } : State).groupTemperature 2 = (25, -29) ∧
      (withStr plant 2 { used 2 .isolated .opened with cfg := { (used 2 .isolated .opened).cfg with group := 0 } }).groupTemperature 2
        = (25, 0) := by decide +kernel

/-- The marks of three readings at the threshold 200. -/
def marks (p1 p2 p3 : Poles) : List Bool :=
  [(p1.marks 200).1, (p1.marks 200).2, (p2.marks 200).1, (p2.marks 200).2, (p3.marks 200).1, (p3.marks 200).2]

/-- The six patterns of R117 each have readings at the threshold's two sides, and the ratio q its two ends. -/
theorem witness_ProbePatternGivesTheVerdict :
    (let f := { flight .diagnose .p3 true with p1 := some ⟨3625, -3615⟩, p2 := some ⟨7230, 10⟩ }
     let s := probingPlant [⟨2, .diagnose, .auto, 0, false⟩] (some f)
     s.probe.flight = some f ∧ f.stage = .p3 ∧ f.sampling = true ∧ f.p1 = some ⟨3625, -3615⟩ ∧ f.p2 = some ⟨7230, 10⟩ ∧
       s.entryOf 2 = some ⟨2, .diagnose, .auto, 0, false⟩ ∧ 1 ≤ f.modules ∧ 2 ≤ f.modules ∧ f.grouped = true) ∧
      marks ⟨200, -200⟩ ⟨200, 199⟩ ⟨-199, -200⟩ = [false, false, false, true, true, false] ∧
      ((200 : Int) - -200 > 0 ∧ (-200 : Int) - 200 ≤ 0) ∧
      marks ⟨200, 199⟩ ⟨200, 199⟩ ⟨200, 199⟩ = [false, true, false, true, false, true] ∧
      marks ⟨199, -200⟩ ⟨199, -200⟩ ⟨199, -200⟩ = [true, false, true, false, true, false] ∧
      marks ⟨300, -300⟩ ⟨200, -200⟩ ⟨200, -200⟩ = [false, false, false, false, false, false] ∧
      (marks ⟨300, 300⟩ ⟨200, -200⟩ ⟨200, -200⟩ = [false, false, false, false, false, false] ∧ (300 : Int) - 300 = 0) ∧
      marks ⟨199, -199⟩ ⟨200, 200⟩ ⟨-200, -200⟩ = [true, true, false, false, false, false] ∧
      marks ⟨199, -199⟩ ⟨200, 199⟩ ⟨-199, -200⟩ = [true, true, false, true, true, false] ∧
      marks ⟨199, -199⟩ ⟨199, 199⟩ ⟨199, 199⟩ = [true, true, true, true, true, true] ∧
      (let vexp := expectedVoltage 20 400 0 25
       [roundDiv (7195 * 1000) vexp, roundDiv (7200 * 1000) vexp, roundDiv (8800 * 1000) vexp, roundDiv (8805 * 1000) vexp]
         = [899, 900, 1100, 1101]) := by decide +kernel

theorem witness_VerdictLocksOrReconnects :
    (let s : State := withStr watched 2 { used 2 .isolated .opened with cause := some .restart, budget := 1 }
     s.strings.length = 24 ∧ stringNumber 2 = true ∧ (s.str 2).state = .isolated ∧ (s.str 2).cause = some .restart ∧
       s.mode = .run ∧ s.supervision.state = .supervised ∧ s.shutdown.asserted = false ∧ 1 ≤ (s.str 2).budget) ∧
      (Finding.mk .healthy none none).verdict = .healthy ∧ (Finding.mk .earthPos none none).verdict = .earthPos ∧
      (plant.str 2).cause = none := by decide +kernel

theorem witness_CheckPassesOrWaitsForARound :
    (let e : ProbeEntry := ⟨2, .preClose, .controller, 3, false⟩
     let s : State := { probingPlant [e] (some (flight .preClose .p1 true)) with scan := { plant.scan with bus := 1000 } }
     let high := List.replicate 8 (amps 600)
     let low := List.replicate 8 (amps (-600))
     s.probe.flight = some (flight .preClose .p1 true) ∧ s.strings.length = 24 ∧ stringNumber 2 = true ∧
       (s.scan.bus : Int) + 200 ≤ poleReading high - poleReading low ∧
       ¬ (s.scan.bus : Int) + 200 ≤ poleReading high - poleReading (List.replicate 8 (amps (-599))) ∧
       s.entryOf 2 = some e ∧ e.attempts + 1 < s.box.attemptLimit ∧
       s.box.attemptLimit ≤ ({ e with attempts := 4 } : ProbeEntry).attempts + 1) ∧
      (let f := { flight .preClose .release false with pass := true }
       let s := probingPlant [⟨2, .preClose, .controller, 0, false⟩] (some f)
       s.probe.flight = some f ∧ f.stage = .release ∧ s.shutdown.asserted = false ∧ f.origin ≠ .auto ∧
         (s.str 2).position = .opened ∧
         (let u := withStr s 2 (used 2 .isolated .closed)
          (u.str 2).position = .closed ∧ (u.str 2).held = none ∧ u.strings.length = 24) ∧ ({ s with shutdown := ⟨true, true, 0, false⟩ } : State).shutdown.asserted = true) ∧
      (flight .preClose .release false).pass = false := by decide +kernel

theorem witness_ExpectedVoltageStaysInItsRange :
    (1 ≤ 1 ∧ 100 ≤ 100 ∧ 1 * 100 ≤ 15000 ∧ 30 * 500 ≤ 15000 ∧ (-60 : Int) ≤ -60 ∧ (0 : Int) ≤ 0 ∧ (-40 : Int) ≤ -40 ∧
      (90 : Int) ≤ 90) ∧ expectedVoltage 1 100 (-60) 90 = 61 ∧ expectedVoltage 30 500 (-60) (-40) = 20850 := by decide

/-- The rich state with the SHUTDOWN line low, not yet asserted. -/
theorem witness_ShutdownActsOnEveryBlock :
    (∃ s : State, s = { busy with shutdown := ⟨false, true, 980, false⟩ } ∧ s.powered = true ∧
      s.shutdown.asserted = false ∧ s.shutdown.lineLow = true ∧ Sound s ∧ (s.str 1).state = .connected ∧
      (s.str 5).state = .closing ∧ s.isolator.state = .closed ∧ s.isolator.feedback ≠ .opened ∧
      (∃ x ∈ s.sched.queue, x.string = 3 ∧ x.round = 5#32 ∧ x.arrival = 0#32) ∧
      (∃ e ∈ s.probe.list, e.purpose = .diagnose ∧ s.probing e.string = false)) ∧
      (∃ s : State, s = { busy with shutdown := ⟨true, false, 980, false⟩ } ∧ s.powered = true ∧
        s.shutdown.asserted = true ∧ s.shutdown.lineLow = false) := by
  refine ⟨⟨_, rfl, by decide, rfl, rfl, ?_, by decide, by decide, rfl, by decide, by decide, by decide⟩,
    ⟨_, rfl, by decide, rfl, rfl⟩⟩
  exact ⟨busy_sound.size, busy_sound.queueDistinct, busy_sound.queued, busy_sound.breaksDistinct, busy_sound.breaking,
    busy_sound.opening, busy_sound.closing, busy_sound.cell, busy_sound.listDistinct, busy_sound.listed,
    busy_sound.check, busy_sound.pass, busy_sound.configured, busy_sound.startUp⟩

end Sys2Proof.Tests
end

