-- ==== Sys2Proof/Proofs/Fields.lean ====
section
/-! SUPPORT. What the smallest shared operations leave, field by field: a string's record changed, an item raised, a probe
list entry placed; and string records read through the replacement of another block. -/

namespace Sys2Proof.Machine

/-! ## A string's record changed -/

@[simp] theorem State.updStr_part (s : State) (n : Nat) (f : StringRec → StringRec) : (s.updStr n f).part = s.part := rfl
@[simp] theorem State.updStr_mode (s : State) (n : Nat) (f : StringRec → StringRec) : (s.updStr n f).mode = s.mode := rfl
@[simp] theorem State.updStr_link (s : State) (n : Nat) (f : StringRec → StringRec) : (s.updStr n f).link = s.link := rfl
@[simp] theorem State.updStr_scan (s : State) (n : Nat) (f : StringRec → StringRec) : (s.updStr n f).scan = s.scan := rfl
@[simp] theorem State.updStr_peer (s : State) (n : Nat) (f : StringRec → StringRec) : (s.updStr n f).peer = s.peer := rfl
@[simp] theorem State.updStr_lockouts (s : State) (n : Nat) (f : StringRec → StringRec) : (s.updStr n f).lockouts = s.lockouts := rfl
@[simp] theorem State.updStr_sched (s : State) (n : Nat) (f : StringRec → StringRec) : (s.updStr n f).sched = s.sched := rfl
@[simp] theorem State.updStr_cell (s : State) (n : Nat) (f : StringRec → StringRec) : (s.updStr n f).cell = s.cell := rfl
@[simp] theorem State.updStr_isolator (s : State) (n : Nat) (f : StringRec → StringRec) : (s.updStr n f).isolator = s.isolator := rfl
@[simp] theorem State.updStr_probe (s : State) (n : Nat) (f : StringRec → StringRec) : (s.updStr n f).probe = s.probe := rfl
@[simp] theorem State.updStr_shutdown (s : State) (n : Nat) (f : StringRec → StringRec) : (s.updStr n f).shutdown = s.shutdown := rfl
@[simp] theorem State.updStr_supervision (s : State) (n : Nat) (f : StringRec → StringRec) : (s.updStr n f).supervision = s.supervision := rfl
@[simp] theorem State.updStr_attention (s : State) (n : Nat) (f : StringRec → StringRec) : (s.updStr n f).attention = s.attention := rfl
@[simp] theorem State.updStr_store (s : State) (n : Nat) (f : StringRec → StringRec) : (s.updStr n f).store = s.store := rfl
@[simp] theorem State.updStr_box (s : State) (n : Nat) (f : StringRec → StringRec) : (s.updStr n f).box = s.box := rfl
@[simp] theorem State.updStr_free (s : State) (n : Nat) (f : StringRec → StringRec) : (s.updStr n f).free = s.free := rfl
@[simp] theorem State.updStr_pending (s : State) (n : Nat) (f : StringRec → StringRec) : (s.updStr n f).pending = s.pending := rfl

/-! ## An item raised -/

/-- Raising an item replaces the attention set. -/
theorem State.raise_exists (s : State) (i : Item) : ∃ x, s.raise i = s.setAttention x := ⟨_, s.raise_eq i⟩

@[simp] theorem State.raiseBox_eq (s : State) (k : BoxItem) : s.raiseBox k = s.raise (.box k) := rfl

@[simp] theorem State.raiseStr_eq (s : State) (k : StringItem) (n : Nat) : s.raiseStr k n = s.raise (.str k n) := rfl

@[simp] theorem State.raise_part (s : State) (i : Item) : (s.raise i).part = s.part := by rw [s.raise_eq]; rfl
@[simp] theorem State.raise_mode (s : State) (i : Item) : (s.raise i).mode = s.mode := by rw [s.raise_eq]; rfl
@[simp] theorem State.raise_link (s : State) (i : Item) : (s.raise i).link = s.link := by rw [s.raise_eq]; rfl
@[simp] theorem State.raise_scan (s : State) (i : Item) : (s.raise i).scan = s.scan := by rw [s.raise_eq]; rfl
@[simp] theorem State.raise_peer (s : State) (i : Item) : (s.raise i).peer = s.peer := by rw [s.raise_eq]; rfl
@[simp] theorem State.raise_strings (s : State) (i : Item) : (s.raise i).strings = s.strings := by rw [s.raise_eq]; rfl
@[simp] theorem State.raise_lockouts (s : State) (i : Item) : (s.raise i).lockouts = s.lockouts := by rw [s.raise_eq]; rfl
@[simp] theorem State.raise_sched (s : State) (i : Item) : (s.raise i).sched = s.sched := by rw [s.raise_eq]; rfl
@[simp] theorem State.raise_cell (s : State) (i : Item) : (s.raise i).cell = s.cell := by rw [s.raise_eq]; rfl
@[simp] theorem State.raise_isolator (s : State) (i : Item) : (s.raise i).isolator = s.isolator := by rw [s.raise_eq]; rfl
@[simp] theorem State.raise_probe (s : State) (i : Item) : (s.raise i).probe = s.probe := by rw [s.raise_eq]; rfl
@[simp] theorem State.raise_shutdown (s : State) (i : Item) : (s.raise i).shutdown = s.shutdown := by rw [s.raise_eq]; rfl
@[simp] theorem State.raise_supervision (s : State) (i : Item) : (s.raise i).supervision = s.supervision := by rw [s.raise_eq]; rfl
@[simp] theorem State.raise_store (s : State) (i : Item) : (s.raise i).store = s.store := by rw [s.raise_eq]; rfl
@[simp] theorem State.raise_box (s : State) (i : Item) : (s.raise i).box = s.box := by rw [s.raise_eq]; rfl
@[simp] theorem State.raise_free (s : State) (i : Item) : (s.raise i).free = s.free := by rw [s.raise_eq]; rfl
@[simp] theorem State.raise_pending (s : State) (i : Item) : (s.raise i).pending = s.pending := by rw [s.raise_eq]; rfl

/-! ## An entry placed -/

@[simp] theorem State.place_part (s : State) (n : Nat) (p : Purpose) (o : Origin) : (s.place n p o).part = s.part := by
  rw [s.place_eq]; rfl

@[simp] theorem State.place_mode (s : State) (n : Nat) (p : Purpose) (o : Origin) : (s.place n p o).mode = s.mode := by
  rw [s.place_eq]; rfl

@[simp] theorem State.place_link (s : State) (n : Nat) (p : Purpose) (o : Origin) : (s.place n p o).link = s.link := by
  rw [s.place_eq]; rfl

@[simp] theorem State.place_scan (s : State) (n : Nat) (p : Purpose) (o : Origin) : (s.place n p o).scan = s.scan := by
  rw [s.place_eq]; rfl

@[simp] theorem State.place_peer (s : State) (n : Nat) (p : Purpose) (o : Origin) : (s.place n p o).peer = s.peer := by
  rw [s.place_eq]; rfl

@[simp] theorem State.place_strings (s : State) (n : Nat) (p : Purpose) (o : Origin) : (s.place n p o).strings = s.strings := by
  rw [s.place_eq]; rfl

@[simp] theorem State.place_lockouts (s : State) (n : Nat) (p : Purpose) (o : Origin) : (s.place n p o).lockouts = s.lockouts := by
  rw [s.place_eq]; rfl

@[simp] theorem State.place_sched (s : State) (n : Nat) (p : Purpose) (o : Origin) : (s.place n p o).sched = s.sched := by
  rw [s.place_eq]; rfl

@[simp] theorem State.place_cell (s : State) (n : Nat) (p : Purpose) (o : Origin) : (s.place n p o).cell = s.cell := by
  rw [s.place_eq]; rfl

@[simp] theorem State.place_isolator (s : State) (n : Nat) (p : Purpose) (o : Origin) : (s.place n p o).isolator = s.isolator := by
  rw [s.place_eq]; rfl

@[simp] theorem State.place_shutdown (s : State) (n : Nat) (p : Purpose) (o : Origin) : (s.place n p o).shutdown = s.shutdown := by
  rw [s.place_eq]; rfl

@[simp] theorem State.place_supervision (s : State) (n : Nat) (p : Purpose) (o : Origin) : (s.place n p o).supervision = s.supervision := by
  rw [s.place_eq]; rfl

@[simp] theorem State.place_attention (s : State) (n : Nat) (p : Purpose) (o : Origin) : (s.place n p o).attention = s.attention := by
  rw [s.place_eq]; rfl

@[simp] theorem State.place_store (s : State) (n : Nat) (p : Purpose) (o : Origin) : (s.place n p o).store = s.store := by
  rw [s.place_eq]; rfl

@[simp] theorem State.place_box (s : State) (n : Nat) (p : Purpose) (o : Origin) : (s.place n p o).box = s.box := by
  rw [s.place_eq]; rfl

@[simp] theorem State.place_free (s : State) (n : Nat) (p : Purpose) (o : Origin) : (s.place n p o).free = s.free := by
  rw [s.place_eq]; rfl

@[simp] theorem State.place_pending (s : State) (n : Nat) (p : Purpose) (o : Origin) : (s.place n p o).pending = s.pending := by
  rw [s.place_eq]; rfl

/-! ## String records and the lockout set -/

theorem State.str_congr {s t : State} (h : t.strings = s.strings) (n : Nat) : t.str n = s.str n := by
  simp [State.str, h]

theorem State.locked_congr {s t : State} (h : t.lockouts = s.lockouts) (n : Nat) : t.locked n = s.locked n := by
  simp [State.locked, h]

@[simp] theorem State.setPart_str (s : State) (x : Part) (n : Nat) : (s.setPart x).str n = s.str n := rfl
@[simp] theorem State.setMode_str (s : State) (x : Mode) (n : Nat) : (s.setMode x).str n = s.str n := rfl
@[simp] theorem State.setLink_str (s : State) (x : LinkPort) (n : Nat) : (s.setLink x).str n = s.str n := rfl
@[simp] theorem State.setScan_str (s : State) (x : ScanUnit) (n : Nat) : (s.setScan x).str n = s.str n := rfl
@[simp] theorem State.setPeer_str (s : State) (x : Comparator) (n : Nat) : (s.setPeer x).str n = s.str n := rfl
@[simp] theorem State.setLockouts_str (s : State) (x : List Lockout) (n : Nat) : (s.setLockouts x).str n = s.str n := rfl
@[simp] theorem State.setSched_str (s : State) (x : Scheduler) (n : Nat) : (s.setSched x).str n = s.str n := rfl
@[simp] theorem State.setCell_str (s : State) (x : Cell) (n : Nat) : (s.setCell x).str n = s.str n := rfl
@[simp] theorem State.setIsolator_str (s : State) (x : Isolator) (n : Nat) : (s.setIsolator x).str n = s.str n := rfl
@[simp] theorem State.setProbe_str (s : State) (x : ProbeUnit) (n : Nat) : (s.setProbe x).str n = s.str n := rfl
@[simp] theorem State.setShutdown_str (s : State) (x : ShutdownMonitor) (n : Nat) : (s.setShutdown x).str n = s.str n := rfl
@[simp] theorem State.setSupervision_str (s : State) (x : Supervision) (n : Nat) : (s.setSupervision x).str n = s.str n := rfl
@[simp] theorem State.setAttention_str (s : State) (x : List Item) (n : Nat) : (s.setAttention x).str n = s.str n := rfl
@[simp] theorem State.setStore_str (s : State) (x : SettingsStore) (n : Nat) : (s.setStore x).str n = s.str n := rfl
@[simp] theorem State.setBox_str (s : State) (x : BoxSettings) (n : Nat) : (s.setBox x).str n = s.str n := rfl
@[simp] theorem State.setFree_str (s : State) (x : FreeChoices) (n : Nat) : (s.setFree x).str n = s.str n := rfl
@[simp] theorem State.setPending_str (s : State) (x : List Instr) (n : Nat) : (s.setPending x).str n = s.str n := rfl

@[simp] theorem State.raise_str (s : State) (i : Item) (n : Nat) : (s.raise i).str n = s.str n :=
  State.str_congr (s.raise_strings i) n

@[simp] theorem State.place_str (s : State) (n m : Nat) (p : Purpose) (o : Origin) : (s.place n p o).str m = s.str m :=
  State.str_congr (s.place_strings n p o) m

@[simp] theorem State.reach_str (s : State) (due n : Nat) : (s.reach due).str n = s.str n := rfl

end Sys2Proof.Machine
end

