-- ==== Sys2Proof/Proofs/Effects.lean ====
section
/-! SUPPORT. What a command can do, said once: the effect of a request before its reply is formed, and the effect of
every command, with the tests that have been passed where an operation is reached. -/

namespace Sys2Proof.Machine

/-! ## Operands -/

theorem stringNumber_iff (n : Nat) : stringNumber n = true ↔ 1 ≤ n ∧ n ≤ 24 := by simp [stringNumber]

/-- A byte names a string exactly when it carries 1 to 24. -/
theorem stringOfByte_eq (b : Byte) : stringOfByte b = if stringNumber b.toNat then some b.toNat else none := by
  simp [stringOfByte, stringNumber]

theorem stringOfByte_some {b : Byte} {n : Nat} (h : stringOfByte b = some n) : stringNumber n = true := by
  rw [stringOfByte_eq] at h
  split at h
  · cases h; assumption
  · cases h

/-! ## Requests -/

/-- What a request does to the state before its reply is formed; `same` is a query, a refusal, or a message that finds
nothing to change. -/
inductive Handled (s : State) : State → Prop where
  | same : Handled s s
  | clear (mask : List Byte) : Handled s (s.clearAttention mask)
  | heartbeat (token : Word16) : Handled s (s.heartbeat token)
  | temperature (ext : List ExtTemp) : Handled s (s.setScan { s.scan with ext := ext })
  | isolate (n : Nat) (hn : stringNumber n = true) : Handled s (s.request n .manual)
  | reconnect (n : Nat) (hn : stringNumber n = true) (hs : (s.str n).state = .isolated) :
      Handled s (s.place n .preClose .controller)
  | probe (n : Nat) (hn : stringNumber n = true) (hs : (s.str n).state = .isolated ∨ (s.str n).state = .lockedOut) :
      Handled s (s.place n .diagnose .controller)
  | release (n : Nat) (hn : stringNumber n = true) (hs : (s.str n).state = .lockedOut) : Handled s (s.releaseLockout n)
  | restore : Handled s s.restoreAll.1
  | openBox : Handled s s.openRequest
  | closeBox : Handled s s.closeRequest
  | cellRestore (hc : s.cell.stage = .faulted) : Handled s s.restoreCell
  | setup : Handled s (s.setMode .setup)
  | run : Handled s ((s.setMode .run).updAll (·.enterRun))
  | configString (n : Nat) (c : StringSettings) (hn : stringNumber n = true) (hb : (s.str n).state ≠ .breaking)
      (hc : (s.str n).state ≠ .closing)
      (hu : (s.str n).cfg.used = true → c.used = false → (s.str n).state = .isolated ∨ (s.str n).state = .unused) :
      Handled s (s.configureString n c)
  | configGroup (g : Nat) (c : GroupSettings) : Handled s (s.configureGroup g c)
  | configBox (b : BoxSettings) : Handled s (s.configureBox b)
  | configLink (l : LinkSettings) : Handled s (s.configureLink l)
  | store : Handled s s.storeAll
  | restart : Handled s (s.setLink { s.link with restartOrdered := true })

@[simp] theorem accept_fst (s : State) (p : List Byte) : (accept s p).1 = s := rfl

@[simp] theorem refuse_fst (s : State) (r : Reason) : (refuse s r).1 = s := rfl

theorem State.reqStringRead_handled (s : State) (first count : Byte) : Handled s (s.reqStringRead first count).1 := by
  unfold State.reqStringRead; simp only; split <;> exact .same

theorem State.reqQueueRead_handled (s : State) (first : Byte) : Handled s (s.reqQueueRead first).1 := by
  unfold State.reqQueueRead; split <;> exact .same

theorem State.reqConfigRead_handled (s : State) (target : Byte) (number : Option Byte) :
    Handled s (s.reqConfigRead target number).1 := by
  unfold State.reqConfigRead
  repeat' split
  all_goals exact .same

theorem State.reqAttentionClear_handled (s : State) (mask : List Byte) : Handled s (s.reqAttentionClear mask).1 := by
  unfold State.reqAttentionClear; split
  · exact .clear mask
  · exact .same

theorem State.reqTemperature_handled (s : State) (group value : Byte) : Handled s (s.reqTemperature group value).1 := by
  unfold State.reqTemperature; split
  · exact .same
  · exact .temperature _

theorem State.reqIsolate_handled (s : State) (b : Byte) : Handled s (s.reqIsolate b).1 := by
  unfold State.reqIsolate; split
  · exact .same
  · next n hn => simp only; split
                 · exact .same
                 · exact .isolate n (stringOfByte_some hn)

theorem State.reqReconnect_handled (s : State) (b : Byte) : Handled s (s.reqReconnect b).1 := by
  unfold State.reqReconnect; split
  · exact .same
  · next n hn =>
    repeat' split
    case isFalse.isFalse.isFalse.isFalse.isFalse h _ _ _ => exact .reconnect n (stringOfByte_some hn) (not_not.1 h)
    all_goals exact .same

theorem State.reqProbe_handled (s : State) (b : Byte) : Handled s (s.reqProbe b).1 := by
  unfold State.reqProbe; split
  · exact .same
  · next n hn =>
    simp only
    repeat' split
    case isFalse.isFalse h _ => exact .probe n (stringOfByte_some hn) ((not_and_or.1 h).imp not_not.1 not_not.1)
    all_goals exact .same

theorem State.reqRelease_handled (s : State) (b : Byte) : Handled s (s.reqRelease b).1 := by
  unfold State.reqRelease; split
  · exact .same
  · next n hn =>
    repeat' split
    case isFalse.isFalse h _ => exact .release n (stringOfByte_some hn) (not_not.1 h)
    all_goals exact .same

theorem State.reqRestore_handled (s : State) : Handled s s.reqRestore.1 := by
  unfold State.reqRestore
  repeat' split
  case isFalse.isFalse => rw [accept_fst]; exact .restore
  all_goals exact .same

theorem State.reqBoxOutputClose_handled (s : State) : Handled s s.reqBoxOutputClose.1 := by
  unfold State.reqBoxOutputClose
  repeat' split
  case isFalse.isFalse.isFalse.isFalse => exact .closeBox
  all_goals exact .same

theorem reqBoxOutput_handled (b : Byte) (s : State) : Handled s (reqBoxOutput b s).1 := by
  unfold reqBoxOutput
  repeat' split
  · exact .openBox
  · exact s.reqBoxOutputClose_handled
  · exact .same

theorem State.reqCellRestore_handled (s : State) : Handled s s.reqCellRestore.1 := by
  unfold State.reqCellRestore
  repeat' split
  case isFalse.isFalse.isFalse h _ _ => exact .cellRestore (by tauto)
  all_goals exact .same

theorem State.reqModeSetup_handled (s : State) : Handled s s.reqModeSetup.1 := by
  unfold State.reqModeSetup; split
  · exact .same
  · split
    · exact .same
    · exact .setup

theorem State.reqModeRun_handled (s : State) : Handled s s.reqModeRun.1 := by
  unfold State.reqModeRun; split
  · exact .same
  · exact .run

theorem reqMode_handled (b : Byte) (s : State) : Handled s (reqMode b s).1 := by
  unfold reqMode
  repeat' split
  · exact s.reqModeSetup_handled
  · exact s.reqModeRun_handled
  · exact .same

theorem State.reqStringConfig_handled (s : State) (m : StringConfigMsg) : Handled s (s.reqStringConfig m).1 := by
  unfold State.reqStringConfig; split
  · exact .same
  · split
    · next n c hn hc =>
      repeat' split
      case isFalse.isFalse.isFalse.isFalse _ _ hb hu =>
        exact .configString n c (stringOfByte_some hn) (by tauto) (by tauto) (by tauto)
      all_goals exact .same
    · exact .same

theorem State.reqGroupConfig_handled (s : State) (m : GroupConfigMsg) : Handled s (s.reqGroupConfig m).1 := by
  unfold State.reqGroupConfig
  repeat' split
  · exact .same
  · exact .configGroup _ _
  · exact .same

theorem State.reqBoxConfig_handled (s : State) (m : BoxConfigMsg) : Handled s (s.reqBoxConfig m).1 := by
  unfold State.reqBoxConfig
  repeat' split
  · exact .same
  · exact .same
  · exact .configBox _

theorem State.reqLinkConfig_handled (s : State) (rate address : Byte) : Handled s (s.reqLinkConfig rate address).1 := by
  unfold State.reqLinkConfig
  repeat' split
  · exact .same
  · exact .configLink _
  · exact .same

theorem State.reqStore_handled (s : State) : Handled s s.reqStore.1 := by
  unfold State.reqStore
  repeat' split
  · exact .same
  · exact .same
  · exact .store

theorem State.reqRestart_handled (s : State) (b : Byte) : Handled s (s.reqRestart b).1 := by
  unfold State.reqRestart
  repeat' split
  · exact .same
  · exact .same
  · exact .restart

/-! ## Requests that come byte by byte -/

theorem emptyForm_handled {handle : State → Answer} (h : ∀ s, Handled s (handle s).1) (p : List Byte) (s : State) :
    Handled s (emptyForm p handle s).1 := by
  unfold emptyForm; split
  · exact h s
  · exact .same

theorem byteForm_handled {handle : Byte → State → Answer} (h : ∀ b s, Handled s (handle b s).1) (p : List Byte)
    (s : State) : Handled s (byteForm p handle s).1 := by
  unfold byteForm; split
  · exact h _ s
  · exact .same

theorem pairForm_handled {handle : Byte → Byte → State → Answer} (h : ∀ a b s, Handled s (handle a b s).1)
    (p : List Byte) (s : State) : Handled s (pairForm p handle s).1 := by
  unfold pairForm; split
  · exact h _ _ s
  · exact .same

theorem configReadForm_handled (p : List Byte) (s : State) : Handled s (configReadForm p s).1 := by
  unfold configReadForm; split
  · exact s.reqConfigRead_handled _ _
  · exact s.reqConfigRead_handled _ _
  · exact .same

theorem stringConfigForm_handled (p : List Byte) (s : State) : Handled s (stringConfigForm p s).1 := by
  unfold stringConfigForm; split
  · exact s.reqStringConfig_handled _
  · exact .same

theorem groupConfigForm_handled (p : List Byte) (s : State) : Handled s (groupConfigForm p s).1 := by
  unfold groupConfigForm; split
  · exact s.reqGroupConfig_handled _
  · exact .same

theorem boxConfigForm_handled (p : List Byte) (s : State) : Handled s (boxConfigForm p s).1 := by
  unfold boxConfigForm; split
  · exact s.reqBoxConfig_handled _
  · exact .same

/-- R171, R191: a request of a known kind does what its handler does, or is refused FORMAT. -/
theorem Kind.dispatch_handled (k : Kind) (p : List Byte) (s : State) : Handled s (k.dispatch p s).1 := by
  cases k with
  | identify => exact emptyForm_handled (fun _ => .same) p s
  | boxStatus => exact emptyForm_handled (fun _ => .same) p s
  | stringRead => exact pairForm_handled (fun a b s => s.reqStringRead_handled a b) p s
  | groupRead => exact emptyForm_handled (fun _ => .same) p s
  | queueRead => exact byteForm_handled (fun b s => s.reqQueueRead_handled b) p s
  | probeListRead => exact emptyForm_handled (fun _ => .same) p s
  | attentionRead => exact emptyForm_handled (fun _ => .same) p s
  | configRead => exact configReadForm_handled p s
  | attentionClear => exact s.reqAttentionClear_handled p
  | heartbeat => exact pairForm_handled (fun _ _ s => .heartbeat _) p s
  | temperature => exact pairForm_handled (fun a b s => s.reqTemperature_handled a b) p s
  | isolate => exact byteForm_handled (fun b s => s.reqIsolate_handled b) p s
  | reconnect => exact byteForm_handled (fun b s => s.reqReconnect_handled b) p s
  | probe => exact byteForm_handled (fun b s => s.reqProbe_handled b) p s
  | release => exact byteForm_handled (fun b s => s.reqRelease_handled b) p s
  | restore => exact emptyForm_handled State.reqRestore_handled p s
  | boxOutput => exact byteForm_handled reqBoxOutput_handled p s
  | cellRestore => exact emptyForm_handled State.reqCellRestore_handled p s
  | mode => exact byteForm_handled reqMode_handled p s
  | stringConfig => exact stringConfigForm_handled p s
  | groupConfig => exact groupConfigForm_handled p s
  | boxConfig => exact boxConfigForm_handled p s
  | linkConfig => exact pairForm_handled (fun a b s => s.reqLinkConfig_handled a b) p s
  | store => exact emptyForm_handled State.reqStore_handled p s
  | restart => exact byteForm_handled (fun b s => s.reqRestart_handled b) p s

theorem dispatch_handled (kind : Byte) (p : List Byte) (s : State) : Handled s (dispatch kind p s).1 := by
  unfold dispatch; split
  · exact .same
  · exact Kind.dispatch_handled _ p s

/-! ## Every command -/

/-- What a command does: nothing, a change of the link port alone, a request with its reply, or the operation of an event
that finds the part in the stage that the operation needs. -/
inductive Effect (s : State) : State → Prop where
  | same : Effect s s
  | link (x : LinkPort) : Effect s (s.setLink x)
  | request {u : State} (hr : s.part.stage = .running) (h : Handled s u) (x : LinkPort) : Effect s (u.setLink x)
  | drop (kind : ResetKind) : Effect s (s.drop kind)
  | supplyLost : Effect s s.supplyLost
  | loadEnded (answers : Bool) : Effect s (s.loadEnded answers)
  | verified (readBack : ReadBack) : Effect s (s.verified readBack)
  | roundTimer (hr : s.part.stage = .running) : Effect s s.roundTimer
  | syncEdge (hr : s.part.stage = .running) : Effect s s.syncEdge
  | syncWatch (hr : s.part.stage = .running) : Effect s s.syncWatch
  | takeSet (set : SampleSet) : Effect s (s.takeSet set)
  | secondElapsed : Effect s s.secondElapsed
  | cellCooled : Effect s s.cellCooled
  | extStale (g : Nat) : Effect s (s.extStale g)
  | tapClosed (n : Nat) : Effect s (s.tapClosed n)
  | attachExpired : Effect s s.attachExpired
  | tapReleased (n : Nat) : Effect s (s.tapReleased n)
  | detachExpired : Effect s s.detachExpired
  | releaseExpired : Effect s s.releaseExpired
  | monitorReads (w : Word16) : Effect s (s.monitorReads w)
  | quenchExpired : Effect s s.quenchExpired
  | restEnded : Effect s s.restEnded
  | contactMoved (n : Nat) (position : Contact) : Effect s (s.contactMoved n position)
  | contactExpired (n : Nat) : Effect s (s.contactExpired n)
  | isolatorReads (feedback : Travel) : Effect s (s.isolatorReads feedback)
  | isolatorExpired : Effect s s.isolatorExpired
  | settled : Effect s s.settled
  | reading (vp vn : List Word16) : Effect s (s.reading vp vn)
  | released : Effect s s.released
  | lowTaken : Effect s s.lowTaken
  | highTaken : Effect s s.highTaken
  | longExpired : Effect s s.longExpired
  | openExpired : Effect s s.openExpired
  | lineChanges (low : Bool) : Effect s (s.lineChanges low)

theorem State.running_iff (s : State) : s.running = true ↔ s.part.stage = .running := by simp [State.running]

/-- A request does what its handler does, and the link port takes its reply; at other times it does nothing (log 3). -/
theorem State.answer_effect (s : State) (kind : Byte) {handle : State → Answer} (h : Handled s (handle s).1) :
    Effect s (s.answer kind handle) := by
  unfold State.answer
  split
  · next hl =>
    simp only [State.listening, Bool.and_eq_true] at hl
    exact .request ((s.running_iff).1 hl.1) h _
  · exact .same

theorem State.frameCheck_effect (s : State) (frame : List Byte) : Effect s (s.frameCheck frame) := by
  unfold State.frameCheck
  simp only
  repeat' split
  · exact .link _
  · exact .link _
  · exact s.answer_effect _ (dispatch_handled _ _ s)

theorem State.hunt_effect (s : State) (b : Byte) (stop : Bool) : Effect s (s.hunt b stop) := by
  unfold State.hunt
  repeat' split
  · exact .same
  · exact .link _
  · exact .link _
  · exact .same

theorem State.receive_effect (s : State) (got : List Byte) (b : Byte) (stop : Bool) :
    Effect s (s.receive got b stop) := by
  unfold State.receive
  simp only
  repeat' split
  · exact .link _
  · exact .link _
  · exact s.frameCheck_effect _
  · exact .link _

theorem State.pass_effect (s : State) (got : List Byte) (b : Byte) : Effect s (s.pass got b) := by
  unfold State.pass
  simp only
  split <;> exact .link _

theorem State.lineByte_effect (s : State) (b : Byte) (stop : Bool) : Effect s (s.lineByte b stop) := by
  unfold State.lineByte
  repeat' split
  · exact .same
  · exact s.hunt_effect b stop
  · exact s.receive_effect _ b stop
  · exact s.pass_effect _ b
  · exact .same
  · exact .same

theorem State.quietExpired_effect (s : State) : Effect s s.quietExpired := by
  unfold State.quietExpired; split
  · exact .link _
  · exact .same

theorem State.gapExpired_effect (s : State) : Effect s s.gapExpired := by
  unfold State.gapExpired
  split
  · exact .link _
  · exact .link _
  all_goals exact .same

theorem State.replySent_effect (s : State) : Effect s s.replySent := by
  unfold State.replySent
  split
  · split
    · exact .drop _
    · exact .link _
  all_goals exact .same

theorem State.resetReleased_effect (s : State) : Effect s s.resetReleased := by
  unfold State.resetReleased; split
  · exact .drop _
  · exact .same

/-- What a command can do. -/
theorem exec_effect {c : Instr} {s t : State} (h : exec c s = .next t) : Effect s t := by
  cases c with
  | identify => cases h; exact s.answer_effect _ .same
  | boxStatus => cases h; exact s.answer_effect _ .same
  | stringRead first count => cases h; exact s.answer_effect _ (s.reqStringRead_handled _ _)
  | groupRead => cases h; exact s.answer_effect _ .same
  | queueRead first => cases h; exact s.answer_effect _ (s.reqQueueRead_handled _)
  | probeListRead => cases h; exact s.answer_effect _ .same
  | attentionRead => cases h; exact s.answer_effect _ .same
  | configRead target number => cases h; exact s.answer_effect _ (s.reqConfigRead_handled _ _)
  | attentionClear mask => cases h; exact s.answer_effect _ (s.reqAttentionClear_handled _)
  | heartbeat token => cases h; exact s.answer_effect _ (.heartbeat token)
  | temperature group value => cases h; exact s.answer_effect _ (s.reqTemperature_handled _ _)
  | isolate string => cases h; exact s.answer_effect _ (s.reqIsolate_handled _)
  | reconnect string => cases h; exact s.answer_effect _ (s.reqReconnect_handled _)
  | probe string => cases h; exact s.answer_effect _ (s.reqProbe_handled _)
  | release string => cases h; exact s.answer_effect _ (s.reqRelease_handled _)
  | restore => cases h; exact s.answer_effect _ s.reqRestore_handled
  | boxOutputOpen => cases h; exact s.answer_effect _ .openBox
  | boxOutputClose => cases h; exact s.answer_effect _ s.reqBoxOutputClose_handled
  | cellRestore => cases h; exact s.answer_effect _ s.reqCellRestore_handled
  | modeSetup => cases h; exact s.answer_effect _ s.reqModeSetup_handled
  | modeRun => cases h; exact s.answer_effect _ s.reqModeRun_handled
  | stringConfig m => cases h; exact s.answer_effect _ (s.reqStringConfig_handled _)
  | groupConfig m => cases h; exact s.answer_effect _ (s.reqGroupConfig_handled _)
  | boxConfig m => cases h; exact s.answer_effect _ (s.reqBoxConfig_handled _)
  | linkConfig rate address => cases h; exact s.answer_effect _ (s.reqLinkConfig_handled _ _)
  | store => cases h; exact s.answer_effect _ s.reqStore_handled
  | restart address => cases h; exact s.answer_effect _ (s.reqRestart_handled _)
  | linkByte byte stop => cases h; exact s.lineByte_effect byte stop
  | linkQuietExpiry => cases h; exact s.quietExpired_effect
  | linkGapExpiry => cases h; exact s.gapExpired_effect
  | replyComplete => cases h; exact s.replySent_effect
  | powerOn => cases h; exact .drop _
  | resetLine => cases h; exact s.resetReleased_effect
  | loadEnd answers => cases h; exact .loadEnded answers
  | roundTimerExpiry =>
    cases h
    split
    · exact .roundTimer ((s.running_iff).1 ‹_›)
    · exact .same
  | syncFallingEdge low =>
    cases h
    split
    · next hr => exact .syncEdge ((s.running_iff).1 hr.1)
    · exact .same
  | syncWatchExpiry =>
    cases h
    split
    · exact .syncWatch ((s.running_iff).1 ‹_›)
    · exact .same
  | sampleSet set => cases h; exact .takeSet set
  | elapsedSecond => cases h; exact .secondElapsed
  | cellHotEnd => cases h; exact .cellCooled
  | externalTempStale g => cases h; exact .extStale g
  | tapClosedFeedback n => cases h; exact .tapClosed n
  | tapAttachTimeout => cases h; exact .attachExpired
  | tapReleasedFeedback n => cases h; exact .tapReleased n
  | tapDetachTimeout => cases h; exact .detachExpired
  | restoreReleaseTimeout => cases h; exact .releaseExpired
  | quenchEnd w => cases h; exact .monitorReads w
  | quenchTimeout => cases h; exact .quenchExpired
  | restingEnd => cases h; exact .restEnded
  | contactPositionChange n position => cases h; exact .contactMoved n position
  | contactTimeout n => cases h; exact .contactExpired n
  | isolatorEndReached feedback => cases h; exact .isolatorReads feedback
  | isolatorTimeout => cases h; exact .isolatorExpired
  | probeSettleEnd => cases h; exact .settled
  | probeReading vp vn => cases h; exact .reading vp vn
  | probeReleaseEnd => cases h; exact .released
  | shutdownAssertion => cases h; exact .lowTaken
  | shutdownRelease => cases h; exact .highTaken
  | longWindowExpiry => cases h; exact .longExpired
  | openWindowExpiry => cases h; exact .openExpired
  | storeWriteEnd readBack => cases h; exact .verified readBack
  | supplyLoss => cases h; exact .supplyLost
  | shutdownLevelChange low => cases h; exact .lineChanges low

/-- A property of the state that does not rest on the waiting commands and the clock, and that every effect keeps, is one
that every step keeps. -/
theorem StepKeeps.of_effect {P : State → Prop} (hp : ∀ s x, P s → P (s.setPending x))
    (ht : ∀ s, P s → P (s.setPart { s.part with now := s.part.now + 1 }))
    (he : ∀ s t, P s → Effect s t → P t) : StepKeeps P :=
  StepKeeps.of_exec hp ht fun s t _ h hs => he s t h (exec_effect hs)

end Sys2Proof.Machine
end

