-- ==== Sys2Proof/Proofs/Calm.lean ====
section
/-! SUPPORT. What the operations leave of the string table: a service walk changes no more of a record than its state,
operation and last isolation record, and the other operations of the string controller and the break cell leave every
live figure, and can only lower the criteria and the budget. -/

namespace Sys2Proof.Machine

/-! ## Every record changed in a given way -/

/-- The table keeps its length and every record is changed within `R`. -/
def Each (R : StringRec → StringRec → Prop) (s t : State) : Prop :=
  t.strings.length = s.strings.length ∧ ∀ n, R (s.str n) (t.str n)

theorem Each.of_strings {R : StringRec → StringRec → Prop} (hr : ∀ r, R r r) {s t : State}
    (h : t.strings = s.strings) : Each R s t :=
  ⟨by rw [h], fun n => by rw [State.str_congr h]; exact hr _⟩

theorem Each.trans {R : StringRec → StringRec → Prop} (ht : ∀ r q u, R r q → R q u → R r u) {s t u : State}
    (h : Each R s t) (k : Each R t u) : Each R s u :=
  ⟨k.1.trans h.1, fun n => ht _ _ _ (h.2 n) (k.2 n)⟩

theorem Each.mono {R Q : StringRec → StringRec → Prop} (hq : ∀ r q, R r q → Q r q) {s t : State} (h : Each R s t) :
    Each Q s t := ⟨h.1, fun n => hq _ _ (h.2 n)⟩

/-- A record written in the table reads as changed; a number outside the table changes nothing. -/
theorem State.str_updStr (s : State) (n m : Nat) (f : StringRec → StringRec) :
    (s.updStr n f).str m = s.str m ∨ m = n ∧ (s.updStr n f).str m = f (s.str n) := by
  by_cases h : m = n
  · subst h
    rcases hx : getNum s.strings m with _ | x
    · exact .inl (by simp [State.str, State.updStr, getNum_updNum_self, hx])
    · exact .inr ⟨rfl, by simp [State.str, State.updStr, getNum_updNum_self, hx]⟩
  · exact .inl (s.str_updStr_ne f n m h)

theorem Each.updStr {R : StringRec → StringRec → Prop} (hr : ∀ r, R r r) (s : State) (n : Nat)
    {f : StringRec → StringRec} (h : R (s.str n) (f (s.str n))) : Each R s (s.updStr n f) := by
  refine ⟨s.updStr_length n f, fun m => ?_⟩
  rcases s.str_updStr n m f with hm | ⟨rfl, hm⟩ <;> rw [hm]
  · exact hr _
  · exact h

/-- A change of every record, one that leaves an unused string's blank record aside. -/
theorem State.str_updAll (s : State) (m : Nat) (f : StringRec → StringRec) :
    (s.updAll f).str m = s.str m ∨ (s.updAll f).str m = f (s.str m) := by
  rcases hx : getNum s.strings m with _ | x
  · exact .inl (by simp [State.str, State.updAll, getNum_map, hx])
  · exact .inr (by simp [State.str, State.updAll, getNum_map, hx])

theorem Each.updAll {R : StringRec → StringRec → Prop} (hr : ∀ r, R r r) (s : State) {f : StringRec → StringRec}
    (h : ∀ r, R r (f r)) : Each R s (s.updAll f) := by
  refine ⟨by simp [State.updAll], fun m => ?_⟩
  rcases s.str_updAll m f with hm | hm <;> rw [hm]
  · exact hr _
  · exact h _

/-- What holds of every entry of the table holds of every number, when it holds of a blank record. -/
theorem State.forall_str {P : StringRec → Prop} (hb : ∀ c p, P (StringRec.blank c p)) (s : State) :
    (∀ r ∈ s.strings, P r) ↔ ∀ n, P (s.str n) := by
  constructor
  · intro h n
    unfold State.str
    cases hx : getNum s.strings n with
    | none => exact hb _ _
    | some r => exact h r (getNum_mem hx)
  · intro h r hr
    obtain ⟨n, hn⟩ := mem_getNum hr
    have := h (n + 1)
    rwa [State.str, hn] at this

/-! ## The service walk -/

/-- A record changed in its state, its operation and its last isolation record alone. -/
def StringRec.Moved (r q : StringRec) : Prop :=
  ∃ state op record, q = { r with state := state, op := op, record := record }

theorem StringRec.Moved.refl (r : StringRec) : r.Moved r := ⟨_, _, _, rfl⟩

theorem StringRec.Moved.trans (r q u : StringRec) (h : r.Moved q) (k : q.Moved u) : r.Moved u := by
  obtain ⟨a, b, c, rfl⟩ := h
  obtain ⟨d, e, f, rfl⟩ := k
  exact ⟨d, e, f, rfl⟩

/-- What a walk can do: the blocks of the way off the bus, and no more of a record than a move. -/
structure Walked (s t : State) : Prop where
  within : Within breakPath s t
  strings : Each StringRec.Moved s t

theorem Walked.refl (s : State) : Walked s s := ⟨Within.refl _ s, Each.of_strings StringRec.Moved.refl rfl⟩

theorem Walked.trans {s t u : State} (h : Walked s t) (k : Walked t u) : Walked s u :=
  ⟨h.within.trans k.within, h.strings.trans StringRec.Moved.trans k.strings⟩

theorem Walked.of_strings {s t : State} (h : Within breakPath s t) (hs : t.strings = s.strings) : Walked s t :=
  ⟨h, Each.of_strings StringRec.Moved.refl hs⟩

theorem Walked.updStr (s : State) (n : Nat) {f : StringRec → StringRec} (h : (s.str n).Moved (f (s.str n))) :
    Walked s (s.updStr n f) :=
  ⟨(s.updStr_within n f).path (by decide), Each.updStr StringRec.Moved.refl s n h⟩

theorem Walked.setSched (s : State) (x : Scheduler) : Walked s (s.setSched x) :=
  .of_strings ((s.setSched_within x).path (by decide)) rfl

theorem Walked.setProbe (s : State) (x : ProbeUnit) : Walked s (s.setProbe x) :=
  .of_strings ((s.setProbe_within x).path (by decide)) rfl

theorem Walked.setCell (s : State) (x : Cell) : Walked s (s.setCell x) :=
  .of_strings ((s.setCell_within x).path (by decide)) rfl

theorem Walked.raise (s : State) (i : Item) : Walked s (s.raise i) :=
  .of_strings ((s.raise_within i).path (by decide)) (s.raise_strings i)

theorem Walked.place (s : State) (n : Nat) (p : Purpose) (o : Origin) : Walked s (s.place n p o) :=
  .of_strings ((s.place_within n p o).path (by decide)) (by rw [State.place_eq]; rfl)

theorem State.settleOff_walked (s : State) (n : Nat) : Walked s (s.settleOff n) := .updStr s n ⟨_, _, _, rfl⟩

theorem State.offBus_walked (s : State) (n : Nat) : Walked s (s.offBus n) :=
  ((s.settleOff_walked n).trans (.raise _ _)).trans (.place _ _ _ _)

theorem State.alreadyOpen_walked (s : State) (n : Nat) : Walked s (s.alreadyOpen n) :=
  ((Walked.setSched s _).trans (.updStr _ n ⟨_, _, _, rfl⟩)).trans (State.offBus_walked _ n)

theorem State.startCold_walked (s : State) (e : QueueEntry) : Walked s (s.startCold e) :=
  ((Walked.setSched s _).trans (.setSched _ _)).trans (.updStr _ _ ⟨_, _, _, rfl⟩)

theorem State.startCommutated_walked (s : State) (e : QueueEntry) : Walked s (s.startCommutated e) :=
  (((Walked.setSched s _).trans (.setSched _ _)).trans (.updStr _ _ ⟨_, _, _, rfl⟩)).trans (.setCell _ _)

/-- R106: the open drive leaves the string table. -/
theorem State.openOrder_strings (s : State) : s.openOrder.strings = s.strings := by
  rcases s.openOrder_cases with ⟨h, -⟩ | ⟨h, -⟩ | ⟨h, -⟩ <;> rw [h]
  · rfl
  · unfold State.startOpening State.isolatorOpened
    simp only
    split <;> simp

theorem State.openOrder_walked (s : State) : Walked s s.openOrder := .of_strings s.openOrder_within s.openOrder_strings

theorem State.visit_walked (s : State) (earlier : Bool) (e : QueueEntry) : Walked s (s.visit earlier e).1 := by
  rcases s.visit_cases earlier e with h | h | h | h | h <;> rw [h]
  · exact s.alreadyOpen_walked _
  · exact .refl s
  · exact s.startCold_walked e
  · exact s.startCommutated_walked e
  · exact s.openOrder_walked

theorem State.walkOnce_walked (s : State) : Walked s s.walkOnce :=
  s.walkOnce_keeps (Walked s) (.refl s) fun t earlier e _ h => h.trans (t.visit_walked earlier e)

/-- R78: what a service walk leaves. -/
theorem State.walk_walked (s : State) : Walked s s.walk := by
  unfold State.walk
  simp only
  split
  · exact s.walkOnce_walked.trans (State.walkOnce_walked _)
  · exact s.walkOnce_walked

/-- R106: what an open request leaves. -/
theorem State.openRequest_walked (s : State) : Walked s s.openRequest := by
  unfold State.openRequest
  simp only
  split
  · exact s.openOrder_walked.trans (State.walk_walked _)
  · exact s.openOrder_walked

theorem State.escalateWaiting_walked (s : State) : Walked s s.escalateWaiting := by
  unfold State.escalateWaiting
  split
  · exact s.openRequest_walked
  · exact .refl s

theorem State.cellIdle_walked (s : State) : Walked s s.cellIdle := (Walked.setCell s _).trans (State.walk_walked _)

theorem State.cellHot_walked (s : State) : Walked s s.cellHot :=
  ((Walked.setCell s _).trans (.raise _ _)).trans (State.escalateWaiting_walked _)

theorem State.cellRested_walked (s : State) : Walked s s.cellRested := by
  unfold State.cellRested
  split
  · exact s.cellHot_walked
  · exact s.cellIdle_walked

/-! ## Gentle changes of a record -/

/-- The figures, the criteria and the budget of a record. -/
def StringRec.figures (r : StringRec) :=
  (r.cfg, r.current, r.saturated, r.sensorFault, r.offset, r.n, r.p, r.reverseRun, r.overRun, r.openRun, r.bucket, r.budget)

/-- A change that leaves every live figure, and can only lower the criteria and the budget. -/
structure StringRec.Gentle (r q : StringRec) : Prop where
  cfg : q.cfg = r.cfg
  current : q.current = r.current
  saturated : q.saturated = r.saturated
  sensorFault : q.sensorFault = r.sensorFault
  offset : q.offset = r.offset
  n : q.n = r.n
  p : q.p = r.p
  reverseRun : q.reverseRun ≤ r.reverseRun
  overRun : q.overRun ≤ r.overRun
  openRun : q.openRun ≤ r.openRun
  bucket : q.bucket ≤ r.bucket
  budget : q.budget ≤ r.budget

theorem StringRec.Gentle.of_figures {r q : StringRec} (h : q.figures = r.figures) : r.Gentle q := by
  simp only [StringRec.figures, Prod.mk.injEq] at h
  constructor <;> simp [h]

theorem StringRec.Gentle.refl (r : StringRec) : r.Gentle r := .of_figures rfl

theorem StringRec.Gentle.trans (r q u : StringRec) (h : r.Gentle q) (k : q.Gentle u) : r.Gentle u where
  cfg := k.cfg.trans h.cfg
  current := k.current.trans h.current
  saturated := k.saturated.trans h.saturated
  sensorFault := k.sensorFault.trans h.sensorFault
  offset := k.offset.trans h.offset
  n := k.n.trans h.n
  p := k.p.trans h.p
  reverseRun := k.reverseRun.trans h.reverseRun
  overRun := k.overRun.trans h.overRun
  openRun := k.openRun.trans h.openRun
  bucket := k.bucket.trans h.bucket
  budget := k.budget.trans h.budget

theorem StringRec.Moved.gentle (r q : StringRec) (h : r.Moved q) : r.Gentle q := by
  obtain ⟨a, b, c, rfl⟩ := h
  exact .of_figures rfl

theorem StringRec.zeroCriteria_gentle (r : StringRec) : r.Gentle r.zeroCriteria where
  cfg := rfl
  current := rfl
  saturated := rfl
  sensorFault := rfl
  offset := rfl
  n := rfl
  p := rfl
  reverseRun := Nat.zero_le _
  overRun := Nat.zero_le _
  openRun := Nat.zero_le _
  bucket := Nat.zero_le _
  budget := le_rfl

theorem StringRec.recurrence_gentle (r : StringRec) (w : Nat) : r.Gentle (r.recurrence w) := by
  unfold StringRec.recurrence
  split
  · split
    · exact ⟨rfl, rfl, rfl, rfl, rfl, rfl, rfl, le_rfl, le_rfl, le_rfl, le_rfl, Nat.zero_le _⟩
    · exact .refl r
  · exact .refl r

theorem StringRec.hold_gentle (r : StringRec) (c : ReqCause) : r.Gentle (r.hold c) := by
  unfold StringRec.hold
  repeat' split
  · exact .of_figures rfl
  · exact .of_figures rfl
  · exact .refl r

theorem StringRec.enterRun_gentle (r : StringRec) : r.Gentle r.enterRun := by
  unfold StringRec.enterRun
  simp only
  split
  · exact .trans _ _ _ r.zeroCriteria_gentle (.of_figures rfl)
  · exact r.zeroCriteria_gentle

theorem StringRec.suspectTest_gentle (r : StringRec) (g : Option GroupRec) : r.Gentle (r.suspectTest g) := by
  unfold StringRec.suspectTest
  extract_lets counting high low
  repeat' split
  · exact .of_figures rfl
  · exact .of_figures rfl
  · exact .refl r

/-! ## Calm operations -/

/-- What no operation but a reset, the load's end and a box configuration breaks: every record changed within `R`, the lockout
set without a second record of a string, the box settings, the part's stage and as many groups. -/
structure Kept (R : StringRec → StringRec → Prop) (s t : State) : Prop where
  strings : Each R s t
  lockouts : LockoutsDistinct s → LockoutsDistinct t
  groups : t.peer.groups.length = s.peer.groups.length
  box : t.box = s.box
  stage : t.part.stage = s.part.stage

/-- What the operations outside a completion's figures, a configuration and a reset leave: every record changed gently, and,
in a part that does not run, the round. -/
structure Calm (s t : State) : Prop extends Kept StringRec.Gentle s t where
  round : s.part.stage ≠ .running → t.scan.round = s.scan.round

theorem Kept.trans {R : StringRec → StringRec → Prop} (ht : ∀ r q u, R r q → R q u → R r u) {s t u : State}
    (h : Kept R s t) (k : Kept R t u) : Kept R s u where
  strings := h.strings.trans ht k.strings
  lockouts := k.lockouts ∘ h.lockouts
  groups := k.groups.trans h.groups
  box := k.box.trans h.box
  stage := k.stage.trans h.stage

theorem Kept.mono {R Q : StringRec → StringRec → Prop} (hq : ∀ r q, R r q → Q r q) {s t : State} (h : Kept R s t) :
    Kept Q s t := ⟨h.strings.mono hq, h.lockouts, h.groups, h.box, h.stage⟩

theorem Calm.trans {s t u : State} (h : Calm s t) (k : Calm t u) : Calm s u where
  toKept := h.toKept.trans StringRec.Gentle.trans k.toKept
  round := fun hs => (k.round (h.stage ▸ hs)).trans (h.round hs)

/-- The way off the bus, and whatever else leaves the same blocks, is calm when every record is changed gently. -/
theorem Calm.of_within {s t : State} (h : Within breakPath s t) (hs : Each StringRec.Gentle s t) : Calm s t where
  strings := hs
  lockouts := by
    have hl : t.lockouts = s.lockouts := h .lockouts (by decide)
    simp [LockoutsDistinct, hl]
  groups := by rw [h .peer (by decide)]
  box := h .box (by decide)
  stage := by rw [h .part (by decide)]
  round := fun _ => by rw [h .scan (by decide)]

theorem Walked.calm {s t : State} (h : Walked s t) : Calm s t :=
  .of_within h.within (h.strings.mono StringRec.Moved.gentle)

theorem Calm.refl (s : State) : Calm s s := (Walked.refl s).calm

theorem Calm.ite {s t u : State} {p : Prop} [Decidable p] (h : p → Calm s t) (k : ¬p → Calm s u) :
    Calm s (if p then t else u) := by
  split
  · exact h ‹_›
  · exact k ‹_›

theorem Calm.foldl {α : Type} (f : State → α → State) (h : ∀ t x, Calm t (f t x)) (l : List α) (s : State) :
    Calm s (l.foldl f s) := by
  induction l generalizing s with
  | nil => exact .refl s
  | cons x xs ih => exact (h s x).trans (ih (f s x))

/-! ### One block replaced -/

theorem State.setPart_calm (s : State) (x : Part) (h : x.stage = s.part.stage) : Calm s (s.setPart x) :=
  ⟨⟨.of_strings StringRec.Gentle.refl rfl, id, rfl, rfl, h⟩, fun _ => rfl⟩

theorem State.setMode_calm (s : State) (x : Mode) : Calm s (s.setMode x) :=
  ⟨⟨.of_strings StringRec.Gentle.refl rfl, id, rfl, rfl, rfl⟩, fun _ => rfl⟩

theorem State.setLink_calm (s : State) (x : LinkPort) : Calm s (s.setLink x) :=
  ⟨⟨.of_strings StringRec.Gentle.refl rfl, id, rfl, rfl, rfl⟩, fun _ => rfl⟩

theorem State.setScan_calm (s : State) (x : ScanUnit) (h : s.part.stage ≠ .running → x.round = s.scan.round) :
    Calm s (s.setScan x) :=
  ⟨⟨.of_strings StringRec.Gentle.refl rfl, id, rfl, rfl, rfl⟩, h⟩

theorem State.setPeer_calm (s : State) (x : Comparator) (h : x.groups.length = s.peer.groups.length) :
    Calm s (s.setPeer x) :=
  ⟨⟨.of_strings StringRec.Gentle.refl rfl, id, h, rfl, rfl⟩, fun _ => rfl⟩

theorem State.setSched_calm (s : State) (x : Scheduler) : Calm s (s.setSched x) := (Walked.setSched s x).calm

theorem State.setCell_calm (s : State) (x : Cell) : Calm s (s.setCell x) := (Walked.setCell s x).calm

theorem State.setIsolator_calm (s : State) (x : Isolator) : Calm s (s.setIsolator x) :=
  ⟨⟨.of_strings StringRec.Gentle.refl rfl, id, rfl, rfl, rfl⟩, fun _ => rfl⟩

theorem State.setProbe_calm (s : State) (x : ProbeUnit) : Calm s (s.setProbe x) := (Walked.setProbe s x).calm

theorem State.setShutdown_calm (s : State) (x : ShutdownMonitor) : Calm s (s.setShutdown x) :=
  ⟨⟨.of_strings StringRec.Gentle.refl rfl, id, rfl, rfl, rfl⟩, fun _ => rfl⟩

theorem State.setSupervision_calm (s : State) (x : Supervision) : Calm s (s.setSupervision x) :=
  ⟨⟨.of_strings StringRec.Gentle.refl rfl, id, rfl, rfl, rfl⟩, fun _ => rfl⟩

theorem State.setAttention_calm (s : State) (x : List Item) : Calm s (s.setAttention x) :=
  ⟨⟨.of_strings StringRec.Gentle.refl rfl, id, rfl, rfl, rfl⟩, fun _ => rfl⟩

theorem State.setStore_calm (s : State) (x : SettingsStore) : Calm s (s.setStore x) :=
  ⟨⟨.of_strings StringRec.Gentle.refl rfl, id, rfl, rfl, rfl⟩, fun _ => rfl⟩

theorem State.setFree_calm (s : State) (x : FreeChoices) : Calm s (s.setFree x) :=
  ⟨⟨.of_strings StringRec.Gentle.refl rfl, id, rfl, rfl, rfl⟩, fun _ => rfl⟩

theorem State.setLockouts_calm (s : State) (x : List Lockout)
    (h : LockoutsDistinct s → (x.map (·.string)).Nodup) : Calm s (s.setLockouts x) :=
  ⟨⟨.of_strings StringRec.Gentle.refl rfl, h, rfl, rfl, rfl⟩, fun _ => rfl⟩

theorem State.updStr_calm (s : State) (n : Nat) {f : StringRec → StringRec} (h : (s.str n).Gentle (f (s.str n))) :
    Calm s (s.updStr n f) :=
  ⟨⟨.updStr StringRec.Gentle.refl s n h, id, rfl, rfl, rfl⟩, fun _ => rfl⟩

theorem State.updAll_calm (s : State) {f : StringRec → StringRec} (h : ∀ r : StringRec, r.Gentle (f r)) : Calm s (s.updAll f) :=
  ⟨⟨.updAll StringRec.Gentle.refl s h, id, rfl, rfl, rfl⟩, fun _ => rfl⟩

theorem State.reach_calm (s : State) (due : Nat) : Calm s (s.reach due) := s.setPart_calm _ rfl

theorem State.raise_calm (s : State) (i : Item) : Calm s (s.raise i) := (Walked.raise s i).calm

theorem State.place_calm (s : State) (n : Nat) (p : Purpose) (o : Origin) : Calm s (s.place n p o) :=
  (Walked.place s n p o).calm

theorem State.lookForWork_calm (s : State) : Calm s s.lookForWork := by
  rw [State.lookForWork_eq]; exact s.setProbe_calm _

theorem State.withdraw_calm (s : State) (n : Nat) : Calm s (s.withdraw n) := by
  rw [State.withdraw_eq]; exact s.setProbe_calm _

theorem State.abortProbe_calm (s : State) : Calm s s.abortProbe := s.setProbe_calm _

theorem State.abortKeeping_calm (s : State) : Calm s s.abortKeeping := by
  unfold State.abortKeeping
  split
  · exact .refl s
  · exact (s.setProbe_calm _).trans (State.abortProbe_calm _)

theorem State.withdrawPreClose_calm (s : State) (n : Nat) : Calm s (s.withdrawPreClose n) := by
  unfold State.withdrawPreClose
  repeat' split
  · exact s.withdraw_calm n
  · exact .refl s
  · exact .refl s

theorem State.withdrawAllPreClose_calm (s : State) : Calm s s.withdrawAllPreClose := by
  unfold State.withdrawAllPreClose
  simp only
  repeat' split
  · exact (s.setProbe_calm _).trans (State.abortProbe_calm _)
  · exact s.setProbe_calm _
  · exact s.setProbe_calm _

theorem State.requestWrite_calm (s : State) : Calm s s.requestWrite := by
  rcases s.requestWrite_cases with ⟨w, -, h⟩ | ⟨-, h⟩ <;> rw [h] <;> exact s.setStore_calm _

theorem State.openRecord_calm (s : State) (n : Nat) (c : Cause) (k : Option BreakKind) : Calm s (s.openRecord n c k) :=
  s.updStr_calm n (.of_figures rfl)

/-! ### Requests -/

theorem State.recurrenceTest_calm (s : State) (n : Nat) (c : ReqCause) : Calm s (s.recurrenceTest n c) :=
  .ite (fun _ => s.updStr_calm n (StringRec.recurrence_gentle _ _)) fun _ => .refl s

theorem State.raiseEntry_calm (s : State) (e : QueueEntry) (c : ReqCause) : Calm s (s.raiseEntry e c) :=
  (((s.setSched_calm _).trans (State.setSched_calm _ _)).trans (State.updStr_calm _ _ (.of_figures rfl))).trans
    (State.recurrenceTest_calm _ _ _)

theorem State.merge_calm (s : State) (n : Nat) (c : ReqCause) : Calm s (s.merge n c) := by
  unfold State.merge
  split
  · exact .refl s
  · exact .ite (fun _ => (s.raiseEntry_calm _ c).trans (State.walk_walked _).calm) fun _ => .refl s

theorem State.shutdownRaise_calm (s : State) (e : QueueEntry) : Calm s (s.shutdownRaise e) :=
  .ite (fun _ => s.raiseEntry_calm e _) fun _ => .refl s

theorem State.admitEntry_calm (s : State) (n : Nat) (c : ReqCause) : Calm s (s.admitEntry n c) :=
  (((s.setSched_calm _).trans (State.setSched_calm _ _)).trans (State.shutdownRaise_calm _ _)).trans
    (State.walk_walked _).calm

theorem State.queueString_calm (s : State) (n : Nat) (c : ReqCause) : Calm s (s.queueString n c) :=
  (((s.updStr_calm n (.of_figures rfl)).trans (State.openRecord_calm _ n _ _)).trans
    (State.recurrenceTest_calm _ n c)).trans (State.admitEntry_calm _ n c)

/-- R11: an isolation request leaves every live figure. -/
theorem State.request_calm (s : State) (n : Nat) (c : ReqCause) : Calm s (s.request n c) := by
  unfold State.request
  split
  · exact s.queueString_calm n c
  · exact s.queueString_calm n c
  · exact s.merge_calm n c
  · exact .refl s
  · exact .ite (fun _ => (s.withdrawPreClose_calm n).trans (State.updStr_calm _ n (.of_figures rfl))) fun _ => .refl s
  · exact .ite (fun _ => s.withdrawPreClose_calm n) fun _ =>
      .ite (fun _ => (s.withdraw_calm n).trans (State.queueString_calm _ n c)) fun _ => .refl s
  · exact s.updStr_calm n (StringRec.hold_gentle _ c)
  · exact .refl s
  · exact .refl s
  · exact .refl s

theorem State.shutdownCatch_calm (s : State) (n : Nat) : Calm s (s.shutdownCatch n) :=
  .ite (fun _ => s.request_calm n _) fun _ => .refl s

theorem State.connect_calm (s : State) (n : Nat) : Calm s (s.connect n) :=
  s.updStr_calm n (.trans _ _ _ (StringRec.zeroCriteria_gentle _) (.of_figures rfl))

theorem State.closeConfirmed_calm (s : State) (n : Nat) (origin : Origin) : Calm s (s.closeConfirmed n origin) := by
  unfold State.closeConfirmed
  simp only
  have h := ((s.connect_calm n).trans (State.updStr_calm _ n (f := fun r => { r with
    held := none
    reconnectedAt := if origin = .auto then some s.scan.counter else r.reconnectedAt }) (.of_figures rfl))).trans
      (State.raise_calm _ (.str .closed n))
  split
  · exact h.trans (State.shutdownCatch_calm _ n)
  · exact (h.trans (State.request_calm _ n _)).trans (State.shutdownCatch_calm _ n)

theorem State.closeFailed_calm (s : State) (n : Nat) : Calm s (s.closeFailed n) :=
  ((s.updStr_calm n (.of_figures rfl)).trans (State.raise_calm _ _)).trans (State.raise_calm _ _)

theorem State.discrepancy_calm (s : State) (n : Nat) : Calm s (s.discrepancy n) := by
  have externalOpen : Calm s (s.externalOpen n) :=
    (((s.updStr_calm n (.of_figures rfl)).trans (State.openRecord_calm _ n _ _)).trans (State.raise_calm _ _)).trans
      (State.place_calm _ _ _ _)
  have externalClose : Calm s (s.externalClose n) :=
    (((s.withdraw_calm n).trans (State.connect_calm _ n)).trans (State.raise_calm _ _)).trans
      (State.shutdownCatch_calm _ n)
  have stuckFreed : Calm s (s.stuckFreed n) :=
    ((s.settleOff_walked n).calm.trans (State.raise_calm _ _)).trans (State.place_calm _ _ _ _)
  have enforceLockout : Calm s (s.enforceLockout n) := (s.raise_calm _).trans (State.request_calm _ n _)
  unfold State.discrepancy
  simp only
  split
  · exact .refl s
  · split
    · exact .ite (fun _ => externalOpen) fun _ => .refl s
    · exact .ite (fun _ => externalOpen) fun _ => .refl s
    · exact .ite (fun _ => externalClose) fun _ => .refl s
    · exact .ite (fun _ => enforceLockout) fun _ => .refl s
    · exact .ite (fun _ => stuckFreed) fun _ => .refl s
    all_goals exact .refl s

/-! ### The cell, the contactors and the isolator -/

theorem State.enterStage_calm (s : State) (stage : CellStage) (timeout : Nat) : Calm s (s.enterStage stage timeout) :=
  s.setCell_calm _

theorem State.cellFaulted_calm (s : State) (stage : FaultStage) (n : Option Nat) : Calm s (s.cellFaulted stage n) :=
  (s.setCell_calm _).trans (State.raise_calm _ _)

theorem State.quenchSucceeded_calm (s : State) (n : Nat) : Calm s (s.quenchSucceeded n) :=
  ((s.setSched_calm _).trans (State.setCell_calm _ _)).trans (State.offBus_walked _ n).calm

theorem State.quenchStart_calm (s : State) (n : Nat) : Calm s (s.quenchStart n) := by
  unfold State.quenchStart
  simp only
  have h := ((s.enterStage_calm .quenching s.box.quenchTimeout).trans (State.setCell_calm _
    { (s.enterStage .quenching s.box.quenchTimeout).cell with
      heat := (s.enterStage .quenching s.box.quenchTimeout).cell.heat + heatOf (min (magnitude s.cell.monitor) 4000)
      limit := s.box.coldLimit })).trans (State.updStr_calm _ n (f := fun r => r.editRecord fun q =>
        { q with kind := some .commutated, current := some ((min (magnitude s.cell.monitor) 4000 : Nat) : Int) })
        (.of_figures rfl))
  exact .ite (fun _ => h.trans (State.quenchSucceeded_calm _ n)) fun _ => h

theorem State.conduct_calm (s : State) (n : Nat) : Calm s (s.conduct n) := by
  unfold State.conduct
  simp only
  have h := (s.enterStage_calm .conducting s.box.contactTimeout).trans (State.updStr_calm _ n
    (f := fun r => r.editRecord fun q => { q with kind := some .commutated, current := none }) (.of_figures rfl))
  exact .ite (fun _ => h.trans (State.quenchStart_calm _ n)) fun _ => h.trans (State.updStr_calm _ n (.of_figures rfl))

theorem State.breakStuck_calm (s : State) (n : Nat) : Calm s (s.breakStuck n) := by
  unfold State.breakStuck
  simp only
  have h := ((s.setSched_calm { s.sched with breaks := s.sched.breaks.filter (fun b => b.entry.string != n) }).trans
    (State.updStr_calm _ n (f := fun r => { r with state := .stuckClosed }) (.of_figures rfl))).trans
      (State.raise_calm _ (.str .contact n))
  exact .ite (fun _ => h.trans (State.openRequest_walked _).calm) fun _ => h

theorem State.pulseOpened_calm (s : State) (n : Nat) : Calm s (s.pulseOpened n) :=
  .ite (fun _ => s.quenchStart_calm n) fun _ => (s.setSched_calm _).trans (State.offBus_walked _ n).calm

theorem State.pulseStuck_calm (s : State) (n : Nat) : Calm s (s.pulseStuck n) :=
  .ite (fun _ => (s.enterStage_calm _ _).trans (State.breakStuck_calm _ n)) fun _ => s.breakStuck_calm n

theorem State.contactMoved_calm (s : State) (n : Nat) (position : Contact) : Calm s (s.contactMoved n position) := by
  unfold State.contactMoved
  simp only
  have h := s.updStr_calm n (f := fun r => { r with position := position }) (.of_figures rfl)
  have k := h.trans (State.updStr_calm _ n (f := fun r => { r with op := none }) (.of_figures rfl))
  split
  · exact k.trans (State.pulseOpened_calm _ n)
  · exact k.trans (State.closeConfirmed_calm _ n _)
  all_goals exact h

theorem State.contactExpired_calm (s : State) (n : Nat) : Calm s (s.contactExpired n) := by
  unfold State.contactExpired
  split
  · exact .refl s
  · exact ((s.reach_calm _).trans (State.updStr_calm _ n (.of_figures rfl))).trans (State.pulseStuck_calm _ n)
  · exact ((s.reach_calm _).trans (State.updStr_calm _ n (.of_figures rfl))).trans (State.closeFailed_calm _ n)

theorem State.tapClosed_calm (s : State) (n : Nat) : Calm s (s.tapClosed n) :=
  .ite (fun _ => s.conduct_calm n) fun _ => .refl s

theorem State.attachExpired_calm (s : State) : Calm s s.attachExpired := by
  unfold State.attachExpired
  simp only
  repeat' split
  · exact ((s.reach_calm _).trans (State.updStr_calm _ _ (.of_figures rfl))).trans (State.cellIdle_walked _).calm
  · exact ((((s.reach_calm _).trans (State.setSched_calm _ _)).trans (State.setSched_calm _ _)).trans
      (State.updStr_calm _ _ (.of_figures rfl))).trans (State.cellIdle_walked _).calm
  · exact .refl s

theorem State.failedFreed_calm (s : State) (n : Nat) : Calm s (s.failedFreed n) :=
  .ite (fun _ => (s.settleOff_walked n).calm.trans (State.place_calm _ _ _ _)) fun _ => .refl s

theorem State.tapReleased_calm (s : State) (n : Nat) : Calm s (s.tapReleased n) := by
  unfold State.tapReleased
  refine .ite (fun _ => .refl s) fun _ => ?_
  split
  case h_1 => exact s.enterStage_calm _ _
  case h_2 => exact .ite (fun _ => s.cellRested_walked.calm.trans (State.failedFreed_calm _ n)) fun _ => .refl s
  all_goals exact .refl s

theorem State.detachExpired_calm (s : State) : Calm s s.detachExpired := by
  unfold State.detachExpired
  simp only
  split
  · exact (((s.reach_calm _).trans (State.cellFaulted_calm _ _ _)).trans (State.updStr_calm _ _ (.of_figures rfl))).trans
      (State.escalateWaiting_walked _).calm
  · exact .refl s

theorem State.releaseExpired_calm (s : State) : Calm s s.releaseExpired :=
  .ite (fun _ => ((s.reach_calm _).trans (State.setCell_calm _ _)).trans (State.raise_calm _ _)) fun _ => .refl s

theorem State.monitorReads_calm (s : State) (w : Word16) : Calm s (s.monitorReads w) := by
  unfold State.monitorReads
  simp only
  split
  · exact .ite (fun _ => (s.setCell_calm _).trans (State.quenchSucceeded_calm _ _)) fun _ => s.setCell_calm _
  · exact s.setCell_calm _

theorem State.quenchExpired_calm (s : State) : Calm s s.quenchExpired := by
  unfold State.quenchExpired
  simp only
  split
  · exact ((((s.reach_calm _).trans (State.cellFaulted_calm _ _ _)).trans (State.setSched_calm _ _)).trans
      (State.updStr_calm _ _ (.of_figures rfl))).trans (State.openRequest_walked _).calm
  · exact .refl s

theorem State.restEnded_calm (s : State) : Calm s s.restEnded :=
  .ite (fun _ => (s.reach_calm _).trans (State.cellRested_walked _).calm) fun _ => .refl s

theorem State.cellCooled_calm (s : State) : Calm s s.cellCooled :=
  .ite (fun _ => s.cellIdle_walked.calm) fun _ => .refl s

theorem State.isolatorOpened_calm (s : State) : Calm s s.isolatorOpened :=
  (s.setIsolator_calm _).trans (State.raise_calm _ _)

theorem State.closeOver_calm (s : State) (state : IsolatorState) : Calm s (s.closeOver state) :=
  have h := (s.setIsolator_calm { s.isolator with state := state, pendingOpen := false }).trans
    (State.raise_calm _ (.box .output))
  .ite (fun _ => h.trans (State.openRequest_walked _).calm) fun _ => h

theorem State.startClosing_calm (s : State) : Calm s s.startClosing :=
  have h := (s.setIsolator_calm { s.isolator with state := .closing, since := s.part.now }).trans
    (State.raise_calm _ (.box .output))
  .ite (fun _ => h.trans (State.closeOver_calm _ _)) fun _ => h

theorem State.isolatorReads_calm (s : State) (feedback : Travel) : Calm s (s.isolatorReads feedback) := by
  unfold State.isolatorReads
  simp only
  have h := s.setIsolator_calm { s.isolator with feedback := feedback }
  split
  · exact (h.trans (State.isolatorOpened_calm _)).trans (State.walk_walked _).calm
  · exact h.trans (State.closeOver_calm _ _)
  · exact h

theorem State.isolatorExpired_calm (s : State) : Calm s s.isolatorExpired := by
  unfold State.isolatorExpired
  simp only
  split
  · exact ((s.reach_calm _).trans (State.setIsolator_calm _ _)).trans (State.raise_calm _ _)
  · exact (s.reach_calm _).trans (State.closeOver_calm _ _)
  all_goals exact .refl s

theorem State.isolatorCompared_calm (s : State) : Calm s s.isolatorCompared := by
  unfold State.isolatorCompared
  simp only
  have h (state : IsolatorState) : Calm s ((s.setIsolator { s.isolator with state := state }).raiseBox .output) :=
    (s.setIsolator_calm _).trans (State.raise_calm _ _)
  split
  · exact s.isolatorOpened_calm.trans (State.walk_walked _).calm
  · exact h _
  · exact h _
  · exact .ite (fun _ => (h _).trans (State.openRequest_walked _).calm) fun _ => h _
  · exact .refl s

/-! ### The probe unit -/

theorem State.reconnectAuto_calm (s : State) (n : Nat) : Calm s (s.reconnectAuto n) :=
  .ite (fun _ => (s.updStr_calm n ⟨rfl, rfl, rfl, rfl, rfl, rfl, rfl, le_rfl, le_rfl, le_rfl, le_rfl,
    Nat.sub_le _ _⟩).trans (State.place_calm _ _ _ _)) fun _ => .refl s

/-- R17: a string receives a lockout record only while it holds none. -/
theorem State.addLockout_calm (s : State) (n : Nat) (v : Verdict) : Calm s (s.addLockout n v) := by
  refine .ite (fun _ => .refl s) fun hl => (s.setLockouts_calm _ fun h => ?_).trans (State.requestWrite_calm _)
  have hn : n ∉ s.lockouts.map (·.string) := by simpa [State.locked] using hl
  rw [List.map_append, List.nodup_append]
  refine ⟨h, by simp, fun a ha b hb => ?_⟩
  obtain rfl : b = n := by simpa using hb
  rintro rfl
  exact hn ha

theorem State.lockOut_calm (s : State) (n : Nat) (v : Verdict) : Calm s (s.lockOut n v) :=
  ((s.addLockout_calm n v).trans (State.raise_calm _ _)).trans (State.updStr_calm _ n (.of_figures rfl))

theorem State.verdictReported_calm (s : State) (n : Nat) (x : Finding) : Calm s (s.verdictReported n x) := by
  unfold State.verdictReported
  simp only
  have h := (s.updStr_calm n (f := fun r =>
    { r.editRecord (fun q => { q with verdict := some x.verdict, missing := x.missing, position := x.position }) with
      verdict := some x.verdict }) (.of_figures rfl)).trans (State.raise_calm _ (.str .verdict n))
  exact .ite (fun _ => h.trans (State.lockOut_calm _ n _)) fun _ =>
    .ite (fun _ => h.trans (State.reconnectAuto_calm _ n)) fun _ => h

theorem State.enterRelease_calm (s : State) (f : ProbeFlight) (pass : Bool) : Calm s (s.enterRelease f pass) :=
  s.setProbe_calm _

theorem State.verdictFormed_calm (s : State) (f : ProbeFlight) (x : Finding) : Calm s (s.verdictFormed f x) :=
  ((s.setProbe_calm _).trans (State.setProbe_calm _ _)).trans (State.verdictReported_calm _ _ x)

theorem State.diagnosed_calm (s : State) (f : ProbeFlight) (p1 p2 p3 : Poles) : Calm s (s.diagnosed f p1 p2 p3) := by
  unfold State.diagnosed State.inconsistent
  repeat' split
  all_goals first
    | exact s.verdictFormed_calm f _
    | exact (s.setProbe_calm _).trans (State.setProbe_calm _ _)

theorem State.checkFailed_calm (s : State) (n : Nat) : Calm s (s.checkFailed n) := by
  unfold State.checkFailed
  simp only
  have h := s.updStr_calm n (f := fun r => r.editRecord fun q => { q with closeFailed := min 20 (q.closeFailed + 1) })
    (.of_figures rfl)
  repeat' split
  · exact .refl s
  · exact h.trans (State.setProbe_calm _ _)
  · exact (h.trans (State.setProbe_calm _ _)).trans (State.raise_calm _ _)

theorem State.settled_calm (s : State) : Calm s s.settled := by
  unfold State.settled
  repeat' split
  · exact .refl s
  · exact .refl s
  · exact (s.reach_calm _).trans (State.setProbe_calm _ _)

theorem State.reading_calm (s : State) (vp vn : List Word16) : Calm s (s.reading vp vn) := by
  unfold State.reading
  split
  · exact .refl s
  · next f _ =>
    refine .ite (fun _ => .refl s) fun _ => ?_
    simp only
    have h := s.reach_calm (f.since + f.settle + 8)
    split
    · exact h.trans (.ite (fun _ => State.enterRelease_calm _ _ _) fun _ =>
        (State.enterRelease_calm _ _ _).trans (State.checkFailed_calm _ _))
    · exact h.trans (State.setProbe_calm _ _)
    · exact h.trans (State.setProbe_calm _ _)
    · exact h.trans (State.diagnosed_calm _ _ _ _ _)
    · exact .refl s
    · exact .refl s

theorem State.startClose_calm (s : State) (n : Nat) (origin : Origin) : Calm s (s.startClose n origin) :=
  .ite (fun _ => (s.updStr_calm n (.of_figures rfl)).trans (State.closeConfirmed_calm _ n origin)) fun _ =>
    s.updStr_calm n (.of_figures rfl)

theorem State.closeOrder_calm (s : State) (n : Nat) (origin : Origin) : Calm s (s.closeOrder n origin) :=
  have h := s.setProbe_calm { s.probe with list := s.probe.list.filter (fun e => e.string != n) }
  .ite (fun _ => h) fun _ => h.trans (State.startClose_calm _ n origin)

theorem State.released_calm (s : State) : Calm s s.released := by
  unfold State.released
  split
  · exact .refl s
  · next f _ =>
    refine .ite (fun _ => ?_) fun _ => .refl s
    simp only
    have h := (s.reach_calm (f.since + 20)).trans (State.setProbe_calm _ { (s.reach (f.since + 20)).probe with flight := none })
    refine Calm.trans ?_ (State.lookForWork_calm _)
    exact .ite (fun _ => h.trans (State.closeOrder_calm _ _ _)) fun _ => h

/-! ### Supervision, shutdown and attention -/

theorem State.lapse_calm (s : State) : Calm s s.lapse :=
  ((s.setSupervision_calm _).trans (State.raise_calm _ _)).trans (State.withdrawAllPreClose_calm _)

theorem State.longExpired_calm (s : State) : Calm s s.longExpired :=
  .ite (fun _ => (s.reach_calm _).trans (State.lapse_calm _)) fun _ => .refl s

theorem State.openExpired_calm (s : State) : Calm s s.openExpired :=
  .ite (fun _ => (s.reach_calm _).trans (State.lapse_calm _)) fun _ => .refl s

theorem State.recheckWindows_calm (s : State) (old : BoxSettings) : Calm s (s.recheckWindows old) := by
  unfold State.recheckWindows
  split
  · exact .ite (fun _ => s.lapse_calm) fun _ => .refl s
  · exact .ite (fun _ => s.lapse_calm) fun _ => .refl s
  · exact .refl s

theorem State.heartbeat_calm (s : State) (token : Word16) : Calm s (s.heartbeat token) := by
  unfold State.heartbeat
  repeat' split
  · exact s.setSupervision_calm _
  · exact s.lapse_calm
  · exact s.lapse_calm
  · exact .refl s
  · exact s.lapse_calm

theorem State.clearAttention_calm (s : State) (mask : List Byte) : Calm s (s.clearAttention mask) :=
  .ite (fun _ => (s.setAttention_calm _).trans (State.setSupervision_calm _ _)) fun _ => s.setAttention_calm _

theorem State.lineHeld_calm (s : State) (low : Bool) : Calm s (s.lineHeld low) :=
  .ite (fun _ => s.reach_calm _) fun _ => s.setShutdown_calm _

theorem State.shutdownRequests_calm (s : State) : Calm s s.shutdownRequests :=
  (Calm.foldl _ (fun t n => t.request_calm n .shutdown) _ s).trans (State.setFree_calm _ _)

theorem State.assertShutdown_calm (s : State) : Calm s s.assertShutdown :=
  (((((s.setShutdown_calm _).trans (State.openRequest_walked _).calm).trans (State.shutdownRequests_calm _)).trans
    (State.abortKeeping_calm _)).trans (State.withdrawAllPreClose_calm _)).trans (State.raise_calm _ _)

theorem State.lowTaken_calm (s : State) : Calm s s.lowTaken :=
  .ite (fun _ => (s.lineHeld_calm true).trans (State.assertShutdown_calm _)) fun _ => s.lineHeld_calm true

theorem State.highTaken_calm (s : State) : Calm s s.highTaken :=
  .ite (fun _ => (s.lineHeld_calm false).trans (((State.setShutdown_calm _ _).trans (State.raise_calm _ _)).trans
    (State.lookForWork_calm _))) fun _ => s.lineHeld_calm false

/-! ### Rounds and the settings store -/

theorem State.setScan_kept (s : State) (x : ScanUnit) : Kept StringRec.Gentle s (s.setScan x) :=
  ⟨.of_strings StringRec.Gentle.refl rfl, id, rfl, rfl, rfl⟩

theorem State.startRound_kept (s : State) : Kept StringRec.Gentle s s.startRound := by
  unfold State.startRound
  split
  · exact (Calm.refl s).toKept
  · exact s.setScan_kept _

theorem State.enterFallback_kept (s : State) : Kept StringRec.Gentle s s.enterFallback :=
  ((s.setScan_kept _).trans StringRec.Gentle.trans (State.raise_calm _ _).toKept).trans StringRec.Gentle.trans
    (State.startRound_kept _)

theorem State.recheckSource_kept (s : State) : Kept StringRec.Gentle s s.recheckSource := by
  unfold State.recheckSource
  have ite {p : Prop} [Decidable p] {t : State} (h : Kept StringRec.Gentle s t) :
      Kept StringRec.Gentle s (if p then t else s) := by
    split
    · exact h
    · exact (Calm.refl s).toKept
  split
  · exact (Calm.refl s).toKept
  · split
    · exact ite s.startRound_kept
    · exact ite s.startRound_kept
    · exact ite s.enterFallback_kept

theorem Kept.calm {s t : State} (h : Kept StringRec.Gentle s t) (hr : s.part.stage = .running) : Calm s t :=
  ⟨h, fun hs => absurd hr hs⟩

theorem State.roundTimer_calm (s : State) (h : s.part.stage = .running) : Calm s s.roundTimer := by
  unfold State.roundTimer
  split
  · exact (s.reach_calm _).trans ((State.startRound_kept _).calm h)
  · exact (s.reach_calm _).trans ((State.startRound_kept _).calm h)
  · exact .refl s

theorem State.syncEdge_calm (s : State) (h : s.part.stage = .running) : Calm s s.syncEdge := by
  unfold State.syncEdge
  split
  · exact .refl s
  · exact s.startRound_kept.calm h
  · exact (s.setScan_calm { s.scan with source := .following } fun _ => rfl).trans ((State.startRound_kept _).calm h)

theorem State.syncWatch_calm (s : State) (h : s.part.stage = .running) : Calm s s.syncWatch := by
  unfold State.syncWatch
  split
  · exact (s.reach_calm _).trans ((State.enterFallback_kept _).calm h)
  · exact .refl s
  · exact .refl s

theorem State.secondElapsed_calm (s : State) : Calm s s.secondElapsed :=
  ((s.setPart_calm { s.part with
    seconds := s.part.seconds + 1, now := max s.part.now ((s.part.seconds + 1) * 1000) } rfl).trans
      (State.setCell_calm _ { s.cell with heat := s.cell.heat - 1 })).trans (State.setScan_calm _ _ fun _ => rfl)

theorem State.extStale_calm (s : State) (g : Nat) : Calm s (s.extStale g) := by
  have h (ext : List ExtTemp) : Calm s (s.setScan { s.scan with ext := ext }) := s.setScan_calm _ fun _ => rfl
  unfold State.extStale
  simp only
  repeat' split
  · exact (h _).trans (State.raise_calm _ _)
  · exact h _
  · exact h _
  · exact .refl s
  · exact .refl s

theorem State.verified_calm (s : State) (readBack : ReadBack) : Calm s (s.verified readBack) := by
  have ended (t : State) : Calm t t.writeEnded :=
    .ite (fun _ => (t.setStore_calm _).trans (State.setStore_calm _ _)) fun _ => t.setStore_calm _
  unfold State.verified
  split
  · exact .refl s
  · exact (s.setStore_calm _).trans (ended _)
  · exact ((s.setStore_calm _).trans (State.raise_calm _ _)).trans (ended _)

/-! ### Requests of the site link -/

theorem State.restoreVisits_calm (s : State) : Calm s s.restoreVisits.1 := by
  have one (acc : State × Nat) (n : Nat) : Calm acc.1 (State.restoreOne acc n).1 := by
    unfold State.restoreOne
    repeat' split
    · exact acc.1.setProbe_calm _
    · exact (acc.1.withdraw_calm n).trans (State.setProbe_calm _ _)
    · exact .refl _
    · exact .refl _
  have all (l : List Nat) (acc : State × Nat) : Calm acc.1 (l.foldl State.restoreOne acc).1 := by
    induction l generalizing acc with
    | nil => exact .refl _
    | cons n ns ih => exact (one acc n).trans (ih _)
  exact all _ (s, 0)

theorem State.restoreAll_calm (s : State) : Calm s s.restoreAll.1 := by
  unfold State.restoreAll
  simp only
  exact .ite (fun _ => s.restoreVisits_calm) fun _ => s.restoreVisits_calm.trans (State.lookForWork_calm _)

theorem State.releaseLockout_calm (s : State) (n : Nat) : Calm s (s.releaseLockout n) :=
  ((s.setLockouts_calm _ fun h => h.sublist (List.filter_sublist.map _)).trans
    (State.updStr_calm _ n (.of_figures rfl))).trans (State.requestWrite_calm _)

theorem State.closeRequest_calm (s : State) : Calm s s.closeRequest :=
  .ite (fun _ => s.startClosing_calm) fun _ => .refl s

theorem State.restoreCell_calm (s : State) : Calm s s.restoreCell := by
  unfold State.restoreCell
  split
  · exact s.setCell_calm _
  · exact s.cellRested_walked.calm

theorem State.configureGroup_calm (s : State) (g : Nat) (c : GroupSettings) : Calm s (s.configureGroup g c) :=
  (s.setPeer_calm _ (by simp)).trans (State.setStore_calm _ _)

theorem State.configureLink_calm (s : State) (l : LinkSettings) : Calm s (s.configureLink l) :=
  (s.setLink_calm _).trans (State.setStore_calm _ _)

theorem State.storeAll_calm (s : State) : Calm s s.storeAll := (s.setStore_calm _).trans (State.setStore_calm _ _)

/-! ## The effects that are not calm -/

/-- Every request but the two configurations of a string and the box is calm. -/
theorem Handled.calm_or {s u : State} (h : Handled s u) :
    Calm s u ∨ (∃ n c, stringNumber n = true ∧ u = s.configureString n c) ∨ ∃ b, u = s.configureBox b := by
  cases h with
  | same => exact .inl (.refl s)
  | clear mask => exact .inl (s.clearAttention_calm mask)
  | heartbeat token => exact .inl (s.heartbeat_calm token)
  | temperature ext => exact .inl (s.setScan_calm _ fun _ => rfl)
  | isolate n hn => exact .inl (s.request_calm n _)
  | reconnect n hn hs => exact .inl (s.place_calm _ _ _)
  | probe n hn hs => exact .inl (s.place_calm _ _ _)
  | release n hn hs => exact .inl (s.releaseLockout_calm n)
  | restore => exact .inl s.restoreAll_calm
  | openBox => exact .inl s.openRequest_walked.calm
  | closeBox => exact .inl s.closeRequest_calm
  | cellRestore hc => exact .inl s.restoreCell_calm
  | setup => exact .inl (s.setMode_calm _)
  | run => exact .inl ((s.setMode_calm _).trans (State.updAll_calm _ StringRec.enterRun_gentle))
  | configString n c hn hb hc hu => exact .inr (.inl ⟨n, c, hn, rfl⟩)
  | configGroup g c => exact .inl (s.configureGroup_calm g c)
  | configBox b => exact .inr (.inr ⟨b, rfl⟩)
  | configLink l => exact .inl (s.configureLink_calm l)
  | store => exact .inl s.storeAll_calm
  | restart => exact .inl (s.setLink_calm _)

/-- A property that calm operations keep is kept by every step, when a string's and the box's configuration, a drop stage, the
load's end and a sample set keep it. -/
theorem StepKeeps.of_calm {P : State → Prop} (hp : ∀ s x, P s → P (s.setPending x))
    (hc : ∀ s t, Calm s t → P s → P t)
    (hs : ∀ s n c, s.part.stage = .running → stringNumber n = true → P s → P (s.configureString n c))
    (hb : ∀ s b, s.part.stage = .running → P s → P (s.configureBox b))
    (hd : ∀ s kind, P s → P (s.drop kind)) (ho : ∀ s, P s → P s.supplyLost)
    (hl : ∀ s answers, P s → P (s.loadEnded answers)) (ht : ∀ s set, P s → P (s.takeSet set)) : StepKeeps P := by
  refine StepKeeps.of_effect hp (fun s h => hc _ _ (s.setPart_calm _ rfl) h) fun s t h he => ?_
  cases he with
  | same => exact h
  | link x => exact hc _ _ (s.setLink_calm x) h
  | request hr hu x =>
    refine hc _ _ (State.setLink_calm _ x) ?_
    rcases hu.calm_or with hu | ⟨n, c, hn, rfl⟩ | ⟨b, rfl⟩
    · exact hc _ _ hu h
    · exact hs s n c hr hn h
    · exact hb s b hr h
  | drop kind => exact hd s kind h
  | supplyLost => exact ho s h
  | loadEnded answers => exact hl s answers h
  | takeSet set => exact ht s set h
  | verified readBack => exact hc _ _ (s.verified_calm _) h
  | roundTimer hr => exact hc _ _ (s.roundTimer_calm hr) h
  | syncEdge hr => exact hc _ _ (s.syncEdge_calm hr) h
  | syncWatch hr => exact hc _ _ (s.syncWatch_calm hr) h
  | secondElapsed => exact hc _ _ s.secondElapsed_calm h
  | cellCooled => exact hc _ _ s.cellCooled_calm h
  | extStale g => exact hc _ _ (s.extStale_calm g) h
  | tapClosed n => exact hc _ _ (s.tapClosed_calm n) h
  | attachExpired => exact hc _ _ s.attachExpired_calm h
  | tapReleased n => exact hc _ _ (s.tapReleased_calm n) h
  | detachExpired => exact hc _ _ s.detachExpired_calm h
  | releaseExpired => exact hc _ _ s.releaseExpired_calm h
  | monitorReads w => exact hc _ _ (s.monitorReads_calm w) h
  | quenchExpired => exact hc _ _ s.quenchExpired_calm h
  | restEnded => exact hc _ _ s.restEnded_calm h
  | contactMoved n position => exact hc _ _ (s.contactMoved_calm n position) h
  | contactExpired n => exact hc _ _ (s.contactExpired_calm n) h
  | isolatorReads feedback => exact hc _ _ (s.isolatorReads_calm feedback) h
  | isolatorExpired => exact hc _ _ s.isolatorExpired_calm h
  | settled => exact hc _ _ s.settled_calm h
  | reading vp vn => exact hc _ _ (s.reading_calm vp vn) h
  | released => exact hc _ _ s.released_calm h
  | lowTaken => exact hc _ _ s.lowTaken_calm h
  | highTaken => exact hc _ _ s.highTaken_calm h
  | longExpired => exact hc _ _ s.longExpired_calm h
  | openExpired => exact hc _ _ s.openExpired_calm h
  | lineChanges low => exact hc _ _ (s.setShutdown_calm _) h

end Sys2Proof.Machine
end

