-- ==== Sys2Proof/Proofs/Figures.lean ====
section
/-! SUPPORT. The effects that write figures, budgets or the configuration, and the invariants of the string table that
follow: one lockout record per string, the tables' sizes, the budgets and the live figures. -/

namespace Sys2Proof.Machine

/-! ## Records within their ranges -/

/-- A change that keeps the live figures in their ranges, and the budget within the larger of what it was and `m`. -/
def StringRec.Bounded (m : Nat) (r q : StringRec) : Prop := (FiguresOk r → FiguresOk q) ∧ q.budget ≤ max r.budget m

theorem StringRec.Bounded.refl (m : Nat) (r : StringRec) : r.Bounded m r := ⟨id, by omega⟩

theorem StringRec.Bounded.trans (m : Nat) (r q u : StringRec) (h : r.Bounded m q) (k : q.Bounded m u) : r.Bounded m u :=
  ⟨k.1 ∘ h.1, by have := h.2; have := k.2; omega⟩

theorem StringRec.Gentle.bounded (m : Nat) (r q : StringRec) (h : r.Gentle q) : r.Bounded m q := by
  refine ⟨fun f => ?_, by have := h.budget; omega⟩
  exact {
    current := by rw [h.current]; exact f.current
    offset := by rw [h.offset]; exact f.offset
    normalized := by rw [h.n]; exact f.normalized
    index := by rw [h.p]; exact f.index
    reverseRun := h.reverseRun.trans f.reverseRun
    overRun := h.overRun.trans f.overRun
    openRun := h.openRun.trans f.openRun
    bucket := h.bucket.trans f.bucket }

theorem FiguresOk.blank (c : StringSettings) (p : Contact) : FiguresOk (StringRec.blank c p) := by
  constructor <;> simp [StringRec.blank]

theorem clampInt_range (lo hi x : Int) (h : lo ≤ hi) : lo ≤ clampInt lo hi x ∧ clampInt lo hi x ≤ hi := by
  unfold clampInt; split <;> [skip; split] <;> omega

/-- R28, R30: a delivered figure lies in its range, and a capture writes an offset of -50 to 50 alone. -/
theorem StringRec.deliver_bounded (m : Nat) (r : StringRec) (c : Channel) (total : Nat) (capture : Bool) :
    r.Bounded m (r.deliver c total capture) := by
  refine ⟨fun f => { f with current := clampInt_range _ _ _ (by decide), offset := ?_ }, by
    simp [StringRec.deliver]⟩
  show -50 ≤ (if _ then _ else _) ∧ (if _ then _ else _) ≤ (50 : Int)
  split
  · next h =>
    simp only [captureOk, Bool.and_eq_true, decide_eq_true_eq] at h
    exact h.2.1
  · exact f.offset

/-- R41: a normalized current lies in its range. -/
theorem StringRec.normalize_bounded (m : Nat) (r : StringRec) : r.Bounded m r.normalize := by
  unfold StringRec.normalize
  split
  · exact ⟨fun f => { f with normalized := clampInt_range _ _ _ (by decide) }, le_max_left _ _⟩
  · exact .refl m r

/-- R47: an index is at most 4000. -/
theorem StringRec.index_le (r : StringRec) (fresh : Bool) (g : Option GroupRec) (p : Nat) (h : r.index fresh g = some p) :
    p ≤ 4000 := by
  unfold StringRec.index at h
  split at h
  · cases h
  · split at h
    · cases h
    · next ref _ =>
      split at h
      · have := clampInt_range 0 4000 (roundDiv (r.n * 1000) (ref : Int)) (by decide)
        have := Option.some.inj h
        omega
      · cases h

theorem runAfter_le (run limit : Nat) (b : Bool) : runAfter run limit b ≤ limit := by
  unfold runAfter; split <;> omega

theorem bucketAfter_le (bucket p deficit leak : Nat) (h : bucket ≤ 65535) : bucketAfter bucket p deficit leak ≤ 65535 := by
  unfold bucketAfter; split <;> omega

/-- R58, R62: the criteria stay in their ranges. -/
theorem StringRec.monitor_bounded (m : Nat) (r : StringRec) (mode : Mode) (box : BoxSettings) (night : Bool)
    (group : Option GroupRec) : r.Bounded m (r.monitor mode box night group).figures := by
  unfold StringRec.monitor
  split
  · refine ⟨fun f => ⟨f.current, f.offset, f.normalized, f.index, runAfter_le _ _ _, ?_, ?_, ?_⟩, le_max_left _ _⟩
    · show (if _ then _ else _) ≤ _
      split
      · exact f.overRun
      · exact runAfter_le _ _ _
    · show (if _ then _ else _) ≤ _
      split_ifs
      · exact runAfter_le _ _ _
      · exact f.openRun
    · unfold StringRec.judge
      dsimp only
      split
      · exact f.bucket
      · exact bucketAfter_le _ _ _ _ f.bucket
  · exact .refl m r

/-! ## A completion -/

/-- A change of the table entry by entry. -/
theorem Each.of_getNum {R : StringRec → StringRec → Prop} (hr : ∀ r, R r r) {s t : State}
    (hl : t.strings.length = s.strings.length)
    (h : ∀ n r, getNum s.strings n = some r → ∃ q, getNum t.strings n = some q ∧ R r q) : Each R s t := by
  refine ⟨hl, fun n => ?_⟩
  cases hx : getNum s.strings n with
  | some r =>
    obtain ⟨q, hq, hR⟩ := h n r hx
    simpa [State.str, hx, hq] using hR
  | none =>
    have hn : getNum t.strings n = none := by
      match n with
      | 0 => cases t.strings <;> rfl
      | n + 1 =>
        rw [getNum_eq] at hx ⊢
        exact List.getElem?_eq_none (by have := List.getElem?_eq_none_iff.1 hx; omega)
    simpa [State.str, hx, hn] using hr _

theorem Kept.of_strings {m : Nat} {s t : State} (h : Each (StringRec.Bounded m) s t) (hl : t.lockouts = s.lockouts)
    (hg : t.peer.groups.length = s.peer.groups.length) (hb : t.box = s.box) (hp : t.part.stage = s.part.stage) :
    Kept (StringRec.Bounded m) s t := ⟨h, by simp [LockoutsDistinct, hl], hg, hb, hp⟩

theorem Calm.bounded (m : Nat) {s t : State} (h : Calm s t) : Kept (StringRec.Bounded m) s t :=
  h.toKept.mono (StringRec.Gentle.bounded m)

theorem Kept.foldl {R : StringRec → StringRec → Prop} (hr : ∀ r, R r r) (ht : ∀ r q u, R r q → R q u → R r u) {α : Type}
    (f : State → α → State) (h : ∀ t x, Kept R t (f t x)) (l : List α) (s : State) : Kept R s (l.foldl f s) := by
  induction l generalizing s with
  | nil => exact ⟨.of_strings hr rfl, id, rfl, rfl, rfl⟩
  | cons x xs ih => exact (h s x).trans ht (ih (f s x))

theorem State.updStr_bounded (m : Nat) (s : State) (n : Nat) {f : StringRec → StringRec} (h : ∀ r : StringRec, r.Bounded m (f r)) :
    Kept (StringRec.Bounded m) s (s.updStr n f) :=
  .of_strings (.updStr (.refl m) s n (h _)) rfl rfl rfl rfl

theorem State.deliverRound_bounded (m : Nat) (s : State) (r : Round) :
    Kept (StringRec.Bounded m) s (s.deliverRound r) := by
  have channel (t : State) (c : Channel) : Kept (StringRec.Bounded m) t (t.deliverChannel r.total r.capture c) := by
    have h := t.updStr_bounded m c.string (f := fun q => q.deliver c r.total r.capture) fun q => q.deliver_bounded m _ _ _
    unfold State.deliverChannel
    simp only
    split
    · exact h.trans (.trans m) ((State.raise_calm _ _).bounded m)
    · exact h
  have temps (t : State) (x : List Int) : Kept (StringRec.Bounded m) t (t.deliverTemps x) := by
    have h (y : ScanUnit) := (t.setScan_kept y).mono (StringRec.Gentle.bounded m)
    unfold State.deliverTemps
    simp only
    split
    · exact (h _).trans (.trans m) ((State.raise_calm _ _).bounded m)
    · exact h _
  exact (((s.setScan_kept _).mono (StringRec.Gentle.bounded m)).trans (.trans m)
    (Kept.foldl (.refl m) (.trans m) _ channel _ _)).trans (.trans m) (temps _ _)

/-- What the comparison makes of one record. -/
theorem State.compare_getNum (s : State) (fresh : List Nat) (n : Nat) (r : StringRec) (h : getNum s.strings n = some r) :
    ∃ p, getNum (s.compare fresh).strings n = some (if r.cfg.used then { r.normalize with p := p } else r.normalize) ∧
      ∀ x, p = some x → x ≤ 4000 := by
  match n with
  | 0 => cases hs : s.strings <;> simp [hs, getNum] at h
  | n + 1 =>
    refine ⟨r.normalize.index (fresh.contains (1 + n)) (getNum (mapNum (fun g (q : GroupRec) =>
      q.refer g s.box.daylightFloor (mapNum (fun n r => (r, fresh.contains n)) 1 (s.strings.map (·.normalize)))) 1
        s.peer.groups) r.normalize.cfg.group), ?_, fun x hx => r.normalize.index_le _ _ x hx⟩
    · have hu : r.normalize.cfg = r.cfg := by unfold StringRec.normalize; split <;> rfl
      simp only [State.compare, State.setPeer_strings, State.setStrings_strings, getNum_map, getNum_mapNum, h,
        Option.map_some, hu]

theorem State.compare_bounded (m : Nat) (s : State) (fresh : List Nat) :
    Kept (StringRec.Bounded m) s (s.compare fresh) := by
  refine .of_strings (.of_getNum (.refl m) (by simp [State.compare]) fun n r hr => ?_) rfl (by simp [State.compare]) rfl rfl
  obtain ⟨p, hp, hx⟩ := s.compare_getNum fresh n r hr
  refine ⟨_, hp, ?_⟩
  split
  · exact .trans m _ _ _ (r.normalize_bounded m) ⟨fun f => { f with index := hx }, le_max_left _ _⟩
  · exact r.normalize_bounded m

theorem State.decideDay_bounded (s : State) : Kept (StringRec.Bounded s.box.perDayMax) s s.decideDay := by
  have groups (x : Comparator) (h : x.groups = s.peer.groups) : Calm s (s.setPeer x) := s.setPeer_calm x (by rw [h])
  have day : Kept (StringRec.Bounded s.box.perDayMax) s s.startDay := by
    have h := (groups { s.peer with night := false, dark := 0, day := s.peer.day + 1 } rfl).bounded s.box.perDayMax
    refine (h.trans (.trans _) (.of_strings (.updAll (.refl _) _ fun r => ?_) rfl rfl rfl rfl)).trans (.trans _)
      ((State.raise_calm _ _).bounded _)
    split
    · exact ⟨fun f => { f with }, le_max_right _ _⟩
    · exact .refl _ r
  have night : Calm s s.enterNight :=
    (((groups { s.peer with night := true, dark := 0 } rfl).trans (State.setScan_calm _ { s.scan with pendingCapture := true }
      fun _ => rfl)).trans (State.raise_calm _ _)).trans (State.abortKeeping_calm _)
  unfold State.decideDay
  repeat' split
  · exact (Calm.refl s).bounded _
  · exact day
  · exact night.bounded _
  · exact (groups _ (by rfl)).bounded _
  · exact (groups _ (by rfl)).bounded _

theorem State.clearWaiting_calm (s : State) : Calm s s.clearWaiting := s.setProbe_calm _

theorem State.abortUnlit_calm (s : State) : Calm s s.abortUnlit := by
  unfold State.abortUnlit
  repeat' split
  · exact .refl s
  · exact .refl s
  · exact s.abortKeeping_calm

theorem State.applyJudgements_bounded (m : Nat) (s : State) :
    Kept (StringRec.Bounded m) s (s.applyJudgements s.judgements) := by
  have figures : Kept (StringRec.Bounded m) s (s.setStrings (s.judgements.map (·.figures))) := by
    refine .of_strings (.of_getNum (.refl m) (by simp [State.judgements]) fun n r hr =>
      ⟨(r.monitor s.mode s.box s.peer.night (s.grp r.cfg.group)).figures, ?_, ?_⟩) rfl rfl rfl rfl
    · simp [State.judgements, getNum_map, hr]
    · exact r.monitor_bounded m _ _ _ _
  exact figures.trans (.trans m) ((Calm.foldl _ (fun t x => t.raise_calm _) _ _).bounded m)

theorem State.controllerEvent_calm (js : List Judgement) (s : State) (k : Nat) : Calm s (State.controllerEvent js s k) := by
  unfold State.controllerEvent State.makeRequest
  repeat' split
  · exact .refl s
  · exact s.request_calm _ _
  · exact s.discrepancy_calm _

/-- R70: the string controller's turn leaves every live figure. -/
theorem State.controllerTurn_calm (s : State) (js : List Judgement) : Calm s (s.controllerTurn js) :=
  ((s.updAll_calm fun r => r.suspectTest_gentle _).trans (Calm.foldl _ (State.controllerEvent_calm js) _ _)).trans
    (State.setFree_calm _ _)

/-- What follows the judgements of a completion leaves every live figure. -/
theorem State.afterJudgement_calm (s : State) (js : List Judgement) :
    Calm s (((s.controllerTurn js).isolatorCompared.walk).lookForWork) :=
  (((s.controllerTurn_calm js).trans (State.isolatorCompared_calm _)).trans (State.walk_walked _).calm).trans
    (State.lookForWork_calm _)

theorem State.newPeriod_kept (s b : State) : Kept StringRec.Gentle s (s.newPeriod b) := by
  unfold State.newPeriod
  split
  · exact (Calm.refl s).toKept
  · exact s.recheckSource_kept

/-- R22: a completion keeps every record in its ranges. -/
theorem State.completeRound_bounded (s : State) (r : Round) :
    Kept (StringRec.Bounded s.box.perDayMax) s (s.completeRound r) := by
  have h := (s.deliverRound_bounded s.box.perDayMax r).trans (.trans _)
    (State.compare_bounded s.box.perDayMax _ (r.channels.map (·.string)))
  have hd := State.decideDay_bounded ((s.deliverRound r).compare (r.channels.map (·.string)))
  rw [h.box] at hd
  have hp := ((h.trans (.trans _) hd).trans (.trans _)
    ((State.newPeriod_kept _ s).mono (StringRec.Gentle.bounded s.box.perDayMax))).trans (.trans _)
      (((State.clearWaiting_calm _).trans (State.abortUnlit_calm _)).bounded _)
  exact (hp.trans (.trans _) (State.applyJudgements_bounded _ _)).trans (.trans _) ((State.afterJudgement_calm _ _).bounded _)

theorem State.takeSet_bounded (s : State) (set : SampleSet) :
    Kept (StringRec.Bounded s.box.perDayMax) s (s.takeSet set) := by
  unfold State.takeSet
  split
  · exact (Calm.refl s).bounded _
  · simp only
    split
    · exact ((s.reach_calm _).bounded _).trans (.trans _) ((State.setScan_kept _ _).mono (StringRec.Gentle.bounded _))
    · exact ((s.reach_calm _).bounded _).trans (.trans _) (State.completeRound_bounded (s.reach _) _)

/-! ## Configuration messages -/

theorem State.dropChannel_calm (s : State) (n : Nat) (h : s.part.stage = .running) : Calm s (s.dropChannel n) :=
  s.setScan_calm _ fun hs => absurd h hs

theorem State.recount_calm (s : State) : Calm s s.recount := s.setPeer_calm _ (by simp)

theorem State.configureString_bounded (s : State) (n : Nat) (c : StringSettings) (hr : s.part.stage = .running) :
    Kept (StringRec.Bounded s.box.perDayMax) s (s.configureString n c) := by
  have unused : Kept (StringRec.Bounded s.box.perDayMax) s (s.makeUnused n c) := by
    refine (((s.withdraw_calm n).bounded _).trans (.trans _) (State.updStr_bounded _ _ n fun r => ?_)).trans (.trans _)
      ((State.dropChannel_calm _ n ?_).bounded _)
    · exact ⟨fun _ => { FiguresOk.blank c r.position with }, Nat.zero_le _⟩
    · exact (s.withdraw_calm n).stage.trans hr
  have used : Kept (StringRec.Bounded s.box.perDayMax) s (s.makeUsed n c) := by
    have h := s.updStr_bounded s.box.perDayMax n (f := fun r => { r with
      cfg := c, budget := s.box.perDayMax, tapFault := false, cause := none
      state := match r.position with | .closed => .connected | .opened => .isolated })
        fun r => ⟨fun f => { f with }, le_max_right _ _⟩
    unfold State.makeUsed
    simp only
    split
    · exact h.trans (.trans _) (((State.connect_calm _ n).trans (State.shutdownCatch_calm _ n)).bounded _)
    · exact h
  have kept : Kept (StringRec.Bounded s.box.perDayMax) s (s.keepUsed n c) := by
    have h := s.updStr_bounded s.box.perDayMax n (f := fun r =>
      let q := { r.enterRun with cfg := c, tapFault := false }
      if (s.str n).cfg.input != c.input then { q with offset := 0, sensorFault := false } else q) fun r => by
        have hg := r.enterRun_gentle.bounded s.box.perDayMax
        extract_lets q
        split
        · exact ⟨fun f => { hg.1 f with offset := by simp }, hg.2⟩
        · exact ⟨fun f => { hg.1 f with }, hg.2⟩
    unfold State.keepUsed
    extract_lets moved t
    split
    · exact h.trans (.trans _) ((State.dropChannel_calm _ n (by exact hr)).bounded _)
    · exact h
  have idle : Kept (StringRec.Bounded s.box.perDayMax) s (s.keepUnused n c) :=
    s.updStr_bounded _ n fun r => ⟨fun f => { f with }, le_max_left _ _⟩
  unfold State.configureString
  refine Kept.trans (.trans _) ?_ (((State.recount_calm _).trans (State.setStore_calm _ _)).bounded _)
  split
  · exact unused
  · exact used
  · exact kept
  · exact idle

/-- R181: an accepted BOX_CONFIG takes the settings, lowers the budgets, and is calm before and after that. -/
theorem State.configureBox_calm (s : State) (b : BoxSettings) (hr : s.part.stage = .running) :
    ∃ u, Calm (s.setBox b) u ∧ Calm u.capBudgets (s.configureBox b) := by
  have source : Calm (s.setBox b) (s.newSource b) := by
    have h : Calm (s.setBox b) ((s.setBox b).takeSource s.box.source) := by
      unfold State.takeSource
      split
      · exact State.setScan_calm _ _ fun _ => rfl
      · exact State.setScan_calm _ _ fun _ => rfl
      · exact .refl _
      · exact .refl _
    unfold State.newSource
    simp only
    split
    · exact h
    · exact h.trans ((State.recheckSource_kept _).calm (h.stage.trans hr))
  have heat (t : State) : Calm t t.testHeat := by
    unfold State.testHeat
    split
    · exact t.cellCooled_calm
    · exact .ite (fun _ => t.cellHot_walked.calm) fun _ => .refl t
    all_goals exact .refl t
  exact ⟨_, source, (((heat _).trans (State.recheckWindows_calm _ _)).trans (State.walk_walked _).calm).trans
    (State.setStore_calm _ _)⟩

theorem State.capBudgets_each (s : State) :
    Each (fun r q => (FiguresOk r → FiguresOk q) ∧ q.budget ≤ r.budget ∧ q.budget ≤ s.box.perDayMax) s s.capBudgets := by
  refine ⟨by simp [State.capBudgets, State.updAll], fun n => ?_⟩
  cases hx : getNum s.strings n with
  | none => simp [State.str, State.capBudgets, State.updAll, getNum_map, hx, StringRec.blank]
  | some r =>
    simp only [State.str, State.capBudgets, State.updAll, getNum_map, hx, State.setStrings_strings, Option.map_some,
      Option.getD_some]
    exact ⟨fun f => { f with }, by omega, by omega⟩

/-! ## Resets and the load -/

theorem mem_zipWith_blank {cs : List StringSettings} {ps : List Contact} {r : StringRec}
    (h : r ∈ List.zipWith StringRec.blank cs ps) : ∃ c p, r = StringRec.blank c p := by
  rw [List.mem_iff_getElem] at h
  obtain ⟨i, hi, rfl⟩ := h
  exact ⟨_, _, List.getElem_zipWith⟩

/-- R1, R150: after a drop stage every record is a blank one. -/
theorem State.drop_blank (s : State) (kind : ResetKind) : ∀ r ∈ (s.drop kind).strings, ∃ c p, r = StringRec.blank c p :=
  fun _ h => mem_zipWith_blank h

theorem State.drop_sizes (s : State) (kind : ResetKind) (h : s.strings.length = 24) : TableSizes (s.drop kind) := by
  simp [TableSizes, State.drop, State.dropped, h, Config.stringNumbers]

/-- The configuration that the load takes (R184, R185). -/
def State.loadedSettings (s : State) (answers : Bool) : Settings :=
  match s.loaded answers with
  | some i => i.settings
  | none => Config.settings

/-- R184: an image that the load takes has passed the tests. -/
theorem State.loaded_valid {s : State} {answers : Bool} {i : Image} (h : s.loaded answers = some i) :
    imageValid i = true := by
  unfold State.loaded at h
  split at h
  · exact (Option.filter_eq_some_iff.1 h).2
  · cases h

theorem imageValid_lengths {i : Image} (h : imageValid i = true) :
    i.settings.strings.length = 24 ∧ i.settings.groups.length = 6 := by
  simp only [imageValid, Bool.and_eq_true, beq_iff_eq] at h
  obtain ⟨⟨⟨⟨⟨⟨⟨-, hg⟩, -⟩, hs⟩, -⟩, -⟩, -⟩, -⟩ := h
  exact ⟨hs, hg⟩

theorem imageValid_lockouts {i : Image} (h : imageValid i = true) : (i.lockouts.map (·.string)).Nodup := by
  simp only [imageValid, Bool.and_eq_true, decide_eq_true_eq] at h
  exact h.1.2

theorem State.loadedSettings_lengths (s : State) (answers : Bool) :
    (s.loadedSettings answers).strings.length = 24 ∧ (s.loadedSettings answers).groups.length = 6 := by
  unfold State.loadedSettings
  split
  · next h => exact imageValid_lengths (State.loaded_valid h)
  · decide

/-- R184, R185: what the load leaves of the tables, the lockout set and the settings. -/
theorem State.load_tables (s : State) (answers : Bool) :
    (s.load answers).strings =
        List.zipWith (fun r x => { r with cfg := x }) s.strings (s.loadedSettings answers).strings ∧
      (s.load answers).peer.groups.length = min s.peer.groups.length (s.loadedSettings answers).groups.length ∧
      LockoutsDistinct (s.load answers) := by
  have groups (c : Settings) : (s.takeSettings c).peer.groups.length = min s.peer.groups.length c.groups.length := by
    simp [State.takeSettings, State.recount]
  unfold State.load State.loadedSettings
  cases h : s.loaded answers with
  | some i =>
    exact ⟨rfl, groups _, (imageValid_lockouts (State.loaded_valid h)).sublist (List.filter_sublist.map _)⟩
  | none =>
    refine ⟨by simp only [State.raiseBox_eq, State.raise_strings]; rfl, ?_, ?_⟩
    · rw [State.raiseBox_eq, State.raise_peer]; exact groups _
    · simp [LockoutsDistinct]

/-! ## Reconciliation -/

theorem State.cellCheck_calm (s : State) : Calm s s.cellCheck :=
  .ite (fun _ => (s.cellFaulted_calm _ _).trans (State.openRequest_walked _).calm) fun _ => .refl s

theorem State.lineCheck_calm (s : State) : Calm s s.lineCheck :=
  .ite (fun _ => s.openRequest_walked.calm.trans (State.raise_calm _ _)) fun _ => .refl s

theorem State.placeString_bounded (s : State) (n : Nat) :
    Kept (StringRec.Bounded s.box.perDayMax) s (s.placeString n) := by
  have budget := s.updStr_bounded s.box.perDayMax n (f := fun r => { r with budget := s.box.perDayMax })
    fun r => ⟨fun f => { f with }, le_max_right _ _⟩
  have after {t : State} (h : Calm (s.updStr n fun r => { r with budget := s.box.perDayMax }) t) :
      Kept (StringRec.Bounded s.box.perDayMax) s t := budget.trans (.trans _) (h.bounded _)
  unfold State.placeString
  split
  · exact (Calm.refl s).bounded _
  · simp only
    split
    · exact after ((State.connect_calm _ n).trans (State.shutdownCatch_calm _ n))
    · exact after (State.queueString_calm _ n _)
    · exact after (State.updStr_calm _ n (.of_figures rfl))
    · exact after (((State.updStr_calm _ n (.of_figures rfl)).trans (State.openRecord_calm _ n _ _)).trans
        (State.place_calm _ _ _ _))

theorem State.reconcile_bounded (s : State) : Kept (StringRec.Bounded s.box.perDayMax) s s.reconcile := by
  have all (l : List Nat) (t : State) : Kept (StringRec.Bounded t.box.perDayMax) t (l.foldl State.placeString t) := by
    induction l generalizing t with
    | nil => exact (Calm.refl t).bounded _
    | cons n ns ih =>
      have h := t.placeString_bounded n
      have k := ih (t.placeString n)
      rw [h.box] at k
      exact h.trans (.trans _) k
  exact all _ s

/-- R150: the load's end, from the loaded configuration to the part that runs. -/
theorem State.loadEnded_bounded (s : State) (answers : Bool) (hs : s.part.stage = .load) :
    ∃ u, Kept (StringRec.Bounded (s.load answers).box.perDayMax) (s.load answers) u ∧ s.loadEnded answers = u.begin := by
  refine ⟨(s.load answers).cellCheck.lineCheck.reconcile.firstRound, ?_, by simp [State.loadEnded, hs]⟩
  have h := (s.load answers).cellCheck_calm.trans (State.lineCheck_calm _)
  have k := State.reconcile_bounded (s.load answers).cellCheck.lineCheck
  rw [h.box] at k
  exact ((h.bounded _).trans (.trans _) k).trans (.trans _)
    (((State.setScan_kept _ _).trans StringRec.Gentle.trans (State.startRound_kept _)).mono (StringRec.Gentle.bounded _))

/-! ## One lockout record per string -/

/-- Settles O15: only an addition for a string without a record, a removal and the load write the lockout set. -/
theorem lockoutSetKeepsOneRecordPerString : Obligations.LockoutSetKeepsOneRecordPerString := by
  unfold Obligations.LockoutSetKeepsOneRecordPerString
  refine StepKeeps.of_calm (fun _ _ h => h) (fun _ _ hc h => hc.lockouts h)
    (fun s n c hr _ h => (s.configureString_bounded n c hr).lockouts h) (fun s b hr h => ?_)
    (fun s kind _ => List.nodup_nil) (fun s h => ?_) (fun s answers h => ?_) (fun s set h => (s.takeSet_bounded set).lockouts h)
  · obtain ⟨u, hu, hb⟩ := s.configureBox_calm b hr
    exact hb.lockouts (hu.lockouts h)
  · unfold State.supplyLost
    split
    · exact List.nodup_nil
    · exact h
  · by_cases hs : s.part.stage = .load
    · obtain ⟨u, hu, he⟩ := s.loadEnded_bounded answers hs
      rw [he]
      exact hu.lockouts (s.load_tables answers).2.2
    · simpa [State.loadEnded, hs] using h

/-! ## The tables' sizes -/

theorem Kept.sizes {R : StringRec → StringRec → Prop} {s t : State} (h : Kept R s t) (hs : TableSizes s) :
    TableSizes t := ⟨h.strings.1.trans hs.1, h.groups.trans hs.2⟩

/-- Settles O16: no operation adds or removes an entry, and the load takes an image of these sizes alone. -/
theorem tablesKeepTheirSizes : Obligations.TablesKeepTheirSizes := by
  unfold Obligations.TablesKeepTheirSizes
  refine StepKeeps.of_calm (fun _ _ h => h) (fun _ _ hc h => hc.sizes h)
    (fun s n c hr _ h => (s.configureString_bounded n c hr).sizes h) (fun s b hr h => ?_)
    (fun s kind h => s.drop_sizes kind h.1) (fun s h => ?_) (fun s answers h => ?_) (fun s set h => (s.takeSet_bounded set).sizes h)
  · obtain ⟨u, hu, hb⟩ := s.configureBox_calm b hr
    have hu' : TableSizes u := hu.sizes h
    exact hb.sizes ⟨by simpa [State.capBudgets, State.updAll] using hu'.1, hu'.2⟩
  · unfold State.supplyLost
    split
    · exact s.drop_sizes s.part.cause h.1
    · exact h
  · by_cases hs : s.part.stage = .load
    · obtain ⟨u, hu, he⟩ := s.loadEnded_bounded answers hs
      rw [he]
      obtain ⟨hstr, hgrp, -⟩ := s.load_tables answers
      obtain ⟨h24, h6⟩ := s.loadedSettings_lengths answers
      exact hu.sizes ⟨by simp [hstr, h.1, h24], by rw [hgrp, h.2, h6, min_self]⟩
    · simpa [State.loadEnded, hs] using h

/-! ## The live figures -/

theorem FiguresBounded.iff_str (s : State) : FiguresBounded s ↔ ∀ n, FiguresOk (s.str n) :=
  s.forall_str FiguresOk.blank

theorem Kept.figures {m : Nat} {s t : State} (h : Kept (StringRec.Bounded m) s t) (hs : FiguresBounded s) :
    FiguresBounded t :=
  (FiguresBounded.iff_str t).2 fun n => (h.strings.2 n).1 ((FiguresBounded.iff_str s).1 hs n)

theorem State.drop_figures (s : State) (kind : ResetKind) : FiguresBounded (s.drop kind) := by
  intro r hr
  obtain ⟨c, p, rfl⟩ := s.drop_blank kind r hr
  exact .blank c p

/-- A record of the loaded table is one of the table before, with a configuration. -/
theorem State.mem_load {s : State} {answers : Bool} {q : StringRec} (h : q ∈ (s.load answers).strings) :
    ∃ r ∈ s.strings, ∃ c, q = { r with cfg := c } := by
  rw [(s.load_tables answers).1, List.mem_iff_getElem] at h
  obtain ⟨i, hi, rfl⟩ := h
  exact ⟨_, List.getElem_mem _, _, List.getElem_zipWith⟩

/-- Settles O18: every write of a figure clamps it, and the criteria are counted up to their limits. -/
theorem liveFiguresStayInTheirRanges : Obligations.LiveFiguresStayInTheirRanges := by
  unfold Obligations.LiveFiguresStayInTheirRanges
  refine StepKeeps.of_calm (fun _ _ h => h) (fun _ _ hc h => (hc.bounded 0).figures h)
    (fun s n c hr _ h => (s.configureString_bounded n c hr).figures h) (fun s b hr h => ?_)
    (fun s kind _ => s.drop_figures kind) (fun s h => ?_) (fun s answers h => ?_)
    (fun s set h => (s.takeSet_bounded set).figures h)
  · obtain ⟨u, hu, hb⟩ := s.configureBox_calm b hr
    have hu' : FiguresBounded u := (hu.bounded 0).figures h
    refine (hb.bounded 0).figures ((FiguresBounded.iff_str _).2 fun n => ?_)
    exact (u.capBudgets_each.2 n).1 ((FiguresBounded.iff_str u).1 hu' n)
  · unfold State.supplyLost
    split
    · exact s.drop_figures s.part.cause
    · exact h
  · by_cases hs : s.part.stage = .load
    · obtain ⟨u, hu, he⟩ := s.loadEnded_bounded answers hs
      rw [he]
      refine hu.figures fun q hq => ?_
      obtain ⟨r, hr, c, rfl⟩ := State.mem_load hq
      exact { h r hr with }
    · simpa [State.loadEnded, hs] using h

/-! ## The budgets -/

/-- Before the load has ended no round is in progress and every budget is 0. -/
def BudgetsIdle (s : State) : Prop := s.part.stage ≠ .running → s.scan.round = none ∧ ∀ r ∈ s.strings, r.budget = 0

theorem State.forall_budget (s : State) (m : Nat) : (∀ r ∈ s.strings, r.budget ≤ m) ↔ ∀ n, (s.str n).budget ≤ m :=
  s.forall_str fun _ _ => Nat.zero_le _

/-- Budgets lowered or left, with the maximum they are bounded by. -/
theorem Kept.budgets {m : Nat} {s t : State} (h : Kept (StringRec.Bounded m) s t)
    (hs : ∀ r ∈ s.strings, r.budget ≤ m) : ∀ r ∈ t.strings, r.budget ≤ m :=
  (t.forall_budget m).2 fun n => (h.strings.2 n).2.trans (max_le ((s.forall_budget m).1 hs n) le_rfl)

theorem Calm.budgetsIdle {s t : State} (h : Calm s t) (hs : BudgetsIdle s) : BudgetsIdle t := by
  intro ht
  rw [h.stage] at ht
  obtain ⟨hr, hb⟩ := hs ht
  refine ⟨(h.round ht).trans hr, fun q hq => ?_⟩
  have := (h.bounded 0).budgets (fun r hr => (hb r hr).le) q hq
  omega

theorem BudgetsBounded.of_running {t : State} (hr : t.part.stage = .running)
    (h : ∀ r ∈ t.strings, r.budget ≤ t.box.perDayMax) : BudgetsBounded t := ⟨h, fun hs => absurd hr hs⟩

theorem State.drop_budgets (s : State) (kind : ResetKind) : ∀ r ∈ (s.drop kind).strings, r.budget = 0 := by
  intro r hr
  obtain ⟨c, p, rfl⟩ := s.drop_blank kind r hr
  rfl

/-- Settles O17: a budget is written with the maximum in force, lowered, or capped by a new maximum; in a part that does not
run yet every budget is 0. -/
theorem budgetsStayWithinThePerDayMaximum : Obligations.BudgetsStayWithinThePerDayMaximum := by
  unfold Obligations.BudgetsStayWithinThePerDayMaximum
  refine StepKeeps.of_calm (fun _ _ h => h) (fun s t hc h => ⟨?_, hc.budgetsIdle h.2⟩)
    (fun s n c hr _ h => ?_) (fun s b hr h => ?_) (fun s kind _ => ?_) (fun s h => ?_) (fun s answers h => ?_)
    (fun s set h => ?_)
  · rw [hc.box]
    exact (hc.bounded _).budgets h.1
  · have hk := s.configureString_bounded n c hr
    exact .of_running (hk.stage.trans hr) (by rw [hk.box]; exact hk.budgets h.1)
  · obtain ⟨u, hu, hb⟩ := s.configureBox_calm b hr
    have hc : ∀ r ∈ u.capBudgets.strings, r.budget ≤ u.box.perDayMax :=
      (State.forall_budget _ _).2 fun n => (u.capBudgets_each.2 n).2.2
    exact .of_running (hb.stage.trans (hu.stage.trans hr)) (by
      rw [hb.box]
      exact (hb.bounded _).budgets hc)
  · exact ⟨fun r hr => by rw [s.drop_budgets kind r hr]; exact Nat.zero_le _, fun _ => ⟨rfl, s.drop_budgets kind⟩⟩
  · unfold State.supplyLost
    split
    · exact ⟨fun r hr => by rw [s.drop_budgets s.part.cause r hr]; exact Nat.zero_le _, fun _ => ⟨rfl, s.drop_budgets s.part.cause⟩⟩
    · exact h
  · by_cases hs : s.part.stage = .load
    · obtain ⟨u, hu, he⟩ := s.loadEnded_bounded answers hs
      rw [he]
      refine .of_running rfl ?_
      show ∀ r ∈ u.strings, r.budget ≤ u.box.perDayMax
      rw [hu.box]
      refine hu.budgets fun q hq => ?_
      obtain ⟨r, hr, c, rfl⟩ := State.mem_load hq
      exact ((h.2 (by simp [hs])).2 r hr).le.trans (Nat.zero_le _)
    · simpa [State.loadEnded, hs] using h
  · by_cases hs : s.part.stage = .running
    · have hk := s.takeSet_bounded set
      exact .of_running (hk.stage.trans hs) (by rw [hk.box]; exact hk.budgets h.1)
    · have hr := (h.2 hs).1
      simpa [State.takeSet, hr] using h

end Sys2Proof.Machine
end

