-- ==== Sys2Proof/Proofs/Standing.lean ====
section
/-! SUPPORT. The standing of one string: what the string table, the queue, the breaks in flight, the cell, the probe unit and
the lockout set hold about it. The soundness of a state is a condition on each string's standing, and an operation changes the
standing of one string at a time; so each operation is followed by the standing it leaves. -/

namespace Sys2Proof.Machine

/-! ## Standings -/

/-- What the blocks hold about one string: its state, operation and use; its entries in the queue and its breaks in flight;
the purposes of its probe list entries; the probe in flight on it, by purpose, stage and held pass; the stage of the cell that
serves it in a break; and whether it holds a lockout record. -/
structure Standing where
  state : StringState
  op : Option ContactOp
  used : Bool
  waiting : Nat
  breaks : Nat
  entries : List Purpose
  flight : Option (Purpose × ProbeStage × Bool)
  serving : Option CellStage
  locked : Bool

/-- How many queue entries string `n` has. -/
def Scheduler.waiting (x : Scheduler) (n : Nat) : Nat := (x.queue.map (·.string)).count n

/-- How many breaks in flight string `n` has. -/
def Scheduler.breakCount (x : Scheduler) (n : Nat) : Nat := (x.breaks.map (·.entry.string)).count n

/-- The purposes of string `n`'s probe list entries. -/
def ProbeUnit.purposes (x : ProbeUnit) (n : Nat) : List Purpose := (x.list.filter fun e => e.string == n).map (·.purpose)

/-- A probe in flight by its purpose, its stage and whether it holds a pass. -/
def ProbeFlight.outline (f : ProbeFlight) : Purpose × ProbeStage × Bool := (f.purpose, f.stage, f.pass)

/-- The probe in flight on string `n`. -/
def ProbeUnit.flightOf (x : ProbeUnit) (n : Nat) : Option (Purpose × ProbeStage × Bool) :=
  (x.flight.filter fun f => f.string == n).map ProbeFlight.outline

/-- The cell's stage while it serves string `n` in a break. -/
def Cell.serving (c : Cell) (n : Nat) : Option CellStage :=
  if cellBreaking c.stage = true ∧ c.served = some n then some c.stage else none

/-- String `n`'s standing. -/
def State.standing (s : State) (n : Nat) : Standing :=
  ⟨(s.str n).state, (s.str n).op, (s.str n).cfg.used, s.sched.waiting n, s.sched.breakCount n, s.probe.purposes n,
    s.probe.flightOf n, s.cell.serving n, s.locked n⟩

/-- The states off the bus, or on the way off it, of a string with a lockout record (R17). -/
def lockedStates : List StringState := [.lockedOut, .queued, .breaking, .stuckClosed, .breakFailed]

/-- What is claimed of a state beyond the accord of its tables: which strings are known to be unused, all of them before the
start-up; that lockout records and LOCKED_OUT strings agree; and the strings whose lockout record is known to keep them off
the bus, all of them once reconciliation is over. -/
structure Claims where
  idle : Nat → Prop
  locks : Prop
  placed : Nat → Prop
  locks_of_placed : ∀ n, placed n → locks

/-- The probe in flight on a string fits its entries: a check before its RELEASE and a held pass have a PRE_CLOSE entry, and,
where it is claimed, any probe before its RELEASE has its entry. -/
structure FlightOk (c : Claims) (entries : List Purpose) (f : Purpose × ProbeStage × Bool) : Prop where
  check : f.1 = .preClose → f.2.1 ≠ .release → .preClose ∈ entries
  pass : f.2.2 = true → f.1 = .preClose ∧ .preClose ∈ entries
  inFlight : c.locks → f.2.1 ≠ .release → f.1 ∈ entries

/-- One string's standing is in accord. -/
structure Standing.Ok (c : Claims) (n : Nat) (x : Standing) : Prop where
  waiting : x.waiting = if x.state = .queued then 1 else 0
  breaks : x.breaks = if x.state = .breaking then 1 else 0
  opening : ∀ a b, x.op = some (.opening a b) → x.state = .breaking
  closing : ∀ o a b, x.op = some (.closing o a b) → x.state = .closing
  serving : ∀ stage, x.serving = some stage → x.state = .breaking ∧ (stage ≠ .conducting → x.op = none)
  single : x.entries.length ≤ 1
  listed : x.entries ≠ [] → x.state = .isolated ∨ x.state = .lockedOut
  flight : ∀ f, x.flight = some f → FlightOk c x.entries f
  configured : x.state ≠ .unused → x.used = true
  idle : c.idle n → x.state = .unused
  recorded : c.placed n → x.locked = true → x.state ∈ lockedStates
  lockedOut : c.locks → x.state = .lockedOut → x.locked = true
  closable : c.locks → .preClose ∈ x.entries → x.state = .isolated

/-- The state is in accord: 24 records, a break in the cell names its string, and every string's standing is in accord. -/
structure Accord (c : Claims) (s : State) : Prop where
  size : s.strings.length = 24
  served : cellBreaking s.cell.stage = true → s.cell.served ≠ none
  ok : ∀ n, (s.standing n).Ok c n

/-- The claims once string `n` has been placed. -/
def Claims.settle (c : Claims) (n : Nat) : Claims :=
  ⟨fun m => c.idle m ∧ m ≠ n, c.locks, fun m => c.placed m ∨ (c.locks ∧ m = n),
    fun m h => h.elim (c.locks_of_placed m) (·.1)⟩

/-! ## Changing one standing -/

section
variable {c : Claims} {n : Nat} {x : Standing}

theorem Standing.Ok.not_idle (h : x.Ok c n) (hx : x.state ≠ .unused) : ¬c.idle n := fun hi => hx (h.idle hi)

/-- A string that the probe list does not hold. -/
theorem Standing.Ok.unlisted (h : x.Ok c n) (h1 : x.state ≠ .isolated) (h2 : x.state ≠ .lockedOut) : x.entries = [] := by
  by_contra he
  rcases h.listed he with h | h
  · exact h1 h
  · exact h2 h

/-- A string in no contact operation has none in flight. -/
theorem Standing.Ok.no_op (h : x.Ok c n) (h1 : x.state ≠ .breaking) (h2 : x.state ≠ .closing) : x.op = none := by
  cases ho : x.op with
  | none => rfl
  | some o =>
    cases o with
    | opening a b => exact absurd (h.opening a b ho) h1
    | closing o a b => exact absurd (h.closing o a b ho) h2

theorem Standing.Ok.not_serving (h : x.Ok c n) (h1 : x.state ≠ .breaking) : x.serving = none := by
  cases hs : x.serving with
  | none => rfl
  | some stage => exact absurd (h.serving stage hs).1 h1

end

/-! ## Changing one string of a state -/

/-- The tables stay in accord when no string's standing changes. -/
theorem Accord.congr {c : Claims} {s t : State} (h : Accord c s) (hl : t.strings.length = s.strings.length)
    (hs : cellBreaking t.cell.stage = true → t.cell.served ≠ none) (ho : ∀ m, t.standing m = s.standing m) :
    Accord c t := ⟨hl.trans h.size, hs, fun m => by rw [ho m]; exact h.ok m⟩

/-- The claims say no more of a string than before, so its standing stays in accord. -/
theorem Standing.Ok.mono {c d : Claims} {n : Nat} {x : Standing} (h : x.Ok c n) (hi : d.idle n → c.idle n)
    (hk : d.locks → c.locks) (hp : d.placed n → c.placed n) : x.Ok d n where
  waiting := h.waiting
  breaks := h.breaks
  opening := h.opening
  closing := h.closing
  serving := h.serving
  single := h.single
  listed := h.listed
  configured := h.configured
  flight := fun f hf => ⟨(h.flight f hf).check, (h.flight f hf).pass, fun l => (h.flight f hf).inFlight (hk l)⟩
  idle := fun i => h.idle (hi i)
  recorded := fun p => h.recorded (hp p)
  lockedOut := fun l => h.lockedOut (hk l)
  closable := fun l => h.closable (hk l)

theorem Accord.mono {c d : Claims} {s : State} (h : Accord c s) (hi : ∀ n, d.idle n → c.idle n) (hk : d.locks → c.locks)
    (hp : ∀ n, d.placed n → c.placed n) : Accord d s :=
  ⟨h.size, h.served, fun n => (h.ok n).mono (hi n) hk (hp n)⟩

/-- A string in a state other than UNUSED is one of the table. -/
theorem Accord.number {c : Claims} {s : State} (h : Accord c s) {n : Nat} (hn : (s.str n).state ≠ .unused) :
    stringNumber n = true := by
  by_contra hc
  rw [stringNumber_iff] at hc
  exact hn (by rw [s.str_outside n (by have := h.size; omega)]; rfl)

theorem State.str_updStr_valid {s : State} {n : Nat} (f : StringRec → StringRec) (hl : s.strings.length = 24)
    (hn : stringNumber n = true) : (s.updStr n f).str n = f (s.str n) :=
  s.str_updStr_self f n hl ((stringNumber_iff n).1 hn).1 ((stringNumber_iff n).1 hn).2

/-! ### What each replacement leaves of the standings -/

@[simp] theorem State.setPart_standing (s : State) (x : Part) (n : Nat) : (s.setPart x).standing n = s.standing n := rfl
@[simp] theorem State.setMode_standing (s : State) (x : Mode) (n : Nat) : (s.setMode x).standing n = s.standing n := rfl
@[simp] theorem State.setLink_standing (s : State) (x : LinkPort) (n : Nat) : (s.setLink x).standing n = s.standing n := rfl
@[simp] theorem State.setScan_standing (s : State) (x : ScanUnit) (n : Nat) : (s.setScan x).standing n = s.standing n := rfl
@[simp] theorem State.setPeer_standing (s : State) (x : Comparator) (n : Nat) : (s.setPeer x).standing n = s.standing n := rfl
@[simp] theorem State.setIsolator_standing (s : State) (x : Isolator) (n : Nat) :
    (s.setIsolator x).standing n = s.standing n := rfl
@[simp] theorem State.setShutdown_standing (s : State) (x : ShutdownMonitor) (n : Nat) :
    (s.setShutdown x).standing n = s.standing n := rfl
@[simp] theorem State.setSupervision_standing (s : State) (x : Supervision) (n : Nat) :
    (s.setSupervision x).standing n = s.standing n := rfl
@[simp] theorem State.setAttention_standing (s : State) (x : List Item) (n : Nat) :
    (s.setAttention x).standing n = s.standing n := rfl
@[simp] theorem State.setStore_standing (s : State) (x : SettingsStore) (n : Nat) :
    (s.setStore x).standing n = s.standing n := rfl
@[simp] theorem State.setBox_standing (s : State) (x : BoxSettings) (n : Nat) : (s.setBox x).standing n = s.standing n := rfl
@[simp] theorem State.setFree_standing (s : State) (x : FreeChoices) (n : Nat) : (s.setFree x).standing n = s.standing n := rfl
@[simp] theorem State.setPending_standing (s : State) (x : List Instr) (n : Nat) :
    (s.setPending x).standing n = s.standing n := rfl
@[simp] theorem State.raise_standing (s : State) (i : Item) (n : Nat) : (s.raise i).standing n = s.standing n := by
  obtain ⟨x, hx⟩ := s.raise_exists i
  rw [hx]; rfl

/-- The cell's replacement changes the service alone. -/
theorem State.setCell_standing (s : State) (x : Cell) (n : Nat) :
    (s.setCell x).standing n = { s.standing n with serving := x.serving n } := rfl

/-- The queue and the breaks in flight replaced. -/
theorem State.setSched_standing (s : State) (x : Scheduler) (n : Nat) :
    (s.setSched x).standing n = { s.standing n with
      waiting := x.waiting n, breaks := x.breakCount n } := rfl

/-- The probe unit replaced. -/
theorem State.setProbe_standing (s : State) (x : ProbeUnit) (n : Nat) :
    (s.setProbe x).standing n = { s.standing n with entries := x.purposes n, flight := x.flightOf n } := rfl

theorem State.updStr_standing_ne (s : State) (n m : Nat) (f : StringRec → StringRec) (h : m ≠ n) :
    (s.updStr n f).standing m = s.standing m := by
  unfold State.standing
  rw [s.str_updStr_ne f n m h]
  rfl

theorem State.updStr_standing_self {s : State} {n : Nat} (f : StringRec → StringRec) (hl : s.strings.length = 24)
    (hn : stringNumber n = true) :
    (s.updStr n f).standing n = { s.standing n with
      state := (f (s.str n)).state, op := (f (s.str n)).op, used := (f (s.str n)).cfg.used } := by
  unfold State.standing
  rw [State.str_updStr_valid f hl hn]
  rfl

/-- A change of a record that leaves its state, operation and use changes no standing. -/
theorem State.updStr_standing_same (s : State) (n : Nat) {f : StringRec → StringRec}
    (h : (f (s.str n)).state = (s.str n).state ∧ (f (s.str n)).op = (s.str n).op ∧
      (f (s.str n)).cfg.used = (s.str n).cfg.used) (m : Nat) : (s.updStr n f).standing m = s.standing m := by
  rcases s.str_updStr n m f with hm | ⟨rfl, hm⟩
  · unfold State.standing; rw [hm]; rfl
  · unfold State.standing; rw [hm, h.1, h.2.1, h.2.2]; rfl

/-! ### Counts -/

theorem count_insertEntry (counter arrival : Word32) (e : QueueEntry) (q : List QueueEntry) (n : Nat) :
    ((insertEntry counter arrival e q).map (·.string)).count n =
      (q.map (·.string)).count n + if e.string = n then 1 else 0 := by
  induction q with
  | nil => simp [insertEntry, List.count_cons]
  | cons x xs ih =>
    rw [insertEntry]
    split
    · simp only [List.map_cons, List.count_cons, beq_iff_eq]
    · simp only [List.map_cons, List.count_cons, ih]; omega

/-- Without the entries of string `k` the others keep their count. -/
theorem count_filter_string {α : Type} (key : α → Nat) (l : List α) (k n : Nat) :
    ((l.filter fun e => key e != k).map key).count n = if n = k then 0 else (l.map key).count n := by
  induction l with
  | nil => simp
  | cons x xs ih =>
    rw [List.filter_cons]
    by_cases hx : key x = k <;> by_cases hn : n = k <;> simp_all [List.count_cons, Ne.symm]

theorem State.dequeue_standing (s : State) (k n : Nat) :
    (s.dequeue k).standing n = { s.standing n with waiting := if n = k then 0 else s.sched.waiting n } := by
  rw [State.dequeue, State.setSched_standing, Scheduler.waiting, count_filter_string QueueEntry.string]
  rfl

theorem State.enqueue_standing (s : State) (e : QueueEntry) (n : Nat) :
    (s.enqueue e).standing n =
      { s.standing n with waiting := s.sched.waiting n + if e.string = n then 1 else 0 } := by
  rw [State.enqueue, State.setSched_standing, Scheduler.waiting, count_insertEntry]
  rfl

theorem State.endBreak_standing (s : State) (k n : Nat) :
    (s.endBreak k).standing n = { s.standing n with breaks := if n = k then 0 else s.sched.breakCount n } := by
  rw [State.endBreak, State.setSched_standing, Scheduler.breakCount,
    count_filter_string (fun b : BreakFlight => b.entry.string)]
  rfl

/-- A break in flight added. -/
theorem State.addBreak_standing (s : State) (e : QueueEntry) (b : Bool) (n : Nat) :
    (s.setSched { s.sched with breaks := s.sched.breaks ++ [⟨e, b⟩] }).standing n =
      { s.standing n with breaks := s.sched.breakCount n + if e.string = n then 1 else 0 } := by
  rw [State.setSched_standing]
  simp only [Scheduler.breakCount, List.map_append, List.map_cons, List.map_nil, List.count_append, List.count_singleton,
    beq_iff_eq]
  rfl

/-- A queue entry of a state in accord names a QUEUED string, and each string once. -/
theorem Accord.queued {c : Claims} {s : State} (h : Accord c s) {e : QueueEntry} (he : e ∈ s.sched.queue) :
    (s.str e.string).state = .queued := by
  have hw := (h.ok e.string).waiting
  by_contra hs
  have hs' : (s.standing e.string).state ≠ .queued := hs
  rw [if_neg hs'] at hw
  exact List.count_eq_zero.1 hw (List.mem_map_of_mem he)

theorem Accord.queueDistinct {c : Claims} {s : State} (h : Accord c s) : (s.sched.queue.map (·.string)).Nodup :=
  List.nodup_iff_count_le_one.2 fun n => by
    have hw : s.sched.waiting n = _ := (h.ok n).waiting
    unfold Scheduler.waiting at hw
    rw [hw]
    split <;> omega

theorem Accord.breaking {c : Claims} {s : State} (h : Accord c s) {n : Nat} (hn : (s.str n).state = .breaking) :
    ∃ b, s.breakOf n = some b ∧ b.entry.string = n := by
  have hb : s.sched.breakCount n = _ := (h.ok n).breaks
  have hs : (s.standing n).state = .breaking := hn
  rw [if_pos hs] at hb
  unfold Scheduler.breakCount at hb
  have hm : n ∈ s.sched.breaks.map (·.entry.string) := List.count_pos_iff.1 (by omega)
  obtain ⟨b, hbm, rfl⟩ := List.mem_map.1 hm
  cases hf : s.breakOf b.entry.string with
  | none =>
    have := List.find?_eq_none.1 hf b hbm
    simp at this
  | some d => exact ⟨d, rfl, by simpa using List.find?_some hf⟩

end Sys2Proof.Machine
end

