-- ==== Sys2Proof/Proofs/AccordProbe.lean ====
section
/-! SUPPORT. The probe unit's operations keep the tables in accord. -/

namespace Sys2Proof.Machine

section
variable {c : Claims} {s : State}

/-! ## Entries and flights -/

theorem FlightOk.release (entries : List Purpose) (p : Purpose) : FlightOk c entries (p, .release, false) :=
  ⟨fun _ h => absurd rfl h, fun h => (Bool.false_ne_true h).elim, fun _ h => absurd rfl h⟩

theorem FlightOk.mono {entries more : List Purpose} {f : Purpose × ProbeStage × Bool} (h : FlightOk c entries f)
    (hm : ∀ p ∈ entries, p ∈ more) : FlightOk c more f :=
  ⟨fun a b => hm _ (h.check a b), fun a => ⟨(h.pass a).1, hm _ (h.pass a).2⟩, fun a b => hm _ (h.inFlight a b)⟩

theorem ProbeFlight.abort_outline (f : ProbeFlight) (now : Nat) : (f.abort now).outline = (f.purpose, .release, false) := by
  obtain ⟨h1, h2, -, h4⟩ := f.abort_stage now
  simp [ProbeFlight.outline, h1, h2, h4]

theorem ProbeUnit.flightOf_some {x : ProbeUnit} {n : Nat} {f : Purpose × ProbeStage × Bool} (h : x.flightOf n = some f) :
    ∃ g, x.flight = some g ∧ g.string = n ∧ g.outline = f := by
  unfold ProbeUnit.flightOf at h
  obtain ⟨g, hg, hf⟩ := Option.map_eq_some_iff.1 h
  obtain ⟨hx, hn⟩ := Option.filter_eq_some_iff.1 hg
  exact ⟨g, hx, by simpa using hn, hf⟩

theorem ProbeUnit.flightOf_self {x : ProbeUnit} {g : ProbeFlight} (h : x.flight = some g) :
    x.flightOf g.string = some g.outline := by
  simp [ProbeUnit.flightOf, h]

theorem ProbeUnit.mem_purposes {x : ProbeUnit} {n : Nat} {p : Purpose} :
    p ∈ x.purposes n ↔ ∃ e ∈ x.list, e.string = n ∧ e.purpose = p := by
  simp [ProbeUnit.purposes, and_assoc]

/-- The probe in flight of a state in accord fits the entries of its string. -/
theorem Accord.flightOk (h : Accord c s) {g : ProbeFlight} (hg : s.probe.flight = some g) :
    FlightOk c (s.probe.purposes g.string) g.outline :=
  (h.ok g.string).flight _ (ProbeUnit.flightOf_self hg)

/-- The probe unit is replaced: entries have only left the list, and the flight fits those that stay. -/
theorem Accord.setProbe (h : Accord c s) (x : ProbeUnit) (hp : ∀ n, (x.purposes n).Sublist (s.probe.purposes n))
    (hf : ∀ g, x.flight = some g → FlightOk c (x.purposes g.string) g.outline) : Accord c (s.setProbe x) where
  size := h.size
  served := h.served
  ok := fun n => by
    have k := h.ok n
    rw [State.setProbe_standing]
    exact { waiting := k.waiting, breaks := k.breaks, opening := k.opening, closing := k.closing, serving := k.serving
            configured := k.configured, idle := k.idle, recorded := k.recorded, lockedOut := k.lockedOut
            single := (hp n).length_le.trans k.single
            listed := fun hne => k.listed fun he => hne (by
              have := hp n
              rw [show s.probe.purposes n = [] from he] at this
              exact List.sublist_nil.1 this)
            flight := fun f hx => by
              obtain ⟨g, hg, rfl, rfl⟩ := ProbeUnit.flightOf_some hx
              exact hf g hg
            closable := fun hl hm => k.closable hl ((hp n).subset hm) }

theorem Accord.setFlight (h : Accord c s) (f : Option ProbeFlight)
    (hf : ∀ g, f = some g → FlightOk c (s.probe.purposes g.string) g.outline) : Accord c (s.setFlight f) :=
  h.setProbe _ (fun _ => List.Sublist.refl _) hf

/-- A map that keeps each entry's string and purpose keeps the purposes. -/
theorem purposes_map (x : ProbeUnit) (f : ProbeEntry → ProbeEntry) (flight : Option ProbeFlight)
    (h : ∀ e, (f e).string = e.string ∧ (f e).purpose = e.purpose) (n : Nat) :
    (ProbeUnit.mk (x.list.map f) flight).purposes n = x.purposes n := by
  have hs : (fun e : ProbeEntry => e.string == n) ∘ f = fun e => e.string == n := funext fun e => by simp [(h e).1]
  have hp : ProbeEntry.purpose ∘ f = ProbeEntry.purpose := funext fun e => (h e).2
  simp only [ProbeUnit.purposes, List.filter_map, List.map_map, hs, hp]

/-- Entries changed but for their string and purpose. -/
theorem Accord.mapEntries (h : Accord c s) (f : ProbeEntry → ProbeEntry)
    (hf : ∀ e, (f e).string = e.string ∧ (f e).purpose = e.purpose) :
    Accord c (s.setProbe { s.probe with list := s.probe.list.map f }) := by
  have hp (n : Nat) := purposes_map s.probe f s.probe.flight hf n
  exact h.setProbe _ (fun n => (hp n) ▸ List.Sublist.refl _) fun g hg => (hp g.string).symm ▸ h.flightOk hg

theorem purposes_filter (x : ProbeUnit) (p : ProbeEntry → Bool) (flight : Option ProbeFlight) (n : Nat) :
    ((ProbeUnit.mk (x.list.filter p) flight).purposes n).Sublist (x.purposes n) :=
  (List.filter_sublist.filter _).map _

/-- The entries of another string stay when string `k`'s leave. -/
theorem purposes_filter_ne (x : ProbeUnit) (flight : Option ProbeFlight) {k n : Nat} (h : n ≠ k) :
    (ProbeUnit.mk (x.list.filter fun e => e.string != k) flight).purposes n = x.purposes n := by
  simp only [ProbeUnit.purposes, List.filter_filter]
  congr 1
  refine List.filter_congr fun e _ => ?_
  by_cases he : e.string = n <;> simp [he, h]

theorem purposes_filter_self (x : ProbeUnit) (flight : Option ProbeFlight) (k : Nat) :
    (ProbeUnit.mk (x.list.filter fun e => e.string != k) flight).purposes k = [] := by
  simp only [ProbeUnit.purposes, List.filter_filter, List.map_eq_nil_iff, List.filter_eq_nil_iff]
  simp

theorem purposes_nil_of_not_holds (h : s.holdsEntry n = false) : s.probe.purposes n = [] := by
  by_contra hc
  obtain ⟨p, hp⟩ := List.exists_mem_of_ne_nil _ hc
  obtain ⟨e, he, hn, -⟩ := ProbeUnit.mem_purposes.1 hp
  have := (s.holdsEntry_iff n).2 ⟨e, he, hn⟩
  simp [h] at this

/-! ## The look for work and placements -/

theorem Accord.lookForWork (h : Accord c s) : Accord c s.lookForWork := by
  rcases s.lookForWork_cases with ⟨hs, -⟩ | ⟨e, -, he, hs⟩ <;> rw [hs]
  · exact h
  · refine h.setFlight _ fun g hg => ?_
    cases hg
    have hm : e.purpose ∈ s.probe.purposes e.string :=
      ProbeUnit.mem_purposes.2 ⟨e, List.mem_of_find?_eq_some he, rfl, rfl⟩
    exact ⟨fun hp _ => by rw [← show e.purpose = .preClose from hp]; exact hm,
      fun hp => (Bool.false_ne_true hp).elim, fun _ _ => hm⟩

/-- R112: an entry is placed for an ISOLATED or LOCKED_OUT string that holds none. -/
theorem Accord.enlist (h : Accord c s) {n : Nat} (p : Purpose) (o : Origin) (he : s.probe.purposes n = [])
    (hs : (s.str n).state = .isolated ∨ (s.str n).state = .lockedOut)
    (hc : c.locks → p = .preClose → (s.str n).state = .isolated) : Accord c (s.enlist n p o) := by
  have list (m : Nat) : (s.enlist n p o).probe.purposes m = s.probe.purposes m ++ if m = n then [p] else [] := by
    by_cases hm : m = n
    · simp [State.enlist, ProbeUnit.purposes, hm]
    · simp [State.enlist, ProbeUnit.purposes, hm, Ne.symm hm]
  refine ⟨h.size, h.served, fun m => ?_⟩
  have k := h.ok m
  have hst : (s.enlist n p o).standing m = { s.standing m with entries := s.probe.purposes m ++ if m = n then [p] else [] } := by
    rw [← list m]; rfl
  have flight : ∀ f, (s.standing m).flight = some f →
      FlightOk c (s.probe.purposes m ++ if m = n then [p] else []) f :=
    fun f hf => (k.flight f hf).mono fun q hq => List.mem_append_left _ hq
  rw [hst]
  by_cases hm : m = n
  · subst hm
    exact { k with
      single := by simp [he]
      listed := fun _ => hs
      flight := flight
      closable := fun hl hp => hc hl (by simpa [he, eq_comm] using hp) }
  · simp only [if_neg hm, List.append_nil] at flight ⊢
    exact { k with flight := flight }

theorem Accord.place (h : Accord c s) {n : Nat} (p : Purpose) (o : Origin)
    (hs : (s.str n).state = .isolated ∨ (s.str n).state = .lockedOut)
    (hc : c.locks → p = .preClose → (s.str n).state = .isolated) : Accord c (s.place n p o) := by
  unfold State.place
  split
  · exact h
  · next hn => exact (h.enlist p o (purposes_nil_of_not_holds (by simpa using hn)) hs hc).lookForWork

/-! ## Withdrawals and aborts -/

theorem Accord.abortProbe (h : Accord c s) : Accord c s.abortProbe := by
  refine h.setProbe _ (fun _ => List.Sublist.refl _) fun g hg => ?_
  obtain ⟨f, -, rfl⟩ := Option.map_eq_some_iff.1 hg
  rw [ProbeFlight.abort_outline]
  exact .release _ _

/-- Entries leave the list and the probe in flight, if its entry has left, is aborted. -/
theorem Accord.filterAbort (h : Accord c s) (p : ProbeEntry → Bool) (now : Nat) :
    Accord c (s.setProbe ⟨s.probe.list.filter p, s.probe.flight.map fun f => f.abort now⟩) := by
  refine h.setProbe _ (purposes_filter s.probe p _) fun g hg => ?_
  obtain ⟨f, -, rfl⟩ := Option.map_eq_some_iff.1 hg
  rw [ProbeFlight.abort_outline]
  exact .release _ _

theorem Accord.withdraw (h : Accord c s) (n : Nat) : Accord c (s.withdraw n) := by
  unfold State.withdraw
  split
  · simp only
    split
    · exact h.filterAbort (fun e => e.string != n) s.part.now
    · next hp =>
      refine h.setProbe _ (purposes_filter s.probe _ _) fun g hg => ?_
      have hg' : s.probe.flight = some g := hg
      have hn : g.string ≠ n := fun hn => hp (by simp [State.probing, hg', hn])
      rw [purposes_filter_ne _ _ hn]
      exact h.flightOk hg'
  · exact h

/-- R113: a string whose entry is withdrawn holds none. -/
theorem State.withdraw_purposes (s : State) (n : Nat) : (s.withdraw n).probe.purposes n = [] := by
  have : (s.withdraw n).probe = ⟨s.probe.list.filter (fun e => e.string != n), (s.withdraw n).probe.flight⟩ := by
    rw [← s.withdraw_list n]
  rw [this]
  exact purposes_filter_self _ _ n

theorem Accord.withdrawPreClose (h : Accord c s) (n : Nat) : Accord c (s.withdrawPreClose n) := by
  unfold State.withdrawPreClose
  repeat' split
  · exact h.withdraw n
  · exact h
  · exact h

theorem Accord.withdrawAllPreClose (h : Accord c s) : Accord c s.withdrawAllPreClose := by
  unfold State.withdrawAllPreClose
  split
  · next f hf =>
    simp only
    split
    · exact h.filterAbort (fun e => e.purpose != .preClose) s.part.now
    · next hp =>
      refine h.setProbe _ (purposes_filter s.probe _ _) fun g hg => ?_
      obtain rfl : f = g := Option.some.inj (hf.symm.trans hg)
      have k := h.flightOk hf
      have stays : f.purpose ∈ s.probe.purposes f.string →
          f.purpose ∈ (ProbeUnit.mk (s.probe.list.filter fun e => e.purpose != .preClose) s.probe.flight).purposes f.string := by
        simp only [ProbeUnit.mem_purposes, List.mem_filter]
        exact fun ⟨e, he, hn, hq⟩ => ⟨e, ⟨he, by simpa [hq] using hp⟩, hn, hq⟩
      exact ⟨fun hq => absurd hq hp, fun hq => absurd (k.pass hq).1 hp, fun hl hr => stays (k.inFlight hl hr)⟩
  · next hf =>
    exact h.setProbe _ (purposes_filter s.probe _ _) fun g hg => by cases (hf.symm.trans hg)

theorem Accord.abortKeeping (h : Accord c s) : Accord c s.abortKeeping := by
  unfold State.abortKeeping
  split
  · exact h
  · next f hf =>
    refine Accord.abortProbe (h.mapEntries _ fun e => ?_)
    split <;> exact ⟨rfl, rfl⟩

theorem Accord.clearWaiting (h : Accord c s) : Accord c s.clearWaiting := h.mapEntries _ fun _ => ⟨rfl, rfl⟩

theorem Accord.abortUnlit (h : Accord c s) : Accord c s.abortUnlit := by
  unfold State.abortUnlit
  repeat' split
  · exact h
  · exact h
  · exact h.abortKeeping

end

end Sys2Proof.Machine
end

