-- ==== Sys2Proof/Proofs/AccordWalk.lean ====
section
/-! SUPPORT. The service walk and the operations that queue a string keep the tables in accord. -/

namespace Sys2Proof.Machine

/-- The tables are in accord but for string `n`, which an operation is about to place. -/
structure AccordBut (c : Claims) (n : Nat) (s : State) : Prop where
  size : s.strings.length = 24
  served : cellBreaking s.cell.stage = true → s.cell.served ≠ none
  others : ∀ m, m ≠ n → (s.standing m).Ok c m

section
variable {c : Claims} {s t : State} {n : Nat}

/-! ## Accord but for one string -/

theorem Accord.but (h : Accord c s) (n : Nat) : AccordBut c n s := ⟨h.size, h.served, fun m _ => h.ok m⟩

theorem AccordBut.settle (h : AccordBut c n s) (k : (s.standing n).Ok c n) : Accord c s :=
  ⟨h.size, h.served, fun m => if hm : m = n then hm ▸ k else h.others m hm⟩

theorem AccordBut.of_standing (h : AccordBut c n s) (hl : t.strings.length = s.strings.length)
    (hs : t.cell = s.cell) (ho : ∀ m, m ≠ n → t.standing m = s.standing m) : AccordBut c n t :=
  ⟨hl.trans h.size, by rw [hs]; exact h.served, fun m hm => by rw [ho m hm]; exact h.others m hm⟩

theorem AccordBut.updStr (h : AccordBut c n s) (f : StringRec → StringRec) : AccordBut c n (s.updStr n f) :=
  h.of_standing (s.updStr_length n f) rfl fun m hm => s.updStr_standing_ne n m f hm

theorem AccordBut.dequeue (h : AccordBut c n s) : AccordBut c n (s.dequeue n) :=
  h.of_standing rfl rfl fun m hm => by rw [State.dequeue_standing, if_neg hm]; rfl

theorem AccordBut.endBreak (h : AccordBut c n s) : AccordBut c n (s.endBreak n) :=
  h.of_standing rfl rfl fun m hm => by rw [State.endBreak_standing, if_neg hm]; rfl

theorem AccordBut.enqueue (h : AccordBut c n s) {e : QueueEntry} (he : e.string = n) : AccordBut c n (s.enqueue e) :=
  h.of_standing rfl rfl fun m hm => by rw [State.enqueue_standing, he, if_neg hm.symm]; rfl

theorem AccordBut.addBreak (h : AccordBut c n s) {e : QueueEntry} (he : e.string = n) (b : Bool) :
    AccordBut c n (s.setSched { s.sched with breaks := s.sched.breaks ++ [⟨e, b⟩] }) :=
  h.of_standing rfl rfl fun m hm => by rw [State.addBreak_standing, he, if_neg hm.symm]; rfl

theorem AccordBut.raise (h : AccordBut c n s) (i : Item) : AccordBut c n (s.raise i) :=
  h.of_standing (by simp) (by simp) fun m _ => s.raise_standing i m

theorem AccordBut.setCell (h : AccordBut c n s) {x : Cell} (hs : cellBreaking x.stage = true → x.served ≠ none)
    (ho : ∀ m, m ≠ n → x.serving m = s.cell.serving m) : AccordBut c n (s.setCell x) :=
  ⟨h.size, hs, fun m hm => by rw [State.setCell_standing, ho m hm]; exact h.others m hm⟩

theorem Cell.serving_ne {x : Cell} {m : Nat} (h : x.served ≠ some m) : x.serving m = none := if_neg fun k => h k.2

theorem Cell.serving_off {x : Cell} (h : cellBreaking x.stage = false) (m : Nat) : x.serving m = none :=
  if_neg fun k => by rw [h] at k; exact Bool.false_ne_true k.1

theorem Cell.serving_self {x : Cell} (h : x.served = some n) :
    x.serving n = if cellBreaking x.stage then some x.stage else none := by
  unfold Cell.serving
  by_cases hb : cellBreaking x.stage = true <;> simp [hb, h]

/-- A cell that serves no string or the one being placed leaves the others' standing. -/
theorem AccordBut.setCell_self (h : AccordBut c n s) {x : Cell} (hx : cellBreaking x.stage = true → x.served = some n)
    (hs : cellBreaking s.cell.stage = true → s.cell.served = some n) : AccordBut c n (s.setCell x) := by
  have other {y : Cell} (hy : cellBreaking y.stage = true → y.served = some n) (m : Nat) (hm : m ≠ n) :
      y.serving m = none := by
    cases hb : cellBreaking y.stage with
    | false => exact Cell.serving_off hb m
    | true => exact Cell.serving_ne fun k => hm (Option.some.inj (k.symm.trans (hy hb)))
  refine h.setCell (fun hb => by simp [hx hb]) fun m hm => ?_
  rw [other hx m hm, other hs m hm]

/-! ## Operations that leave every standing -/

theorem Accord.of_same (h : Accord c s) (hl : t.strings.length = s.strings.length) (hs : t.cell = s.cell)
    (ho : ∀ m, t.standing m = s.standing m) : Accord c t := h.congr hl (by rw [hs]; exact h.served) ho

theorem Accord.raise (h : Accord c s) (i : Item) : Accord c (s.raise i) :=
  h.of_same (by simp) (by simp) (s.raise_standing i)

theorem Accord.updStr_same (h : Accord c s) (n : Nat) {f : StringRec → StringRec}
    (hf : (f (s.str n)).state = (s.str n).state ∧ (f (s.str n)).op = (s.str n).op ∧
      (f (s.str n)).cfg.used = (s.str n).cfg.used) : Accord c (s.updStr n f) :=
  h.of_same (s.updStr_length n f) rfl fun m => s.updStr_standing_same n hf m

theorem Accord.setIsolator (h : Accord c s) (x : Isolator) : Accord c (s.setIsolator x) := h.of_same rfl rfl fun _ => rfl

theorem Accord.isolatorOpened (h : Accord c s) : Accord c s.isolatorOpened := (h.setIsolator _).raise _

theorem Accord.openOrder (h : Accord c s) : Accord c s.openOrder := by
  have starts : Accord c s.startOpening := by
    unfold State.startOpening
    simp only
    split
    · exact ((h.setIsolator _).raise _).isolatorOpened
    · exact (h.setIsolator _).raise _
  rcases s.openOrder_cases with ⟨hs, -⟩ | ⟨hs, -⟩ | ⟨hs, -⟩ <;> rw [hs]
  · exact h
  · exact h.setIsolator _
  · exact starts

/-! ## Leaving the bus -/

/-- What a string about to be placed is: without an entry in the queue, a break or an operation, and not the probe unit's. -/
structure Free (c : Claims) (n : Nat) (s : State) : Prop where
  number : stringNumber n = true
  active : ¬c.idle n
  used : (s.str n).cfg.used = true
  waiting : s.sched.waiting n = 0
  breaks : s.sched.breakCount n = 0
  op : (s.str n).op = none
  serving : s.cell.serving n = none
  entries : (s.probe.purposes n).length ≤ 1
  flight : ∀ f, s.probe.flightOf n = some f → FlightOk c (s.probe.purposes n) f

/-- A free string is placed in a state other than QUEUED and BREAKING. -/
theorem Free.ok (k : Free c n s) {state : StringState}
    (hw : state ≠ .queued) (hb : state ≠ .breaking) (he : s.probe.purposes n ≠ [] → state = .isolated)
    (hr : c.placed n → s.locked n = true → state ∈ lockedStates)
    (hl : c.locks → state = .lockedOut → s.locked n = true) :
    Standing.Ok c n { s.standing n with state := state } :=
        { waiting := by simp [State.standing, k.waiting, hw]
          breaks := by simp [State.standing, k.breaks, hb]
          opening := fun a b h => by cases (k.op.symm.trans h)
          closing := fun o a b h => by cases (k.op.symm.trans h)
          serving := fun stage h => by cases (k.serving.symm.trans h)
          single := k.entries
          listed := fun h => .inl (he h)
          flight := k.flight
          configured := fun _ => k.used
          idle := fun hi => absurd hi k.active
          recorded := hr
          lockedOut := hl
          closable := fun _ hm => he (List.ne_nil_of_mem hm) }

/-- R12: a free string that the probe list does not hold goes off the bus. -/
theorem AccordBut.settleOff (h : AccordBut c n s) (k : Free c n s) (he : s.probe.purposes n = []) :
    Accord c (s.settleOff n) := by
  refine (h.updStr _).settle ?_
  rw [State.updStr_standing_self _ h.size k.number]
  refine k.ok (state := if s.locked n then .lockedOut else .isolated) ?_ ?_ (fun hne => absurd he hne) ?_ ?_
  · split <;> decide
  · split <;> decide
  · intro _ hk; simp [hk, lockedStates]
  · intro _ hk; by_contra hc; simp [hc] at hk

theorem State.settleOff_state (k : stringNumber n = true) (hl : s.strings.length = 24) :
    ((s.settleOff n).str n).state = .isolated ∨ ((s.settleOff n).str n).state = .lockedOut := by
  rw [State.settleOff, State.str_updStr_valid _ hl k]
  cases s.locked n <;> simp

theorem AccordBut.offBus (h : AccordBut c n s) (k : Free c n s) (he : s.probe.purposes n = []) :
    Accord c (s.offBus n) :=
  ((h.settleOff k he).raise _).place _ _
    (by simpa using State.settleOff_state k.number h.size) (fun _ hp => by cases hp)

/-! ## One visit of a walk -/

/-- The standing of a QUEUED string. -/
theorem Accord.of_queued (h : Accord c s) (hq : (s.str n).state = .queued) :
    stringNumber n = true ∧ ¬c.idle n ∧ (s.str n).cfg.used = true ∧ s.sched.waiting n = 1 ∧ s.sched.breakCount n = 0 ∧
      (s.str n).op = none ∧ s.cell.serving n = none ∧ s.probe.purposes n = [] := by
  have k := h.ok n
  have hs : (s.standing n).state = .queued := hq
  have hw := k.waiting
  have hb := k.breaks
  rw [hs] at hw hb
  exact ⟨h.number (by rw [hq]; decide), k.not_idle (by rw [hs]; decide), k.configured (by rw [hs]; decide), hw, hb,
    k.no_op (by rw [hs]; decide) (by rw [hs]; decide), k.not_serving (by rw [hs]; decide),
    k.unlisted (by rw [hs]; decide) (by rw [hs]; decide)⟩

theorem Accord.alreadyOpen (h : Accord c s) (hq : (s.str n).state = .queued) : Accord c (s.alreadyOpen n) := by
  obtain ⟨hn, hi, hu, -, hb, ho, hc, he⟩ := h.of_queued hq
  have hstr := State.str_updStr_valid (s := s.dequeue n)
    (fun r => r.editRecord fun q => { q with kind := some .alreadyOpen, current := none }) h.size hn
  refine ((h.but n).dequeue.updStr _).offBus ?_ he
  exact { number := hn, active := hi
          used := by rw [hstr]; exact hu
          waiting := by
            have hd := s.dequeue_standing n n
            rw [if_pos rfl] at hd
            exact congrArg Standing.waiting hd
          breaks := hb
          op := by rw [hstr]; exact ho
          serving := hc
          entries := (h.ok n).single
          flight := (h.ok n).flight }

theorem Accord.startCold (h : Accord c s) {e : QueueEntry} (hq : (s.str e.string).state = .queued) :
    Accord c (s.startCold e) := by
  obtain ⟨hn, hi, hu, hw, hb, ho, hc, he⟩ := h.of_queued hq
  have k := h.ok e.string
  have hbut := (h.but e.string).dequeue.addBreak (e := e) rfl false
  refine (hbut.updStr _).settle ?_
  rw [State.updStr_standing_self _ hbut.size hn, State.addBreak_standing, State.dequeue_standing, if_pos rfl]
  exact { waiting := rfl
          breaks := by
            have hd : (s.dequeue e.string).sched.breakCount e.string = 0 := hb
            simp [hd]
          opening := fun _ _ _ => rfl
          closing := fun _ _ _ h => by cases h
          serving := fun stage h => by cases (hc.symm.trans h)
          single := k.single
          listed := fun hne => absurd he hne
          flight := k.flight
          configured := fun _ => hu
          idle := fun i => absurd i hi
          recorded := fun _ _ => by simp [lockedStates]
          lockedOut := fun _ h => by cases h
          closable := fun _ hm => absurd he (List.ne_nil_of_mem hm) }

theorem Accord.startCommutated (h : Accord c s) {e : QueueEntry} (hq : (s.str e.string).state = .queued)
    (hidle : s.cell.stage = .idle) : Accord c (s.startCommutated e) := by
  obtain ⟨hn, hi, hu, hw, hb, ho, hc, he⟩ := h.of_queued hq
  have k := h.ok e.string
  have hbut := (h.but e.string).dequeue.addBreak (e := e) rfl true
  have hstill : cellBreaking s.cell.stage = true → s.cell.served = some e.string := by simp [hidle, cellBreaking]
  refine ((hbut.updStr fun r => { r with state := .breaking }).setCell_self (fun _ => rfl) hstill).settle ?_
  rw [State.setCell_standing, State.updStr_standing_self _ hbut.size hn, State.addBreak_standing, State.dequeue_standing,
    if_pos rfl, Cell.serving_self rfl]
  exact { waiting := rfl
          breaks := by
            have hd : (s.dequeue e.string).sched.breakCount e.string = 0 := hb
            simp [hd]
          opening := fun _ _ _ => rfl
          closing := fun _ _ _ h => by cases (ho.symm.trans h)
          serving := fun _ _ => ⟨rfl, fun _ => ho⟩
          single := k.single
          listed := fun hne => absurd he hne
          flight := k.flight
          configured := fun _ => hu
          idle := fun i => absurd i hi
          recorded := fun _ _ => by simp [lockedStates]
          lockedOut := fun _ h => by cases h
          closable := fun _ hm => absurd he (List.ne_nil_of_mem hm) }

theorem Accord.visit (h : Accord c s) (earlier : Bool) {e : QueueEntry} (hq : (s.str e.string).state = .queued) :
    Accord c (s.visit earlier e).1 := by
  unfold State.visit
  simp only
  split
  · exact h.alreadyOpen hq
  split
  · exact h
  split
  · exact h.startCold hq
  split
  · next hg => exact h.startCommutated hq hg.2.2
  split
  · exact h.openOrder
  · exact h

/-- A visit changes no other string's record. -/
theorem State.visit_str_ne (s : State) (earlier : Bool) (e : QueueEntry) {m : Nat} (hm : m ≠ e.string) :
    (s.visit earlier e).1.str m = s.str m := by
  rcases s.visit_cases earlier e with h | h | h | h | h <;> rw [h]
  · unfold State.alreadyOpen State.offBus State.settleOff
    simp only [State.place_str, State.raiseStr_eq, State.raise_str]
    rw [State.str_updStr_ne _ _ _ _ hm, State.str_updStr_ne _ _ _ _ hm]
    rfl
  · unfold State.startCold
    simp only
    rw [State.str_updStr_ne _ _ _ _ hm]
    rfl
  · unfold State.startCommutated
    simp only [State.setCell_str]
    rw [State.str_updStr_ne _ _ _ _ hm]
    rfl
  · exact State.str_congr s.openOrder_strings m

/-! ## The walk -/

/-- The visits of distinct QUEUED strings keep accord. -/
theorem Accord.visits (l : List QueueEntry) : ∀ {acc : State × Bool}, Accord c acc.1 → (l.map (·.string)).Nodup →
    (∀ e ∈ l, (acc.1.str e.string).state = .queued) →
    Accord c (l.foldl (fun (acc : State × Bool) e => acc.1.visit acc.2 e) acc).1 := by
  induction l with
  | nil => exact fun h _ _ => h
  | cons e es ih =>
    intro acc h hd hq
    rw [List.map_cons, List.nodup_cons] at hd
    refine ih (h.visit acc.2 (hq e List.mem_cons_self)) hd.2 fun x hx => ?_
    have hne : x.string ≠ e.string := fun he => hd.1 (he ▸ List.mem_map_of_mem hx)
    rw [State.visit_str_ne acc.1 acc.2 e hne]
    exact hq x (List.mem_cons_of_mem _ hx)

theorem Accord.walkOnce (h : Accord c s) : Accord c s.walkOnce :=
  Accord.visits s.sched.queue (acc := (s, false)) h h.queueDistinct fun _ he => h.queued he

theorem Accord.walk (h : Accord c s) : Accord c s.walk := by
  unfold State.walk
  simp only
  split
  · exact h.walkOnce.walkOnce
  · exact h.walkOnce

theorem Accord.openRequest (h : Accord c s) : Accord c s.openRequest := by
  unfold State.openRequest
  simp only
  split
  · exact h.openOrder.walk
  · exact h.openOrder

theorem Accord.escalateWaiting (h : Accord c s) : Accord c s.escalateWaiting := by
  unfold State.escalateWaiting
  split
  · exact h.openRequest
  · exact h

/-! ## Entries of the queue -/

theorem Accord.recurrenceTest (h : Accord c s) (n : Nat) (q : ReqCause) : Accord c (s.recurrenceTest n q) := by
  unfold State.recurrenceTest
  split
  · refine h.updStr_same n ?_
    unfold StringRec.recurrence
    repeat' split
    all_goals exact ⟨rfl, rfl, rfl⟩
  · exact h

/-- R76: an entry raised stays the only one of its QUEUED string. -/
theorem Accord.raiseEntry (h : Accord c s) {e : QueueEntry} (hq : (s.str e.string).state = .queued) (q : ReqCause) :
    Accord c (s.raiseEntry e q) := by
  obtain ⟨-, -, -, hw, -⟩ := h.of_queued hq
  have hsame (m : Nat) : ((s.dequeue e.string).enqueue { e with severity := q.severity, cause := q }).standing m =
      s.standing m := by
    rw [State.enqueue_standing, State.dequeue_standing]
    have hd := congrArg Standing.waiting (s.dequeue_standing e.string m)
    simp only [State.standing] at hd
    rw [hd]
    by_cases hm : m = e.string
    · subst hm; simp [State.standing, hw]
    · simp [State.standing, hm, Ne.symm hm]
  exact ((h.of_same (t := (s.dequeue e.string).enqueue { e with severity := q.severity, cause := q }) rfl rfl
    hsame).updStr_same e.string
    (f := fun r => { r.editRecord (fun x => { x with cause := .req q }) with cause := some (.req q) })
    ⟨rfl, rfl, rfl⟩).recurrenceTest _ q

theorem Accord.merge (h : Accord c s) (n : Nat) (q : ReqCause) : Accord c (s.merge n q) := by
  unfold State.merge
  split
  · exact h
  · next e he =>
    split
    · exact (h.raiseEntry (h.queued (List.mem_of_find?_eq_some he)) q).walk
    · exact h

theorem Accord.shutdownRaise (h : Accord c s) {e : QueueEntry} (hq : (s.str e.string).state = .queued) :
    Accord c (s.shutdownRaise e) := by
  unfold State.shutdownRaise
  split
  · exact h.raiseEntry hq _
  · exact h

end

end Sys2Proof.Machine
end

