-- ==== Sys2Proof/Proofs/AccordControl.lean ====
section
/-! SUPPORT. The string controller's operations keep the tables in accord. -/

namespace Sys2Proof.Machine

section
variable {c : Claims} {s t : State} {n : Nat}

/-! ## Placing a free string -/

/-- A string that is neither waiting nor being broken, without an operation, is free. -/
theorem Accord.free (h : Accord c s) (hq : (s.str n).state ≠ .queued) (hb : (s.str n).state ≠ .breaking)
    (hu : (s.str n).state ≠ .unused) (ho : (s.str n).op = none) : Free c n s where
  number := h.number hu
  active := (h.ok n).not_idle hu
  used := (h.ok n).configured hu
  waiting := (h.ok n).waiting.trans (if_neg hq)
  breaks := (h.ok n).breaks.trans (if_neg hb)
  op := ho
  serving := (h.ok n).not_serving hb
  entries := (h.ok n).single
  flight := (h.ok n).flight

theorem Accord.unlisted (h : Accord c s) (hi : (s.str n).state ≠ .isolated) (hl : (s.str n).state ≠ .lockedOut) :
    s.probe.purposes n = [] := (h.ok n).unlisted hi hl

/-- A string in a state that a lockout record forbids holds none. -/
theorem Accord.unlocked (h : Accord c s) (hs : (s.str n).state ∉ lockedStates) (hp : c.placed n) : s.locked n = false := by
  by_contra hl
  exact hs ((h.ok n).recorded hp (Bool.eq_true_of_not_eq_false hl))

/-- Changes of a free string's record that leave it free. -/
theorem Free.of_standing (k : Free c n s) (hs : t.standing n = { s.standing n with state := (t.standing n).state }) :
    Free c n t where
  number := k.number
  active := k.active
  used := (congrArg Standing.used hs).trans k.used
  waiting := (congrArg Standing.waiting hs).trans k.waiting
  breaks := (congrArg Standing.breaks hs).trans k.breaks
  op := (congrArg Standing.op hs).trans k.op
  serving := (congrArg Standing.serving hs).trans k.serving
  entries := (congrArg (fun x => x.entries.length) hs).trans_le k.entries
  flight := fun f hf => by
    have he : t.probe.purposes n = s.probe.purposes n := congrArg Standing.entries hs
    rw [he]
    exact k.flight f ((congrArg Standing.flight hs).symm.trans hf)

/-- A free string takes the state that its changed record names. -/
theorem AccordBut.become (h : AccordBut c n s) (k : Free c n s) {f : StringRec → StringRec}
    (hf : (f (s.str n)).op = (s.str n).op ∧ (f (s.str n)).cfg.used = (s.str n).cfg.used)
    (hq : (f (s.str n)).state ≠ .queued) (hb : (f (s.str n)).state ≠ .breaking)
    (he : s.probe.purposes n ≠ [] → (f (s.str n)).state = .isolated)
    (hr : c.placed n → s.locked n = true → (f (s.str n)).state ∈ lockedStates)
    (hl : c.locks → (f (s.str n)).state = .lockedOut → s.locked n = true) : Accord c (s.updStr n f) := by
  refine (h.updStr f).settle ?_
  rw [State.updStr_standing_self _ h.size k.number, hf.1, hf.2]
  exact k.ok hq hb he hr hl

/-! ## Queueing a string -/

theorem State.recurrenceTest_standing (s : State) (n : Nat) (q : ReqCause) (m : Nat) :
    (s.recurrenceTest n q).standing m = s.standing m := by
  unfold State.recurrenceTest
  split
  · refine s.updStr_standing_same n ?_ m
    unfold StringRec.recurrence
    repeat' split
    all_goals exact ⟨rfl, rfl, rfl⟩
  · rfl

theorem State.recurrenceTest_cell (s : State) (n : Nat) (q : ReqCause) : (s.recurrenceTest n q).cell = s.cell := by
  unfold State.recurrenceTest
  split <;> rfl

theorem State.recurrenceTest_length (s : State) (n : Nat) (q : ReqCause) :
    (s.recurrenceTest n q).strings.length = s.strings.length := by
  unfold State.recurrenceTest
  split
  · exact s.updStr_length _ _
  · rfl

theorem State.openRecord_standing (s : State) (n : Nat) (q : Cause) (k : Option BreakKind) (m : Nat) :
    (s.openRecord n q k).standing m = s.standing m := s.updStr_standing_same n ⟨rfl, rfl, rfl⟩ m

theorem State.openRecord_length (s : State) (n : Nat) (q : Cause) (k : Option BreakKind) :
    (s.openRecord n q k).strings.length = s.strings.length := s.updStr_length n _

/-- R75: a free string that has become QUEUED is given its entry. -/
theorem AccordBut.admitEntry (h : AccordBut c n s) (k : Free c n s) (he : s.probe.purposes n = [])
    (hs : (s.str n).state = .queued) (q : ReqCause) : Accord c (s.admitEntry n q) := by
  have queued : Accord c (s.enqueue ⟨n, q.severity, q, s.scan.counter, s.sched.arrival⟩) := by
    refine (h.enqueue (e := ⟨n, q.severity, q, s.scan.counter, s.sched.arrival⟩) rfl).settle ?_
    rw [State.enqueue_standing, if_pos rfl, k.waiting]
    exact { waiting := by simp [State.standing, hs]
            breaks := by simp [State.standing, hs, k.breaks]
            opening := fun a b h => by cases (k.op.symm.trans h)
            closing := fun o a b h => by cases (k.op.symm.trans h)
            serving := fun stage h => by cases (k.serving.symm.trans h)
            single := k.entries
            listed := fun hne => absurd he hne
            flight := k.flight
            configured := fun _ => k.used
            idle := fun hi => absurd hi k.active
            recorded := fun _ _ => by simp [State.standing, hs, lockedStates]
            lockedOut := fun _ h => by cases (hs.symm.trans h)
            closable := fun _ hm => absurd he (List.ne_nil_of_mem hm) }
  have admitted := queued.of_same (t := (s.enqueue ⟨n, q.severity, q, s.scan.counter, s.sched.arrival⟩).setSched
    { (s.enqueue ⟨n, q.severity, q, s.scan.counter, s.sched.arrival⟩).sched with
      arrival := (s.enqueue ⟨n, q.severity, q, s.scan.counter, s.sched.arrival⟩).sched.arrival + 1 })
    rfl rfl fun _ => rfl
  exact (admitted.shutdownRaise (e := ⟨n, q.severity, q, s.scan.counter, s.sched.arrival⟩) hs).walk

/-- R11, R75: a free string that the probe list does not hold is queued. -/
theorem AccordBut.queueString (h : AccordBut c n s) (k : Free c n s) (he : s.probe.purposes n = []) (q : ReqCause) :
    Accord c (s.queueString n q) := by
  have queued : AccordBut c n (s.updStr n fun r => { r with state := .queued, cause := some (.req q) }) := h.updStr _
  have recorded : AccordBut c n _ := queued.of_standing (State.openRecord_length _ n (.req q) none) rfl fun m _ =>
    State.openRecord_standing _ n (.req q) none m
  have tested : AccordBut c n _ := recorded.of_standing (State.recurrenceTest_length _ n q) (State.recurrenceTest_cell _ n q)
    fun m _ => State.recurrenceTest_standing _ n q m
  have standing : ((((s.updStr n fun r => { r with state := .queued, cause := some (.req q) }).openRecord n (.req q)
      none).recurrenceTest n q)).standing n = { s.standing n with state := .queued } := by
    rw [State.recurrenceTest_standing, State.openRecord_standing, State.updStr_standing_self _ h.size k.number]
    rfl
  exact tested.admitEntry (k.of_standing (by rw [standing])) ((congrArg Standing.entries standing).trans he)
    (congrArg Standing.state standing) q

/-! ## Requests (R11) -/

theorem State.withdraw_str (s : State) (n m : Nat) : (s.withdraw n).str m = s.str m := by rw [State.withdraw_eq]; rfl

theorem Accord.queueString (h : Accord c s) (q : ReqCause)
    (hs : (s.str n).state = .connected ∨ (s.str n).state = .suspect) : Accord c (s.queueString n q) := by
  have other {x : StringState} (hc : x ≠ .connected) (hp : x ≠ .suspect) : (s.str n).state ≠ x :=
    fun hx => hs.elim (fun h => hc (hx.symm.trans h)) (fun h => hp (hx.symm.trans h))
  have no_op := (h.ok n).no_op (other (by decide) (by decide)) (other (by decide) (by decide))
  exact (h.but n).queueString
    (h.free (other (by decide) (by decide)) (other (by decide) (by decide)) (other (by decide) (by decide)) no_op)
    (h.unlisted (other (by decide) (by decide)) (other (by decide) (by decide))) q

/-- R11, R14: a LOCKED_OUT string found closed is queued with its probe list entry withdrawn. -/
theorem Accord.queueLocked (h : Accord c s) (q : ReqCause) (hs : (s.str n).state = .lockedOut) :
    Accord c ((s.withdraw n).queueString n q) := by
  have hw := h.withdraw n
  have hs' : ((s.withdraw n).str n).state = .lockedOut := by rw [State.withdraw_str]; exact hs
  exact (hw.but n).queueString
    (hw.free (by rw [hs']; decide) (by rw [hs']; decide) (by rw [hs']; decide)
      ((hw.ok n).no_op (by rw [show ((s.withdraw n).standing n).state = _ from hs']; decide)
        (by rw [show ((s.withdraw n).standing n).state = _ from hs']; decide)))
    (s.withdraw_purposes n) q

theorem StringRec.hold_same (r : StringRec) (q : ReqCause) :
    (r.hold q).state = r.state ∧ (r.hold q).op = r.op ∧ (r.hold q).cfg.used = r.cfg.used := by
  unfold StringRec.hold
  repeat' split
  all_goals exact ⟨rfl, rfl, rfl⟩

theorem Accord.request (h : Accord c s) (n : Nat) (q : ReqCause) : Accord c (s.request n q) := by
  unfold State.request
  split
  case h_1 hs => exact h.queueString q (.inl hs)
  case h_2 hs => exact h.queueString q (.inr hs)
  case h_3 hs => exact h.merge n q
  case h_5 hs =>
    split
    · exact (h.withdrawPreClose n).updStr_same n ⟨rfl, rfl, rfl⟩
    · exact h
  case h_6 hs =>
    split
    · exact h.withdrawPreClose n
    · split
      · exact h.queueLocked q hs
      · exact h
  case h_7 hs => exact h.updStr_same n (StringRec.hold_same _ q)
  all_goals exact h

theorem Accord.shutdownCatch (h : Accord c s) (n : Nat) : Accord c (s.shutdownCatch n) := by
  unfold State.shutdownCatch
  split
  · exact h.request n _
  · exact h

/-! ## Reaching the bus -/

theorem AccordBut.connect (h : AccordBut c n s) (k : Free c n s) (he : s.probe.purposes n = [])
    (hl : c.placed n → s.locked n = false) : Accord c (s.connect n) :=
  h.become k ⟨rfl, rfl⟩ (by simp) (by simp) (fun hne => absurd he hne)
    (fun hp hk => by rw [hl hp] at hk; cases hk) (fun _ hs => by cases hs)

/-- R15: a confirmed close of a CLOSING string whose operation has ended. -/
theorem Accord.closeConfirmed (h : Accord c s) (hs : (s.str n).state = .closing) (ho : (s.str n).op = none)
    (origin : Origin) : Accord c (s.closeConfirmed n origin) := by
  have hc := (h.but n).connect (h.free (by rw [hs]; decide) (by rw [hs]; decide) (by rw [hs]; decide) ho)
    (h.unlisted (by rw [hs]; decide) (by rw [hs]; decide)) (h.unlocked (by rw [hs]; decide))
  unfold State.closeConfirmed
  refine Accord.shutdownCatch ?_ n
  have ht := (hc.updStr_same n (f := fun r => { r with
    held := none
    reconnectedAt := if origin = .auto then some s.scan.counter else r.reconnectedAt }) ⟨rfl, rfl, rfl⟩).raise
      (.str .closed n)
  split
  · exact ht
  · exact ht.request n _

theorem Accord.closeFailed (h : Accord c s) (hs : (s.str n).state = .closing) (ho : (s.str n).op = none) :
    Accord c (s.closeFailed n) := by
  have hc : Accord c (s.updStr n _) := (h.but n).become
    (f := fun r => { r.editRecord (fun q => { q with closeFailed := min 20 (q.closeFailed + 1) }) with
      state := .isolated
      cause := (match r.held with | none => r.cause | some c => some (.req c))
      held := none })
    (h.free (by rw [hs]; decide) (by rw [hs]; decide) (by rw [hs]; decide) ho)
    ⟨rfl, rfl⟩ (by simp) (by simp) (fun _ => rfl)
    (fun hp hk => by rw [h.unlocked (by rw [hs]; decide) hp] at hk; cases hk) (fun _ hs => by cases hs)
  exact (hc.raise _).raise _

/-! ## Contact discrepancies (R13, R14) -/

theorem Accord.externalClose (h : Accord c s) (hs : (s.str n).state = .isolated) (ho : (s.str n).op = none) :
    Accord c (s.externalClose n) := by
  have hw := h.withdraw n
  have hs' : ((s.withdraw n).str n).state = .isolated := by rw [State.withdraw_str]; exact hs
  have hc := (hw.but n).connect
    (hw.free (by rw [hs']; decide) (by rw [hs']; decide) (by rw [hs']; decide) (by rw [State.withdraw_str]; exact ho))
    (s.withdraw_purposes n) (hw.unlocked (by rw [hs']; decide))
  exact (hc.raise (.str .contact n)).shutdownCatch n

theorem Accord.externalOpen (h : Accord c s) (hs : (s.str n).state = .connected ∨ (s.str n).state = .suspect)
    (ho : (s.str n).op = none) : Accord c (s.externalOpen n) := by
  have h1 : (s.str n).state ≠ .queued := by rcases hs with hs | hs <;> rw [hs] <;> decide
  have h2 : (s.str n).state ≠ .breaking := by rcases hs with hs | hs <;> rw [hs] <;> decide
  have h3 : (s.str n).state ≠ .unused := by rcases hs with hs | hs <;> rw [hs] <;> decide
  have h4 : (s.str n).state ∉ lockedStates := by rcases hs with hs | hs <;> rw [hs] <;> decide
  have hf := h.free h1 h2 h3 ho
  have hc : Accord c (s.updStr n _) := (h.but n).become (f := fun r => { r with state := .isolated, cause := some .externalOpen })
    hf ⟨rfl, rfl⟩ (by simp) (by simp) (fun _ => rfl)
    (fun hp hk => by rw [h.unlocked h4 hp] at hk; cases hk) (fun _ hs => by cases hs)
  have hr : Accord c _ := (hc.of_same (State.openRecord_length _ n .externalOpen (some .alreadyOpen)) rfl
    (State.openRecord_standing _ n .externalOpen (some .alreadyOpen))).raise (.str .contact n)
  refine hr.place _ _ (.inl ?_) (fun _ hp => by cases hp)
  unfold State.openRecord
  rw [State.raise_str, State.str_updStr_valid _ ((State.updStr_length _ _ _).trans h.size) hf.number,
    State.str_updStr_valid _ h.size hf.number]

/-- A free string that the probe list does not hold settles off the bus and is put to the probe. -/
theorem Accord.settlePlace (h : Accord c s) (k : Free c n s) (he : s.probe.purposes n = []) (i : Item) :
    Accord c (((s.settleOff n).raise i).place n .diagnose .auto) ∧ Accord c ((s.settleOff n).place n .diagnose .auto) := by
  have hc := (h.but n).settleOff k he
  have hs := State.settleOff_state k.number h.size
  exact ⟨(hc.raise i).place _ _ (by simpa using hs) (fun _ hp => by cases hp), hc.place _ _ hs (fun _ hp => by cases hp)⟩

theorem Accord.stuckFreed (h : Accord c s) (hs : (s.str n).state = .stuckClosed) (ho : (s.str n).op = none) :
    Accord c (s.stuckFreed n) :=
  (h.settlePlace (h.free (by rw [hs]; decide) (by rw [hs]; decide) (by rw [hs]; decide) ho)
    (h.unlisted (by rw [hs]; decide) (by rw [hs]; decide)) _).1

theorem Accord.discrepancy (h : Accord c s) (n : Nat) : Accord c (s.discrepancy n) := by
  unfold State.discrepancy
  simp only
  split
  · exact h
  · next ho =>
    obtain ⟨-, ho⟩ := not_or.1 ho
    have ho : (s.str n).op = none := by simpa using ho
    split
    case h_1 hs => split; exacts [h.externalOpen (.inl hs) ho, h]
    case h_2 hs => split; exacts [h.externalOpen (.inr hs) ho, h]
    case h_3 hs => split; exacts [h.externalClose hs ho, h]
    case h_4 hs => split; exacts [(h.raise (.str .contact n)).request n _, h]
    case h_5 hs => split; exacts [h.stuckFreed hs ho, h]
    all_goals exact h

/-! ## Judged and held strings -/

/-- R10, R18: a string on the bus may change between CONNECTED and SUSPECT. -/
theorem Standing.Ok.judge {x : Standing} (h : x.Ok c n) (hx : x.state = .connected ∨ x.state = .suspect)
    {state : StringState} (hs : state = .connected ∨ state = .suspect) :
    Standing.Ok c n { x with state := state } := by
  have hw := h.waiting
  have hb := h.breaks
  have hop := h.no_op (by rcases hx with hx | hx <;> rw [hx] <;> decide) (by rcases hx with hx | hx <;> rw [hx] <;> decide)
  have hsv := h.not_serving (by rcases hx with hx | hx <;> rw [hx] <;> decide)
  have he := h.unlisted (by rcases hx with hx | hx <;> rw [hx] <;> decide) (by rcases hx with hx | hx <;> rw [hx] <;> decide)
  exact { waiting := by rcases hx with hx | hx <;> rcases hs with rfl | rfl <;> simpa [hx] using hw
          breaks := by rcases hx with hx | hx <;> rcases hs with rfl | rfl <;> simpa [hx] using hb
          opening := fun a b k => by cases (hop.symm.trans k)
          closing := fun o a b k => by cases (hop.symm.trans k)
          serving := fun stage k => by cases (hsv.symm.trans k)
          single := h.single
          listed := fun hne => absurd he hne
          flight := h.flight
          configured := fun _ => h.configured (by rcases hx with hx | hx <;> rw [hx] <;> decide)
          idle := fun hi => absurd hi (h.not_idle (by rcases hx with hx | hx <;> rw [hx] <;> decide))
          recorded := fun hp hk => by
            have := h.recorded hp hk
            rcases hx with hx | hx <;> simp [hx, lockedStates] at this
          lockedOut := fun _ k => by rcases hs with rfl | rfl <;> cases k
          closable := fun _ hm => absurd he (List.ne_nil_of_mem hm) }

/-- A change of a record that leaves its operation and use, and its state but for CONNECTED and SUSPECT. -/
def StringRec.Judged (r q : StringRec) : Prop :=
  q.op = r.op ∧ q.cfg.used = r.cfg.used ∧
    (q.state = r.state ∨ (r.state = .connected ∨ r.state = .suspect) ∧ (q.state = .connected ∨ q.state = .suspect))

theorem StringRec.Judged.refl (r : StringRec) : r.Judged r := ⟨rfl, rfl, .inl rfl⟩

theorem StringRec.Judged.trans (r q u : StringRec) (h : r.Judged q) (k : q.Judged u) : r.Judged u := by
  obtain ⟨h1, h2, h3⟩ := h
  obtain ⟨k1, k2, k3⟩ := k
  refine ⟨k1.trans h1, k2.trans h2, ?_⟩
  rcases h3 with h3 | ⟨h3, h4⟩ <;> rcases k3 with k3 | ⟨k3, k4⟩
  · exact .inl (k3.trans h3)
  · exact .inr ⟨h3 ▸ k3, k4⟩
  · exact .inr ⟨h3, k3 ▸ h4⟩
  · exact .inr ⟨h3, k4⟩

theorem Accord.of_judged (h : Accord c s) (he : Each StringRec.Judged s t) (hl : t.lockouts = s.lockouts)
    (hq : t.sched = s.sched) (hc : t.cell = s.cell) (hp : t.probe = s.probe) : Accord c t where
  size := he.1.trans h.size
  served := by rw [hc]; exact h.served
  ok := fun n => by
    obtain ⟨ho, hu, hs⟩ := he.2 n
    have hst : t.standing n = { s.standing n with state := (t.str n).state } := by
      simp only [State.standing, ho, hu, hq, hc, hp, State.locked_congr hl]
    rw [hst]
    rcases hs with hs | ⟨hx, hs⟩
    · rw [hs]; exact h.ok n
    · exact (h.ok n).judge hx hs

theorem Accord.updAll (h : Accord c s) {f : StringRec → StringRec} (hf : ∀ r : StringRec, r.Judged (f r)) :
    Accord c (s.updAll f) :=
  h.of_judged (.updAll StringRec.Judged.refl s hf) rfl rfl rfl rfl

theorem StringRec.suspectTest_judged (r : StringRec) (g : Option GroupRec) : r.Judged (r.suspectTest g) := by
  unfold StringRec.suspectTest
  extract_lets counting high low
  repeat' split
  · next hs => exact ⟨rfl, rfl, .inr ⟨.inl hs.1, .inr rfl⟩⟩
  · next hs => exact ⟨rfl, rfl, .inr ⟨.inr hs.1, .inl rfl⟩⟩
  · exact .refl r

theorem StringRec.enterRun_judged (r : StringRec) : r.Judged r.enterRun := by
  unfold StringRec.enterRun
  simp only
  split
  · next hs => exact ⟨rfl, rfl, .inr ⟨.inr hs, .inl rfl⟩⟩
  · exact ⟨rfl, rfl, .inl rfl⟩

end

end Sys2Proof.Machine
end

