-- ==== Sys2Proof/Proofs/AccordCell.lean ====
section
/-! SUPPORT. The break cell's, the contact driver's and the isolator's operations keep the tables in accord. -/

namespace Sys2Proof.Machine

section
variable {c : Claims} {s : State} {n : Nat}

/-! ## The cell's record -/

/-- The cell changes from one stage that serves no break to another. -/
theorem Accord.setCell_off (h : Accord c s) {x : Cell} (hs : cellBreaking s.cell.stage = false)
    (hx : cellBreaking x.stage = false) : Accord c (s.setCell x) :=
  h.congr rfl (fun hb => by rw [State.setCell_cell, hx] at hb; cases hb) fun m => by
    rw [State.setCell_standing, Cell.serving_off hx]
    simp only [State.standing, Cell.serving_off hs]

/-- The cell keeps its stage and the string it serves. -/
theorem Accord.setCell_same (h : Accord c s) {x : Cell} (hs : x.stage = s.cell.stage) (hv : x.served = s.cell.served) :
    Accord c (s.setCell x) :=
  h.congr rfl (by rw [State.setCell_cell, hs, hv]; exact h.served) fun m => by
    rw [State.setCell_standing]
    simp only [State.standing, Cell.serving, hs, hv]

theorem Accord.cellIdle (h : Accord c s) (hs : cellBreaking s.cell.stage = false) : Accord c s.cellIdle :=
  (h.setCell_off hs rfl).walk

theorem Accord.cellHot (h : Accord c s) (hs : cellBreaking s.cell.stage = false) : Accord c s.cellHot :=
  ((h.setCell_off hs rfl).raise _).escalateWaiting

theorem Accord.cellRested (h : Accord c s) (hs : cellBreaking s.cell.stage = false) : Accord c s.cellRested := by
  unfold State.cellRested
  split
  · exact h.cellHot hs
  · exact h.cellIdle hs

theorem Accord.cellFaulted (h : Accord c s) (hs : cellBreaking s.cell.stage = false) (stage : FaultStage)
    (string : Option Nat) : Accord c (s.cellFaulted stage string) := (h.setCell_off hs rfl).raise _

theorem Accord.reach (h : Accord c s) (due : Nat) : Accord c (s.reach due) := h.of_same rfl rfl fun _ => rfl

/-! ## A string being broken -/

/-- The string that the cell serves in a break is BREAKING, without an operation outside CONDUCTING. -/
theorem Accord.of_served (h : Accord c s) (hb : cellBreaking s.cell.stage = true) (hv : s.cell.served = some n) :
    (s.str n).state = .breaking ∧ (s.cell.stage ≠ .conducting → (s.str n).op = none) :=
  (h.ok n).serving s.cell.stage (if_pos ⟨hb, hv⟩)

/-- A BREAKING string without an operation, whose break ends, is free once the cell serves no break of it. -/
theorem Accord.endBreak_setCell_free (h : Accord c s) (hs : (s.str n).state = .breaking) (ho : (s.str n).op = none) {x : Cell}
    (hx : x.serving n = none) : Free c n ((s.endBreak n).setCell x) where
  number := h.number (by rw [hs]; decide)
  active := (h.ok n).not_idle (by rw [show (s.standing n).state = _ from hs]; decide)
  used := (h.ok n).configured (by rw [show (s.standing n).state = _ from hs]; decide)
  waiting := (h.ok n).waiting.trans (if_neg (by rw [show (s.standing n).state = _ from hs]; decide))
  breaks := by
    have hd := s.endBreak_standing n n
    rw [if_pos rfl] at hd
    exact congrArg Standing.breaks hd
  op := ho
  serving := hx
  entries := (h.ok n).single
  flight := (h.ok n).flight

theorem Accord.endBreak_free (h : Accord c s) (hs : (s.str n).state = .breaking) (ho : (s.str n).op = none)
    (hv : s.cell.serving n = none) : Free c n (s.endBreak n) := h.endBreak_setCell_free hs ho (x := s.cell) hv

theorem Accord.breaking_unlisted (h : Accord c s) (hs : (s.str n).state = .breaking) : s.probe.purposes n = [] :=
  h.unlisted (by rw [hs]; decide) (by rw [hs]; decide)

/-- A break in flight whose string has reached another state: the cell serves it no longer. -/
theorem AccordBut.enterDetaching (h : AccordBut c n s) (hv : cellBreaking s.cell.stage = true → s.cell.served = some n)
    (timeout : Nat) : AccordBut c n (s.enterStage .detaching timeout) := h.setCell_self (fun hb => by cases hb) hv

/-- R86: a quench that has succeeded. -/
theorem Accord.quenchSucceeded (h : Accord c s) (hb : cellBreaking s.cell.stage = true) (hv : s.cell.served = some n)
    (ho : (s.str n).op = none) : Accord c (s.quenchSucceeded n) := by
  obtain ⟨hs, -⟩ := h.of_served hb hv
  exact ((h.but n).endBreak.enterDetaching (fun _ => hv) 30).offBus
    (h.endBreak_setCell_free hs ho (Cell.serving_off rfl n)) (h.breaking_unlisted hs)

/-- The cell goes from one stage of a break to another, with the string's operation as the new stage allows. -/
theorem Accord.setCell_break (h : Accord c s) {x : Cell} (hb : cellBreaking s.cell.stage = true)
    (hv : s.cell.served = some n) (hx : cellBreaking x.stage = true) (hxv : x.served = some n)
    (ho : x.stage ≠ .conducting → (s.str n).op = none) : Accord c (s.setCell x) := by
  obtain ⟨hs, -⟩ := h.of_served hb hv
  refine ((h.but n).setCell_self (fun _ => hxv) (fun _ => hv)).settle ?_
  rw [State.setCell_standing, Cell.serving_self hxv, if_pos hx]
  exact { h.ok n with
    serving := fun stage hst => by
      cases hst
      exact ⟨hs, ho⟩ }

/-- R86: the quench starts, and ends at once when its current is at or below the limit. -/
theorem Accord.quenchStart (h : Accord c s) (hb : cellBreaking s.cell.stage = true) (hv : s.cell.served = some n)
    (ho : (s.str n).op = none) : Accord c (s.quenchStart n) := by
  have hq : Accord c (s.enterStage .quenching s.box.quenchTimeout) := h.setCell_break hb hv rfl hv (fun _ => ho)
  have hc := hq.setCell_same (x := { (s.enterStage .quenching s.box.quenchTimeout).cell with
    heat := s.cell.heat + heatOf (min (magnitude s.cell.monitor) 4000), limit := s.box.coldLimit }) rfl rfl
  have hh := hc.updStr_same n (f := fun r => r.editRecord fun q =>
      { q with kind := some .commutated, current := some ((min (magnitude s.cell.monitor) 4000 : Nat) : Int) }) ⟨rfl, rfl, rfl⟩
  unfold State.quenchStart
  simp only
  split
  · refine hh.quenchSucceeded rfl hv ?_
    rw [State.str_updStr_valid _ hc.size (h.number (n := n) (by rw [(h.of_served hb hv).1]; decide))]
    exact ho
  · exact hh

/-- R85: the cell conducts; the open pulse starts unless the contact is already open. -/
theorem Accord.conduct (h : Accord c s) (hs : s.cell.stage = .attaching) (hv : s.cell.served = some n) :
    Accord c (s.conduct n) := by
  have hb : cellBreaking s.cell.stage = true := by rw [hs]; rfl
  obtain ⟨hst, ho⟩ := h.of_served hb hv
  have ho := ho (by rw [hs]; decide)
  have hn := h.number (n := n) (by rw [hst]; decide)
  have hc : Accord c (s.enterStage .conducting s.box.contactTimeout) := h.setCell_break hb hv rfl hv (fun _ => ho)
  have hr := hc.updStr_same n (f := fun r => r.editRecord fun q => { q with kind := some .commutated, current := none })
    ⟨rfl, rfl, rfl⟩
  have hstr := State.str_updStr_valid (fun r => r.editRecord fun q => { q with kind := some .commutated, current := none })
    hc.size hn
  unfold State.conduct
  simp only
  split
  · exact hr.quenchStart rfl hv (by rw [hstr]; exact ho)
  · refine (((hr.but n).updStr _)).settle ?_
    rw [State.updStr_standing_self _ hr.size hn]
    exact { hr.ok n with
      opening := fun _ _ _ => (congrArg StringRec.state hstr).trans hst
      closing := fun _ _ _ hx => by cases hx
      serving := fun stage hx => by
        have hx' : (s.enterStage .conducting s.box.contactTimeout).cell.serving n = some stage := hx
        rw [Cell.serving_self (x := (s.enterStage .conducting s.box.contactTimeout).cell) hv] at hx'
        cases hx'
        exact ⟨(congrArg StringRec.state hstr).trans hst, fun hne => absurd rfl hne⟩ }

/-! ## Outcomes of contact operations (R98) -/

/-- R12: a break whose contact has not opened, the cell not serving it. -/
theorem Accord.breakStuck (h : Accord c s) (hs : (s.str n).state = .breaking) (ho : (s.str n).op = none)
    (hv : s.cell.serving n = none) : Accord c (s.breakStuck n) := by
  have he := h.breaking_unlisted hs
  have stuck : Accord c ((s.endBreak n).updStr n fun r => { r with state := .stuckClosed }) :=
    (h.but n).endBreak.become (h.endBreak_free hs ho hv) ⟨rfl, rfl⟩ (by simp) (by simp) (fun hne => absurd he hne)
      (fun _ _ => by simp [lockedStates]) (fun _ hk => by cases hk)
  unfold State.breakStuck
  extract_lets hard t
  split
  · exact (stuck.raise _).openRequest
  · exact stuck.raise _

theorem State.conductingFor_iff (s : State) (n : Nat) :
    s.conductingFor n = true ↔ s.cell.stage = .conducting ∧ s.cell.served = some n := by
  simp [State.conductingFor]

/-- A string whose operation was in flight is served by the cell in CONDUCTING or not at all. -/
theorem Cell.serving_of_conducting {x : Cell} (hs : ∀ stage, x.serving n = some stage → stage = .conducting)
    (hc : ¬(x.stage = .conducting ∧ x.served = some n)) : x.serving n = none := by
  cases h : x.serving n with
  | none => rfl
  | some stage =>
    have hk := hs stage h
    unfold Cell.serving at h
    split at h
    · next hv => cases h; exact absurd ⟨hk, hv.2⟩ hc
    · cases h

theorem Accord.pulseOpened (h : Accord c s) (hs : (s.str n).state = .breaking) (ho : (s.str n).op = none)
    (hv : ∀ stage, s.cell.serving n = some stage → stage = .conducting) : Accord c (s.pulseOpened n) := by
  unfold State.pulseOpened
  split
  · next hc =>
    obtain ⟨hst, hsv⟩ := (s.conductingFor_iff n).1 hc
    exact h.quenchStart (by rw [hst]; rfl) hsv ho
  · next hc =>
    rw [State.conductingFor_iff] at hc
    exact (h.but n).endBreak.offBus (h.endBreak_free hs ho (Cell.serving_of_conducting hv hc)) (h.breaking_unlisted hs)

theorem Accord.pulseStuck (h : Accord c s) (hs : (s.str n).state = .breaking) (ho : (s.str n).op = none)
    (hv : ∀ stage, s.cell.serving n = some stage → stage = .conducting) : Accord c (s.pulseStuck n) := by
  unfold State.pulseStuck
  split
  · next hc =>
    obtain ⟨hst, hsv⟩ := (s.conductingFor_iff n).1 hc
    have detached : Accord c (s.enterStage .detaching 30) := by
      refine ((h.but n).enterDetaching (fun _ => hsv) 30).settle ?_
      rw [State.enterStage, State.setCell_standing, Cell.serving_off rfl]
      exact { h.ok n with serving := fun _ hx => by cases hx }
    exact detached.breakStuck hs ho (Cell.serving_off rfl n)
  · next hc =>
    rw [State.conductingFor_iff] at hc
    exact h.breakStuck hs ho (Cell.serving_of_conducting hv hc)

/-- The contact operation of a string ends: the string keeps its state, without an operation. -/
theorem Accord.clearOp (h : Accord c s) (hn : stringNumber n = true) :
    Accord c (s.updStr n fun r => { r with op := none }) := by
  refine ((h.but n).updStr _).settle ?_
  rw [State.updStr_standing_self _ h.size hn]
  exact { h.ok n with
    opening := fun _ _ hx => by cases hx
    closing := fun _ _ _ hx => by cases hx
    serving := fun stage hx => ⟨((h.ok n).serving stage hx).1, fun _ => rfl⟩ }

/-- A string with an open pulse is BREAKING and, when the cell serves it, the cell conducts. -/
theorem Accord.of_opening (h : Accord c s) {a b : Nat} (ho : (s.str n).op = some (.opening a b)) :
    (s.str n).state = .breaking ∧ ∀ stage, s.cell.serving n = some stage → stage = .conducting := by
  refine ⟨(h.ok n).opening a b ho, fun stage hs => ?_⟩
  by_contra hne
  have := ((h.ok n).serving stage hs).2 hne
  cases (ho.symm.trans this)

theorem Accord.contactMoved (h : Accord c s) (n : Nat) (position : Contact) : Accord c (s.contactMoved n position) := by
  have hp := h.updStr_same n (f := fun r => { r with position := position }) ⟨rfl, rfl, rfl⟩
  unfold State.contactMoved
  simp only
  revert hp
  generalize (s.updStr n fun r => { r with position := position }) = t
  intro hp
  split
  · next a b ho =>
    obtain ⟨hs, hv⟩ := hp.of_opening ho
    have hn := hp.number (n := n) (by rw [hs]; decide)
    have hstr := State.str_updStr_valid (s := t) (fun r => { r with op := none }) hp.size hn
    exact (hp.clearOp hn).pulseOpened (by rw [hstr]; exact hs) (by rw [hstr]) hv
  · next o a b ho =>
    have hs := (hp.ok n).closing o a b ho
    have hs : (t.str n).state = .closing := hs
    have hn := hp.number (n := n) (by rw [hs]; decide)
    have hstr := State.str_updStr_valid (s := t) (fun r => { r with op := none }) hp.size hn
    exact (hp.clearOp hn).closeConfirmed (by rw [hstr]; exact hs) (by rw [hstr]) o
  all_goals exact hp

theorem Accord.contactExpired (h : Accord c s) (n : Nat) : Accord c (s.contactExpired n) := by
  unfold State.contactExpired
  split
  · exact h
  · next a b ho =>
    have hr := h.reach (a + b)
    obtain ⟨hs, hv⟩ := h.of_opening ho
    have hn := h.number (n := n) (by rw [hs]; decide)
    have hstr := State.str_updStr_valid (s := s.reach (a + b)) (fun r => { r with op := none }) h.size hn
    exact (hr.clearOp hn).pulseStuck (by rw [hstr]; exact hs) (by rw [hstr]) hv
  · next o a b ho =>
    have hr := h.reach (a + b)
    have hs : (s.str n).state = .closing := (h.ok n).closing o a b ho
    have hn := h.number (n := n) (by rw [hs]; decide)
    have hstr := State.str_updStr_valid (s := s.reach (a + b)) (fun r => { r with op := none }) h.size hn
    exact (hr.clearOp hn).closeFailed (by rw [hstr]; exact hs) (by rw [hstr])

/-! ## Tap feedback and the cell's timeouts -/

theorem Accord.tapClosed (h : Accord c s) (n : Nat) : Accord c (s.tapClosed n) := by
  unfold State.tapClosed
  split
  · next hs => exact h.conduct hs.1 hs.2
  · exact h

/-- R84, R77: the string whose tap has not closed is QUEUED again in its entry's place. -/
theorem Accord.returnEntry (h : Accord c s) (hs : s.cell.stage = .attaching) (hv : s.cell.served = some n)
    {b : BreakFlight} (hb : b.entry.string = n) :
    Accord c ((((s.endBreak n).enqueue b.entry).updStr n fun r => { r with state := .queued, tapFault := true }).setCell
      { s.cell with stage := .idle, served := none, releasing := false }) := by
  have hbr : cellBreaking s.cell.stage = true := by rw [hs]; rfl
  obtain ⟨hst, ho⟩ := h.of_served hbr hv
  have ho := ho (by rw [hs]; decide)
  have hst' : (s.standing n).state = .breaking := hst
  have hn := h.number (n := n) (by rw [hst]; decide)
  have he := h.breaking_unlisted hst
  have hbut := (h.but n).endBreak.enqueue hb
  refine ((hbut.updStr _).setCell_self (fun hx => by cases hx) (fun _ => hv)).settle ?_
  have hw : (s.endBreak n).sched.waiting n = 0 := (h.ok n).waiting.trans (if_neg (by rw [hst']; decide))
  have hi := (h.ok n).not_idle (by rw [hst']; decide)
  have hu := (h.ok n).configured (by rw [hst']; decide)
  rw [State.setCell_standing, State.updStr_standing_self _ hbut.size hn, State.enqueue_standing, State.endBreak_standing,
    if_pos rfl, if_pos hb, hw, Cell.serving_off rfl]
  exact { waiting := rfl
          breaks := rfl
          opening := fun _ _ hx => by cases (ho.symm.trans hx)
          closing := fun _ _ _ hx => by cases (ho.symm.trans hx)
          serving := fun _ hx => by cases hx
          single := (h.ok n).single
          listed := fun hne => absurd he hne
          flight := (h.ok n).flight
          configured := fun _ => hu
          idle := fun hx => absurd hx hi
          recorded := fun _ _ => by simp [lockedStates]
          lockedOut := fun _ hx => by cases hx
          closable := fun _ hm => absurd he (List.ne_nil_of_mem hm) }

theorem Accord.attachExpired (h : Accord c s) : Accord c s.attachExpired := by
  unfold State.attachExpired
  split
  · next n hs hv =>
    have hr := h.reach (s.cell.since + s.cell.timeout)
    obtain ⟨b, hb, hbn⟩ := hr.breaking (n := n) (h.of_served (by rw [hs]; rfl) hv).1
    simp only [hb]
    exact (hr.returnEntry hs hv hbn).walk
  · exact h

theorem Accord.failedFreed (h : Accord c s) (n : Nat) : Accord c (s.failedFreed n) := by
  unfold State.failedFreed
  split
  · next hs =>
    exact (h.settlePlace (h.free (by rw [hs]; decide) (by rw [hs]; decide) (by rw [hs]; decide)
      ((h.ok n).no_op (by rw [show (s.standing n).state = _ from hs]; decide)
        (by rw [show (s.standing n).state = _ from hs]; decide)))
      (h.unlisted (by rw [hs]; decide) (by rw [hs]; decide)) (.str .contact n)).2
  · exact h

theorem Accord.tapReleased (h : Accord c s) (n : Nat) : Accord c (s.tapReleased n) := by
  unfold State.tapReleased
  split
  · exact h
  · split
    case h_1 hs => exact h.setCell_off (by rw [hs]; rfl) rfl
    case h_2 hs =>
      split
      · exact (h.cellRested (by rw [hs]; rfl)).failedFreed n
      · exact h
    all_goals exact h

theorem Accord.detachExpired (h : Accord c s) : Accord c s.detachExpired := by
  unfold State.detachExpired
  split
  · next n hs hv =>
    exact ((((h.reach (s.cell.since + s.cell.timeout)).cellFaulted (by rw [State.reach, State.setPart_cell, hs]; rfl)
      .detaching (some n)).updStr_same n (f := fun r => { r with tapFault := true }) ⟨rfl, rfl, rfl⟩)).escalateWaiting
  · exact h

theorem Accord.releaseExpired (h : Accord c s) : Accord c s.releaseExpired := by
  unfold State.releaseExpired
  split
  · exact ((h.reach (s.cell.since + s.cell.timeout)).setCell_same (x := { s.cell with
      releasing := false, fault := s.cell.fault.map fun f => { f with stage := .restore } }) rfl rfl).raise (.box .cellFault)
  · exact h

theorem Accord.monitorReads (h : Accord c s) (w : Word16) : Accord c (s.monitorReads w) := by
  have hm : Accord c (s.setCell { s.cell with monitor := w }) := h.setCell_same rfl rfl
  unfold State.monitorReads
  simp only
  split
  · next n hs hv =>
    have hs' : s.cell.stage = .quenching := hs
    split
    · exact hm.quenchSucceeded (by rw [hs]; rfl) hv
        ((h.of_served (n := n) (by rw [hs']; rfl) hv).2 (by rw [hs']; decide))
    · exact hm
  · exact hm

/-- R90: the quench has failed; the string is BREAK_FAILED. -/
theorem Accord.quenchExpired (h : Accord c s) : Accord c s.quenchExpired := by
  unfold State.quenchExpired
  split
  · next n hs hv =>
    have hr := h.reach (s.cell.since + s.cell.timeout)
    have hb : cellBreaking s.cell.stage = true := by rw [hs]; rfl
    obtain ⟨hst, ho⟩ := h.of_served (n := n) hb hv
    have he := h.breaking_unlisted hst
    have hf : AccordBut c n ((s.reach (s.cell.since + s.cell.timeout)).cellFaulted .quenching (some n)) :=
      ((hr.but n).setCell_self (fun hx => by cases hx) (fun _ => hv)).raise _
    have freed : Free c n (((s.reach (s.cell.since + s.cell.timeout)).cellFaulted .quenching (some n)).endBreak n) := by
      refine (hr.endBreak_setCell_free hst (ho (by rw [hs]; decide)) (Cell.serving_off (x := { s.cell with
        stage := .faulted, served := some n, releasing := false
        fault := some ⟨.quenching, some n, magnitude s.cell.monitor, s.scan.counter⟩ }) rfl n)).of_standing ?_
      simp only [State.cellFaulted, State.raiseBox_eq, State.endBreak_standing, State.raise_standing,
        State.setCell_standing, if_true]
      rfl
    exact (hf.endBreak.become freed (f := fun r => { r with state := .breakFailed }) ⟨rfl, rfl⟩ (by simp) (by simp)
      (fun hne => absurd (by simpa [State.cellFaulted, State.endBreak, State.reach] using he) hne)
      (fun _ _ => by simp [lockedStates]) (fun _ hx => by cases hx)).openRequest
  · exact h

theorem Accord.restEnded (h : Accord c s) : Accord c s.restEnded := by
  unfold State.restEnded
  split
  · next hs => exact (h.reach _).cellRested (by rw [State.reach, State.setPart_cell, hs]; rfl)
  · exact h

theorem Accord.cellCooled (h : Accord c s) : Accord c s.cellCooled := by
  unfold State.cellCooled
  split
  · next hs => exact h.cellIdle (by rw [hs.1]; rfl)
  · exact h

/-! ## The isolator -/

theorem Accord.closeOver (h : Accord c s) (state : IsolatorState) : Accord c (s.closeOver state) := by
  unfold State.closeOver
  simp only
  split
  · exact ((h.setIsolator _).raise _).openRequest
  · exact (h.setIsolator _).raise _

theorem Accord.startClosing (h : Accord c s) : Accord c s.startClosing := by
  unfold State.startClosing
  simp only
  split
  · exact ((h.setIsolator _).raise _).closeOver _
  · exact (h.setIsolator _).raise _

theorem Accord.isolatorReads (h : Accord c s) (feedback : Travel) : Accord c (s.isolatorReads feedback) := by
  have hi : Accord c (s.setIsolator { s.isolator with feedback := feedback }) := h.setIsolator _
  unfold State.isolatorReads
  simp only
  split
  · exact hi.isolatorOpened.walk
  · exact hi.closeOver _
  · exact hi

theorem Accord.isolatorExpired (h : Accord c s) : Accord c s.isolatorExpired := by
  unfold State.isolatorExpired
  split
  · exact ((h.reach _).setIsolator _).raise _
  · exact (h.reach _).closeOver _
  all_goals exact h

theorem Accord.isolatorCompared (h : Accord c s) : Accord c s.isolatorCompared := by
  unfold State.isolatorCompared
  split
  · exact h.isolatorOpened.walk
  · exact (h.setIsolator _).raise _
  · exact (h.setIsolator _).raise _
  · simp only
    split
    · exact ((h.setIsolator _).raise _).openRequest
    · exact (h.setIsolator _).raise _
  · exact h

end

end Sys2Proof.Machine
end

