-- ==== Sys2Proof/Proofs/AccordVerdict.lean ====
section
/-! SUPPORT. The probe unit's stages, verdicts and close orders, the supervision timer and the shutdown monitor keep the
tables in accord. -/

namespace Sys2Proof.Machine

section
variable {c : Claims} {s : State} {n : Nat}

/-! ## Verdicts (R16, R17, R128) -/

theorem Accord.requestWrite (h : Accord c s) : Accord c s.requestWrite := by
  rcases s.requestWrite_cases with ⟨w, -, hw⟩ | ⟨-, hw⟩ <;> rw [hw] <;> exact h.of_same rfl rfl fun _ => rfl

theorem State.requestWrite_standing (s : State) (m : Nat) : s.requestWrite.standing m = s.standing m := by
  rcases s.requestWrite_cases with ⟨w, -, hw⟩ | ⟨-, hw⟩ <;> rw [hw] <;> rfl

/-- R17: the addition of a lockout record changes that string's lock alone. -/
theorem State.addLockout_standing (s : State) (n : Nat) (v : Verdict) (m : Nat) :
    (s.addLockout n v).standing m = { s.standing m with locked := s.locked m || m == n } := by
  unfold State.addLockout
  split
  · next hl =>
    by_cases hm : m = n
    · subst hm; simp [State.standing, hl]
    · simp [State.standing, hm]
  · rw [State.requestWrite_standing]
    simp [State.standing, State.locked, Bool.beq_comm (a := m)]

theorem State.addLockout_strings (s : State) (n : Nat) (v : Verdict) : (s.addLockout n v).strings = s.strings := by
  unfold State.addLockout
  split
  · rfl
  · rcases (s.setLockouts (s.lockouts ++ [⟨n, v, s.peer.day⟩])).requestWrite_cases with ⟨w, -, hw⟩ | ⟨-, hw⟩ <;> rw [hw] <;> rfl

theorem State.addLockout_cell (s : State) (n : Nat) (v : Verdict) : (s.addLockout n v).cell = s.cell := by
  unfold State.addLockout
  split
  · rfl
  · rcases (s.setLockouts (s.lockouts ++ [⟨n, v, s.peer.day⟩])).requestWrite_cases with ⟨w, -, hw⟩ | ⟨-, hw⟩ <;> rw [hw] <;> rfl

/-- R16: a locking verdict of a string that the probe list no longer holds. -/
theorem Accord.lockOut (h : Accord c s) (he : s.probe.purposes n = [])
    (hs : c.locks → (s.str n).state = .isolated ∨ (s.str n).state = .lockedOut) (v : Verdict) :
    Accord c (s.lockOut n v) := by
  have hl : ((s.addLockout n v).raise (.str .locked n)).strings = s.strings := by
    rw [State.raise_strings, State.addLockout_strings]
  have hst (m : Nat) : ((s.addLockout n v).raise (.str .locked n)).standing m =
      { s.standing m with locked := s.locked m || m == n } := by
    rw [State.raise_standing, State.addLockout_standing]
  have hbut : AccordBut c n ((s.addLockout n v).raise (.str .locked n)) :=
    (h.but n).of_standing (by rw [hl]) (by rw [State.raise_cell, State.addLockout_cell]) fun m hm => by
      rw [hst m]; simp [State.standing, hm]
  refine (hbut.updStr _).settle ?_
  by_cases hn : stringNumber n = true
  · rw [State.updStr_standing_self _ hbut.size hn, hst n, State.str_congr hl]
    have k := h.ok n
    by_cases hi : (s.str n).state = .isolated
    · simp only [hi, if_true, beq_self_eq_true, Bool.or_true]
      have hi' : (s.standing n).state = .isolated := hi
      have ho := k.no_op (by rw [hi']; decide) (by rw [hi']; decide)
      have hv := k.not_serving (by rw [hi']; decide)
      exact { waiting := k.waiting.trans (if_neg (by rw [hi']; decide))
              breaks := k.breaks.trans (if_neg (by rw [hi']; decide))
              opening := fun a b hx => by cases (ho.symm.trans hx)
              closing := fun o a b hx => by cases (ho.symm.trans hx)
              serving := fun stage hx => by cases (hv.symm.trans hx)
              single := k.single
              listed := fun hne => absurd he hne
              flight := k.flight
              configured := fun _ => k.configured (by rw [hi']; decide)
              idle := fun hx => absurd hx (k.not_idle (by rw [hi']; decide))
              recorded := fun _ _ => by simp [lockedStates]
              lockedOut := fun _ _ => rfl
              closable := fun _ hm => absurd he (List.ne_nil_of_mem hm) }
    · simp only [hi, if_false, beq_self_eq_true, Bool.or_true]
      exact { k with
        recorded := fun hp _ => by
          rcases hs (c.locks_of_placed n hp) with hx | hx
          · exact absurd hx hi
          · show (s.str n).state ∈ lockedStates
            simp [hx, lockedStates]
        lockedOut := fun _ _ => rfl }
  · have hout : (((s.addLockout n v).raise (.str .locked n)).updStr n fun r =>
        { r with state := if r.state = .isolated then .lockedOut else r.state }).standing n =
          { s.standing n with locked := s.locked n || n == n } := by
      have hstr := State.str_outside ((s.addLockout n v).raise (.str .locked n)) n
        (by have := h.size; rw [stringNumber_iff] at hn; rw [hl]; omega)
      rw [← hst n]
      refine State.updStr_standing_same _ n ⟨?_, rfl, rfl⟩ n
      rw [hstr]
      rfl
    rw [hout]
    have hu : (s.str n).state = .unused := by by_contra hx; exact hn (h.number hx)
    exact { h.ok n with
      recorded := fun hp _ => by rcases hs (c.locks_of_placed n hp) with hx | hx <;> rw [hu] at hx <;> cases hx
      lockedOut := fun _ hx => by cases (hu.symm.trans hx) }

theorem State.mayReconnect_isolated (h : s.mayReconnect n = true) : (s.str n).state = .isolated := by
  simp only [State.mayReconnect, Bool.and_eq_true, beq_iff_eq] at h
  exact h.1.1.1.1.1

theorem Accord.reconnectAuto (h : Accord c s) (n : Nat) : Accord c (s.reconnectAuto n) := by
  unfold State.reconnectAuto
  split
  · next hm =>
    have hi := State.mayReconnect_isolated hm
    have hn := h.number (n := n) (by rw [hi]; decide)
    have hstr : ((s.updStr n fun r => { r with budget := r.budget - 1 }).str n).state = .isolated := by
      rw [State.str_updStr_valid _ h.size hn]; exact hi
    exact (h.updStr_same n ⟨rfl, rfl, rfl⟩).place _ _ (.inl hstr) fun _ _ => hstr
  · exact h

/-- R16: a verdict of a string that the probe list no longer holds. -/
theorem Accord.verdictReported (h : Accord c s) (he : s.probe.purposes n = [])
    (hs : c.locks → (s.str n).state = .isolated ∨ (s.str n).state = .lockedOut) (x : Finding) :
    Accord c (s.verdictReported n x) := by
  have ht := (h.updStr_same n (f := fun r =>
    { r.editRecord (fun q => { q with verdict := some x.verdict, missing := x.missing, position := x.position }) with
      verdict := some x.verdict }) ⟨rfl, rfl, rfl⟩).raise (.str .verdict n)
  unfold State.verdictReported
  simp only
  split
  · refine ht.lockOut (by simpa using he) (fun hl => ?_) _
    rw [State.raise_str]
    rcases s.str_updStr n n (fun r =>
      { r.editRecord (fun q => { q with verdict := some x.verdict, missing := x.missing, position := x.position }) with
        verdict := some x.verdict }) with hx | ⟨-, hx⟩ <;> rw [hx]
    · exact hs hl
    · exact hs hl
  · split
    · exact ht.reconnectAuto n
    · exact ht

/-! ## Stages of a probe (R116) -/

/-- R113, R116: an entry leaves the list and the flight, if it is on that string, is in RELEASE without a pass. -/
theorem Accord.dropEntry (h : Accord c s) (n : Nat)
    (hf : ∀ g, s.probe.flight = some g → g.string = n → g.stage = .release ∧ g.pass = false) : Accord c (s.dropEntry n) := by
  refine h.setProbe _ (purposes_filter s.probe _ _) fun g hg => ?_
  by_cases hn : g.string = n
  · obtain ⟨h1, h2⟩ := hf g hg hn
    rw [show g.outline = (g.purpose, .release, false) by simp [ProbeFlight.outline, h1, h2]]
    exact .release _ _
  · rw [purposes_filter_ne _ _ hn]
    exact h.flightOk hg

theorem State.dropEntry_purposes (s : State) (n : Nat) : (s.dropEntry n).probe.purposes n = [] :=
  purposes_filter_self _ _ n

theorem Accord.enterRelease (h : Accord c s) (f : ProbeFlight) : Accord c (s.enterRelease f false) := by
  refine h.setFlight _ fun g hg => ?_
  cases hg
  exact .release _ _

/-- R123: the verdict of a probe in flight. -/
theorem Accord.verdictFormed (h : Accord c s) {f : ProbeFlight} (hf : s.probe.flight = some f) (hr : f.stage ≠ .release)
    (x : Finding) : Accord c (s.verdictFormed f x) := by
  have hv : Accord c ((s.dropEntry f.string).enterRelease f false) := by
    have hd := (h.enterRelease f).dropEntry f.string fun g hg _ => by cases hg; exact ⟨rfl, rfl⟩
    exact hd
  have he : ((s.dropEntry f.string).enterRelease f false).probe.purposes f.string = [] := s.dropEntry_purposes f.string
  refine hv.verdictReported he (fun hl => ?_) x
  have hk := (h.flightOk hf).inFlight hl hr
  exact (h.ok f.string).listed (List.ne_nil_of_mem hk)

/-- R117, R118: the end of a probe in flight. -/
theorem Accord.diagnosed (h : Accord c s) {f : ProbeFlight} (hf : s.probe.flight = some f) (hr : f.stage ≠ .release)
    (p1 p2 p3 : Poles) : Accord c (s.diagnosed f p1 p2 p3) := by
  have again : Accord c (s.inconsistent f) := by
    unfold State.inconsistent
    split
    · exact h.verdictFormed hf hr _
    · split
      · have hp (n : Nat) := purposes_map s.probe (fun x => if x.string = f.string then { x with attempts := 1 } else x)
          s.probe.flight (fun x => by split <;> exact ⟨rfl, rfl⟩) n
        have k := h.flightOk hf
        have hm := h.mapEntries (fun x => if x.string = f.string then { x with attempts := 1 } else x)
          (fun x => by split <;> exact ⟨rfl, rfl⟩)
        refine hm.setFlight _ fun g hg => ?_
        cases hg
        rw [State.setProbe_probe, hp]
        exact ⟨fun hq _ => k.check hq hr, k.pass, fun hl _ => k.inFlight hl hr⟩
      · exact h.verdictFormed hf hr _
  unfold State.diagnosed
  split
  · exact h.verdictFormed hf hr _
  · exact h.verdictFormed hf hr _
  · exact h.verdictFormed hf hr _
  · exact again

/-- R125: a failed check in RELEASE. -/
theorem Accord.checkFailed (h : Accord c s) (n : Nat)
    (hf : ∀ g, s.probe.flight = some g → g.stage = .release ∧ g.pass = false) : Accord c (s.checkFailed n) := by
  unfold State.checkFailed
  split
  · exact h
  · simp only
    have ht := h.updStr_same n (f := fun r => r.editRecord fun q => { q with closeFailed := min 20 (q.closeFailed + 1) })
      ⟨rfl, rfl, rfl⟩
    split
    · exact ht.mapEntries _ fun x => by split <;> exact ⟨rfl, rfl⟩
    · exact (ht.dropEntry n fun g hg _ => hf g hg).raise _

/-- R124: the judgement of a check in P1. -/
theorem Accord.checked (h : Accord c s) {f : ProbeFlight} (hf : s.probe.flight = some f) (hr : f.stage ≠ .release)
    (hp : f.purpose = .preClose) (p : Poles) : Accord c (s.checked f p) := by
  unfold State.checked
  split
  · refine h.setFlight _ fun g hg => ?_
    cases hg
    have k := (h.flightOk hf).check hp hr
    exact ⟨fun _ hx => absurd rfl hx, fun _ => ⟨hp, k⟩, fun _ hx => absurd rfl hx⟩
  · exact (h.enterRelease f).checkFailed _ fun g hg => by cases hg; exact ⟨rfl, rfl⟩

/-- A flight that goes on before its RELEASE keeps its purpose and pass. -/
theorem Accord.stageFlight (h : Accord c s) {f g : ProbeFlight} (hf : s.probe.flight = some f) (hr : f.stage ≠ .release)
    (hs : g.string = f.string) (hp : g.purpose = f.purpose) (hb : g.pass = f.pass) : Accord c (s.setFlight (some g)) := by
  have k := h.flightOk hf
  refine h.setFlight _ fun x hx => ?_
  cases hx
  rw [hs, show g.outline = (f.purpose, g.stage, f.pass) by simp [ProbeFlight.outline, hp, hb]]
  exact ⟨fun hq _ => k.check hq hr, k.pass, fun hl _ => k.inFlight hl hr⟩

theorem Accord.settled (h : Accord c s) : Accord c s.settled := by
  unfold State.settled
  split
  · exact h
  · next f hf =>
    split
    · exact h
    · next hr =>
      exact (h.reach _).stageFlight hf (fun hx => hr (.inl hx)) rfl rfl rfl

theorem Accord.reading (h : Accord c s) (vp vn : List Word16) : Accord c (s.reading vp vn) := by
  unfold State.reading
  split
  · exact h
  · next f hf =>
    split
    · exact h
    · have ht := h.reach (f.since + f.settle + 8)
      simp only
      split
      case h_1 hs hp => exact ht.checked hf (by rw [hs]; decide) hp _
      case h_2 hs hp => exact ht.stageFlight hf (by rw [hs]; decide) rfl rfl rfl
      case h_3 hs => exact ht.stageFlight hf (by rw [hs]; decide) rfl rfl rfl
      case h_4 hs _ _ => exact ht.diagnosed hf (by rw [hs]; decide) _ _ _
      all_goals exact h

/-! ## The close order (R100, R129) -/

theorem Accord.startClose (h : Accord c s) (hs : (s.str n).state = .isolated ∨ (s.str n).state = .lockedOut)
    (he : s.probe.purposes n = []) (hl : c.placed n → s.locked n = false) (origin : Origin) :
    Accord c (s.startClose n origin) := by
  have other {x : StringState} (h1 : x ≠ .isolated) (h2 : x ≠ .lockedOut) : (s.str n).state ≠ x :=
    fun hx => hs.elim (fun h => h1 (hx.symm.trans h)) (fun h => h2 (hx.symm.trans h))
  have ho := (h.ok n).no_op (other (by decide) (by decide)) (other (by decide) (by decide))
  have k := h.free (other (by decide) (by decide)) (other (by decide) (by decide)) (other (by decide) (by decide)) ho
  unfold State.startClose
  split
  · have hc : Accord c (s.updStr n _) := (h.but n).become (f := fun r => { r with state := .closing }) k ⟨rfl, rfl⟩
      (by simp) (by simp) (fun hne => absurd he hne) (fun hp hk => by rw [hl hp] at hk; cases hk) (fun _ hx => by cases hx)
    have hstr := State.str_updStr_valid (fun r => { r with state := .closing }) h.size k.number
    exact hc.closeConfirmed (by rw [hstr]) (by rw [hstr]; exact ho) origin
  · refine ((h.but n).updStr _).settle ?_
    rw [State.updStr_standing_self _ h.size k.number]
    exact { waiting := k.waiting
            breaks := k.breaks
            opening := fun a b hx => by cases hx
            closing := fun o a b hx => rfl
            serving := fun stage hx => by cases (k.serving.symm.trans hx)
            single := k.entries
            listed := fun hne => absurd he hne
            flight := k.flight
            configured := fun _ => k.used
            idle := fun hx => absurd hx k.active
            recorded := fun hp hk => by cases (hl hp).symm.trans hk
            lockedOut := fun _ hx => by cases hx
            closable := fun _ hm => absurd he (List.ne_nil_of_mem hm) }

theorem Accord.released (h : Accord c s) : Accord c s.released := by
  unfold State.released
  split
  · exact h
  · next f hf =>
    split
    · simp only
      refine Accord.lookForWork ?_
      have ht : Accord c ((s.reach (f.since + 20)).setFlight none) := (h.reach _).setFlight none fun _ hx => by cases hx
      split
      · next hp =>
        have hm := (h.flightOk hf).pass hp
        have hd := ht.dropEntry f.string fun g hg => by cases hg
        have hs := (h.ok f.string).listed (List.ne_nil_of_mem hm.2)
        unfold State.closeOrder
        simp only
        split
        · exact hd
        · refine hd.startClose hs (State.dropEntry_purposes _ _) (fun hpl => ?_) _
          have hi := (h.ok f.string).closable (c.locks_of_placed _ hpl) hm.2
          exact h.unlocked (by rw [show (s.str f.string).state = .isolated from hi]; decide) hpl
      · exact ht
    · exact h

/-! ## Supervision and the shutdown monitor -/

theorem Accord.lapse (h : Accord c s) : Accord c s.lapse := by
  have hs : Accord c (s.setSupervision { s.supervision with state := .lapsed }) := h.of_same rfl rfl fun _ => rfl
  exact (hs.raise _).withdrawAllPreClose

theorem Accord.longExpired (h : Accord c s) : Accord c s.longExpired := by
  unfold State.longExpired
  split
  · exact (h.reach _).lapse
  · exact h

theorem Accord.openExpired (h : Accord c s) : Accord c s.openExpired := by
  unfold State.openExpired
  split
  · exact (h.reach _).lapse
  · exact h

theorem Accord.recheckWindows (h : Accord c s) (old : BoxSettings) : Accord c (s.recheckWindows old) := by
  unfold State.recheckWindows
  split
  · split; exacts [h.lapse, h]
  · split; exacts [h.lapse, h]
  · exact h

theorem Accord.heartbeat (h : Accord c s) (token : Word16) : Accord c (s.heartbeat token) := by
  unfold State.heartbeat
  split
  · exact h.of_same rfl rfl fun _ => rfl
  · exact h.lapse
  · exact h.lapse
  · split
    · exact h
    · exact h.lapse

theorem Accord.clearAttention (h : Accord c s) (mask : List Byte) : Accord c (s.clearAttention mask) := by
  unfold State.clearAttention
  simp only
  split <;> exact h.of_same rfl rfl fun _ => rfl

theorem Accord.foldl {α : Type} {f : State → α → State} (hf : ∀ t x, Accord c t → Accord c (f t x)) (l : List α)
    (h : Accord c s) : Accord c (l.foldl f s) := by
  induction l generalizing s with
  | nil => exact h
  | cons x xs ih => exact ih (hf s x h)

theorem Accord.drawn (h : Accord c s) : Accord c s.drawn := h.of_same rfl rfl fun _ => rfl

theorem Accord.assertShutdown (h : Accord c s) : Accord c s.assertShutdown := by
  have ha : Accord c (s.setShutdown { s.shutdown with asserted := true }) := h.of_same rfl rfl fun _ => rfl
  have hr : Accord c (s.setShutdown { s.shutdown with asserted := true }).openRequest.shutdownRequests :=
    (Accord.foldl (fun t n ht => ht.request n .shutdown) _ ha.openRequest).drawn
  exact hr.abortKeeping.withdrawAllPreClose.raise _

theorem Accord.lineHeld (h : Accord c s) (low : Bool) : Accord c (s.lineHeld low) := by
  unfold State.lineHeld
  split
  · exact h.reach _
  · exact h.of_same rfl rfl fun _ => rfl

theorem Accord.lowTaken (h : Accord c s) : Accord c s.lowTaken := by
  unfold State.lowTaken
  simp only
  split
  · exact (h.lineHeld true).assertShutdown
  · exact h.lineHeld true

theorem Accord.highTaken (h : Accord c s) : Accord c s.highTaken := by
  have hr {t : State} (ht : Accord c t) : Accord c t.releaseShutdown := by
    have hs : Accord c (t.setShutdown { t.shutdown with asserted := false }) := ht.of_same rfl rfl fun _ => rfl
    exact (hs.raise _).lookForWork
  unfold State.highTaken
  simp only
  split
  · exact hr (h.lineHeld false)
  · exact h.lineHeld false

end

end Sys2Proof.Machine
end

