-- ==== Sys2Proof/Proofs/AccordRound.lean ====
section
/-! SUPPORT. Rounds, the configuration messages, resets and the start-up keep the tables in accord. -/

namespace Sys2Proof.Machine

section
variable {c : Claims} {s : State} {n : Nat}

/-! ## Rounds (R21 to R26) -/

theorem Accord.setScan (h : Accord c s) (x : ScanUnit) : Accord c (s.setScan x) := h.of_same rfl rfl fun _ => rfl

theorem Accord.setPeer (h : Accord c s) (x : Comparator) : Accord c (s.setPeer x) := h.of_same rfl rfl fun _ => rfl

theorem Accord.startRound (h : Accord c s) : Accord c s.startRound := by
  unfold State.startRound
  split
  · exact h
  · exact h.setScan _

theorem Accord.enterFallback (h : Accord c s) : Accord c s.enterFallback := ((h.setScan _).raise _).startRound

theorem Accord.recheckSource (h : Accord c s) : Accord c s.recheckSource := by
  unfold State.recheckSource
  split
  · exact h
  · split
    · split; exacts [h.startRound, h]
    · split; exacts [h.startRound, h]
    · split; exacts [h.enterFallback, h]

theorem Accord.roundTimer (h : Accord c s) : Accord c s.roundTimer := by
  unfold State.roundTimer
  split
  · exact (h.reach _).startRound
  · exact (h.reach _).startRound
  · exact h

theorem Accord.syncEdge (h : Accord c s) : Accord c s.syncEdge := by
  unfold State.syncEdge
  split
  · exact h
  · exact h.startRound
  · exact (h.setScan _).startRound

theorem Accord.syncWatch (h : Accord c s) : Accord c s.syncWatch := by
  unfold State.syncWatch
  split
  · exact (h.reach _).enterFallback
  · exact h
  · exact h

/-! ## A completion (R22) -/

theorem Accord.deliverRound (h : Accord c s) (r : Round) : Accord c (s.deliverRound r) := by
  have channel (t : State) (x : Channel) (ht : Accord c t) : Accord c (t.deliverChannel r.total r.capture x) := by
    have hd : Accord c (t.updStr x.string fun q => q.deliver x r.total r.capture) := ht.updStr_same _ ⟨rfl, rfl, rfl⟩
    unfold State.deliverChannel
    simp only
    split
    · exact hd.raise _
    · exact hd
  have temps (t : State) (x : List Int) (ht : Accord c t) : Accord c (t.deliverTemps x) := by
    unfold State.deliverTemps
    simp only
    split
    · exact (ht.setScan _).raise _
    · exact ht.setScan _
  exact temps _ _ (Accord.foldl channel _ (h.setScan _))

theorem StringRec.normalize_judged (r : StringRec) : r.Judged r.normalize := by
  unfold StringRec.normalize
  split
  · exact ⟨rfl, rfl, .inl rfl⟩
  · exact .refl r

theorem Accord.compare (h : Accord c s) (fresh : List Nat) : Accord c (s.compare fresh) := by
  refine h.of_judged (.of_getNum .refl (by simp [State.compare]) fun n r hr => ?_) rfl rfl rfl rfl
  obtain ⟨p, hp, -⟩ := s.compare_getNum fresh n r hr
  refine ⟨_, hp, ?_⟩
  split
  · exact .trans _ _ _ r.normalize_judged ⟨rfl, rfl, .inl rfl⟩
  · exact r.normalize_judged

theorem Accord.decideDay (h : Accord c s) : Accord c s.decideDay := by
  have night : Accord c s.enterNight := (((h.setPeer _).setScan _).raise _).abortKeeping
  have day : Accord c s.startDay := by
    refine Accord.raise (Accord.updAll (h.setPeer _) fun r => ?_) _
    split
    · exact ⟨rfl, rfl, .inl rfl⟩
    · exact .refl r
  unfold State.decideDay
  split
  · split; exacts [h, day]
  · split
    · split; exacts [night, h.setPeer _]
    · exact h.setPeer _

theorem StringRec.monitor_judged (r : StringRec) (mode : Mode) (box : BoxSettings) (night : Bool) (g : Option GroupRec) :
    r.Judged (r.monitor mode box night g).figures := by
  unfold StringRec.monitor
  split
  · exact ⟨rfl, rfl, .inl rfl⟩
  · exact .refl r

theorem Accord.applyJudgements (h : Accord c s) : Accord c (s.applyJudgements s.judgements) := by
  refine Accord.foldl (fun t x ht => ht.raise _) _ (h.of_judged (.of_getNum .refl ?_ fun n r hr => ?_) rfl rfl rfl rfl)
  · simp [State.judgements]
  · exact ⟨(r.monitor s.mode s.box s.peer.night (s.grp r.cfg.group)).figures, by simp [State.judgements, getNum_map, hr],
      r.monitor_judged _ _ _ _⟩

theorem Accord.controllerTurn (h : Accord c s) (js : List Judgement) : Accord c (s.controllerTurn js) := by
  have event (t : State) (k : Nat) (ht : Accord c t) : Accord c (State.controllerEvent js t k) := by
    unfold State.controllerEvent State.makeRequest
    split
    · split; exacts [ht, ht.request _ _]
    · exact ht.discrepancy _
  exact (Accord.foldl event _ (h.updAll fun r => r.suspectTest_judged _)).drawn

theorem Accord.completeRound (h : Accord c s) (r : Round) : Accord c (s.completeRound r) := by
  have published : Accord c (s.published r) := ((h.deliverRound r).compare _).decideDay
  have period : Accord c ((s.published r).newPeriod s) := by
    unfold State.newPeriod
    split
    · exact published
    · exact published.recheckSource
  exact (period.clearWaiting.abortUnlit.applyJudgements.controllerTurn _).isolatorCompared.walk.lookForWork

theorem Accord.takeSet (h : Accord c s) (set : SampleSet) : Accord c (s.takeSet set) := by
  unfold State.takeSet
  split
  · exact h
  · simp only
    split
    · exact (h.reach _).setScan _
    · exact (h.reach _).completeRound _

theorem Accord.secondElapsed (h : Accord c s) : Accord c s.secondElapsed := by
  have hp : Accord c (s.setPart { s.part with
      seconds := s.part.seconds + 1, now := max s.part.now ((s.part.seconds + 1) * 1000) }) := h.of_same rfl rfl fun _ => rfl
  exact (hp.setCell_same (x := { s.cell with heat := s.cell.heat - 1 }) rfl rfl).setScan _

theorem Accord.extStale (h : Accord c s) (g : Nat) : Accord c (s.extStale g) := by
  unfold State.extStale
  split
  · split
    · simp only
      split
      · split; exacts [(h.setScan _).raise _, h.setScan _]
      · exact h.setScan _
    · exact h
  · exact h

theorem Accord.setStore (h : Accord c s) (x : SettingsStore) : Accord c (s.setStore x) := h.of_same rfl rfl fun _ => rfl

theorem Accord.verified (h : Accord c s) (readBack : ReadBack) : Accord c (s.verified readBack) := by
  have ends {t : State} (ht : Accord c t) : Accord c t.writeEnded := by
    unfold State.writeEnded
    split
    · exact (ht.setStore _).setStore _
    · exact ht.setStore _
  unfold State.verified
  split
  · exact h
  · exact ends (h.setStore _)
  · exact ends ((h.setStore _).raise _)

/-! ## Configuration messages -/

theorem Accord.dropChannel (h : Accord c s) (n : Nat) : Accord c (s.dropChannel n) := h.setScan _

/-- R19: an ISOLATED or unused string is made unused. -/
theorem Accord.makeUnused (h : Accord c s) (hn : stringNumber n = true)
    (hs : (s.str n).state = .isolated ∨ (s.str n).state = .unused) (x : StringSettings) : Accord c (s.makeUnused n x) := by
  have hw := h.withdraw n
  have hs' : ((s.withdraw n).standing n).state = .isolated ∨ ((s.withdraw n).standing n).state = .unused := by
    simpa [State.standing, State.withdraw_str] using hs
  have k := hw.ok n
  have other {y : StringState} (h1 : y ≠ .isolated) (h2 : y ≠ .unused) : ((s.withdraw n).standing n).state ≠ y :=
    fun hy => hs'.elim (fun h => h1 (hy.symm.trans h)) (fun h => h2 (hy.symm.trans h))
  have he := s.withdraw_purposes n
  refine Accord.dropChannel (((hw.but n).updStr _).settle ?_) n
  rw [State.updStr_standing_self _ hw.size hn]
  exact { waiting := k.waiting.trans (if_neg (other (by decide) (by decide)))
          breaks := k.breaks.trans (if_neg (other (by decide) (by decide)))
          opening := fun _ _ hx => by cases hx
          closing := fun _ _ _ hx => by cases hx
          serving := fun stage hx => absurd (k.serving stage hx).1 (other (by decide) (by decide))
          single := k.single
          listed := fun hne => absurd he hne
          flight := k.flight
          configured := fun hx => absurd rfl hx
          idle := fun _ => rfl
          recorded := fun hp hl => by
            have := k.recorded hp hl
            rcases hs' with hx | hx <;> simp [hx, lockedStates] at this
          lockedOut := fun _ hx => by cases hx
          closable := fun _ hm => absurd he (List.ne_nil_of_mem hm) }

/-- A string of the table that no block holds anything of. -/
theorem Accord.of_unused (h : Accord c s) (hs : (s.str n).state = .unused) :
    s.sched.waiting n = 0 ∧ s.sched.breakCount n = 0 ∧ (s.str n).op = none ∧ s.cell.serving n = none ∧
      s.probe.purposes n = [] := by
  have k := h.ok n
  have hs' : (s.standing n).state = .unused := hs
  exact ⟨k.waiting.trans (if_neg (by rw [hs']; decide)), k.breaks.trans (if_neg (by rw [hs']; decide)),
    k.no_op (by rw [hs']; decide) (by rw [hs']; decide), k.not_serving (by rw [hs']; decide),
    k.unlisted (by rw [hs']; decide) (by rw [hs']; decide)⟩

/-- An unused string that is used from now on is free. -/
theorem Accord.free_of_unused (h : Accord c s) (hn : stringNumber n = true) (hs : (s.str n).state = .unused)
    (hi : ¬c.idle n) {f : StringRec → StringRec} (hf : (f (s.str n)).cfg.used = true ∧ (f (s.str n)).op = (s.str n).op) :
    Free c n (s.updStr n f) := by
  obtain ⟨hw, hb, ho, hv, he⟩ := h.of_unused hs
  have hstr := State.str_updStr_valid f h.size hn
  exact { number := hn
          active := hi
          used := by rw [hstr]; exact hf.1
          waiting := hw
          breaks := hb
          op := by rw [hstr, hf.2]; exact ho
          serving := hv
          entries := (h.ok n).single
          flight := (h.ok n).flight }

/-- R19: an unused string is made used. -/
theorem Accord.makeUsed (h : Accord c s) (hn : stringNumber n = true) (hi : ¬c.idle n)
    (hs : (s.str n).state = .unused) {x : StringSettings} (hx : x.used = true) : Accord c (s.makeUsed n x) := by
  obtain ⟨-, -, -, -, he⟩ := h.of_unused hs
  have free := h.free_of_unused hn hs hi (f := fun r => { r with
    cfg := x, budget := s.box.perDayMax, tapFault := false, cause := none
    state := match r.position with | .closed => .connected | .opened => .isolated }) ⟨hx, rfl⟩
  have hk (hp : c.placed n) : s.locked n = false := h.unlocked (by rw [hs]; decide) hp
  have used : Accord c (s.updStr n fun r => { r with
      cfg := x, budget := s.box.perDayMax, tapFault := false, cause := none
      state := match r.position with | .closed => .connected | .opened => .isolated }) := by
    refine ((h.but n).updStr _).settle (free.ok ?_ ?_ (fun hne => absurd he hne) (fun hp hl => ?_) (fun _ hx => ?_))
    · rw [State.str_updStr_valid _ h.size hn]; cases (s.str n).position <;> simp
    · rw [State.str_updStr_valid _ h.size hn]; cases (s.str n).position <;> simp
    · cases (hk hp).symm.trans hl
    · rw [State.str_updStr_valid _ h.size hn] at hx; cases hy : (s.str n).position <;> simp [hy] at hx
  unfold State.makeUsed
  simp only
  split
  · exact ((used.but n).connect free he hk).shutdownCatch n
  · exact used

/-- R19: a used string stays used. -/
theorem Accord.keepUsed (h : Accord c s) {x : StringSettings} (hx : x.used = (s.str n).cfg.used) :
    Accord c (s.keepUsed n x) := by
  have judged (b : Bool) : (s.str n).Judged
      (if b then { (s.str n).enterRun with cfg := x, tapFault := false, offset := 0, sensorFault := false }
        else { (s.str n).enterRun with cfg := x, tapFault := false }) := by
    obtain ⟨h1, -, h3⟩ := (s.str n).enterRun_judged
    split <;> exact ⟨h1, hx, h3⟩
  have kept : Accord c (s.updStr n fun r =>
      let q := { r.enterRun with cfg := x, tapFault := false }
      if (s.str n).cfg.input != x.input then { q with offset := 0, sensorFault := false } else q) :=
    h.of_judged (.updStr .refl s n (judged _)) rfl rfl rfl rfl
  unfold State.keepUsed
  extract_lets moved t
  split
  · exact kept.dropChannel n
  · exact kept

theorem Accord.configureString (h : Accord c s) (hn : stringNumber n = true) (hi : ¬c.idle n) (x : StringSettings)
    (hu : (s.str n).cfg.used = true → x.used = false → (s.str n).state = .isolated ∨ (s.str n).state = .unused) :
    Accord c (s.configureString n x) := by
  have unused (hs : (s.str n).cfg.used = false) : (s.str n).state = .unused := by
    by_contra hc
    have : (s.str n).cfg.used = true := (h.ok n).configured hc
    rw [this] at hs
    cases hs
  unfold State.configureString
  refine Accord.setStore (Accord.setPeer ?_ _) _
  split
  · next hs hx => exact h.makeUnused hn (hu hs hx) x
  · next hs hx => exact h.makeUsed hn hi (unused hs) hx
  · next hs hx => exact h.keepUsed (hx.trans hs.symm)
  · next hs hx => exact h.updStr_same n ⟨rfl, rfl, hx.trans hs.symm⟩

theorem Accord.configureBox (h : Accord c s) (b : BoxSettings) : Accord c (s.configureBox b) := by
  have hb : Accord c (s.setBox b) := h.of_same rfl rfl fun _ => rfl
  have source : Accord c (s.newSource b) := by
    have taken : Accord c ((s.setBox b).takeSource s.box.source) := by
      unfold State.takeSource
      split
      · exact hb.setScan _
      · exact hb.setScan _
      · exact hb
      · exact hb
    unfold State.newSource
    simp only
    split
    · exact taken
    · exact taken.recheckSource
  have heat {t : State} (ht : Accord c t) : Accord c t.testHeat := by
    unfold State.testHeat
    split
    case h_1 => exact ht.cellCooled
    case h_2 hs => split; exacts [ht.cellHot (by rw [hs]; rfl), ht]
    all_goals exact ht
  have capped : Accord c (s.newSource b).capBudgets := source.updAll fun r => ⟨rfl, rfl, .inl rfl⟩
  exact (((heat capped).recheckWindows s.box).walk).setStore _

/-! ## Control messages -/

/-- R134: a LOCKED_OUT string is released. -/
theorem Accord.releaseLockout (h : Accord c s) (hs : (s.str n).state = .lockedOut) : Accord c (s.releaseLockout n) := by
  have k := h.ok n
  have hs' : (s.standing n).state = .lockedOut := hs
  have hn := h.number (n := n) (by rw [hs]; decide)
  have hany (m : Nat) : (s.lockouts.filter fun l => l.string != n).any (fun l => l.string == m) =
      (s.locked m && m != n) := by
    rw [Bool.eq_iff_iff]
    simp only [State.locked, List.any_eq_true, List.mem_filter, Bool.and_eq_true, bne_iff_ne, beq_iff_eq]
    constructor
    · rintro ⟨l, ⟨hl, hne⟩, rfl⟩; exact ⟨⟨l, hl, rfl⟩, hne⟩
    · rintro ⟨⟨l, hl, rfl⟩, hne⟩; exact ⟨l, ⟨hl, hne⟩, rfl⟩
  have hst (m : Nat) : (s.setLockouts (s.lockouts.filter fun l => l.string != n)).standing m =
      { s.standing m with locked := s.locked m && m != n } := by
    rw [← hany m]; rfl
  have hbut : AccordBut c n (s.setLockouts (s.lockouts.filter fun l => l.string != n)) :=
    (h.but n).of_standing rfl rfl fun m hm => by rw [hst m]; simp [State.standing, hm]
  refine Accord.requestWrite ((hbut.updStr _).settle ?_)
  rw [State.updStr_standing_self _ hbut.size hn, hst n]
  have ho := k.no_op (by rw [hs']; decide) (by rw [hs']; decide)
  have hv := k.not_serving (by rw [hs']; decide)
  exact { waiting := k.waiting.trans (if_neg (by rw [hs']; decide))
          breaks := k.breaks.trans (if_neg (by rw [hs']; decide))
          opening := fun a b hx => by cases (ho.symm.trans hx)
          closing := fun o a b hx => by cases (ho.symm.trans hx)
          serving := fun stage hx => by cases (hv.symm.trans hx)
          single := k.single
          listed := fun _ => .inl rfl
          flight := k.flight
          configured := fun _ => k.configured (by rw [hs']; decide)
          idle := fun hx => absurd hx (k.not_idle (by rw [hs']; decide))
          recorded := fun _ hl => by simp at hl
          lockedOut := fun _ hx => by cases hx
          closable := fun _ _ => rfl }

theorem Accord.restoreAll (h : Accord c s) : Accord c s.restoreAll.1 := by
  have one (acc : State × Nat) (n : Nat) (ht : Accord c acc.1) : Accord c (State.restoreOne acc n).1 := by
    have absent {u : State} (hu : u.entryOf n = none) : u.probe.purposes n = [] := by
      refine purposes_nil_of_not_holds ?_
      simpa [State.entryOf, State.holdsEntry] using hu
    unfold State.restoreOne
    split
    · next hr =>
      have hi : (acc.1.str n).state = .isolated := by
        simp only [StringRec.restorable, Bool.and_eq_true, beq_iff_eq] at hr
        exact hr.1.1
      split
      · next he => exact ht.enlist _ _ (absent he) (.inl hi) fun _ _ => hi
      · split
        · have hi' : ((acc.1.withdraw n).str n).state = .isolated := by rw [State.withdraw_str]; exact hi
          exact (ht.withdraw n).enlist _ _ (State.withdraw_purposes _ n) (.inl hi') fun _ _ => hi'
        · exact ht
    · exact ht
  have visits (l : List Nat) (acc : State × Nat) (ht : Accord c acc.1) : Accord c (l.foldl State.restoreOne acc).1 := by
    induction l generalizing acc with
    | nil => exact ht
    | cons n ns ih => exact ih _ (one acc n ht)
  unfold State.restoreAll
  simp only
  split
  · exact visits _ _ h
  · exact (visits _ _ h).lookForWork

theorem Accord.restoreCell (h : Accord c s) (hs : s.cell.stage = .faulted) : Accord c s.restoreCell := by
  unfold State.restoreCell
  split
  · exact h.setCell_same rfl rfl
  · exact h.cellRested (by rw [hs]; rfl)

/-- Every request keeps the tables of a part that runs in accord. -/
theorem Handled.accord {u : State} (hu : Handled s u) (hi : ∀ n, ¬c.idle n) (h : Accord c s) : Accord c u := by
  cases hu with
  | same => exact h
  | clear mask => exact h.clearAttention mask
  | heartbeat token => exact h.heartbeat token
  | temperature ext => exact h.setScan _
  | isolate n hn => exact h.request n _
  | reconnect n hn hs => exact h.place _ _ (.inl hs) fun _ _ => hs
  | probe n hn hs => exact h.place _ _ hs fun _ hp => by cases hp
  | release n hn hs => exact h.releaseLockout hs
  | restore => exact h.restoreAll
  | openBox => exact h.openRequest
  | closeBox =>
    unfold State.closeRequest
    split
    · exact h.startClosing
    · exact h
  | cellRestore hc => exact h.restoreCell hc
  | setup => exact h.of_same rfl rfl fun _ => rfl
  | run =>
    have hm : Accord c (s.setMode .run) := h.of_same rfl rfl fun _ => rfl
    exact hm.updAll StringRec.enterRun_judged
  | configString n x hn hb hc hu => exact h.configureString hn (hi n) x hu
  | configGroup g x => exact (h.setPeer _).setStore _
  | configBox b => exact h.configureBox b
  | configLink l => exact (h.of_same (t := s.setLink { s.link with configured := l }) rfl rfl fun _ => rfl).setStore _
  | store => exact (h.setStore _).setStore _
  | restart => exact h.of_same rfl rfl fun _ => rfl

end

end Sys2Proof.Machine
end

