-- ==== Sys2Proof/Proofs/AccordStart.lean ====
section
/-! The tables in accord through resets and the start-up, and with that the two invariants of the string states: the queue,
the breaks, the operations and the probe list name the strings that their states say (O19), and a string with a lockout record
stays off the bus (O20). -/

namespace Sys2Proof.Machine

section
variable {c : Claims} {s : State} {n : Nat}

/-! ## Resets and the load -/

/-- A table of unused strings that no block holds anything of is in accord. -/
theorem Accord.of_blank (hl : s.strings.length = 24) (hs : ∀ n, (s.str n).state = .unused ∧ (s.str n).op = none)
    (hq : s.sched.queue = [] ∧ s.sched.breaks = []) (hc : cellBreaking s.cell.stage = false) (hp : s.probe = ⟨[], none⟩)
    (hk : ∀ n, c.placed n → s.locked n = false) : Accord c s where
  size := hl
  served := fun hb => by rw [hc] at hb; cases hb
  ok := fun n => by
    obtain ⟨hs, ho⟩ := hs n
    have he : s.probe.purposes n = [] := by rw [hp]; rfl
    have hf : s.probe.flightOf n = none := by rw [hp]; rfl
    exact { waiting := by simp [State.standing, Scheduler.waiting, hq.1, hs]
            breaks := by simp [State.standing, Scheduler.breakCount, hq.2, hs]
            opening := fun a b hx => by cases (ho.symm.trans hx)
            closing := fun o a b hx => by cases (ho.symm.trans hx)
            serving := fun stage hx => by cases ((Cell.serving_off hc n).symm.trans hx)
            single := by simp [State.standing, he]
            listed := fun hne => absurd he hne
            flight := fun f hx => by cases (hf.symm.trans hx)
            configured := fun hx => absurd hs hx
            idle := fun _ => hs
            recorded := fun hpl hx => by cases (hk n hpl).symm.trans hx
            lockedOut := fun _ hx => by cases (hs.symm.trans hx)
            closable := fun _ hm => absurd he (List.ne_nil_of_mem hm) }

theorem State.drop_unused (s : State) (kind : ResetKind) (n : Nat) :
    ((s.drop kind).str n).state = .unused ∧ ((s.drop kind).str n).op = none := by
  refine (State.forall_str (P := fun r => r.state = .unused ∧ r.op = none) (fun _ _ => ⟨rfl, rfl⟩) (s.drop kind)).1 ?_ n
  intro r hr
  obtain ⟨x, p, rfl⟩ := s.drop_blank kind r hr
  exact ⟨rfl, rfl⟩

theorem Accord.drop (h : Accord c s) (d : Claims) (kind : ResetKind) : Accord d (s.drop kind) :=
  .of_blank (s.drop_sizes kind h.size).1 (s.drop_unused kind) ⟨rfl, rfl⟩ rfl rfl fun _ _ => rfl

/-- R184: what the load leaves of the blocks. -/
theorem State.load_frame (s : State) (answers : Bool) :
    (s.load answers).sched = s.sched ∧ (s.load answers).cell = s.cell ∧ (s.load answers).probe = s.probe ∧
      (s.load answers).part = s.part := by
  unfold State.load
  split
  · exact ⟨rfl, rfl, rfl, rfl⟩
  · simp only [State.raiseBox_eq, State.raise_sched, State.raise_cell, State.raise_probe, State.raise_part]
    exact ⟨rfl, rfl, rfl, rfl⟩

/-- R184: the load writes the configurations of the table alone. -/
theorem State.load_str (s : State) (answers : Bool) (h : ∀ r ∈ s.strings, r.state = .unused ∧ r.op = none) (n : Nat) :
    ((s.load answers).str n).state = .unused ∧ ((s.load answers).str n).op = none := by
  refine (State.forall_str (P := fun r => r.state = .unused ∧ r.op = none) (fun _ _ => ⟨rfl, rfl⟩) _).1 (fun q hq => ?_) n
  obtain ⟨r, hr, x, rfl⟩ := State.mem_load hq
  exact h r hr

/-- R136: a lockout record kept by the load names a used string. -/
theorem State.load_locked_used (s : State) (answers : Bool) (hl : s.strings.length = 24)
    (hn : (s.load answers).locked n = true) : ((s.load answers).str n).cfg.used = true := by
  cases hi : s.loaded answers with
  | none => simp [State.locked, State.load, hi] at hn
  | some i =>
    have hlen := (imageValid_lengths (State.loaded_valid hi)).1
    have hk : (keptLockouts i).any (fun l => l.string == n) = true := by
      simpa [State.locked, State.load, hi] using hn
    simp only [keptLockouts, List.any_filter, List.any_eq_true, Bool.and_eq_true, beq_iff_eq] at hk
    obtain ⟨l, -, hu, rfl⟩ := hk
    have hstr : (s.load answers).strings = List.zipWith (fun r x => { r with cfg := x }) s.strings i.settings.strings := by
      rw [(s.load_tables answers).1, State.loadedSettings, hi]
    cases hx : getNum i.settings.strings l.string with
    | none => rw [hx] at hu; cases hu
    | some x =>
      rw [hx] at hu
      obtain ⟨k, hk⟩ : ∃ k, l.string = k + 1 := by
        cases hz : l.string with
        | zero => rw [hz] at hx; cases hy : i.settings.strings <;> rw [hy] at hx <;> cases hx
        | succ k => exact ⟨k, rfl⟩
      rw [hk, getNum_eq] at hx
      have hlt := (List.getElem?_eq_some_iff.1 hx).1
      have hget : getNum (s.load answers).strings l.string = some { s.strings[k] with cfg := x } := by
        rw [hstr, hk, getNum_eq, List.getElem?_zipWith, hx, List.getElem?_eq_getElem (by omega)]
      rw [State.str, hget]
      exact hu

/-- The claims of a state whose load has ended: every string is still unused, and one without a lockout record is known to be
placed right. -/
def loadClaims (full : Prop) (s : State) : Claims := ⟨fun _ => True, full, fun n => full ∧ s.locked n = false, fun _ h => h.1⟩

theorem Accord.load (h : Accord c s) (hi : ∀ n, c.idle n) (full : Prop) (hf : full → c.locks) (answers : Bool) :
    Accord (loadClaims full (s.load answers)) (s.load answers) := by
  obtain ⟨hq, hc, hp, -⟩ := s.load_frame answers
  have hall : ∀ r ∈ s.strings, r.state = .unused ∧ r.op = none := by
    refine (State.forall_str (P := fun r => r.state = .unused ∧ r.op = none) (fun _ _ => ⟨rfl, rfl⟩) s).2 fun n => ?_
    have hs : (s.str n).state = .unused := (h.ok n).idle (hi n)
    exact ⟨hs, (h.of_unused hs).2.2.1⟩
  refine ⟨?_, by rw [hc]; exact h.served, fun n => ?_⟩
  · rw [(s.load_tables answers).1, List.length_zipWith, h.size, (s.loadedSettings_lengths answers).1, Nat.min_self]
  · have hs : (s.str n).state = .unused := (h.ok n).idle (hi n)
    have k := h.ok n
    obtain ⟨ht, hto⟩ := s.load_str answers hall n
    obtain ⟨hw, hb, ho, hv, he⟩ := h.of_unused hs
    have hst : (s.load answers).standing n =
        ⟨.unused, none, ((s.load answers).str n).cfg.used, 0, 0, [], s.probe.flightOf n, none, (s.load answers).locked n⟩ := by
      simp only [State.standing, ht, hto, hq, hw, hb, hp, he, hc, hv]
    rw [hst]
    exact { waiting := rfl
            breaks := rfl
            opening := fun a b hx => by cases hx
            closing := fun o a b hx => by cases hx
            serving := fun stage hx => by cases hx
            single := Nat.zero_le _
            listed := fun hne => absurd rfl hne
            flight := fun f hx => by
              have kf := k.flight f hx
              rw [show (s.standing n).entries = [] from he] at kf
              exact ⟨kf.check, kf.pass, fun hl => kf.inFlight (hf hl)⟩
            configured := fun hx => absurd rfl hx
            idle := fun _ => rfl
            recorded := fun hpl hx => by cases hpl.2.symm.trans hx
            lockedOut := fun _ hx => by cases hx
            closable := fun _ hm => absurd rfl (List.ne_nil_of_mem hm) }

/-! ## Reconciliation (R94, R151, R152) -/

theorem Accord.cellCheck (h : Accord c s) (hs : cellBreaking s.cell.stage = false) : Accord c s.cellCheck := by
  unfold State.cellCheck
  split
  · exact (h.cellFaulted hs _ _).openRequest
  · exact h

theorem Accord.lineCheck (h : Accord c s) : Accord c s.lineCheck := by
  unfold State.lineCheck
  split
  · exact h.openRequest.raise _
  · exact h

/-- The cell of a part whose strings are all unused serves no break. -/
theorem Accord.cell_off (h : Accord c s) (hi : ∀ n, c.idle n) : cellBreaking s.cell.stage = false := by
  by_contra hb
  have hb : cellBreaking s.cell.stage = true := by simpa using hb
  obtain ⟨n, hn⟩ := Option.ne_none_iff_exists'.1 (h.served hb)
  have hs : (s.str n).state = .unused := (h.ok n).idle (hi n)
  exact absurd ((h.of_served hb hn).1.symm.trans hs) (by decide)

theorem Accord.begin (h : Accord c s) : Accord c s.begin := h.of_same rfl rfl fun _ => rfl

theorem mem_stringNumbers (n : Nat) : n ∈ Config.stringNumbers ↔ 1 ≤ n ∧ n ≤ 24 := by
  rw [show Config.stringNumbers = List.range' 1 24 by decide, List.mem_range'_1]
  omega

theorem AccordBut.settleClaims (h : AccordBut c n s) : AccordBut (c.settle n) n s :=
  ⟨h.size, h.served, fun m hm => (h.others m hm).mono (·.1) id fun hp => hp.elim id fun hx => absurd hx.2 hm⟩

/-- R152: one string is placed; a string that stays unused is known to hold no lockout record. -/
theorem Accord.placeString (h : Accord c s) (hn : stringNumber n = true) (hi : c.idle n)
    (hu : (s.str n).cfg.used = false → c.locks → c.placed n) : Accord (c.settle n) (s.placeString n) := by
  have hs : (s.str n).state = .unused := (h.ok n).idle hi
  unfold State.placeString
  split
  · next hf =>
    exact h.mono (fun m hm => hm.1) id fun m hm => hm.elim id fun hx => by
      obtain ⟨hl, rfl⟩ := hx
      exact hu hf hl
  · next ht =>
    have ht : (s.str n).cfg.used = true := by simpa using ht
    obtain ⟨hw, hb, ho, hv, he⟩ := h.of_unused hs
    have budget : Accord c (s.updStr n fun r => { r with budget := s.box.perDayMax }) := h.updStr_same n ⟨rfl, rfl, rfl⟩
    have hbut := (budget.but n).settleClaims
    have hstr := State.str_updStr_valid (fun r => { r with budget := s.box.perDayMax }) h.size hn
    have k := budget.ok n
    have free : Free (c.settle n) n (s.updStr n fun r => { r with budget := s.box.perDayMax }) :=
      { number := hn
        active := fun hx => hx.2 rfl
        used := by rw [hstr]; exact ht
        waiting := hw
        breaks := hb
        op := by rw [hstr]; exact ho
        serving := hv
        entries := k.single
        flight := fun f hf => ⟨(k.flight f hf).check, (k.flight f hf).pass, (k.flight f hf).inFlight⟩ }
    simp only
    split
    · next hl => exact (hbut.connect free he fun _ => hl).shutdownCatch n
    · exact hbut.queueString free he _
    · next hl =>
      exact hbut.become free (f := fun r => { r with state := .lockedOut }) ⟨rfl, rfl⟩ (by simp) (by simp)
        (fun hne => absurd he hne) (fun _ _ => by simp [lockedStates]) (fun _ _ => hl)
    · next hl =>
      have isolated := hbut.become free (f := fun r => { r with state := .isolated, cause := some .restart }) ⟨rfl, rfl⟩
        (by simp) (by simp) (fun _ => rfl) (fun _ hk => by cases hl.symm.trans hk) (fun _ hx => by cases hx)
      refine (isolated.of_same (State.openRecord_length _ n .restart (some .alreadyOpen)) rfl
        (State.openRecord_standing _ n .restart (some .alreadyOpen))).place _ _ (.inl ?_) (fun _ hp => by cases hp)
      unfold State.openRecord
      rw [State.str_updStr_valid _ isolated.size hn, State.str_updStr_valid _ budget.size hn]

/-- R152: the configurations stay as loaded. -/
theorem State.placeString_cfg (s : State) (n m : Nat) : ((s.placeString n).str m).cfg = (s.str m).cfg := by
  have budget : ((s.updStr n fun r => { r with budget := s.box.perDayMax }).str m).cfg = (s.str m).cfg := by
    rcases s.str_updStr n m fun r => { r with budget := s.box.perDayMax } with h | ⟨rfl, h⟩ <;> rw [h]
  have after {t : State} (h : Calm (s.updStr n fun r => { r with budget := s.box.perDayMax }) t) :
      (t.str m).cfg = (s.str m).cfg := ((h.strings.2 m).cfg).trans budget
  unfold State.placeString
  split
  · rfl
  · simp only
    split
    · exact after ((State.connect_calm _ n).trans (State.shutdownCatch_calm _ n))
    · exact after (State.queueString_calm _ n _)
    · exact after (State.updStr_calm _ n (.of_figures rfl))
    · exact after (((State.updStr_calm _ n (.of_figures rfl)).trans (State.openRecord_calm _ n _ _)).trans
        (State.place_calm _ _ _ _))

/-- R152: the strings are placed one after the other. -/
theorem Accord.placeStrings (l : List Nat) : ∀ {c : Claims} {s : State}, Accord c s → l.Nodup →
    (∀ n ∈ l, stringNumber n = true ∧ c.idle n ∧ ((s.str n).cfg.used = false → c.locks → c.placed n)) →
    Accord (l.foldl Claims.settle c) (l.foldl State.placeString s) := by
  induction l with
  | nil => exact fun h _ _ => h
  | cons n ns ih =>
    intro c s h hd hall
    rw [List.nodup_cons] at hd
    obtain ⟨hn, hi, hu⟩ := hall n List.mem_cons_self
    refine ih (h.placeString hn hi hu) hd.2 fun m hm => ?_
    obtain ⟨hm1, hm2, hm3⟩ := hall m (List.mem_cons_of_mem _ hm)
    refine ⟨hm1, ⟨hm2, fun hx => hd.1 (hx ▸ hm)⟩, fun hf hl => .inl (hm3 ?_ hl)⟩
    rw [← s.placeString_cfg n m]
    exact hf

theorem settle_placed (l : List Nat) (c : Claims) (n : Nat) (hl : c.locks) (h : n ∈ l ∨ c.placed n) :
    (l.foldl Claims.settle c).placed n := by
  induction l generalizing c with
  | nil => simpa using h
  | cons x xs ih =>
    refine ih (c.settle x) hl ?_
    rcases h with h | h
    · rcases List.mem_cons.1 h with rfl | h
      · exact .inr (.inr ⟨hl, rfl⟩)
      · exact .inl h
    · exact .inr (.inl h)

theorem settle_locks (l : List Nat) (c : Claims) : (l.foldl Claims.settle c).locks = c.locks := by
  induction l generalizing c with
  | nil => rfl
  | cons x xs ih => exact ih (c.settle x)

/-! ## The invariant -/

/-- The claims of a state in a stage: before the start-up is over every string is unused; where lockout records count, they
keep every string off the bus once it is over. -/
def stageClaims (full : Prop) (stage : Stage) : Claims :=
  ⟨fun _ => stage ≠ .running, full, fun _ => full ∧ stage = .running, fun _ h => h.1⟩

/-- The tables are in accord, and no round is in progress before the start-up is over. -/
structure Coherent (full : Prop) (s : State) : Prop where
  accord : Accord (stageClaims full s.part.stage) s
  round : s.part.stage ≠ .running → s.scan.round = none

theorem Coherent.of_calm {full : Prop} {t : State} (h : Coherent full s) (hc : Calm s t)
    (ha : Accord (stageClaims full s.part.stage) t) : Coherent full t :=
  ⟨by rw [hc.stage]; exact ha, fun ht => (hc.round (hc.stage ▸ ht)).trans (h.round (hc.stage ▸ ht))⟩

theorem Coherent.of_running {full : Prop} {t : State} (hr : s.part.stage = .running) (ht : t.part.stage = s.part.stage)
    (ha : Accord (stageClaims full s.part.stage) t) : Coherent full t :=
  ⟨by rw [ht]; exact ha, fun hx => absurd (ht.trans hr) hx⟩

theorem Coherent.drop {full : Prop} (h : Coherent full s) (kind : ResetKind) : Coherent full (s.drop kind) :=
  ⟨h.accord.drop _ kind, fun _ => rfl⟩

theorem Coherent.supplyLost {full : Prop} (h : Coherent full s) : Coherent full s.supplyLost := by
  unfold State.supplyLost
  split
  · exact ⟨(h.accord.drop _ s.part.cause).of_same rfl rfl fun _ => rfl, fun _ => rfl⟩
  · exact h

/-- R150 to R153: the start-up ends with every string placed. -/
theorem Coherent.loadEnded {full : Prop} (h : Coherent full s) (answers : Bool) : Coherent full (s.loadEnded answers) := by
  unfold State.loadEnded
  split
  · next hs =>
    have loaded := h.accord.load (fun _ => by rw [hs]; exact Stage.noConfusion) full id answers
    have checked := (loaded.cellCheck (loaded.cell_off fun _ => trivial)).lineCheck
    have cfg (n : Nat) : ((s.load answers).cellCheck.lineCheck.str n).cfg = ((s.load answers).str n).cfg :=
      (((s.load answers).cellCheck_calm.trans (State.lineCheck_calm _)).strings.2 n).cfg
    have placed := Accord.placeStrings Config.stringNumbers checked (by decide) fun n hn =>
      ⟨(stringNumber_iff n).2 ((mem_stringNumbers n).1 hn), trivial, fun hu hf => by
        refine ⟨hf, ?_⟩
        by_contra hk
        have := s.load_locked_used (n := n) answers h.accord.size (by simpa using hk)
        rw [← cfg n, hu] at this
        cases this⟩
    have running : Accord (stageClaims full .running) (s.load answers).cellCheck.lineCheck.reconcile := by
      refine placed.mono (fun n hx => absurd rfl hx) (fun hf => by rw [settle_locks]; exact hf) fun n hp => ?_
      refine settle_placed _ _ _ hp.1 ?_
      by_cases hn : n ∈ Config.stringNumbers
      · exact .inl hn
      · refine .inr ⟨hp.1, ?_⟩
        by_contra hk
        have hu := s.load_locked_used (n := n) answers h.accord.size (by simpa using hk)
        have hl : (s.load answers).strings.length = 24 := loaded.size
        have hout : n = 0 ∨ 24 < n := by
          rw [mem_stringNumbers] at hn
          omega
        rw [State.str_outside _ n (by omega)] at hu
        exact absurd (hu.symm.trans (show (Config.string n).used = false from rfl)) (by decide)
    exact ⟨((running.setScan _).startRound).begin, fun hx => absurd rfl hx⟩
  · exact h

theorem Coherent.takeSet {full : Prop} (h : Coherent full s) (set : SampleSet) : Coherent full (s.takeSet set) := by
  by_cases hs : s.part.stage = .running
  · exact .of_running hs (s.takeSet_bounded set).stage (h.accord.takeSet set)
  · have hr := h.round hs
    simpa [State.takeSet, hr] using h

/-- Every step keeps the tables in accord. -/
theorem coherent_step (full : Prop) : StepKeeps (Coherent full) := by
  refine StepKeeps.of_effect (fun s x h => ⟨h.accord.of_same rfl rfl fun _ => rfl, h.round⟩)
    (fun s h => h.of_calm (s.setPart_calm _ rfl) (h.accord.of_same rfl rfl fun _ => rfl)) fun s t h he => ?_
  have a := h.accord
  cases he with
  | same => exact h
  | link x => exact h.of_calm (s.setLink_calm x) (a.of_same rfl rfl fun _ => rfl)
  | @request u hr hu x =>
    have hi : ∀ n, ¬(stageClaims full s.part.stage).idle n := fun n hx => hx hr
    have hst : (u.setLink x).part.stage = s.part.stage := by
      rcases hu.calm_or with hu | ⟨n, y, -, rfl⟩ | ⟨b, rfl⟩
      · exact hu.stage
      · exact (s.configureString_bounded n y hr).stage
      · obtain ⟨v, hv, hw⟩ := s.configureBox_calm b hr
        exact hw.stage.trans hv.stage
    exact .of_running hr hst ((hu.accord hi a).of_same rfl rfl fun _ => rfl)
  | drop kind => exact h.drop kind
  | supplyLost => exact h.supplyLost
  | loadEnded answers => exact h.loadEnded answers
  | takeSet set => exact h.takeSet set
  | verified readBack => exact h.of_calm (s.verified_calm _) (a.verified _)
  | roundTimer hr => exact h.of_calm (s.roundTimer_calm hr) a.roundTimer
  | syncEdge hr => exact h.of_calm (s.syncEdge_calm hr) a.syncEdge
  | syncWatch hr => exact h.of_calm (s.syncWatch_calm hr) a.syncWatch
  | secondElapsed => exact h.of_calm s.secondElapsed_calm a.secondElapsed
  | cellCooled => exact h.of_calm s.cellCooled_calm a.cellCooled
  | extStale g => exact h.of_calm (s.extStale_calm g) (a.extStale g)
  | tapClosed n => exact h.of_calm (s.tapClosed_calm n) (a.tapClosed n)
  | attachExpired => exact h.of_calm s.attachExpired_calm a.attachExpired
  | tapReleased n => exact h.of_calm (s.tapReleased_calm n) (a.tapReleased n)
  | detachExpired => exact h.of_calm s.detachExpired_calm a.detachExpired
  | releaseExpired => exact h.of_calm s.releaseExpired_calm a.releaseExpired
  | monitorReads w => exact h.of_calm (s.monitorReads_calm w) (a.monitorReads w)
  | quenchExpired => exact h.of_calm s.quenchExpired_calm a.quenchExpired
  | restEnded => exact h.of_calm s.restEnded_calm a.restEnded
  | contactMoved n position => exact h.of_calm (s.contactMoved_calm n position) (a.contactMoved n position)
  | contactExpired n => exact h.of_calm (s.contactExpired_calm n) (a.contactExpired n)
  | isolatorReads feedback => exact h.of_calm (s.isolatorReads_calm feedback) (a.isolatorReads feedback)
  | isolatorExpired => exact h.of_calm s.isolatorExpired_calm a.isolatorExpired
  | settled => exact h.of_calm s.settled_calm a.settled
  | reading vp vn => exact h.of_calm (s.reading_calm vp vn) (a.reading vp vn)
  | released => exact h.of_calm s.released_calm a.released
  | lowTaken => exact h.of_calm s.lowTaken_calm a.lowTaken
  | highTaken => exact h.of_calm s.highTaken_calm a.highTaken
  | longExpired => exact h.of_calm s.longExpired_calm a.longExpired
  | openExpired => exact h.of_calm s.openExpired_calm a.openExpired
  | lineChanges low => exact h.of_calm (s.setShutdown_calm _) (a.of_same rfl rfl fun _ => rfl)

/-! ## The invariants as stated -/

theorem State.locked_iff (s : State) (n : Nat) : s.locked n = true ↔ ∃ l ∈ s.lockouts, l.string = n := by
  simp [State.locked]

theorem Coherent.of_sound {full : Prop} (h : Sound s) (hf : full → LockedOff s) : Coherent full s where
  round := fun hs => (h.startUp hs).1
  accord :=
    { size := h.size
      served := fun hb hv => by
        obtain ⟨n, hn, -⟩ := h.cell hb
        rw [hn] at hv
        cases hv
      ok := fun n => by
        have number (hs : (s.str n).state ≠ .unused) : stringNumber n = true := by
          by_contra hc
          rw [stringNumber_iff] at hc
          exact hs (by rw [s.str_outside n (by have := h.size; omega)]; rfl)
        have mem (x : StringState) (hx : x ≠ .unused) (p : Prop) (hp : p ↔ stringNumber n = true ∧ (s.str n).state = x) :
            p ↔ (s.str n).state = x := hp.trans ⟨(·.2), fun hs => ⟨number (by rw [hs]; exact hx), hs⟩⟩
        refine { waiting := ?_, breaks := ?_, opening := h.opening n, closing := h.closing n, serving := ?_, single := ?_,
                 listed := ?_, flight := ?_, configured := h.configured n, idle := fun hs => (h.startUp hs).2 n,
                 recorded := ?_, lockedOut := fun hl => (hf hl).lockedOut n, closable := ?_ }
        · show (s.sched.queue.map (·.string)).count n = _
          rw [h.queueDistinct.count]
          exact if_congr (mem _ (by decide) _ (h.queued n)) rfl rfl
        · show (s.sched.breaks.map (·.entry.string)).count n = _
          rw [h.breaksDistinct.count]
          exact if_congr (mem _ (by decide) _ (h.breaking n)) rfl rfl
        · intro stage hs
          have hs : s.cell.serving n = some stage := hs
          unfold Cell.serving at hs
          split at hs
          · next hc =>
            cases hs
            obtain ⟨m, hm, -, hst, ho⟩ := h.cell hc.1
            obtain rfl : m = n := Option.some.inj (hm.symm.trans hc.2)
            exact ⟨hst, ho⟩
          · cases hs
        · have hd := List.nodup_iff_count_le_one.1 h.listDistinct n
          have : (s.probe.purposes n).length = (s.probe.list.map (·.string)).count n := by
            rw [ProbeUnit.purposes, List.length_map, List.count, List.countP_map, List.countP_eq_length_filter]
            rfl
          exact this.trans_le hd
        · intro hne
          obtain ⟨p, hp⟩ := List.exists_mem_of_ne_nil _ hne
          obtain ⟨e, he, rfl, -⟩ := ProbeUnit.mem_purposes.1 hp
          exact (h.listed e he).2
        · intro f hx
          obtain ⟨g, hg, rfl, rfl⟩ := ProbeUnit.flightOf_some hx
          refine ⟨fun hp hr => ?_, fun hp => ?_, fun hl hr => ?_⟩
          · exact ProbeUnit.mem_purposes.2 (h.check g hg hp hr)
          · obtain ⟨h1, h2⟩ := h.pass g hg hp
            exact ⟨h1, ProbeUnit.mem_purposes.2 h2⟩
          · exact ProbeUnit.mem_purposes.2 ((hf hl).inFlight g hg hr)
        · intro hp hl
          obtain ⟨l, hm, rfl⟩ := (s.locked_iff n).1 hl
          exact (hf hp.1).recorded hp.2 l hm
        · intro hl hm
          obtain ⟨e, he, rfl, hp⟩ := ProbeUnit.mem_purposes.1 hm
          exact (hf hl).closable e he hp }

theorem Coherent.sound {full : Prop} (h : Coherent full s) : Sound s := by
  have a := h.accord
  have ok (n : Nat) := a.ok n
  have mem (l : List Nat) (x : StringState) (n : Nat) (hx : x ≠ .unused)
      (hc : l.count n = if (s.str n).state = x then 1 else 0) : n ∈ l ↔ stringNumber n = true ∧ (s.str n).state = x := by
    rw [← List.count_pos_iff, hc]
    constructor
    · intro hp
      split at hp
      · next hs => exact ⟨a.number (by rw [hs]; exact hx), hs⟩
      · omega
    · rintro ⟨-, hs⟩
      rw [if_pos hs]
      exact Nat.one_pos
  exact
    { size := a.size
      queueDistinct := a.queueDistinct
      queued := fun n => mem _ _ n (by decide) (ok n).waiting
      breaksDistinct := List.nodup_iff_count_le_one.2 fun n => by
        have hb : (s.sched.breaks.map (·.entry.string)).count n = _ := (ok n).breaks
        rw [hb]
        split <;> omega
      breaking := fun n => mem _ _ n (by decide) (ok n).breaks
      opening := fun n => (ok n).opening
      closing := fun n => (ok n).closing
      cell := fun hb => by
        obtain ⟨n, hn⟩ := Option.ne_none_iff_exists'.1 (a.served hb)
        obtain ⟨hs, ho⟩ := a.of_served hb hn
        exact ⟨n, hn, a.number (by rw [hs]; decide), hs, ho⟩
      listDistinct := List.nodup_iff_count_le_one.2 fun n => by
        have : (s.probe.list.map (·.string)).count n = (s.probe.purposes n).length := by
          rw [ProbeUnit.purposes, List.length_map, List.count, List.countP_map, List.countP_eq_length_filter]
          rfl
        rw [this]
        exact (ok n).single
      listed := fun e he => by
        have hs := (ok e.string).listed (List.ne_nil_of_mem (ProbeUnit.mem_purposes.2 ⟨e, he, rfl, rfl⟩))
        have hs : (s.str e.string).state = .isolated ∨ (s.str e.string).state = .lockedOut := hs
        exact ⟨a.number (by rcases hs with hs | hs <;> rw [hs] <;> decide), hs⟩
      check := fun f hf hp hr => ProbeUnit.mem_purposes.1 ((a.flightOk hf).check hp hr)
      pass := fun f hf hp => ⟨((a.flightOk hf).pass hp).1, ProbeUnit.mem_purposes.1 ((a.flightOk hf).pass hp).2⟩
      configured := fun n => (ok n).configured
      startUp := fun hs => ⟨h.round hs, fun n => (ok n).idle hs⟩ }

theorem Coherent.lockedOff (h : Coherent True s) : LockedOff s where
  sound := h.sound
  recorded := fun hr l hl => (h.accord.ok l.string).recorded ⟨trivial, hr⟩ ((s.locked_iff _).2 ⟨l, hl, rfl⟩)
  lockedOut := fun n hs => (h.accord.ok n).lockedOut trivial hs
  closable := fun e he hp => (h.accord.ok e.string).closable trivial (ProbeUnit.mem_purposes.2 ⟨e, he, rfl, hp⟩)
  inFlight := fun _ hf hr => ProbeUnit.mem_purposes.1 ((h.accord.flightOk hf).inFlight trivial hr)

end

/-- Settles O19: the tables are followed string by string, as a standing in accord, through every step. -/
theorem queueHoldsExactlyTheQueuedStrings : Obligations.QueueHoldsExactlyTheQueuedStrings := by
  unfold Obligations.QueueHoldsExactlyTheQueuedStrings
  intro s t h hst
  exact (coherent_step False s t (.of_sound h False.elim) hst).sound

/-- Settles O20: the same standings, with the lockout records counted. -/
theorem lockedStringsStayOffTheBus : Obligations.LockedStringsStayOffTheBus := by
  unfold Obligations.LockedStringsStayOffTheBus
  intro s t h hst
  exact (coherent_step True s t (.of_sound h.sound fun _ => h) hst).lockedOff

end Sys2Proof.Machine
end

