-- ==== Sys2Proof/Proofs/Records.lean ====
section
/-! The reset state's values (O2) and the bytes of a string record (O23). -/

namespace Sys2Proof.Machine

/-! ## The state right after reset -/

theorem State.reset_str (n : Nat) : ∃ c, State.reset.str n = StringRec.blank c .opened := by
  unfold State.str
  cases h : getNum State.reset.strings n with
  | none => exact ⟨_, rfl⟩
  | some r =>
    have hm : r ∈ List.zipWith StringRec.blank (Config.stringNumbers.map Config.string) (List.replicate 24 .opened) :=
      getNum_mem h
    rw [List.mem_iff_getElem] at hm
    obtain ⟨i, hi, rfl⟩ := hm
    rw [Option.getD_some, List.getElem_zipWith, List.getElem_replicate]
    exact ⟨_, rfl⟩

theorem BlankString.blank (c : StringSettings) (p : Contact) : BlankString (StringRec.blank c p) p where
  state := rfl
  standing := ⟨rfl, rfl, rfl, rfl, rfl, rfl⟩
  figures := ⟨rfl, rfl, rfl, rfl, rfl, rfl⟩
  criteria := ⟨rfl, rfl, rfl, rfl, rfl⟩
  contact := ⟨rfl, rfl, rfl, rfl⟩

theorem State.reset_drivesOff : DrivesOff State.reset where
  gate := rfl
  tap := rfl
  probeTap := rfl
  openDrive := rfl
  closeDrive := rfl
  coils := fun n => by
    obtain ⟨c, h⟩ := State.reset_str n
    simp [State.openCoil, State.closeCoil, h, StringRec.blank]
  driver := rfl

theorem State.reset_dropped : Dropped .powerOn State.reset State.reset where
  part := rfl
  attention := rfl
  queue := rfl
  probe := rfl
  cell := ⟨rfl, rfl, rfl, rfl⟩
  isolator := ⟨rfl, rfl⟩
  shutdown := rfl
  supervision := ⟨rfl, rfl, rfl⟩
  rounds := ⟨rfl, rfl, rfl, rfl, rfl, rfl⟩
  dayAndNight := ⟨rfl, rfl, rfl⟩
  groups := fun g hg => by
    obtain rfl := List.eq_of_mem_replicate hg
    exact ⟨rfl, rfl, rfl⟩
  link := ⟨rfl, rfl⟩
  store := ⟨rfl, rfl, rfl⟩
  strings := fun n _ => by
    obtain ⟨c, h⟩ := State.reset_str n
    rw [h]
    exact .blank c .opened
  drives := State.reset_drivesOff

theorem State.reset_lockedOff : LockedOff State.reset := by
  have accord : Accord (stageClaims True .load) State.reset :=
    .of_blank rfl (fun n => by obtain ⟨c, h⟩ := State.reset_str n; rw [h]; exact ⟨rfl, rfl⟩) ⟨rfl, rfl⟩ rfl rfl fun _ _ => rfl
  exact Coherent.lockedOff ⟨accord, fun _ => rfl⟩

/-- Settles O2: the reset tables are read off the state, and its strings are blank records. -/
theorem resetLeavesTheStatedValues : Obligations.ResetLeavesTheStatedValues := by
  unfold Obligations.ResetLeavesTheStatedValues
  have budgets : ∀ r ∈ State.reset.strings, r.budget = 0 := (State.forall_str (fun _ _ => rfl) _).2 fun n => by
    obtain ⟨c, h⟩ := State.reset_str n
    rw [h]; rfl
  have figures : FiguresBounded State.reset := (FiguresBounded.iff_str _).2 fun n => by
    obtain ⟨c, h⟩ := State.reset_str n
    rw [h]; exact .blank c .opened
  refine ⟨State.reset_dropped, rfl, by decide, rfl, List.nodup_singleton _, ?_, List.nodup_nil, ⟨rfl, rfl⟩, ?_, figures,
    State.reset_lockedOff⟩
  · simp [LapseShown, State.reset, State.dropped]
  · exact ⟨fun r hr => by rw [budgets r hr]; exact Nat.zero_le _, fun _ => ⟨rfl, budgets⟩⟩

/-! ## The bytes of a string record -/

/-- The two bytes of a word, high byte first, are the word. -/
theorem word16_bytes (w : Word16) : word16 (w.extractLsb' 8 8) (w.extractLsb' 0 8) = w := by
  unfold word16
  rw [BitVec.extractLsb'_append_extractLsb'_eq_extractLsb' (by decide)]
  exact BitVec.extractLsb'_eq_self

theorem word32_bytes (w : Word32) :
    word16 (w.extractLsb' 24 8) (w.extractLsb' 16 8) ++ word16 (w.extractLsb' 8 8) (w.extractLsb' 0 8) = w := by
  unfold word16
  rw [BitVec.extractLsb'_append_extractLsb'_eq_extractLsb' (by decide),
    BitVec.extractLsb'_append_extractLsb'_eq_extractLsb' (by decide),
    BitVec.extractLsb'_append_extractLsb'_eq_extractLsb' (by decide)]
  exact BitVec.extractLsb'_eq_self

/-- R189: a marks byte of six marks carries them at bits 0 to 5 and 0 at the others. -/
theorem marksByte_six (a b c d e f : Bool) :
    (marksByte [a, b, c, d, e, f]).getLsbD 0 = a ∧ (marksByte [a, b, c, d, e, f]).getLsbD 1 = b ∧
      (marksByte [a, b, c, d, e, f]).getLsbD 2 = c ∧ (marksByte [a, b, c, d, e, f]).getLsbD 3 = d ∧
      (marksByte [a, b, c, d, e, f]).getLsbD 4 = e ∧ (marksByte [a, b, c, d, e, f]).getLsbD 5 = f := by
  revert a b c d e f
  decide

theorem marksByte_six_high (a b c d e f : Bool) (k : Nat) (hk : 6 ≤ k) :
    (marksByte [a, b, c, d, e, f]).getLsbD k = false := by
  by_cases h8 : 8 ≤ k
  · exact BitVec.getLsbD_of_ge _ k h8
  · have h : ∀ a b c d e f : Bool, (marksByte [a, b, c, d, e, f]).getLsbD 6 = false ∧
        (marksByte [a, b, c, d, e, f]).getLsbD 7 = false := by decide
    obtain rfl | rfl : k = 6 ∨ k = 7 := by omega
    · exact (h a b c d e f).1
    · exact (h a b c d e f).2

/-- The last isolation record's part is 14 bytes, at offsets 31 to 44. -/
theorem isoRecordBytes_length (q : Option IsoRecord) : (isoRecordBytes q).length = 14 := by cases q <;> rfl

theorem StringRec.bytes_length (r : StringRec) (n : Nat) : (r.bytes n).length = 45 := by
  simp only [StringRec.bytes, bytes16Of, bytes16OfInt, bytes16, bytes32, List.length_append, List.length_cons, List.length_nil,
    isoRecordBytes_length]

/-- 12.4: the bytes in the order of their offsets. -/
theorem StringRec.bytes_eq (r : StringRec) (n : Nat) :
    r.bytes n = byteOf n :: r.marks :: r.presence :: byteOf r.cfg.group :: byteOf r.cfg.input ::
      (BitVec.ofNat 16 r.cfg.rated).extractLsb' 8 8 :: (BitVec.ofNat 16 r.cfg.rated).extractLsb' 0 8 ::
      byteOf r.cfg.modules :: (BitVec.ofNat 16 r.cfg.voc25).extractLsb' 8 8 :: (BitVec.ofNat 16 r.cfg.voc25).extractLsb' 0 8 ::
      (BitVec.ofInt 16 r.current).extractLsb' 8 8 :: (BitVec.ofInt 16 r.current).extractLsb' 0 8 :: byteOfInt r.offset ::
      (BitVec.ofInt 16 r.n).extractLsb' 8 8 :: (BitVec.ofInt 16 r.n).extractLsb' 0 8 ::
      (BitVec.ofNat 16 (r.p.getD 0)).extractLsb' 8 8 :: (BitVec.ofNat 16 (r.p.getD 0)).extractLsb' 0 8 ::
      byteOf r.reverseRun :: byteOf r.overRun :: byteOf r.openRun ::
      (BitVec.ofNat 16 r.bucket).extractLsb' 8 8 :: (BitVec.ofNat 16 r.bucket).extractLsb' 0 8 ::
      codeOfState r.state :: codeOrZero codeOfCause r.cause :: codeOrZero codeOfReqCause r.held ::
      codeOrZero codeOfVerdict r.verdict :: byteOf r.budget ::
      (r.reconnectedAt.getD 0).extractLsb' 24 8 :: (r.reconnectedAt.getD 0).extractLsb' 16 8 ::
      (r.reconnectedAt.getD 0).extractLsb' 8 8 :: (r.reconnectedAt.getD 0).extractLsb' 0 8 :: isoRecordBytes r.record := by
  simp only [StringRec.bytes, bytes16Of, bytes16OfInt, bytes16, bytes32, List.cons_append, List.nil_append]

theorem isoRecordBytes_some (q : IsoRecord) : isoRecordBytes (some q) =
    codeOfCause q.cause :: q.round.extractLsb' 24 8 :: q.round.extractLsb' 16 8 :: q.round.extractLsb' 8 8 ::
      q.round.extractLsb' 0 8 :: q.day.extractLsb' 8 8 :: q.day.extractLsb' 0 8 :: codeOrZero codeOfBreakKind q.kind ::
      (BitVec.ofInt 16 (q.current.getD 0)).extractLsb' 8 8 :: (BitVec.ofInt 16 (q.current.getD 0)).extractLsb' 0 8 ::
      [codeOrZero codeOfVerdict q.verdict, byteOf (q.missing.getD 0), byteOf (q.position.getD 0), byteOf q.closeFailed] := by
  simp only [isoRecordBytes, bytes16OfInt, bytes16, bytes32, List.cons_append, List.nil_append]

/-- The last isolation record's part begins at offset 31. -/
theorem octet_bytes_record (r : StringRec) (n k : Nat) :
    octet (r.bytes n) (31 + k) = (isoRecordBytes r.record).getD k 0#8 := by
  rw [octet, StringRec.bytes_eq, Nat.add_comm]
  simp only [List.getD_cons_succ]

/-- An absent isolation record is sent as zero bytes. -/
theorem octet_bytes_absent (r : StringRec) (n k : Nat) (hr : r.record = none) (hk : 31 ≤ k) : octet (r.bytes n) k = 0#8 := by
  obtain ⟨j, rfl⟩ := Nat.exists_eq_add_of_le hk
  rw [octet_bytes_record, hr]
  show (List.replicate 14 0#8).getD j 0#8 = 0#8
  rw [List.getD_eq_getElem?_getD, List.getElem?_replicate]
  split <;> rfl

/-- Settles O23: every offset is read off the list of fields. -/
theorem stringRecordCarriesItsFields : Obligations.StringRecordCarriesItsFields := by
  unfold Obligations.StringRecordCarriesItsFields
  intro r n
  have record (q : IsoRecord) (hr : r.record = some q) (k : Nat) (v : Byte)
      (hv : (isoRecordBytes (some q)).getD k 0#8 = v) : octet (r.bytes n) (31 + k) = v := by
    rw [octet_bytes_record, hr, hv]
  have absent (k : Nat) := octet_bytes_absent r n k
  have length := r.bytes_length n
  rw [StringRec.bytes_eq] at record absent length ⊢
  intro b w
  have word (k : Nat) (v : Word16) (h1 : b k = v.extractLsb' 8 8) (h2 : b (k + 1) = v.extractLsb' 0 8) :
      w k = v := by
    show word16 (b k) (b (k + 1)) = v
    rw [h1, h2]
    exact word16_bytes v
  have long (k : Nat) (v : Word32) (h1 : b k = v.extractLsb' 24 8) (h2 : b (k + 1) = v.extractLsb' 16 8)
      (h3 : b (k + 2) = v.extractLsb' 8 8) (h4 : b (k + 3) = v.extractLsb' 0 8) : w k ++ w (k + 2) = v := by
    show word16 (b k) (b (k + 1)) ++ word16 (b (k + 2)) (b (k + 3)) = v
    rw [h1, h2, h3, h4]
    exact word32_bytes v
  have marks := marksByte_six r.cfg.used r.saturated r.sensorFault r.alarm r.tapFault (r.position == .closed)
  obtain ⟨p0, p1, p2, p3, p4, p5⟩ := marksByte_six r.p.isSome r.reconnectedAt.isSome r.record.isSome
    (r.record.bind (·.current)).isSome (r.record.bind (·.missing)).isSome (r.record.bind (·.position)).isSome
  refine ⟨length, rfl, rfl, rfl, ?_, rfl, ?_, ?_, rfl, ?_, ?_, rfl, rfl, rfl, ?_, rfl, rfl, rfl, rfl, rfl, ?_,
    marks, ⟨p0, p1, p2⟩, ?_, ?_, ?_⟩
  · exact word _ _ rfl rfl
  · exact word _ _ rfl rfl
  · exact word _ _ rfl rfl
  · exact word _ _ rfl rfl
  · exact word _ _ rfl rfl
  · exact word _ _ rfl rfl
  · exact long _ _ rfl rfl rfl rfl
  · exact fun k hk => ⟨marksByte_six_high _ _ _ _ _ _ k hk, marksByte_six_high _ _ _ _ _ _ k hk⟩
  · intro hr
    exact ⟨p3.trans (by rw [hr]; rfl), p4.trans (by rw [hr]; rfl), p5.trans (by rw [hr]; rfl), fun k hk => absent k hr hk⟩
  · intro q hr
    have field (k : Nat) (v : Byte) (hv : (isoRecordBytes (some q)).getD k 0#8 = v) : b (31 + k) = v := record q hr k v hv
    rw [isoRecordBytes_some] at field
    exact ⟨p3.trans (by rw [hr]; rfl), p4.trans (by rw [hr]; rfl), p5.trans (by rw [hr]; rfl), field 0 _ rfl,
      long 32 _ (field 1 _ rfl) (field 2 _ rfl) (field 3 _ rfl) (field 4 _ rfl), word 36 _ (field 5 _ rfl) (field 6 _ rfl),
      field 7 _ rfl, word 39 _ (field 8 _ rfl) (field 9 _ rfl), field 10 _ rfl, field 11 _ rfl, field 12 _ rfl, field 13 _ rfl⟩

end Sys2Proof.Machine
end

