-- ==== Sys2Proof/Proofs/Messages.lean ====
section
/-! ISOLATE by the string's state (O25), the MODE messages (O34), and the tests of STRING_CONFIG (O35). -/

namespace Sys2Proof.Machine

section
variable {s : State} {n : Nat}

/-! ## Requests while the part listens -/

theorem State.answer_listening (h : s.listening = true) (kind : Byte) (handle : State → Answer) :
    s.answer kind handle = (handle s).1.sendReply kind (handle s).2 := if_pos h

theorem stringOfByte_number {b : Byte} (h : stringNumber b.toNat = true) : stringOfByte b = some b.toNat := by
  rw [stringOfByte_eq, if_pos h]

theorem stringOfByte_none {b : Byte} (h : stringNumber b.toNat = false) : stringOfByte b = none := by
  rw [stringOfByte_eq, h]; rfl

/-! ## ISOLATE (R11, R176) -/

/-- ISOLATE for a string in a state that takes requests is answered with the state after it. -/
theorem State.isolate_answered (h : s.listening = true) {b : Byte} (hn : stringNumber b.toNat = true)
    (h1 : (s.str b.toNat).state ≠ .unused) (h2 : (s.str b.toNat).state ≠ .stuckClosed)
    (h3 : (s.str b.toNat).state ≠ .breakFailed) :
    exec (.isolate b) s = .next ((s.request b.toNat .manual).sendReply Kind.isolate.code
      ⟨.accepted, [codeOfState ((s.request b.toNat .manual).str b.toNat).state]⟩) := by
  show Host.Outcome.next (s.answer _ _) = _
  rw [State.answer_listening h]
  simp [State.reqIsolate, stringOfByte_number hn, h1, h2, h3, accept, State.stateByte]

theorem State.isolate_refused (h : s.listening = true) {b : Byte} (hn : stringNumber b.toNat = true)
    (hs : (s.str b.toNat).state = .unused ∨ (s.str b.toNat).state = .stuckClosed ∨ (s.str b.toNat).state = .breakFailed) :
    exec (.isolate b) s = .next (s.sendReply Kind.isolate.code ⟨.state, []⟩) := by
  show Host.Outcome.next (s.answer _ _) = _
  rw [State.answer_listening h]
  simp [State.reqIsolate, stringOfByte_number hn, hs, refuse]

/-- R76: a MANUAL request does not raise an entry, its severity being the lowest. -/
theorem State.merge_manual (s : State) (n : Nat) : s.merge n .manual = s := by
  unfold State.merge
  split
  · rfl
  · exact if_neg (by simp [ReqCause.severity, Severity.rank])

/-- R11: a held request is not replaced by a MANUAL one. -/
theorem StringRec.hold_manual {r : StringRec} {c : ReqCause} (h : r.held = some c) : r.hold .manual = r := by
  unfold StringRec.hold
  rw [h]
  exact if_neg (by simp [ReqCause.severity, Severity.rank])

/-- Two changes that do the same to the record do the same to the state. -/
theorem State.updStr_congr (s : State) (n : Nat) {f g : StringRec → StringRec} (h : f (s.str n) = g (s.str n)) :
    s.updStr n f = s.updStr n g :=
  congrArg s.setStrings (updNum_congr f g _ _ fun r hr => by rwa [State.str, hr] at h)

theorem updNum_id {α : Type} (l : List α) (n : Nat) : updNum id l n = l := by
  induction l, n using getNum.induct <;> simp_all [updNum]

/-- A change of one record that leaves it leaves the state. -/
theorem State.updStr_eq_self (s : State) (n : Nat) {f : StringRec → StringRec} (h : f (s.str n) = s.str n) :
    s.updStr n f = s := by
  rw [s.updStr_congr n (g := id) h, State.updStr, updNum_id]
  rfl

/-- R113: with nothing but DIAGNOSE entries there is no PRE_CLOSE entry to withdraw. -/
theorem State.withdrawPreClose_diagnose (h : ∀ e ∈ s.probe.list, e.string = n → e.purpose = .diagnose) :
    s.withdrawPreClose n = s := by
  unfold State.withdrawPreClose
  split
  · next e he =>
    have := h e (List.mem_of_find?_eq_some he) (by simpa using List.find?_some he)
    rw [this]
    rfl
  · rfl

/-- R113: a string's only entry, a PRE_CLOSE one, is withdrawn. -/
theorem State.withdrawPreClose_preClose {e : ProbeEntry} (he : e ∈ s.probe.list) (hn : e.string = n)
    (honly : ∀ x ∈ s.probe.list, x.string = n → x = e) (hp : e.purpose = .preClose) :
    s.withdrawPreClose n = s.withdraw n := by
  unfold State.withdrawPreClose
  split
  · next x hx =>
    have := honly x (List.mem_of_find?_eq_some hx) (by simpa using List.find?_some hx)
    rw [this, hp]
    rfl
  · next hx => exact absurd hn (by simpa using List.find?_eq_none.1 hx e he)

theorem State.withdraw_flight {f : ProbeFlight} (hn : s.holdsEntry n = true) (hf : s.probe.flight = some f)
    (hs : f.string = n) : (s.withdraw n).probe.flight = some (f.abort s.part.now) := by
  simp [State.withdraw, hn, State.probing, hf, hs, State.abortProbe]

/-- Settles O25: the request's row by the string's state, each with what it leaves. -/
theorem isolateActsByTheStringsState : Obligations.IsolateActsByTheStringsState := by
  unfold Obligations.IsolateActsByTheStringsState
  intro s b hl n st answered
  refine ⟨fun hn => ?_, fun hn hlen => ?_⟩
  · show Host.Outcome.next (s.answer _ _) = _
    rw [State.answer_listening hl]
    simp [State.reqIsolate, stringOfByte_none hn, refuse]
  · have answer (x : StringState) (t : State) (code : Byte) (hst : st = x) (h1 : x ≠ .unused) (h2 : x ≠ .stuckClosed)
        (h3 : x ≠ .breakFailed) (ht : s.request n .manual = t) (hc : codeOfState (t.str n).state = code) :
        answered t code := by
      have := State.isolate_answered hl hn (hst.trans_ne h1) (hst.trans_ne h2) (hst.trans_ne h3)
      rwa [ht, hc] at this
    have request (x : StringState) (hst : st = x) : (s.str n).state = x := hst
    refine ⟨State.isolate_refused hl hn, fun h => ?_, fun h => ?_, fun h hh => ?_, fun c h hh => ?_, fun h he => ?_,
      fun h he => ?_, fun e he hen honly hp h => ?_⟩
    · exact answer _ s _ h (by decide) (by decide) (by decide)
        (by rw [State.request, request _ h]; exact s.merge_manual n) (by rw [request _ h]; rfl)
    · exact answer _ s _ h (by decide) (by decide) (by decide) (by rw [State.request, request _ h]) (by rw [request _ h]; rfl)
    · refine answer _ _ _ h (by decide) (by decide) (by decide) ?_ ?_
      · rw [State.request, request _ h]
        exact s.updStr_congr n (by simp [StringRec.hold, hh])
      · rw [State.str_updStr_valid _ hlen hn, request _ h]; rfl
    · refine answer _ s _ h (by decide) (by decide) (by decide) ?_ (by rw [request _ h]; rfl)
      rw [State.request, request _ h]
      exact s.updStr_eq_self n (StringRec.hold_manual hh)
    · refine answer _ _ _ h (by decide) (by decide) (by decide) ?_ ?_
      · rw [State.request, request _ h]
        simp only [if_true, State.withdrawPreClose_diagnose he]
      · rw [State.str_updStr_valid _ hlen hn, request _ h]; rfl
    · refine answer _ s _ h (by decide) (by decide) (by decide) ?_ (by rw [request _ h]; rfl)
      rw [State.request, request _ h]
      simp only [if_true, State.withdrawPreClose_diagnose he]
    · have hw : s.request n .manual = (s.withdraw n).updStr n fun r => { r with cause := some (.req .manual) } := by
        rw [State.request, request _ h]
        simp only [if_true, State.withdrawPreClose_preClose he hen honly hp]
      have hlen' : (s.withdraw n).strings.length = 24 := by rw [State.withdraw_eq]; exact hlen
      have hstr := State.str_updStr_valid (s := s.withdraw n) (fun r => { r with cause := some (.req .manual) }) hlen' hn
      have hstate : (((s.withdraw n).updStr n fun r => { r with cause := some (.req .manual) }).str n).state = .isolated := by
        rw [hstr, State.withdraw_str]; exact request _ h
      refine ⟨_, answer _ _ _ h (by decide) (by decide) (by decide) hw (by rw [hstate]; rfl), by rw [hstr], hstate,
        s.withdraw_list n, fun f hf hfn => ⟨f.abort s.part.now, ?_, ?_⟩⟩
      · exact State.withdraw_flight ((s.holdsEntry_iff n).2 ⟨e, he, hen⟩) hf hfn
      · exact ⟨(f.abort_stage s.part.now).1, (f.abort_stage s.part.now).2.1⟩

/-! ## MODE (R18, R179) -/

/-- R170: the ACTIVE flag is set exactly while work is in flight. -/
theorem State.active_iff (s : State) :
    s.active = true ↔ s.sched.breaks ≠ [] ∨ (∃ r ∈ s.strings, r.state = .closing) ∨ s.probe.flight ≠ none ∨
      s.store.writing ≠ none := by
  simp [State.active, Option.isSome_iff_ne_none, or_assoc]

/-- R10, R18, R67: what the entry to RUN makes of a record. -/
theorem StringRec.enterRun_eq (r : StringRec) :
    r.enterRun = { r with
      reverseRun := 0, overRun := 0, openRun := 0, bucket := 0, alarm := false
      state := if r.state = .suspect then .connected else r.state
      cause := if r.state = .suspect then none else r.cause
      verdict := if r.state = .suspect then none else r.verdict } := by
  by_cases h : r.state = .suspect <;> simp [StringRec.enterRun, StringRec.zeroCriteria, h]

/-- Settles O34: the mode named and the mode in force, and the work in flight, decide. -/
theorem modeMessagesChangeTheMode : Obligations.ModeMessagesChangeTheMode := by
  unfold Obligations.ModeMessagesChangeTheMode
  intro s hl
  have setup : exec .modeSetup s = .next (s.reqModeSetup.1.sendReply Kind.mode.code s.reqModeSetup.2) :=
    congrArg Host.Outcome.next (State.answer_listening hl _ _)
  have run : exec .modeRun s = .next (s.reqModeRun.1.sendReply Kind.mode.code s.reqModeRun.2) :=
    congrArg Host.Outcome.next (State.answer_listening hl _ _)
  rw [setup, run]
  refine ⟨fun h => ?_, fun h => ?_, fun h hw => ?_, fun h h1 h2 h3 h4 => ?_, fun h => ?_⟩
  · simp [State.reqModeSetup, h, accept]
  · simp [State.reqModeRun, h, accept]
  · simp [State.reqModeSetup, h, s.active_iff.2 hw, refuse]
  · have idle : s.active = false := by
      rw [Bool.eq_false_iff, ne_eq, s.active_iff]
      simp only [h1, h3, h4, ne_eq, not_true, false_or, or_false, not_exists, not_and]
      exact h2
    simp [State.reqModeSetup, h, idle, accept, State.setMode]
  · refine ⟨s.strings.map (·.enterRun), ?_, by simp, fun n r hr => ⟨r.enterRun, by simp [getNum_map, hr], r.enterRun_eq⟩⟩
    simp [State.reqModeRun, h, accept, State.setMode, State.updAll, State.setStrings]

/-! ## The tests of STRING_CONFIG (R171, R182) -/

theorem inRange_eq_some (lo hi x y : Nat) : inRange lo hi x = some y ↔ (lo ≤ x ∧ x ≤ hi) ∧ y = x := by
  unfold inRange
  split <;> simp_all [eq_comm]

theorem boolOfCode_eq_some (b : Byte) (x : Bool) : boolOfCode b = some x ↔ (b = 0#8 ∨ b = 1#8) ∧ x = decide (b = 1#8) := by
  unfold boolOfCode
  by_cases h0 : b = 0#8
  · subst h0; simp [eq_comm]
  · by_cases h1 : b = 1#8
    · subst h1; simp [eq_comm]
    · simp [h0, h1]

/-- R182, test 1: the fields of a STRING_CONFIG within their ranges. -/
def StringConfigInRange (m : StringConfigMsg) : Prop :=
  (m.used = 0#8 ∨ m.used = 1#8) ∧ m.group.toNat ≤ 6 ∧ 1 ≤ m.input.toNat ∧ m.input.toNat ≤ 24 ∧ 100 ≤ m.rated.toNat ∧
    m.rated.toNat ≤ 2000 ∧ 1 ≤ m.modules.toNat ∧ m.modules.toNat ≤ 40 ∧ 100 ≤ m.voc25.toNat ∧ m.voc25.toNat ≤ 800

theorem stringSettingsOf_eq_some (m : StringConfigMsg) (c : StringSettings) :
    stringSettingsOf m = some c ↔ StringConfigInRange m ∧
      c = ⟨decide (m.used = 1#8), m.group.toNat, m.input.toNat, m.rated.toNat, m.modules.toNat, m.voc25.toNat⟩ := by
  simp only [stringSettingsOf, Option.bind_eq_bind, Option.bind_eq_some_iff, boolOfCode_eq_some, inRange_eq_some,
    StringConfigInRange]
  constructor
  · rintro ⟨_, ⟨hu, rfl⟩, _, ⟨hg, rfl⟩, _, ⟨hi, rfl⟩, _, ⟨hr, rfl⟩, _, ⟨hm, rfl⟩, _, ⟨hv, rfl⟩, hc⟩
    exact ⟨⟨hu, hg.2, hi.1, hi.2, hr.1, hr.2, hm.1, hm.2, hv.1, hv.2⟩, (Option.some.inj hc).symm⟩
  · rintro ⟨⟨hu, hg, hi, hi', hr, hr', hm, hm', hv, hv'⟩, rfl⟩
    exact ⟨_, ⟨hu, rfl⟩, _, ⟨⟨Nat.zero_le _, hg⟩, rfl⟩, _, ⟨⟨hi, hi'⟩, rfl⟩, _, ⟨⟨hr, hr'⟩, rfl⟩, _, ⟨⟨hm, hm'⟩, rfl⟩, _,
      ⟨⟨hv, hv'⟩, rfl⟩, rfl⟩

/-- R182, test 3: another used string names the sensor input. -/
theorem State.inputTaken_iff (s : State) (n input : Nat) :
    s.inputTaken n input = true ↔ ∃ k r, k ≠ n ∧ getNum s.strings k = some r ∧ r.cfg.used = true ∧ r.cfg.input = input := by
  simp only [State.inputTaken, List.any_eq_true, id]
  constructor
  · rintro ⟨b, hb, rfl⟩
    obtain ⟨k, hk⟩ := mem_getNum hb
    rw [getNum_mapNum] at hk
    cases hr : getNum s.strings (k + 1) with
    | none => simp [hr] at hk
    | some r =>
      simp only [hr, Option.map_some, Option.some.injEq, Bool.and_eq_true, bne_iff_ne, beq_iff_eq] at hk
      exact ⟨1 + k, r, hk.1.1, by rw [Nat.add_comm]; exact hr, hk.1.2, hk.2⟩
  · rintro ⟨k, r, hk, hr, hu, hi⟩
    match k with
    | 0 => cases hs : s.strings <;> simp [hs, getNum] at hr
    | k + 1 =>
      refine ⟨true, getNum_mem (n := k + 1) ?_, rfl⟩
      rw [getNum_mapNum, hr]
      simp [hu, hi, Nat.add_comm 1 k, hk]

/-- Settles O35: the tests in the order in which the message is tested. -/
theorem stringConfigIsTestedInOrder : Obligations.StringConfigIsTestedInOrder := by
  unfold Obligations.StringConfigIsTestedInOrder
  intro s m hl n used refused fields product shared busy
  have done (r : Reason) (h : s.reqStringConfig m = refuse s r) : refused r := by
    have : exec (.stringConfig m) s = .next ((s.reqStringConfig m).1.sendReply _ (s.reqStringConfig m).2) :=
      congrArg Host.Outcome.next (State.answer_listening hl _ _)
    rw [h] at this
    exact this
  have settings (hf : fields) : ∃ c, stringOfByte m.string = some n ∧ stringSettingsOf m = some c ∧
      (15000 < c.modules * c.voc25 ↔ ¬product) ∧ (c.used = true ∧ s.inputTaken n c.input = true ↔ shared) ∧
      (c.used = false ↔ ¬used) := by
    obtain ⟨hn, hr⟩ := hf
    exact ⟨_, stringOfByte_number hn, (stringSettingsOf_eq_some m _).2 ⟨hr, rfl⟩, not_le.symm,
      and_congr decide_eq_true_iff (s.inputTaken_iff _ _), decide_eq_false_iff_not⟩
  refine ⟨fun h => done _ (by simp [State.reqStringConfig, h]), fun h hf => done _ ?_, fun h hf hp => done _ ?_,
    fun h hf hp hs => done _ ?_, fun h hf hp hs hb => done _ ?_, fun h hf hp hs hb hu h1 h2 h3 => done _ ?_⟩
  · simp only [State.reqStringConfig, h]
    rw [if_neg (by decide)]
    split
    · next x c hn hc =>
      have hn' : stringNumber n = true := by
        by_contra hx
        rw [stringOfByte_none (by simpa using hx)] at hn
        cases hn
      exact absurd ⟨hn', ((stringSettingsOf_eq_some m c).1 hc).1⟩ hf
    · rfl
  all_goals
    obtain ⟨c, hn, hc, hpr, hsh, hun⟩ := settings hf
    simp only [State.reqStringConfig, h, hn, hc]
    rw [if_neg (by decide)]
  · rw [if_pos (hpr.2 hp)]
  · rw [if_neg (mt hpr.1 (not_not.2 hp)), if_pos (hsh.2 hs)]
  · rw [if_neg (mt hpr.1 (not_not.2 hp)), if_neg (mt hsh.1 hs), if_pos hb]
  · rw [if_neg (mt hpr.1 (not_not.2 hp)), if_neg (mt hsh.1 hs), if_neg hb, if_pos ⟨h1, hun.2 hu, h2, h3⟩]

end

end Sys2Proof.Machine
end

