-- ==== Sys2Proof/Proofs/WalkFacts.lean ====
section
/-! SUPPORT. What a service walk leaves: items are only raised, entries only leave the queue, a string whose contact is CLOSED
can only be broken, and a string that is not queued keeps its record. -/

namespace Sys2Proof.Machine

section
variable {s t : State} {n : Nat}

/-! ## Walks keep what visits keep -/

/-- R78: a property that every visit keeps is kept by a walk. -/
theorem State.walk_keeps (P : State → Prop) (h : P s) (step : ∀ t earlier e, P t → P (State.visit t earlier e).1) : P s.walk := by
  have once (u : State) (hu : P u) : P u.walkOnce := u.walkOnce_keeps P hu fun t earlier e _ ht => step t earlier e ht
  unfold State.walk
  simp only
  split
  · exact once _ (once s h)
  · exact once s h

/-- R79: one visit by its five outcomes, each with what the string's contact and current say. -/
theorem State.visit_outcomes (s : State) (earlier : Bool) (e : QueueEntry) :
    ((s.str e.string).position = .opened ∧ (s.visit earlier e).1 = s.alreadyOpen e.string) ∨
      (s.visit earlier e).1 = s ∨
      ((s.str e.string).position = .closed ∧ s.scan.completed = true ∧
        ((s.visit earlier e).1 = s.startCold e ∨ s.cell.stage = .idle ∧ (s.visit earlier e).1 = s.startCommutated e ∨
          (s.visit earlier e).1 = s.openOrder)) := by
  unfold State.visit
  simp only
  split
  · next h => exact .inl ⟨h, rfl⟩
  · next h =>
    have hp : (s.str e.string).position = .closed := by cases hx : (s.str e.string).position <;> simp_all
    split
    · exact .inr (.inl rfl)
    · next hc =>
      have hc : s.scan.completed = true := by simpa using hc
      split
      · exact .inr (.inr ⟨hp, hc, .inl rfl⟩)
      · split
        · next hg => exact .inr (.inr ⟨hp, hc, .inr (.inl ⟨hg.2.2, rfl⟩)⟩)
        · split
          · exact .inr (.inr ⟨hp, hc, .inr (.inr rfl)⟩)
          · exact .inr (.inl rfl)

/-! ## The attention set only grows -/

/-- Every item stays in the attention set. -/
def Grows (s t : State) : Prop := ∀ i ∈ s.attention, i ∈ t.attention

theorem Grows.refl (s : State) : Grows s s := fun _ h => h

theorem Grows.trans {s t u : State} (h : Grows s t) (k : Grows t u) : Grows s u := fun i hi => k i (h i hi)

theorem Grows.of_eq (h : t.attention = s.attention) : Grows s t := fun _ hi => h ▸ hi

theorem Grows.raise (s : State) (i : Item) : Grows s (s.raise i) := fun _ hj => (s.mem_raise i _).2 (.inl hj)

theorem Grows.place (s : State) (n : Nat) (p : Purpose) (o : Origin) : Grows s (s.place n p o) :=
  .of_eq (s.place_attention n p o)

theorem Grows.foldl {α : Type} {f : State → α → State} (hf : ∀ t x, Grows t (f t x)) (l : List α) (s : State) :
    Grows s (l.foldl f s) := by
  induction l generalizing s with
  | nil => exact .refl s
  | cons x xs ih => exact (hf s x).trans (ih (f s x))

theorem State.mem_raise_self (s : State) (i : Item) : i ∈ (s.raise i).attention := (s.mem_raise i i).2 (.inr rfl)

theorem State.offBus_grows (s : State) (n : Nat) : Grows s (s.offBus n) :=
  (Grows.raise (s.settleOff n) (.str .isolated n)).trans (.place _ n _ _)

theorem State.openOrder_grows (s : State) : Grows s s.openOrder := by
  have starts : Grows s s.startOpening := by
    unfold State.startOpening
    intro i hi
    simp only
    split <;> simp [State.isolatorOpened, State.mem_raise, State.setIsolator, hi]
  rcases s.openOrder_cases with ⟨h, -⟩ | ⟨h, -⟩ | ⟨h, -⟩ <;> rw [h]
  · exact .refl s
  · exact .of_eq rfl
  · exact starts

theorem State.visit_grows (s : State) (earlier : Bool) (e : QueueEntry) : Grows s (s.visit earlier e).1 := by
  rcases s.visit_cases earlier e with h | h | h | h | h <;> rw [h]
  · exact State.offBus_grows ((s.dequeue e.string).updStr e.string _) e.string
  · exact .refl s
  · exact .of_eq rfl
  · exact .of_eq rfl
  · exact s.openOrder_grows

theorem State.walk_grows (s : State) : Grows s s.walk :=
  State.walk_keeps (Grows s) (.refl s) fun t earlier e h => h.trans (t.visit_grows earlier e)

theorem State.openRequest_grows (s : State) : Grows s s.openRequest := by
  unfold State.openRequest
  simp only
  split
  · exact s.openOrder_grows.trans (State.walk_grows _)
  · exact s.openOrder_grows

/-! ## The queue and the arrival counter -/

theorem State.openOrder_sched (s : State) : s.openOrder.sched = s.sched := by
  rcases s.openOrder_cases with ⟨h, -⟩ | ⟨h, -⟩ | ⟨h, -⟩ <;> rw [h]
  · rfl
  · unfold State.startOpening State.isolatorOpened
    simp only
    split <;> simp

theorem State.alreadyOpen_sched (s : State) (n : Nat) : (s.alreadyOpen n).sched = (s.dequeue n).sched := by
  simp [State.alreadyOpen, State.offBus, State.settleOff]

/-- A visit leaves the arrival counter, and takes no entry but the visited string's. -/
theorem State.visit_sched (s : State) (earlier : Bool) (e : QueueEntry) :
    (s.visit earlier e).1.sched.arrival = s.sched.arrival ∧
      ((s.visit earlier e).1.sched.queue = s.sched.queue ∨
        (s.visit earlier e).1.sched.queue = s.sched.queue.filter fun x => x.string != e.string) := by
  rcases s.visit_cases earlier e with h | h | h | h | h <;> rw [h]
  · rw [State.alreadyOpen_sched]; exact ⟨rfl, .inr rfl⟩
  · exact ⟨rfl, .inl rfl⟩
  · exact ⟨rfl, .inr rfl⟩
  · exact ⟨rfl, .inr rfl⟩
  · rw [State.openOrder_sched]; exact ⟨rfl, .inl rfl⟩

theorem State.walk_arrival (s : State) : s.walk.sched.arrival = s.sched.arrival :=
  State.walk_keeps (fun t => t.sched.arrival = s.sched.arrival) rfl fun t earlier e h => (t.visit_sched earlier e).1.trans h

/-- R77: a walk adds no entry. -/
theorem State.visit_queue_subset (s : State) (earlier : Bool) (e x : QueueEntry) (h : x ∈ (s.visit earlier e).1.sched.queue) :
    x ∈ s.sched.queue := by
  rcases (s.visit_sched earlier e).2 with hq | hq <;> rw [hq] at h
  · exact h
  · exact (List.mem_filter.1 h).1

/-- A string without an entry keeps its record through a walk. -/
theorem State.walk_str_unqueued (s : State) (h : ∀ e ∈ s.sched.queue, e.string ≠ n) : s.walk.str n = s.str n := by
  have once (u : State) (hu : ∀ e ∈ u.sched.queue, e.string ≠ n) :
      u.walkOnce.str n = u.str n ∧ ∀ e ∈ u.walkOnce.sched.queue, e.string ≠ n :=
    u.walkOnce_keeps (fun t => t.str n = u.str n ∧ ∀ e ∈ t.sched.queue, e.string ≠ n) ⟨rfl, hu⟩
      fun t earlier e he ht => ⟨(t.visit_str_ne earlier e (hu e he).symm).trans ht.1,
        fun x hx => ht.2 x (t.visit_queue_subset earlier e x hx)⟩
  unfold State.walk
  simp only
  split
  · exact (once _ (once s h).2).1.trans (once s h).1
  · exact (once s h).1

/-- A cell that is not IDLE is left by a walk. -/
theorem State.walk_cell (s : State) (h : s.cell.stage ≠ .idle) : s.walk.cell = s.cell := by
  refine State.walk_keeps (fun t => t.cell = s.cell) rfl fun t earlier e ht => ?_
  rcases t.visit_outcomes earlier e with ⟨-, hv⟩ | hv | ⟨-, -, hv | ⟨hi, hv⟩ | hv⟩ <;> rw [hv]
  · simpa [State.alreadyOpen, State.offBus, State.settleOff, State.dequeue] using ht
  · exact ht
  · exact ht
  · rw [ht] at hi; exact absurd hi h
  · rcases t.openOrder_cases with ⟨h, -⟩ | ⟨h, -⟩ | ⟨h, -⟩ <;> rw [h]
    · exact ht
    · exact ht
    · unfold State.startOpening State.isolatorOpened
      simp only
      split <;> simpa using ht

/-! ## A string whose contact is CLOSED -/

/-- A QUEUED or BREAKING string with its contact CLOSED. -/
structure OnTheWay (n : Nat) (t : State) : Prop where
  size : t.strings.length = 24
  position : (t.str n).position = .closed
  state : (t.str n).state = .queued ∨ (t.str n).state = .breaking

theorem State.visit_length (s : State) (earlier : Bool) (e : QueueEntry) :
    (s.visit earlier e).1.strings.length = s.strings.length := (s.visit_walked earlier e).strings.1

theorem State.openOrder_probe (s : State) : s.openOrder.probe = s.probe := by
  rcases s.openOrder_cases with ⟨h, -⟩ | ⟨h, -⟩ | ⟨h, -⟩ <;> rw [h]
  · rfl
  · unfold State.startOpening State.isolatorOpened
    simp only
    split <;> simp

/-- R12: a string found open is the only one put to the probe. -/
theorem State.alreadyOpen_list (s : State) (m : Nat) : ∀ e ∈ (s.alreadyOpen m).probe.list, e ∈ s.probe.list ∨ e.string = m := by
  intro e he
  unfold State.alreadyOpen State.offBus at he
  rw [State.place_list] at he
  split at he
  · left; simpa [State.settleOff, State.dequeue] using he
  · rcases List.mem_append.1 he with h | h
    · left; simpa [State.settleOff, State.dequeue] using h
    · right; rw [List.mem_singleton.1 h]

theorem OnTheWay.visit (h : OnTheWay n t) (earlier : Bool) (e : QueueEntry) : OnTheWay n (t.visit earlier e).1 := by
  have hl : (t.visit earlier e).1.strings.length = 24 := (t.visit_length earlier e).trans h.size
  by_cases hn : e.string = n
  · subst hn
    have hnum : stringNumber e.string = true := by
      by_contra hc
      rw [stringNumber_iff] at hc
      have hp := h.position
      rw [t.str_outside _ (by have := h.size; omega)] at hp
      cases hp
    rcases t.visit_outcomes earlier e with ⟨hp, -⟩ | hv | ⟨-, -, hv | ⟨-, hv⟩ | hv⟩
    · exact absurd (h.position.symm.trans hp) (by decide)
    · rw [hv]; exact h
    · refine ⟨hl, ?_, ?_⟩ <;> rw [hv]
      · exact (congrArg StringRec.position (State.str_updStr_valid _ h.size hnum)).trans h.position
      · exact .inr (congrArg StringRec.state (State.str_updStr_valid _ h.size hnum))
    · refine ⟨hl, ?_, ?_⟩ <;> rw [hv]
      · exact (congrArg StringRec.position (State.str_updStr_valid _ h.size hnum)).trans h.position
      · exact .inr (congrArg StringRec.state (State.str_updStr_valid _ h.size hnum))
    · have hs := State.str_congr t.openOrder_strings e.string
      rw [hv] at hl ⊢
      exact ⟨hl, by rw [hs]; exact h.position, by rw [hs]; exact h.state⟩
  · have hs := t.visit_str_ne earlier e (Ne.symm hn)
    exact ⟨hl, by rw [hs]; exact h.position, by rw [hs]; exact h.state⟩

theorem OnTheWay.walk (h : OnTheWay n s) : OnTheWay n s.walk :=
  State.walk_keeps (OnTheWay n) h fun _ earlier e ht => ht.visit earlier e

/-- A visit puts no string to the probe whose contact is CLOSED. -/
theorem OnTheWay.visit_list (h : OnTheWay n t) (earlier : Bool) (e : QueueEntry) :
    ∀ x ∈ (t.visit earlier e).1.probe.list, x ∈ t.probe.list ∨ x.string ≠ n := by
  intro x hx
  rcases t.visit_outcomes earlier e with ⟨hp, hv⟩ | hv | ⟨-, -, hv | ⟨-, hv⟩ | hv⟩ <;> rw [hv] at hx
  · refine (t.alreadyOpen_list e.string x hx).imp_right fun he hn => ?_
    rw [← he, hn] at hp
    exact absurd (h.position.symm.trans hp) (by decide)
  · exact .inl hx
  · exact .inl hx
  · exact .inl hx
  · rw [State.openOrder_probe] at hx; exact .inl hx

theorem OnTheWay.walk_list (h : OnTheWay n s) : ∀ x ∈ s.walk.probe.list, x ∈ s.probe.list ∨ x.string ≠ n :=
  (State.walk_keeps (fun t => OnTheWay n t ∧ ∀ x ∈ t.probe.list, x ∈ s.probe.list ∨ x.string ≠ n) ⟨h, fun _ hx => .inl hx⟩
    fun _ earlier e ht => ⟨ht.1.visit earlier e, fun x hx => (ht.1.visit_list earlier e x hx).elim (ht.2 x) .inr⟩).2

/-- R79, R153: before the first completion a QUEUED string with its contact CLOSED keeps its record and its entry. -/
theorem State.walk_waits (s : State) (hc : s.scan.completed = false) (hp : (s.str n).position = .closed) :
    s.walk.str n = s.str n ∧ ∀ x ∈ s.sched.queue, x.string = n → x ∈ s.walk.sched.queue := by
  refine (State.walk_keeps (fun t => t.scan = s.scan ∧ t.str n = s.str n ∧
    ∀ x ∈ s.sched.queue, x.string = n → x ∈ t.sched.queue) ⟨rfl, rfl, fun _ h _ => h⟩ fun t earlier e h => ?_).2
  obtain ⟨hs, hr, hq⟩ := h
  rcases t.visit_outcomes earlier e with ⟨ho, hv⟩ | hv | ⟨-, hcc, -⟩
  · have hne : n ≠ e.string := fun hn => by
      subst hn
      rw [hr] at ho
      exact absurd (hp.symm.trans ho) (by decide)
    refine ⟨((t.visit_within earlier e) .scan (by decide)).trans hs, (t.visit_str_ne earlier e hne).trans hr, fun x hx hxn => ?_⟩
    rw [hv, State.alreadyOpen_sched]
    exact List.mem_filter.2 ⟨hq x hx hxn, by simp [hxn, hne]⟩
  · rw [hv]; exact ⟨hs, hr, hq⟩
  · rw [hs, hc] at hcc; cases hcc

/-- A walk takes a string to BREAKING, ISOLATED or LOCKED_OUT, or leaves its state. -/
theorem State.walk_state (s : State) (n : Nat) :
    (s.walk.str n).state = (s.str n).state ∨ (s.walk.str n).state = .breaking ∨ (s.walk.str n).state = .isolated ∨
      (s.walk.str n).state = .lockedOut := by
  refine State.walk_keeps (fun t => (t.str n).state = (s.str n).state ∨ (t.str n).state = .breaking ∨
    (t.str n).state = .isolated ∨ (t.str n).state = .lockedOut) (.inl rfl) fun t earlier e h => ?_
  by_cases hn : n = e.string
  · subst hn
    rcases t.visit_cases earlier e with hv | hv | hv | hv | hv <;> rw [hv]
    · unfold State.alreadyOpen State.offBus
      simp only [State.place_str, State.raiseStr_eq, State.raise_str]
      rcases (State.updStr (t.dequeue e.string) e.string fun r =>
        r.editRecord fun q => { q with kind := some .alreadyOpen, current := none }).str_updStr e.string e.string
        (fun r => { r with state := if State.locked _ e.string then .lockedOut else .isolated }) with hx | ⟨-, hx⟩
      · unfold State.settleOff
        rw [hx]
        rcases (t.dequeue e.string).str_updStr e.string e.string (fun r =>
          r.editRecord fun q => { q with kind := some .alreadyOpen, current := none }) with hy | ⟨-, hy⟩ <;> rw [hy] <;> exact h
      · unfold State.settleOff
        rw [hx]
        right; right
        simp only
        split <;> simp
    · exact h
    · unfold State.startCold
      simp only
      rcases State.str_updStr ((t.dequeue e.string).setSched _) e.string e.string _ with hx | ⟨-, hx⟩ <;> rw [hx]
      · exact h
      · exact .inr (.inl rfl)
    · unfold State.startCommutated
      simp only [State.setCell_str]
      rcases State.str_updStr ((t.dequeue e.string).setSched _) e.string e.string _ with hx | ⟨-, hx⟩ <;> rw [hx]
      · exact h
      · exact .inr (.inl rfl)
    · rw [State.str_congr t.openOrder_strings]; exact h
  · rw [t.visit_str_ne earlier e hn]; exact h

/-! ## A walk over one entry -/

/-- R78: with one entry a walk is its visit, unless the isolator arrives at OPEN. -/
theorem State.walk_single {e : QueueEntry} (h : s.sched.queue = [e])
    (hi : (s.visit false e).1.isolator.state ≠ .opened ∨ s.isolator.state = .opened) : s.walk = (s.visit false e).1 := by
  have ho : s.walkOnce = (s.visit false e).1 := by simp [State.walkOnce, h]
  unfold State.walk
  simp only [ho]
  refine if_neg ?_
  simp only [State.reachedOpen, Bool.and_eq_true, beq_iff_eq, bne_iff_ne, not_and, not_not]
  exact fun hx => hi.elim (absurd hx) id

end

end Sys2Proof.Machine
end

