-- ==== Sys2Proof/Proofs/Admissions.lean ====
section
/-! SUPPORT. What an open request leaves by the isolator's state, and the state in which an admitted string is walked:
its record, its entry and the queue, with the shutdown raise of R144 already made. -/

namespace Sys2Proof.Machine

section
variable {s t : State} {n m : Nat} {c : ReqCause}

/-! ## Raises -/

theorem State.raise_of_mem {i : Item} (h : i ∈ s.attention) : s.raise i = s := if_pos h

/-- R162: an item is raised once. -/
theorem State.raise_raise (s : State) (i : Item) : (s.raise i).raise i = s.raise i := State.raise_of_mem (s.mem_raise_self i)

theorem State.raise_setIsolator (s : State) (i : Item) (x : Isolator) :
    (s.raise i).setIsolator x = (s.setIsolator x).raise i := by
  unfold State.raise
  by_cases h : i ∈ s.attention
  · rw [if_pos h, if_pos (show i ∈ (s.setIsolator x).attention from h)]
  · rw [if_neg h, if_neg (show i ∉ (s.setIsolator x).attention from h)]; rfl

theorem State.setSched_updStr (s : State) (x : Scheduler) (n : Nat) (f : StringRec → StringRec) :
    (s.setSched x).updStr n f = (s.updStr n f).setSched x := rfl

theorem State.setSched_setSched (s : State) (x y : Scheduler) : (s.setSched x).setSched y = s.setSched y := rfl

/-! ## Open requests -/

/-- R106: an open request from CLOSED or FAILED starts the operation, when the feedback is not at its end already. -/
theorem State.openOrder_starts (h : s.isolator.state = .closed ∨ s.isolator.state = .failed) (hf : s.isolator.feedback ≠ .opened) :
    s.openOrder = (s.setIsolator { s.isolator with state := .opening, since := s.part.now }).raiseBox .output := by
  have hs : s.openOrder = s.startOpening := by unfold State.openOrder; rcases h with h | h <;> simp [h]
  rw [hs]
  unfold State.startOpening
  simp only [State.raiseBox_eq, State.raise_isolator]
  exact if_neg hf

theorem State.openOrder_holds (h : s.isolator.state = .opening ∨ s.isolator.state = .opened) : s.openOrder = s := by
  unfold State.openOrder
  rcases h with h | h <;> simp [h]

theorem State.openOrder_pends (h : s.isolator.state = .closing) :
    s.openOrder = s.setIsolator { s.isolator with pendingOpen := true } := by
  unfold State.openOrder
  simp [h]

/-- An open request that does not take the isolator to OPEN starts no walk. -/
theorem State.openRequest_eq (h : s.isolator.feedback ≠ .opened ∨ s.isolator.state = .opening ∨ s.isolator.state = .opened ∨
    s.isolator.state = .closing) : s.openRequest = s.openOrder := by
  have hr : s.openOrder.reachedOpen s = false := by
    unfold State.reachedOpen
    rcases s.openOrder_cases with ⟨ho, hs | hs⟩ | ⟨ho, hs⟩ | ⟨-, hs⟩
    · rw [ho]; simp [hs]
    · rw [ho]; simp [hs]
    · rw [ho]; simp [hs]
    · have hf : s.isolator.feedback ≠ .opened := by rcases hs with hs | hs <;> simpa [hs] using h
      rw [State.openOrder_starts hs hf]; simp
  unfold State.openRequest
  simp [hr]

/-- With no entry waiting, an open request starts no walk that does anything. -/
theorem State.openRequest_idle (h : s.sched.queue = []) : s.openRequest = s.openOrder := by
  unfold State.openRequest
  simp only
  rw [State.walk_empty _ (by rw [State.openOrder_sched]; exact h), ite_self]

theorem State.escalateWaiting_idle (h : s.sched.queue = []) : s.escalateWaiting = s := by
  simp [State.escalateWaiting, h]

theorem State.cellIdle_idle (h : s.sched.queue = []) :
    s.cellIdle = s.setCell { s.cell with stage := .idle, served := none, releasing := false } := State.walk_empty _ h

theorem State.cellHot_idle (h : s.sched.queue = []) :
    s.cellHot = (s.setCell { s.cell with stage := .hot, served := none, releasing := false }).raiseBox .cellHot :=
  State.escalateWaiting_idle (by simpa using h)

/-! ## The admitted string -/

/-- The cause that an admitted entry bears: SHUTDOWN while the shutdown state is ASSERTED (R144, log 21). -/
def State.causeAdmitted (s : State) (c : ReqCause) : ReqCause := if s.shutdown.asserted then .shutdown else c

/-- The entry with which a string is queued now (R75). -/
def State.entryFor (s : State) (n : Nat) (c : ReqCause) : QueueEntry :=
  ⟨n, (s.causeAdmitted c).severity, s.causeAdmitted c, s.scan.counter, s.sched.arrival⟩

/-- The queue with that entry in its place (R74); a raised entry has been put at its place a second time (R76). -/
def State.queueWith (s : State) (n : Nat) (c : ReqCause) : List QueueEntry :=
  if s.shutdown.asserted = true ∧ c ≠ .shutdown then
    insertEntry s.scan.counter (s.sched.arrival + 1) (s.entryFor n c) (s.sched.queue.filter fun e => e.string != n)
  else insertEntry s.scan.counter s.sched.arrival (s.entryFor n c) s.sched.queue

/-- The last isolation record that an isolation with this cause opens (R8). -/
def State.openedFor (s : State) (c : ReqCause) : IsoRecord :=
  ⟨.req c, s.scan.counter, s.peer.day, none, none, none, none, none, 0⟩

/-- A record queued with a cause: the recurrence test of the request's own cause is made on it (R131). -/
def State.queuedRecord (s : State) (c : ReqCause) (r : StringRec) : StringRec :=
  let q := { r with
    state := .queued, cause := some (.req (s.causeAdmitted c)), verdict := none
    record := some (s.openedFor (s.causeAdmitted c)) }
  if c.isFault then q.recurrence s.box.recurrence else q

/-- The state in which an admitted string is walked. -/
def State.admitted (s : State) (n : Nat) (c : ReqCause) : State :=
  (s.updStr n (s.queuedRecord c)).setSched { s.sched with queue := s.queueWith n c, arrival := s.sched.arrival + 1 }

theorem filter_insertEntry (counter arrival : Word32) (e : QueueEntry) (q : List QueueEntry) :
    (insertEntry counter arrival e q).filter (fun x => x.string != e.string) = q.filter fun x => x.string != e.string := by
  induction q with
  | nil => simp [insertEntry]
  | cons y ys ih =>
    rw [insertEntry]
    split
    · simp
    · simp only [List.filter_cons, ih]

/-- The recurrence test reads no more of the record than its round. -/
theorem StringRec.recurrence_recause (r : StringRec) (w : Nat) (d : Cause) :
    ({ r.editRecord (fun q => { q with cause := d }) with cause := some d } : StringRec).recurrence w =
      { (r.recurrence w).editRecord (fun q => { q with cause := d }) with cause := some d } := by
  unfold StringRec.recurrence StringRec.editRecord
  rcases hq : r.record with _ | q <;> rcases ha : r.reconnectedAt with _ | a
  · simp [hq]
  · simp [hq]
  · simp [hq, ha]
  · simp only [Option.map_some]
    split <;> simp [hq, ha]

theorem State.recurrenceTest_eq (s : State) (n : Nat) (c : ReqCause) : s.recurrenceTest n c =
    s.updStr n fun r => if c.isFault then r.recurrence s.box.recurrence else r := by
  unfold State.recurrenceTest
  by_cases hd : c.isFault = true
  · rw [if_pos hd]; simp [hd]
  · rw [if_neg hd]; simp [hd, State.updStr_eq_self]

/-- R11, R75, R144: a string that is queued is admitted and walked. -/
theorem State.queueString_eq (s : State) (n : Nat) (c : ReqCause) : s.queueString n c = (s.admitted n c).walk := by
  unfold State.queueString State.admitEntry State.admitted
  simp only
  congr 1
  rw [State.recurrenceTest_eq, State.openRecord, State.updStr_updStr, State.updStr_updStr]
  unfold State.shutdownRaise
  by_cases hr : s.shutdown.asserted = true ∧ c ≠ .shutdown
  · obtain ⟨ha, hc⟩ := hr
    refine (if_pos ⟨ha, hc⟩).trans ?_
    unfold State.raiseEntry
    rw [State.recurrenceTest, if_neg (by decide)]
    have hq : (insertEntry s.scan.counter s.sched.arrival ⟨n, c.severity, c, s.scan.counter, s.sched.arrival⟩ s.sched.queue).filter
        (fun e => e.string != n) = s.sched.queue.filter fun e => e.string != n :=
      filter_insertEntry _ _ (⟨n, c.severity, c, s.scan.counter, s.sched.arrival⟩ : QueueEntry) _
    have hd : s.causeAdmitted c = .shutdown := if_pos ha
    unfold State.queueWith State.entryFor State.enqueue State.dequeue
    rw [if_pos ⟨ha, hc⟩, hd]
    simp only [State.setSched_sched, State.setSched_scan, State.updStr_sched, State.updStr_scan, hq]
    simp only [State.setSched_setSched, State.setSched_updStr, State.updStr_updStr]
    refine congrArg (fun u : State => u.setSched _) (State.updStr_congr s n ?_)
    unfold State.queuedRecord
    rw [hd]
    by_cases hf : c.isFault = true
    · simp only [hf, if_true]
      rw [← StringRec.recurrence_recause]
      rfl
    · simp only [hf]
      rfl
  · refine (if_neg hr).trans ?_
    have hd : s.causeAdmitted c = c := by
      unfold State.causeAdmitted
      split
      · exact (by_contra fun hc => hr ⟨‹_›, fun hx => hc hx.symm⟩)
      · rfl
    unfold State.queueWith State.entryFor State.queuedRecord
    simp only [hd, if_neg hr]
    rfl

/-! ## What the admission leaves -/

/-- A queued record changes in its state, cause, verdict, last isolation record and budget alone. -/
theorem State.queuedRecord_eq (s : State) (c : ReqCause) (r : StringRec) : ∃ b, s.queuedRecord c r = { r with
    state := .queued, cause := some (.req (s.causeAdmitted c)), verdict := none
    record := some (s.openedFor (s.causeAdmitted c)), budget := b } := by
  unfold State.queuedRecord StringRec.recurrence
  simp only
  split
  · split
    · split <;> exact ⟨_, rfl⟩
    · exact ⟨_, rfl⟩
  · exact ⟨_, rfl⟩

/-- R131: a cause that is not the fault monitor's leaves the budget. -/
theorem State.queuedRecord_of_not_fault (s : State) (r : StringRec) (h : c.isFault = false) : s.queuedRecord c r = { r with
    state := .queued, cause := some (.req (s.causeAdmitted c)), verdict := none
    record := some (s.openedFor (s.causeAdmitted c)) } := by
  simp [State.queuedRecord, h]

theorem State.mem_queueWith {x : QueueEntry} (h : x ∈ s.queueWith n c) : x = s.entryFor n c ∨ x ∈ s.sched.queue := by
  unfold State.queueWith at h
  split at h
  · exact ((mem_insertEntry _ _ _ _ _).1 h).imp_right fun hx => (List.mem_filter.1 hx).1
  · exact (mem_insertEntry _ _ _ _ _).1 h

theorem State.entryFor_mem (s : State) (n : Nat) (c : ReqCause) : s.entryFor n c ∈ s.queueWith n c := by
  unfold State.queueWith
  split <;> exact (mem_insertEntry _ _ _ _ _).2 (.inl rfl)

theorem State.admitted_str (hl : s.strings.length = 24) (hn : stringNumber n = true) :
    (s.admitted n c).str n = s.queuedRecord c (s.str n) := State.str_updStr_valid _ hl hn

theorem State.admitted_str_ne (h : m ≠ n) : (s.admitted n c).str m = s.str m := s.str_updStr_ne _ n m h

@[simp] theorem State.admitted_length (s : State) (n : Nat) (c : ReqCause) :
    (s.admitted n c).strings.length = s.strings.length := s.updStr_length n _

/-- R75: the arrival counter rises by 1 at an admission. -/
theorem State.queueString_arrival (s : State) (n : Nat) (c : ReqCause) :
    (s.queueString n c).sched.arrival = s.sched.arrival + 1 := by
  rw [State.queueString_eq, State.walk_arrival]
  rfl

/-- R11, R144: an isolated string bears the admitted cause; the walk leaves it. -/
theorem State.queueString_cause (hl : s.strings.length = 24) (hn : stringNumber n = true) :
    ((s.queueString n c).str n).cause = some (.req (s.causeAdmitted c)) := by
  obtain ⟨_, _, _, hw⟩ := (State.walk_walked (s.admitted n c)).strings.2 n
  obtain ⟨b, hq⟩ := s.queuedRecord_eq c (s.str n)
  rw [State.queueString_eq, hw, State.admitted_str hl hn, hq]

/-- R79, R80: a string with its contact CLOSED ends its admission QUEUED or BREAKING. -/
theorem State.admitted_onTheWay (hl : s.strings.length = 24) (hn : stringNumber n = true)
    (hp : (s.str n).position = .closed) : OnTheWay n (s.admitted n c) := by
  obtain ⟨b, hq⟩ := s.queuedRecord_eq c (s.str n)
  have hs := (State.admitted_str (c := c) hl hn).trans hq
  exact ⟨(s.admitted_length n c).trans hl, by rw [hs]; exact hp, .inl (by rw [hs])⟩

theorem State.queueString_onTheWay (hl : s.strings.length = 24) (hn : stringNumber n = true)
    (hp : (s.str n).position = .closed) : OnTheWay n (s.queueString n c) := by
  rw [State.queueString_eq]
  exact (State.admitted_onTheWay hl hn hp).walk

theorem State.queueString_unlisted (hl : s.strings.length = 24) (hn : stringNumber n = true)
    (hp : (s.str n).position = .closed) (he : ∀ e ∈ s.probe.list, e.string ≠ n) :
    ∀ e ∈ (s.queueString n c).probe.list, e.string ≠ n := by
  rw [State.queueString_eq]
  exact fun x hx => ((State.admitted_onTheWay hl hn hp).walk_list x hx).elim (he x) id

/-- R153: before the first completion a string with its contact CLOSED waits with its entry. -/
theorem State.queueString_waits (hl : s.strings.length = 24) (hn : stringNumber n = true)
    (hp : (s.str n).position = .closed) (hc : s.scan.completed = false) :
    (s.queueString n c).str n = s.queuedRecord c (s.str n) ∧ s.entryFor n c ∈ (s.queueString n c).sched.queue := by
  obtain ⟨b, hq⟩ := s.queuedRecord_eq c (s.str n)
  have hs := State.admitted_str (c := c) hl hn
  rw [State.queueString_eq]
  obtain ⟨hr, hw⟩ := State.walk_waits (s := s.admitted n c) (n := n) hc (by rw [hs, hq]; exact hp)
  exact ⟨hr.trans hs, hw _ (s.entryFor_mem n c) rfl⟩

theorem State.queueString_grows (s : State) (n : Nat) (c : ReqCause) : Grows s (s.queueString n c) := by
  rw [State.queueString_eq]
  exact State.walk_grows (s.admitted n c)

theorem State.raiseEntry_attention (s : State) (e : QueueEntry) (c : ReqCause) :
    (s.raiseEntry e c).attention = s.attention := by
  unfold State.raiseEntry State.recurrenceTest
  simp only
  split <;> rfl

/-- R11: an isolation request keeps every attention item. -/
theorem State.request_grows (s : State) (n : Nat) (c : ReqCause) : Grows s (s.request n c) := by
  have withdrawn : Grows s (s.withdraw n) := .of_eq (by rw [State.withdraw_eq]; rfl)
  have preClose : Grows s (s.withdrawPreClose n) := .of_eq (s.withdrawPreClose_within n .attention (by decide))
  unfold State.request
  split
  · exact s.queueString_grows n c
  · exact s.queueString_grows n c
  · unfold State.merge
    split
    · exact .refl s
    · split
      · exact Grows.trans (.of_eq (s.raiseEntry_attention _ c)) (State.walk_grows _)
      · exact .refl s
  · exact .refl s
  · split
    · exact preClose.trans (.of_eq rfl)
    · exact .refl s
  · split
    · exact preClose
    · split
      · exact withdrawn.trans (State.queueString_grows _ n c)
      · exact .refl s
  · exact .of_eq rfl
  · exact .refl s
  · exact .refl s
  · exact .refl s

theorem State.shutdownCatch_grows (s : State) (n : Nat) : Grows s (s.shutdownCatch n) := by
  unfold State.shutdownCatch
  split
  · exact s.request_grows n _
  · exact .refl s

/-- R102: a discrepancy's answer keeps every attention item. -/
theorem State.discrepancy_grows (s : State) (n : Nat) : Grows s (s.discrepancy n) := by
  have opened : Grows s (s.externalOpen n) :=
    (Grows.raise (State.openRecord (s.updStr n _) n .externalOpen (some .alreadyOpen)) (.str .contact n)).trans (.place _ n _ _)
  have closed : Grows s (s.externalClose n) := by
    have hw : Grows s (s.withdraw n) := .of_eq (by rw [State.withdraw_eq]; rfl)
    exact hw.trans ((Grows.raise (State.connect _ n) (.str .contact n)).trans (State.shutdownCatch_grows _ n))
  have freed : Grows s (s.stuckFreed n) := (Grows.raise (s.settleOff n) (.str .contact n)).trans (.place _ n _ _)
  have enforced : Grows s (s.enforceLockout n) := (Grows.raise s (.str .contact n)).trans (State.request_grows _ n _)
  unfold State.discrepancy
  simp only
  split
  · exact .refl s
  · split
    · split <;> [exact opened; exact .refl s]
    · split <;> [exact opened; exact .refl s]
    · split <;> [exact closed; exact .refl s]
    · split <;> [exact enforced; exact .refl s]
    · split <;> [exact freed; exact .refl s]
    · exact .refl s
    · exact .refl s
    · exact .refl s
    · exact .refl s
    · exact .refl s

end

end Sys2Proof.Machine
end

