-- ==== Sys2Proof/Proofs/IsolateWalked.lean ====
section
/-! ISOLATE for a string on the bus (O26): the walk of the admission is one visit, and each outcome of a visit is
evaluated on the admitted string. -/

namespace Sys2Proof.Machine

section
variable {s : State} {n : Nat} {c : ReqCause}

/-! ## The outcomes of a visit (R79) -/

theorem State.visit_open {e : QueueEntry} {earlier : Bool} (h : (s.str e.string).position = .opened) :
    (s.visit earlier e).1 = s.alreadyOpen e.string := by
  unfold State.visit
  simp [h]

theorem State.visit_cold {e : QueueEntry} {earlier : Bool} (h : (s.str e.string).position = .closed)
    (hc : s.scan.completed = true) (hi : (s.str e.string).current.natAbs ≤ s.box.coldLimit) :
    (s.visit earlier e).1 = s.startCold e := by
  unfold State.visit
  simp [h, hc, hi]

theorem State.visit_commutates {e : QueueEntry} (h : (s.str e.string).position = .closed) (hc : s.scan.completed = true)
    (hi : s.box.coldLimit < (s.str e.string).current.natAbs) (ht : (s.str e.string).tapFault = false)
    (hs : s.cell.stage = .idle) : (s.visit false e).1 = s.startCommutated e := by
  unfold State.visit
  simp [h, hc, Nat.not_le.2 hi, ht, hs]

/-- An entry that waits for commutation asks for the box output open, or nothing (R92). -/
theorem State.visit_waiting {e : QueueEntry} {earlier : Bool} (h : (s.str e.string).position = .closed)
    (hc : s.scan.completed = true) (hi : s.box.coldLimit < (s.str e.string).current.natAbs)
    (hw : (s.str e.string).tapFault = true ∨ s.cell.stage ≠ .idle) :
    (s.visit earlier e).1 = if s.escalates e then s.openOrder else s := by
  unfold State.visit
  have hg : ¬((s.str e.string).tapFault = false ∧ earlier = false ∧ s.cell.stage = .idle) := by
    rintro ⟨ht, -, hs⟩
    exact hw.elim (by simp [ht]) (absurd hs)
  simp [h, hc, Nat.not_le.2 hi, hg]

/-- With one entry, whose visit leaves the isolator, a walk is that visit. -/
theorem State.walk_visit {e : QueueEntry} (h : s.sched.queue = [e]) (hi : (s.visit false e).1.isolator = s.isolator) :
    s.walk = (s.visit false e).1 := by
  refine State.walk_single h ?_
  rw [hi]
  exact (em (s.isolator.state = .opened)).symm

/-! ## A string off the bus (R12) -/

@[simp] theorem State.offBus_sched (s : State) (n : Nat) : (s.offBus n).sched = s.sched := by simp [State.offBus, State.settleOff]

@[simp] theorem State.offBus_cell (s : State) (n : Nat) : (s.offBus n).cell = s.cell := by simp [State.offBus, State.settleOff]

@[simp] theorem State.offBus_isolator (s : State) (n : Nat) : (s.offBus n).isolator = s.isolator := by
  simp [State.offBus, State.settleOff]

theorem State.offBus_str (hl : s.strings.length = 24) (hn : stringNumber n = true) :
    (s.offBus n).str n = { s.str n with state := if s.locked n then .lockedOut else .isolated } := by
  simp [State.offBus, State.settleOff, State.str_updStr_valid _ hl hn]

theorem State.offBus_mem (s : State) (n : Nat) : Item.str .isolated n ∈ (s.offBus n).attention := by
  unfold State.offBus
  rw [State.place_attention]
  exact State.mem_raise_self _ _

theorem State.place_holds (s : State) (n : Nat) (p : Purpose) (o : Origin) : (s.place n p o).holdsEntry n = true := by
  rw [State.holdsEntry_iff, State.place_list]
  by_cases h : s.holdsEntry n = true
  · rw [if_pos h]; exact (s.holdsEntry_iff n).1 h
  · rw [if_neg h]; exact ⟨_, List.mem_append_right _ (List.mem_singleton_self _), rfl⟩

theorem State.offBus_holds (s : State) (n : Nat) : (s.offBus n).holdsEntry n = true := State.place_holds _ n _ _

/-- Settles O26: with no entry waiting the walk is one visit of the admitted entry, by its outcomes. -/
theorem isolateOnTheBusIsQueuedAndWalked : Obligations.IsolateOnTheBusIsQueuedAndWalked := by
  unfold Obligations.IsolateOnTheBusIsQueuedAndWalked
  intro s b hlis hl hn ha hq hc hst n r entry opened
  have hd : s.causeAdmitted .manual = .manual := if_neg (by simp [ha])
  let a := s.admitted n .manual
  have aq : a.sched.queue = [entry] := by
    show s.queueWith n .manual = _
    simp [State.queueWith, ha, hq, insertEntry, State.entryFor, hd, entry, ReqCause.severity]
  have as : a.str n = { r with
      state := .queued, cause := some (.req .manual), verdict := none, record := some (s.openedFor .manual) } := by
    rw [State.admitted_str hl hn, State.queuedRecord_of_not_fault _ _ rfl, hd]
  have al : a.strings.length = 24 := (s.admitted_length n .manual).trans hl
  have hreq : s.request n .manual = a.walk := by
    rw [← State.queueString_eq]
    rcases hst with h | h <;> rw [State.request, h]
  have ap : (a.str n).position = r.position := by rw [as]
  have ai : (a.str n).current = r.current := by rw [as]
  have at_ : (a.str n).tapFault = r.tapFault := by rw [as]
  have hans := State.isolate_answered hlis hn (by rcases hst with h | h <;> simp [h]) (by rcases hst with h | h <;> simp [h])
    (by rcases hst with h | h <;> simp [h])
  have queued : s.queueString n .manual = a.walk := State.queueString_eq s n .manual
  refine ⟨s.request n .manual, hans, ?_, ?_, s.request_within n .manual .lockouts (by decide), fun m hm => ?_,
    fun hp => ?_, fun hp hi => ?_, fun hp hi ht hs => ?_, fun hp hi hw => ?_⟩
  · rw [hreq, ← queued, State.queueString_arrival]
  · rw [hreq, ← queued, State.queueString_cause hl hn, hd]
  · rw [hreq, State.walk_str_unqueued, State.admitted_str_ne hm]
    intro e he
    rw [show e = entry by simpa [aq] using he]
    exact hm.symm
  · have hv : (a.visit false entry).1 = a.alreadyOpen n := State.visit_open (s := a) (e := entry) (ap.trans hp)
    rw [hreq, State.walk_visit aq (by rw [hv]; simp [State.alreadyOpen, State.dequeue]), hv]
    have hos := State.offBus_str (n := n) (s := (a.dequeue n).updStr n fun r => r.editRecord fun q =>
      { q with kind := some .alreadyOpen, current := none }) ((State.updStr_length _ _ _).trans al) hn
    rw [State.str_updStr_valid _ (show (a.dequeue n).strings.length = 24 from al) hn, show (a.dequeue n).str n = a.str n from rfl, as] at hos
    refine ⟨?_, ?_, ?_, ?_, State.offBus_mem _ n, ?_, State.offBus_holds _ n⟩
    · rw [State.alreadyOpen_sched, State.dequeue, State.setSched_sched, aq]
      simp [entry]
    · rw [State.alreadyOpen_sched]; rfl
    · exact congrArg StringRec.state hos
    · exact congrArg StringRec.record hos
    · rw [State.alreadyOpen, State.offBus_cell]; rfl
  · have hv : (a.visit false entry).1 = a.startCold entry := State.visit_cold (s := a) (ap.trans hp) hc (ai ▸ hi)
    rw [hreq, State.walk_visit aq (by rw [hv]; rfl), hv]
    have hcs : (a.startCold entry).str n = _ := State.str_updStr_valid (s := (a.dequeue n).setSched _) _ al hn
    refine ⟨?_, rfl, by rw [hcs], ?_, by rw [State.openCoil, hcs], rfl⟩
    · show a.sched.queue.filter _ = []
      rw [aq]; simp [entry]
    · rw [hcs, State.setSched_str, show (a.dequeue n).str n = a.str n from rfl, as]; rfl
  · have hv : (a.visit false entry).1 = a.startCommutated entry :=
      State.visit_commutates (s := a) (ap.trans hp) hc (ai ▸ hi) (at_.trans ht) hs
    rw [hreq, State.walk_visit aq (by rw [hv]; rfl), hv]
    have hcs : (a.startCommutated entry).str n = _ := State.str_updStr_valid (s := (a.dequeue n).setSched _) _ al hn
    refine ⟨?_, rfl, by rw [hcs], ?_, rfl, rfl, rfl⟩
    · show a.sched.queue.filter _ = []
      rw [aq]; simp [entry]
    · rw [hcs, State.setSched_str, show (a.dequeue n).str n = a.str n from rfl, as]; rfl
  · have hv : (a.visit false entry).1 = a := by
      rw [State.visit_waiting (s := a) (e := entry) (ap.trans hp) hc (ai ▸ hi)
        (hw.imp_left at_.trans)]
      exact if_neg (by simp [State.escalates, entry, Severity.rank])
    rw [hreq, State.walk_visit aq (by rw [hv]), hv]
    exact ⟨aq, rfl, by rw [as], by rw [as]; rfl, rfl, rfl⟩

end

end Sys2Proof.Machine
end

