-- ==== Sys2Proof/Proofs/CellReturns.lean ====
section
/-! The cell's way back to service (O49) and the end of a quench (O50). -/

namespace Sys2Proof.Machine

section
variable {s : State} {n : Nat}

theorem State.reach_sched (s : State) (due : Nat) : (s.reach due).sched = s.sched := rfl

theorem State.raise_locked (s : State) (i : Item) (n : Nat) : (s.raise i).locked n = s.locked n :=
  State.locked_congr (s.raise_lockouts i) n

/-- Settles O49: with no entry waiting each stage of the cell ends in a change of the cell alone, or in one order to
the isolator. -/
theorem cellDetachesRestsAndCools : Obligations.CellDetachesRestsAndCools := by
  unfold Obligations.CellDetachesRestsAndCools
  intro s n hl hn hq now idle hot
  have rested_cool (t : State) (ht : t.sched.queue = []) (hh : t.cell.heat ≤ t.box.hMax) : t.cellRested =
      t.setCell { t.cell with stage := .idle, served := none, releasing := false } :=
    (if_neg (Nat.not_lt.2 hh)).trans (State.cellIdle_idle ht)
  have rested_hot (t : State) (ht : t.sched.queue = []) (hh : t.box.hMax < t.cell.heat) : t.cellRested =
      (t.setCell { t.cell with stage := .hot, served := none, releasing := false }).raiseBox .cellHot :=
    (if_pos hh).trans (State.cellHot_idle ht)
  have released (hs : s.cell.stage = .faulted) (hr : s.cell.releasing = true) (hv : s.cell.served = some n) :
      s.tapReleased n = s.cellRested.failedFreed n := by
    unfold State.tapReleased
    simp [hv, hs, hr]
  have stays (t : State) (ht : (t.str n).state ≠ .breakFailed) : t.failedFreed n = t := if_neg ht
  have leaves (t : State) (ht : (t.str n).state = .breakFailed) : t.failedFreed n = (t.settleOff n).place n .diagnose .auto :=
    if_pos ht
  refine ⟨fun hs hv => ⟨?_, ?_⟩, fun hs hh => ?_, fun hs hh => ?_, fun hs hh => ?_, fun hs hh => ?_,
    fun hs hr hv => ⟨?_, fun hh hb => ?_, fun hh hb => ?_, fun hh hb => ?_, fun hh hb => ?_⟩⟩
  · refine congrArg Host.Outcome.next ((if_neg (not_not.2 hv)).trans ?_)
    simp only [hs]
    rfl
  · show Host.Outcome.next s.detachExpired = _
    unfold State.detachExpired
    simp only [hv, hs]
    rw [State.escalateWaiting_idle (by simpa [State.cellFaulted, State.reach_sched] using hq)]
    rfl
  · show Host.Outcome.next s.restEnded = _
    rw [State.restEnded, if_pos hs, rested_cool (s.reach _) hq hh]
    rfl
  · show Host.Outcome.next s.restEnded = _
    rw [State.restEnded, if_pos hs, rested_hot (s.reach _) hq hh]
    rfl
  · show Host.Outcome.next s.cellCooled = _
    rw [State.cellCooled, if_pos ⟨hs, hh⟩, State.cellIdle_idle hq]
    rfl
  · show Host.Outcome.next s.cellCooled = _
    rw [State.cellCooled, if_neg (fun h => Nat.not_le.2 hh h.2)]
  · show Host.Outcome.next s.releaseExpired = _
    rw [State.releaseExpired, if_pos ⟨hs, hr⟩]
    rfl
  · show Host.Outcome.next (s.tapReleased n) = _
    rw [released hs hr hv, rested_cool s hq hh, stays (s.setCell idle) hb]
    rfl
  · show Host.Outcome.next (s.tapReleased n) = _
    rw [released hs hr hv, rested_cool s hq hh, leaves (s.setCell idle) hb]
    rfl
  · show Host.Outcome.next (s.tapReleased n) = _
    rw [released hs hr hv, rested_hot s hq hh, stays _ (by simpa using hb)]
    rfl
  · show Host.Outcome.next (s.tapReleased n) = _
    rw [released hs hr hv, rested_hot s hq hh, leaves _ (by simpa using hb), State.settleOff]
    simp only [State.raiseBox_eq, State.raise_locked]
    rfl

/-! ## The end of a quench (R86, R90) -/

theorem State.openRequest_cases (s : State) : s.openRequest = s.openOrder ∨ s.openRequest = s.openOrder.walk := by
  unfold State.openRequest
  simp only
  split
  · exact .inr rfl
  · exact .inl rfl

theorem State.openOrder_cell (s : State) : s.openOrder.cell = s.cell := by
  rcases s.openOrder_cases with ⟨h, -⟩ | ⟨h, -⟩ | ⟨h, -⟩ <;> rw [h]
  · rfl
  · unfold State.startOpening State.isolatorOpened
    simp only
    split <;> simp

/-- A cell that is not IDLE is left by an open request. -/
theorem State.openRequest_cell (h : s.cell.stage ≠ .idle) : s.openRequest.cell = s.cell := by
  rcases s.openRequest_cases with hr | hr <;> rw [hr]
  · exact s.openOrder_cell
  · rw [State.walk_cell _ (by rwa [State.openOrder_cell]), State.openOrder_cell]

/-- A string without an entry keeps its record through an open request. -/
theorem State.openRequest_str_unqueued (h : ∀ e ∈ s.sched.queue, e.string ≠ n) : s.openRequest.str n = s.str n := by
  rcases s.openRequest_cases with hr | hr <;> rw [hr]
  · exact State.str_congr s.openOrder_strings n
  · rw [State.walk_str_unqueued _ (by rwa [State.openOrder_sched]), State.str_congr s.openOrder_strings]

/-- R86: in QUENCHING the monitor's reading is compared with the limit in force. -/
theorem State.monitorReads_quenching {w : Word16} (hs : s.cell.stage = .quenching) (hv : s.cell.served = some n) :
    s.monitorReads w = if magnitude w ≤ s.cell.limit then (s.setCell { s.cell with monitor := w }).quenchSucceeded n
      else s.setCell { s.cell with monitor := w } := by
  unfold State.monitorReads
  simp only [State.setCell_cell]
  split
  · next m _ hm =>
    obtain rfl : n = m := Option.some.inj (hv.symm.trans hm)
    rfl
  · next hno => exact absurd hv (hno n hs)

/-- Settles O50: a reading outside QUENCHING is kept as it is; within it the limit decides between the end of the
quench and none. -/
theorem quenchEndsOrFails : Obligations.QuenchEndsOrFails := by
  unfold Obligations.QuenchEndsOrFails
  intro s n w hv hl hn read left
  refine ⟨fun hs => ⟨?_, ?_⟩, fun hs => ⟨fun hw => ?_, fun hw => ?_, ?_⟩⟩
  · show Host.Outcome.next (s.monitorReads w) = _
    unfold State.monitorReads
    simp only [State.setCell_cell]
    split
    · exact absurd ‹_› hs
    · rfl
  · show Host.Outcome.next s.quenchExpired = _
    unfold State.quenchExpired
    split
    · exact absurd ‹_› hs
    · rfl
  · show Host.Outcome.next (s.monitorReads w) = _
    rw [State.monitorReads_quenching hs hv, if_neg (Nat.not_le.2 hw)]
    rfl
  · show Host.Outcome.next (s.monitorReads w) = _
    rw [State.monitorReads_quenching hs hv, if_pos hw]
    rfl
  · let f := ((s.reach (s.cell.since + s.cell.timeout)).cellFaulted .quenching (some n)).endBreak n
    let u := f.updStr n fun r => { r with state := .breakFailed }
    have hx : exec .quenchTimeout s = .next u.openRequest := by
      show Host.Outcome.next s.quenchExpired = _
      unfold State.quenchExpired
      simp only [hs, hv]
      rfl
    have hcell : u.openRequest.cell = u.cell := State.openRequest_cell (by simp [u, f, State.cellFaulted, State.endBreak])
    have hc : u.cell = { s.cell with
        stage := .faulted, served := some n, releasing := false
        fault := some ⟨.quenching, some n, magnitude s.cell.monitor, s.scan.counter⟩ } := by
      simp [u, f, State.cellFaulted, State.endBreak, State.reach]
    have hi : u.isolator = s.isolator := by simp [u, f, State.cellFaulted, State.endBreak, State.reach]
    have hitem : Item.box .cellFault ∈ u.attention := State.mem_raise_self _ _
    have hq : u.sched.queue = s.sched.queue := by simp [u, f, State.cellFaulted, State.endBreak, State.reach]
    have hu : u.str n = { s.str n with state := .breakFailed } := by
      have hf : f.strings = s.strings := by simp [f, State.cellFaulted, State.endBreak, State.reach]
      rw [State.str_updStr_valid _ (by rw [hf]; exact hl) hn, State.str_congr hf]
    refine ⟨u.openRequest, hx, ?_, ?_, ?_, ?_, State.openRequest_grows u _ hitem, fun hno => ?_, fun hc hf => ?_, fun hc => ?_⟩
    · rw [hcell, hc]
    · rw [State.tapDrive, hcell, hc]; rfl
    · rw [hcell, hc]
    · rw [hcell, hc]
    · rw [State.openRequest_str_unqueued (by rwa [hq]), hu]
      exact ⟨rfl, rfl⟩
    · rw [State.openRequest_eq (.inl (by rwa [hi])), State.openOrder_starts (.inl (by rwa [hi])) (by rwa [hi])]
      simp
    · rw [State.openRequest_eq (.inr (.inr (.inr (by rwa [hi])))), State.openOrder_pends (by rwa [hi])]
      rfl

end

end Sys2Proof.Machine
end

