-- ==== Sys2Proof/Proofs/ContactOutcomes.lean ====
section
/-! The ends of contact operations: the contact timeout (O52), a position that reads its target (O51), and the tap
feedback of a commutated break (O48). -/

namespace Sys2Proof.Machine

section
variable {s : State} {n : Nat}

/-! ## The contact timeout (R12, R15, R98) -/

/-- The state that a stuck break leaves before the open request that its severity makes. -/
def State.stuckAfter (s : State) (n : Nat) : State :=
  ((s.endBreak n).updStr n fun r => { r with state := .stuckClosed }).raise (.str .contact n)

/-- R92: a stuck break asks for the box output open for a severity of HIGH or above while escalation is enabled. -/
theorem State.breakStuck_eq (s : State) (n : Nat) : s.breakStuck n =
    if s.box.escalation = true ∧ ∃ b, s.breakOf n = some b ∧ 1 ≤ b.entry.severity.rank then (s.stuckAfter n).openRequest
    else s.stuckAfter n := by
  unfold State.breakStuck
  simp only [State.raiseStr_eq, State.raise_box]
  show (if (_ && s.box.escalation) = true then (s.stuckAfter n).openRequest else s.stuckAfter n) = _
  refine if_congr ?_ rfl rfl
  cases hb : s.breakOf n with
  | none => simp
  | some b =>
    have hr : Severity.high.rank = 1 := rfl
    simp [hr, and_comm]

/-- Settles O52: the failure of each operation, with the one open request of R92. -/
theorem contactTimeoutEndsItsOperation : Obligations.ContactTimeoutEndsItsOperation := by
  unfold Obligations.ContactTimeoutEndsItsOperation
  intro s n since timeout origin hl hn now late left high
  refine ⟨fun h => ?_, fun h => ?_, fun h => ?_⟩
  · show Host.Outcome.next (s.contactExpired n) = _
    rw [State.contactExpired, h]
  · show Host.Outcome.next (s.contactExpired n) = _
    rw [State.contactExpired, h]
    simp only [State.closeFailed, State.updStr_updStr]
    rfl
  · intro cell stuck
    have hx : exec (.contactTimeout n) s = .next
        (if high then (stuck.raise (.str .contact n)).openRequest else stuck.raise (.str .contact n)) := by
      have hc : ∃ v, exec (.contactTimeout n) s = .next (State.breakStuck v n) ∧
          v = ({ late with cell := cell } : State).updStr n fun r => { r with op := none } := by
        show ∃ v, Host.Outcome.next (s.contactExpired n) = _ ∧ _
        rw [State.contactExpired, h]
        simp only [State.pulseStuck]
        by_cases hcf : s.conductingFor n = true
        · exact ⟨_, congrArg _ (if_pos hcf), by rw [show cell = _ from if_pos ((s.conductingFor_iff n).1 hcf)]; rfl⟩
        · refine ⟨_, congrArg _ (if_neg hcf), by rw [show cell = _ from if_neg (mt (s.conductingFor_iff n).2 hcf)]; rfl⟩
      obtain ⟨v, hv, rfl⟩ := hc
      rw [hv, State.breakStuck_eq]
      have ha : (({ late with cell := cell } : State).updStr n fun r => { r with op := none }).stuckAfter n =
          stuck.raise (.str .contact n) := by
        unfold State.stuckAfter State.endBreak
        rw [State.setSched_updStr, State.updStr_updStr]
        rfl
      rw [ha]
      rfl
    have hi : (stuck.raise (.str .contact n)).isolator = s.isolator := by rw [State.raise_isolator]; rfl
    have hp : (stuck.raise (.str .contact n)).part.now = now := by rw [State.raise_part]; rfl
    refine ⟨fun hh => ?_, fun hh hs => ?_, fun hh hs hf => ?_, fun hh hs => ?_⟩
    · rw [hx, if_neg hh]
    · rw [hx, if_pos hh, State.openRequest_eq (.inr (by rw [hi]; tauto)), State.openOrder_holds (by rwa [hi])]
    · rw [hx, if_pos hh, State.openRequest_eq (.inl (by rwa [hi])), State.openOrder_starts (by rwa [hi]) (by rwa [hi]), hi, hp]
      rfl
    · rw [hx, if_pos hh, State.openRequest_eq (.inr (by rw [hi]; tauto)), State.openOrder_pends (by rwa [hi]), hi]
      rfl

/-! ## A position that reads its target (R12, R15, R98) -/

/-- R98: a contact found OPEN ends an open pulse. -/
theorem State.contactMoved_opened {since timeout : Nat} (hl : s.strings.length = 24) (hn : stringNumber n = true)
    (h : (s.str n).op = some (.opening since timeout)) :
    s.contactMoved n .opened = (s.updStr n fun r => { r with position := .opened, op := none }).pulseOpened n := by
  have ho : ((s.updStr n fun r => { r with position := .opened }).str n).op = some (.opening since timeout) := by
    rw [State.str_updStr_valid _ hl hn]; exact h
  unfold State.contactMoved
  dsimp only
  rw [ho]
  exact congrArg (fun u : State => u.pulseOpened n) (State.updStr_updStr s _ _ n)

/-- R98: a contact found CLOSED ends a close pulse. -/
theorem State.contactMoved_closed {origin : Origin} {since timeout : Nat} (hl : s.strings.length = 24)
    (hn : stringNumber n = true) (h : (s.str n).op = some (.closing origin since timeout)) :
    s.contactMoved n .closed = (s.updStr n fun r => { r with position := .closed, op := none }).closeConfirmed n origin := by
  have ho : ((s.updStr n fun r => { r with position := .closed }).str n).op = some (.closing origin since timeout) := by
    rw [State.str_updStr_valid _ hl hn]; exact h
  unfold State.contactMoved
  dsimp only
  rw [ho]
  exact congrArg (fun u : State => u.closeConfirmed n origin) (State.updStr_updStr s _ _ n)

/-- Any other change is only read. -/
theorem State.contactMoved_read {position : Contact} (hl : s.strings.length = 24) (hn : stringNumber n = true)
    (h1 : ∀ a b, (s.str n).op = some (.opening a b) → position = .closed)
    (h2 : ∀ o a b, (s.str n).op = some (.closing o a b) → position = .opened) :
    s.contactMoved n position = s.updStr n fun r => { r with position := position } := by
  have ho : ((s.updStr n fun r => { r with position := position }).str n).op = (s.str n).op := by
    rw [State.str_updStr_valid _ hl hn]
  unfold State.contactMoved
  dsimp only
  rw [ho]
  split
  · exact absurd (h1 _ _ ‹_›) (by decide)
  · exact absurd (h2 _ _ _ ‹_›) (by decide)
  · rfl
  · rfl
  · rfl

/-- R86, R88: a quench that starts above the limit has read its current and heated the cell. -/
theorem State.quenchStart_lasts (h : s.box.coldLimit < min (magnitude s.cell.monitor) 4000) :
    s.quenchStart n = ({ s with
      cell := { s.cell with
        stage := .quenching, since := s.part.now, timeout := s.box.quenchTimeout, limit := s.box.coldLimit
        heat := s.cell.heat + max 1 ((min (magnitude s.cell.monitor) 4000 + 99) / 100) } } : State).updStr n fun r => { r with
          record := r.record.map fun q => { q with
            kind := some .commutated, current := some ((min (magnitude s.cell.monitor) 4000 : Nat) : Int) } } :=
  if_neg (Nat.not_le.2 h)

/-- What a quench that ends at its start leaves: the string off the bus and the cell detaching (R86). -/
structure QuenchOver (n : Nat) (s t : State) : Prop where
  stage : t.cell.stage = .detaching
  heat : t.cell.heat = s.cell.heat + max 1 ((min (magnitude s.cell.monitor) 4000 + 99) / 100)
  state : (t.str n).state = if s.locked n then .lockedOut else .isolated
  op : (t.str n).op = (s.str n).op
  item : Item.str .isolated n ∈ t.attention
  entry : t.holdsEntry n = true
  flight : t.breakOf n = none

theorem State.quenchStart_ends (hl : s.strings.length = 24) (hn : stringNumber n = true)
    (h : min (magnitude s.cell.monitor) 4000 ≤ s.box.coldLimit) : QuenchOver n s (s.quenchStart n) := by
  have heated : ∃ v : State, s.quenchStart n = v.quenchSucceeded n ∧
      v.cell.heat = s.cell.heat + max 1 ((min (magnitude s.cell.monitor) 4000 + 99) / 100) ∧ v.lockouts = s.lockouts ∧
      ∃ d, v = (s.updStr n fun r => r.editRecord d).setCell v.cell := ⟨_, if_pos h, rfl, rfl, _, rfl⟩
  obtain ⟨v, hv, hh, hk, d, hs⟩ := heated
  have hvl : v.strings.length = 24 := by rw [hs]; exact (s.updStr_length n _).trans hl
  have hstr : (v.quenchSucceeded n).str n = _ := State.offBus_str (s := (v.endBreak n).enterStage .detaching 30) hvl hn
  have hvs : v.str n = (s.str n).editRecord d := by rw [hs]; exact State.str_updStr_valid _ hl hn
  rw [hv]
  exact {
    stage := by rw [State.quenchSucceeded, State.offBus_cell]; rfl
    heat := by rw [State.quenchSucceeded, State.offBus_cell]; exact hh
    state := by rw [hstr]; exact congrArg (fun b => if b = true then _ else _) (State.locked_congr hk n)
    op := by rw [hstr]; exact (congrArg StringRec.op hvs :)
    item := State.offBus_mem _ n
    entry := State.offBus_holds _ n
    flight := by simp [State.breakOf, State.quenchSucceeded, State.enterStage, State.endBreak] }

/-- R99: while the cell conducts for the string, its open pulse's end starts the quench. -/
theorem State.pulseOpened_conducting (hs : s.cell.stage = .conducting) (hv : s.cell.served = some n) :
    s.pulseOpened n = s.quenchStart n := if_pos ((s.conductingFor_iff n).2 ⟨hs, hv⟩)

theorem State.pulseOpened_cold (h : s.cell.stage ≠ .conducting ∨ s.cell.served ≠ some n) :
    s.pulseOpened n = (s.endBreak n).offBus n :=
  if_neg fun hc => h.elim (absurd ((s.conductingFor_iff n).1 hc).1) (absurd ((s.conductingFor_iff n).1 hc).2)

/-- R15: a confirmed close without a held request puts the string on the bus. -/
theorem State.closeConfirmed_free {origin : Origin} (h : (s.str n).held = none) (ha : s.shutdown.asserted = false) :
    s.closeConfirmed n origin = (s.updStr n fun r => { r with
      state := .connected, cause := none, verdict := none
      reverseRun := 0, overRun := 0, openRun := 0, bucket := 0, alarm := false, held := none
      reconnectedAt := if origin = .auto then some s.scan.counter else r.reconnectedAt }).raise (.str .closed n) := by
  unfold State.closeConfirmed State.shutdownCatch
  simp only [h, State.raiseStr_eq, State.raise_shutdown]
  rw [if_neg (by simp [State.connect, ha]), State.connect, State.updStr_updStr]
  rfl

/-- R11, R15: a confirmed close makes the held request of the string now CONNECTED. -/
theorem State.closeConfirmed_held {origin : Origin} {c : ReqCause} (hl : s.strings.length = 24) (hn : stringNumber n = true)
    (h : (s.str n).held = some c) (ha : s.shutdown.asserted = false) : ∃ u : State,
      s.closeConfirmed n origin = u.queueString n c ∧ u.strings.length = 24 ∧ (u.str n).held = none ∧
        Item.str .closed n ∈ u.attention ∧ u.shutdown = s.shutdown ∧ u.sched = s.sched := by
  let u := ((s.connect n).updStr n fun r => { r with
    held := none, reconnectedAt := if origin = .auto then some s.scan.counter else r.reconnectedAt }).raiseStr .closed n
  have hu : u.str n = { (s.str n).zeroCriteria with
      state := .connected, cause := none, verdict := none, held := none
      reconnectedAt := if origin = .auto then some s.scan.counter else (s.str n).reconnectedAt } := by
    simp only [u, State.raiseStr_eq, State.raise_str, State.connect, State.updStr_updStr]
    exact State.str_updStr_valid _ hl hn
  have hr : u.request n c = u.queueString n c := by rw [State.request, hu]
  refine ⟨u, ?_, by simp [u, State.connect, hl], by rw [hu], State.mem_raise_self _ _, by simp [u, State.connect], by simp [u, State.connect]⟩
  rw [State.closeConfirmed, h]
  show State.shutdownCatch (u.request n c) n = _
  rw [State.shutdownCatch, if_neg, hr]
  rw [u.request_within n c .shutdown (by decide)]
  simp [u, State.connect, ha]

/-- Settles O51: the operation in flight and its target decide whether a contact's change ends it. -/
theorem contactPositionEndsItsOperation : Obligations.ContactPositionEndsItsOperation := by
  unfold Obligations.ContactPositionEndsItsOperation
  intro s n since timeout origin hl hn iq lies off
  let taken : State := s.updStr n fun r => { r with position := .opened, op := none }
  have moved (p : Contact) : exec (.contactPositionChange n p) s = .next (s.contactMoved n p) := rfl
  refine ⟨fun h p => ?_, fun h => ⟨?_, fun hc => ?_, fun hs hv hi => ?_, fun hs hv hi => ?_⟩,
    fun h => ⟨?_, fun hh ha => ?_, fun c hh ha => ?_⟩⟩
  · rw [moved, State.contactMoved_read hl hn (by simp [h]) (by simp [h])]
  · rw [moved, State.contactMoved_read hl hn (by simp) (by simp [h])]
  · rw [moved, State.contactMoved_opened hl hn h, State.pulseOpened_cold (s := taken) hc]
    unfold State.endBreak State.offBus State.settleOff
    rw [State.setSched_updStr, State.updStr_updStr]
    rfl
  · rw [moved, State.contactMoved_opened hl hn h, State.pulseOpened_conducting (s := taken) hs hv,
      State.quenchStart_lasts (s := taken) hi]
    exact congrArg (fun u : State => Host.Outcome.next (u.setCell _)) (s.updStr_updStr _ _ n)
  · have hq := State.quenchStart_ends (s := taken) ((s.updStr_length n _).trans hl) hn hi
    refine ⟨_, ?_, hq.stage, hq.heat, hq.state, ?_, hq.item, hq.entry, hq.flight⟩
    · rw [moved, State.contactMoved_opened hl hn h, State.pulseOpened_conducting (s := taken) hs hv]
    · simp [State.gateDrive, hq.stage]
  · rw [moved, State.contactMoved_read hl hn (by simp [h]) (by simp)]
  · have hheld : ((s.updStr n fun r => { r with position := .closed, op := none }).str n).held = none := by
      rw [State.str_updStr_valid _ hl hn]; exact hh
    rw [moved, State.contactMoved_closed hl hn h, State.closeConfirmed_free hheld ha, State.updStr_updStr]
    exact congrArg (fun u : State => Host.Outcome.next (u.raise _)) (s.updStr_congr n (by simp [hh]))
  · have hheld : ((s.updStr n fun r => { r with position := .closed, op := none }).str n).held = some c := by
      rw [State.str_updStr_valid _ hl hn]; exact hh
    obtain ⟨u, hu, hul, huh, hui, hus, huq⟩ := State.closeConfirmed_held (origin := origin) ((s.updStr_length n _).trans hl) hn hheld ha
    have hd : u.causeAdmitted c = c := if_neg (by rw [hus]; simp [ha])
    have hw := State.walk_state (u.admitted n c) n
    obtain ⟨b, hq⟩ := u.queuedRecord_eq c (u.str n)
    have hadm := (State.admitted_str (c := c) hul hn).trans hq
    rw [hadm, ← State.queueString_eq] at hw
    refine ⟨u.queueString n c, by rw [moved, State.contactMoved_closed hl hn h, hu], ?_, ?_, ?_, ?_,
      u.queueString_grows n c _ hui, ?_⟩
    · obtain ⟨_, _, _, hm⟩ := (State.walk_walked (u.admitted n c)).strings.2 n
      rw [State.queueString_eq, hm, hadm]
      exact huh
    · rw [State.queueString_cause hul hn, hd]
    · rcases hw with h | h | h | h <;> simp [h]
    · rcases hw with h | h | h | h <;> simp [h]
    · rw [State.queueString_arrival, huq]; rfl

/-! ## The tap feedback and its timeout (R84, R85) -/

/-- The state to which the attach timeout takes the cell and the string, before the walk of the cell's IDLE. -/
def State.attachReturned (s : State) (n : Nat) : State :=
  let t := s.reach (s.cell.since + s.cell.timeout)
  let u := match t.breakOf n with
    | none => t
    | some b => (t.endBreak n).enqueue b.entry
  let v := u.updStr n fun r => { r with state := .queued, tapFault := true }
  v.setCell { v.cell with stage := .idle, served := none, releasing := false }

theorem State.attachExpired_eq (hs : s.cell.stage = .attaching) (hv : s.cell.served = some n) :
    s.attachExpired = (s.attachReturned n).walk := by
  unfold State.attachExpired
  simp only [hs, hv]
  rfl

theorem State.attachReturned_str (hl : s.strings.length = 24) (hn : stringNumber n = true) :
    (s.attachReturned n).str n = { s.str n with state := .queued, tapFault := true } := by
  unfold State.attachReturned
  simp only [State.setCell_str]
  cases hb : (s.reach (s.cell.since + s.cell.timeout)).breakOf n with
  | none => exact State.str_updStr_valid _ hl hn
  | some b => exact State.str_updStr_valid (s := ((s.reach _).endBreak n).enqueue b.entry) _ hl hn

theorem State.attachReturned_part (s : State) (n : Nat) :
    (s.attachReturned n).part = { s.part with now := max s.part.now (s.cell.since + s.cell.timeout) } := by
  unfold State.attachReturned
  simp only [State.setCell_part, State.updStr_part]
  split <;> rfl

/-- Settles O48: an attached tap starts the conduction, and a contact already OPEN ends the pulse at once; a timeout
puts the string back before the one walk. -/
theorem tapFeedbackAttachesOrReturns : Obligations.TapFeedbackAttachesOrReturns := by
  unfold Obligations.TapFeedbackAttachesOrReturns
  intro s n hl hn hs hv pulse
  have fed : s.tapClosed n = s.conduct n := if_pos ⟨hs, hv⟩
  have expired : exec .tapAttachTimeout s = .next (s.attachReturned n).walk :=
    congrArg Host.Outcome.next (s.attachExpired_eq hs hv)
  let conducting : State := (s.enterStage .conducting s.box.contactTimeout).updStr n fun r =>
    r.editRecord fun q => { q with kind := some .commutated, current := none }
  have hcs : conducting.str n = (s.str n).editRecord fun q => { q with kind := some .commutated, current := none } :=
    State.str_updStr_valid _ hl hn
  have hop : (conducting.str n).op = (s.str n).op := by rw [hcs]; rfl
  have hstate : (conducting.str n).state = (s.str n).state := by rw [hcs]; rfl
  have hcl : conducting.strings.length = 24 := (State.updStr_length _ _ _).trans hl
  have hrs := State.attachReturned_str hl hn
  refine ⟨fun m hm => ?_, fun hp => ?_, fun hp => ?_, ⟨_, expired, ?_, ?_⟩, fun b hb hq hp hc hi hbn => ?_⟩
  · refine congrArg Host.Outcome.next (if_neg fun h => hm ?_)
    exact (Option.some.inj (hv.symm.trans h.2)).symm
  · refine congrArg Host.Outcome.next (fed.trans ((if_neg ?_).trans (State.updStr_updStr _ _ _ n)))
    show ¬(conducting.str n).position = .opened
    rw [hcs]
    simp [StringRec.editRecord, hp]
  · have hx : exec (.tapClosedFeedback n) s = .next (conducting.quenchStart n) := by
      refine congrArg Host.Outcome.next (fed.trans (if_pos ?_))
      show (conducting.str n).position = .opened
      rw [hcs]
      exact hp
    intro iq
    rcases Nat.lt_or_ge s.box.coldLimit iq with hi | hi
    · have hlast := State.quenchStart_lasts (s := conducting) (n := n) hi
      have hstr : (conducting.quenchStart n).str n = _ :=
        (State.str_congr (congrArg State.strings hlast) n).trans (State.str_updStr_valid _ hcl hn)
      refine ⟨_, hx, ?_, ?_, ?_, fun _ => ⟨?_, ?_⟩, fun h => absurd h (Nat.not_le.2 hi)⟩
      · rw [hlast]; rfl
      · rw [hlast]; simp [State.gateDrive]
      · rw [hstr]; exact hop
      · rw [hlast]; rfl
      · rw [hstr]; exact hstate
    · have hq := State.quenchStart_ends hcl hn hi
      refine ⟨_, hx, hq.heat, ?_, ?_, fun h => absurd hi (Nat.not_le.2 h), fun _ => ⟨hq.stage, hq.flight, hq.state⟩⟩
      · simp [State.gateDrive, hq.stage]
      · rw [hq.op]; exact hop
  · obtain ⟨_, _, _, hm⟩ := (State.walk_walked (s.attachReturned n)).strings.2 n
    rw [hm, hrs]
  · rw [(State.walk_within (s.attachReturned n)) .part (by decide), State.attachReturned_part]
  · intro now returned
    have hret : s.attachReturned n = returned := by
      have hb' : (s.reach (s.cell.since + s.cell.timeout)).breakOf n = some b := hb
      unfold State.attachReturned State.enqueue
      simp only [hb']
      rw [show ((s.reach (s.cell.since + s.cell.timeout)).endBreak n).sched.queue = [] from hq]
      rfl
    rw [hret] at hrs
    have hq' : returned.sched.queue = [b.entry] := rfl
    have hv : (returned.visit false b.entry).1 = if returned.escalates b.entry then returned.openOrder else returned := by
      refine State.visit_waiting (s := returned) ?_ hc ?_ (.inl ?_) <;> rw [hbn, hrs]
      · exact hp
      · exact hi
    rw [expired, hret]
    refine ⟨fun hlow => ?_, fun hhigh he hiso hf => ?_⟩
    · have hw : (returned.visit false b.entry).1 = returned := by
        rw [hv]
        refine if_neg ?_
        rcases hlow with h | h
        · simp [State.escalates, h, returned, Severity.rank]
        · simp [State.escalates, h, returned]
      rw [State.walk_visit hq' (by rw [hw]), hw]
    · have ho : returned.openOrder =
          (returned.setIsolator { s.isolator with state := .opening, since := now }).raise (.box .output) :=
        State.openOrder_starts (s := returned) hiso hf
      have hesc : returned.escalates b.entry = true := by
        have hr : Severity.high.rank = 1 := rfl
        have htap : (returned.str b.entry.string).tapFault = true := by rw [hbn, hrs]
        have hbox : returned.box.escalation = true := he
        simp [State.escalates, hbox, htap, hr, hhigh]
      rw [if_pos hesc] at hv
      rw [State.walk_single hq' (.inl (by rw [hv, ho]; simp)), hv, ho]
      rfl

end

end Sys2Proof.Machine
end

