-- ==== Sys2Proof/Proofs/ProbeEnds.lean ====
section
/-! What a verdict leads to (O56), and the end of a check (O57). -/

namespace Sys2Proof.Machine

section
variable {s : State} {n : Nat}

/-! ## Verdicts (R16, R17, R128) -/

theorem locking_iff (v : Verdict) :
    locking v = true ↔ v = .earthPos ∨ v = .earthNeg ∨ v = .earthMid ∨ v = .poleShort := by
  cases v <;> simp [locking]

theorem passingCause_iff (c : Option Cause) : passingCause c = true ↔
    c = some (.req .overCurrent) ∨ c = some (.req .openString) ∨ c = some (.req .deficit) ∨ c = some .externalOpen ∨
      c = some .restart := by
  rcases c with _ | c
  · simp [passingCause]
  · cases c with
    | req q => cases q <;> simp [passingCause]
    | externalOpen => simp [passingCause]
    | restart => simp [passingCause]

/-- R17: what an addition does to the lockout set and the store. -/
theorem State.addLockout_lockouts (s : State) (n : Nat) (v : Verdict) :
    (s.addLockout n v).lockouts = if s.locked n then s.lockouts else s.lockouts ++ [⟨n, v, s.peer.day⟩] := by
  unfold State.addLockout
  split
  · rfl
  · exact (State.requestWrite_within _) .lockouts (by decide)

theorem State.requestWrite_store (s : State) : s.requestWrite.store =
    if s.store.writing.isSome then { s.store with pending := true }
    else { s.store with writing := some s.imageNow, since := s.part.now } := by
  unfold State.requestWrite
  split <;> rfl

theorem State.addLockout_store (s : State) (n : Nat) (v : Verdict) :
    (s.addLockout n v).store = if s.locked n then s.store
      else if s.store.writing.isSome then { s.store with pending := true }
      else { s.store with writing := some ⟨s.store.stored, s.lockouts ++ [⟨n, v, s.peer.day⟩]⟩, since := s.part.now } := by
  unfold State.addLockout
  split
  · rfl
  · exact State.requestWrite_store _

theorem State.addLockout_within (s : State) (n : Nat) (v : Verdict) : Within [.lockouts, .store] s (s.addLockout n v) := by
  unfold State.addLockout
  exact Within.ite (Within.refl _ s) (((s.setLockouts_within _).mono (by simp)).trans
    ((State.requestWrite_within (s.setLockouts _)).mono (by simp)))

/-- Settles O56: the record after the verdict decides on the lockout and on the reconnection. -/
theorem verdictLocksOrReconnects : Obligations.VerdictLocksOrReconnects := by
  unfold Obligations.VerdictLocksOrReconnects
  intro s n x hl hn written locks r returns
  have hw : written.str n = { r with
      verdict := some x.verdict
      record := r.record.map fun q => { q with verdict := some x.verdict, missing := x.missing, position := x.position } } := by
    rw [State.raise_str]
    exact State.str_updStr_valid _ hl hn
  have hreport : s.verdictReported n x = if locking x.verdict then written.lockOut n x.verdict
      else if x.verdict = .healthy then written.reconnectAuto n else written := rfl
  have hlock : locking x.verdict = true ↔ locks := locking_iff _
  have hmay : x.verdict = .healthy → (written.mayReconnect n = true ↔ returns) := by
    intro hx
    simp only [State.mayReconnect, hw, State.supervised, written, State.raise_mode, State.raise_supervision, State.raise_shutdown]
    simp [passingCause_iff, returns, hx, and_assoc]
  refine ⟨fun hlk hr => ?_, fun hr => ?_, fun hlk => ?_⟩
  · rw [hreport, if_neg (mt hlock.1 hlk)]
    split
    · next hx => exact if_neg (mt (hmay hx).1 hr)
    · rfl
  · have hx : x.verdict = .healthy := hr.1
    rw [hreport, if_neg (by rw [hx]; decide), if_pos hx]
    exact if_pos ((hmay hx).2 hr)
  · have hk : written.locked n = s.locked n := State.raise_locked _ _ n
    have hks : written.lockouts = s.lockouts := State.raise_lockouts _ _
    have hst : written.store = s.store := State.raise_store _ _
    have hpd : written.peer = s.peer := State.raise_peer _ _
    have hpt : written.part = s.part := State.raise_part _ _
    have hattr : (written.addLockout n x.verdict).attention = written.attention :=
      (written.addLockout_within n x.verdict) .attention (by decide)
    refine ⟨written.lockOut n x.verdict, by rw [hreport, if_pos (hlock.2 hlk)], ?_, ?_, fun i => ?_, ?_, ?_, ?_⟩
    · rw [State.lockOut, State.updStr_lockouts, State.raiseStr_eq, State.raise_lockouts, State.addLockout_lockouts, hk, hks, hpd]
    · have hs : ((written.addLockout n x.verdict).raise (.str .locked n)).strings = written.strings := by
        rw [State.raise_strings, State.addLockout_strings]
      exact congrArg (fun l => updNum _ l n) hs
    · rw [State.lockOut, State.updStr_attention, State.raiseStr_eq, State.mem_raise, hattr, State.mem_raise, or_assoc]
      rfl
    · rw [State.lockOut, State.updStr_store, State.updStr_lockouts, State.raiseStr_eq, State.raise_store, State.raise_lockouts,
        State.addLockout_store, State.addLockout_lockouts, hk, hks, hpd, hst, hpt]
      split <;> rfl
    · rw [State.lockOut, State.updStr_probe, State.raiseStr_eq, State.raise_probe,
        (written.addLockout_within n x.verdict) .probe (by decide)]
      exact State.raise_probe _ _
    · rw [State.lockOut, State.updStr_sched, State.raiseStr_eq, State.raise_sched,
        (written.addLockout_within n x.verdict) .sched (by decide)]
      exact State.raise_sched _ _

/-! ## Checks (R100, R124, R125, R129) -/

/-- R124: the reading of a check in P1 judges it. -/
theorem State.reading_check {f : ProbeFlight} (hf : s.probe.flight = some f) (hs : f.stage = .p1) (hp : f.purpose = .preClose)
    (hg : f.sampling = true) (vp vn : List Word16) :
    s.reading vp vn = (s.reach (f.since + f.settle + 8)).checked f ⟨poleReading vp, poleReading vn⟩ := by
  unfold State.reading
  simp only [hf, hg, hs, hp]
  rfl

/-- R116: the end of a RELEASE. -/
theorem State.released_eq {f : ProbeFlight} (hf : s.probe.flight = some f) (hs : f.stage = .release) : s.released =
    (if f.pass then ((s.reach (f.since + 20)).setFlight none).closeOrder f.string f.origin
      else (s.reach (f.since + 20)).setFlight none).lookForWork := by
  unfold State.released
  simp only [hf]
  exact if_pos hs

theorem State.supervised_iff (s : State) : s.supervised = false ↔ s.supervision.state ≠ .supervised := by
  simp [State.supervised]

/-- Settles O57: a check by its two conditions, and the RELEASE of a held pass that orders the close. -/
theorem checkPassesOrWaitsForARound : Obligations.CheckPassesOrWaitsForARound := by
  unfold Obligations.CheckPassesOrWaitsForARound
  intro s f vp vn hf hl hn read late left reached releasing failed held freed
  have passed (hs : f.stage = .release) (hp : f.pass = true) : exec .probeReleaseEnd s = .next ((if held then freed left
      else (freed left).startClose f.string f.origin).lookForWork) := by
    refine congrArg Host.Outcome.next ((State.released_eq hf hs).trans ?_)
    rw [if_pos hp]
    refine congrArg State.lookForWork (if_congr ?_ rfl rfl)
    simp only [State.supervised_iff]
    exact Iff.rfl
  have hfree : (freed left).str f.string = s.str f.string := rfl
  refine ⟨fun hs hp hg => ⟨fun hr => ?_, fun hr e he => ⟨fun ha => ?_, fun ha => ?_⟩⟩, fun hs => ?_, fun hs hp => ?_,
    fun hs hp hh => ?_, fun hs hp hh ho => ?_, fun hs hp hh hc hd => ?_⟩
  · refine congrArg Host.Outcome.next ((State.reading_check hf hs hp hg vp vn).trans ?_)
    exact if_pos hr
  · refine congrArg Host.Outcome.next ((State.reading_check hf hs hp hg vp vn).trans ((if_neg hr).trans ?_))
    have he' : ((s.reach (f.since + f.settle + 8)).enterRelease f false).entryOf f.string = some e := he
    unfold State.checkFailed
    rw [he']
    exact if_pos ha
  · refine congrArg Host.Outcome.next ((State.reading_check hf hs hp hg vp vn).trans ((if_neg hr).trans ?_))
    have he' : ((s.reach (f.since + f.settle + 8)).enterRelease f false).entryOf f.string = some e := he
    unfold State.checkFailed
    rw [he']
    exact if_neg (Nat.not_lt.2 ha)
  · refine congrArg Host.Outcome.next ?_
    unfold State.released
    simp only [hf]
    exact if_neg hs
  · refine congrArg Host.Outcome.next ((State.released_eq hf hs).trans ?_)
    rw [if_neg (by simp [hp])]
    rfl
  · rw [passed hs hp, if_pos hh]
  · rw [passed hs hp, if_neg hh, State.startClose, if_neg (by rw [hfree, ho]; decide)]
  · have ha : (freed left).shutdown.asserted = false := by
      by_contra h
      exact hh (.inl (by simpa using h))
    have hd' : (((freed left).updStr f.string fun r => { r with state := .closing }).str f.string).held = none := by
      rw [State.str_updStr_valid (s := freed left) _ hl hn]; exact hd
    rw [passed hs hp, if_neg hh, State.startClose, if_pos (by rw [hfree, hc]), State.closeConfirmed_free hd' ha, State.updStr_updStr]
    exact congrArg (fun u : State => Host.Outcome.next (u.raise _).lookForWork)
      ((freed left).updStr_congr f.string (by rw [hfree]; simp only [hd]; rfl))

end

end Sys2Proof.Machine
end

