-- ==== Sys2Proof/Proofs/Criteria.lean ====
section
/-! The fault criteria, the SUSPECT test and what the request of a cause does (O46). -/

namespace Sys2Proof.Machine

section
variable {s : State} {n : Nat} {c : ReqCause}

/-! ## One string's judgement (R58 to R64, R69) -/

/-- R61: whether the group's reference is bright enough for the open-string criterion. -/
def brightFor (night : Bool) (group : Option GroupRec) : Bool :=
  match group with
  | none => false
  | some g => !night && g.lit && (match g.reference with | none => false | some ref => decide (200 ≤ ref))

/-- R62: the group settings and the index on which the bucket of a string is moved, if it is. -/
def StringRec.actedOn (r : StringRec) (night : Bool) (group : Option GroupRec) : Option (GroupSettings × Nat) :=
  match group, r.p with
  | some g, some p => if !night && g.lit then some (g.cfg, p) else none
  | _, _ => none

theorem brightFor_iff (night : Bool) (group : Option GroupRec) : brightFor night group = true ↔
    night = false ∧ ∃ g m, group = some g ∧ g.lit = true ∧ g.reference = some m ∧ 200 ≤ m := by
  cases group with
  | none => simp [brightFor]
  | some g =>
    cases hr : g.reference with
    | none => simp [brightFor, hr]
    | some m => simp [brightFor, hr, and_assoc]

theorem StringRec.actedOn_some {r : StringRec} {night : Bool} {group : Option GroupRec} {x : GroupSettings} {p : Nat} :
    r.actedOn night group = some (x, p) ↔
      night = false ∧ (∃ g, group = some g ∧ g.lit = true ∧ g.cfg = x) ∧ r.p = some p := by
  unfold StringRec.actedOn
  rcases group with _ | g <;> rcases hp : r.p with _ | q
  · simp
  · simp
  · simp
  · cases night <;> by_cases hl : g.lit = true <;> simp [hl]

theorem StringRec.actedOn_none {r : StringRec} {night : Bool} {group : Option GroupRec}
    (h : ¬(night = false ∧ ∃ g, group = some g ∧ g.lit = true) ∨ r.p = none) : r.actedOn night group = none := by
  rcases hx : r.actedOn night group with _ | ⟨x, p⟩
  · rfl
  · obtain ⟨hn, ⟨g, hg, hl, -⟩, hp⟩ := StringRec.actedOn_some.1 hx
    rcases h with h | h
    · exact absurd ⟨hn, g, hg, hl⟩ h
    · rw [h] at hp; cases hp

section
variable (r : StringRec) (box : BoxSettings) (night : Bool) (group : Option GroupRec)

theorem StringRec.judge_openRun : (r.judge box night group).figures.openRun =
    if brightFor night group then runAfter r.openRun 3 (decide (r.n ≤ 10)) else r.openRun := by
  rcases group with _ | g <;> rfl

theorem StringRec.judge_bucket : (r.judge box night group).figures.bucket =
    ((r.actedOn night group).map fun x => bucketAfter r.bucket x.2 x.1.deficit x.1.leak).getD r.bucket := by
  rw [show (r.judge box night group).figures.bucket = match r.actedOn night group with
    | none => r.bucket
    | some (g, p) => bucketAfter r.bucket p g.deficit g.leak from rfl]
  cases r.actedOn night group <;> rfl

theorem StringRec.judge_alarm : (r.judge box night group).figures.alarm =
    ((r.actedOn night group).map fun x => alarmAfter r.alarm (r.judge box night group).figures.bucket x.1).getD r.alarm := by
  rw [show (r.judge box night group).figures.alarm = match r.actedOn night group with
    | none => r.alarm
    | some (g, _) => alarmAfter r.alarm (r.judge box night group).figures.bucket g from rfl]
  cases r.actedOn night group <;> rfl

theorem StringRec.judge_alarmed : (r.judge box night group).alarmed = true ↔
    r.alarm = false ∧ (r.judge box night group).figures.alarm = true := by
  rw [show (r.judge box night group).alarmed = (!r.alarm && (r.judge box night group).figures.alarm) from rfl]
  simp

/-- R69: the causes in the order of their severity; an alarm is set on a round that moved the bucket alone. -/
theorem StringRec.judge_cause : (r.judge box night group).cause =
    if (r.judge box night group).figures.reverseRun = 2 then some .reverse
    else if night = false ∧ (r.judge box night group).figures.overRun = 3 then some .overCurrent
    else if brightFor night group = true ∧ (r.judge box night group).figures.openRun = 3 then some .openString
    else if (r.judge box night group).alarmed = true ∧ (r.actedOn night group).any (·.1.policy == .isolate) = true then
      some .deficit
    else none := by
  rw [show (r.actedOn night group).any (·.1.policy == .isolate) = match r.actedOn night group with
    | none => false
    | some (g, _) => g.policy == .isolate by cases r.actedOn night group <;> rfl]
  rfl

theorem alarmAfter_iff (alarm : Bool) (bucket : Nat) (g : GroupSettings) : alarmAfter alarm bucket g = true ↔
    (alarm = false ∧ g.trip ≤ bucket) ∨ (alarm = true ∧ g.trip / 4 ≤ bucket) := by
  unfold alarmAfter releaseLevel
  cases alarm
  · simp
  · simp

/-- R64, R69: the deficit request asks for the policy of the string's group. -/
theorem StringRec.deficit_iff :
    ((r.judge box night group).alarmed = true ∧ (r.actedOn night group).any (·.1.policy == .isolate) = true) ↔
      (r.judge box night group).alarmed = true ∧ ∃ g, group = some g ∧ g.cfg.policy = .isolate := by
  refine and_congr_right fun ha => ?_
  rw [StringRec.judge_alarmed, StringRec.judge_alarm] at ha
  rcases hx : r.actedOn night group with _ | ⟨x, p⟩
  · rw [hx] at ha
    simp [ha.1] at ha
  · obtain ⟨-, ⟨g, rfl, -, rfl⟩, -⟩ := StringRec.actedOn_some.1 hx
    simp

theorem StringRec.judge_judged {mode : Mode} : r.judged mode = true ↔
    r.cfg.used = true ∧ mode = .run ∧ (r.state = .connected ∨ r.state = .suspect) ∧ r.sensorFault = false := by
  simp [StringRec.judged, StringRec.onBus, and_assoc]

end

/-! ## The SUSPECT test (R10) -/

section
variable (r : StringRec) (group : Option GroupRec)

/-- R10: whether a run counter is running. -/
def StringRec.counting (r : StringRec) : Bool :=
  decide (r.reverseRun ≠ 0) || decide (r.overRun ≠ 0) || decide (r.openRun ≠ 0)

theorem StringRec.counting_iff : r.counting = true ↔ r.reverseRun ≠ 0 ∨ r.overRun ≠ 0 ∨ r.openRun ≠ 0 := by
  simp [StringRec.counting, or_assoc]

theorem StringRec.suspectTest_eq : r.suspectTest group =
    if r.state = .connected ∧ (r.counting || group.any fun g => decide (watchLevel g.cfg ≤ r.bucket)) = true then
      { r with state := .suspect }
    else if r.state = .suspect ∧ (!r.counting && group.all fun g => decide (r.bucket < releaseLevel g.cfg)) = true then
      { r with state := .connected, cause := none, verdict := none }
    else r := by
  cases group <;> rfl

/-- R63: the watch and release levels that the test compares with. -/
theorem StringRec.watched_iff : (group.any fun g => decide (watchLevel g.cfg ≤ r.bucket)) = true ↔
    ∃ g, group = some g ∧ g.cfg.trip / 2 ≤ r.bucket := by
  cases group with
  | none => simp
  | some g => simp only [Option.any_some, Option.some.injEq, exists_eq_left']; exact decide_eq_true_iff

theorem StringRec.released_iff : (group.all fun g => decide (r.bucket < releaseLevel g.cfg)) = true ↔
    ∀ g, group = some g → r.bucket < g.cfg.trip / 4 := by
  cases group with
  | none => simp
  | some g => simp only [Option.all_some, Option.some.injEq, forall_eq']; exact decide_eq_true_iff

end

/-! ## Every string's judgement -/

/-- Raising a list of items, a record of each entry being made by `f`. -/
theorem State.mem_foldl_raise {α : Type} (f : α → Item) (l : List α) (s : State) (i : Item) :
    i ∈ (l.foldl (fun acc x => acc.raise (f x)) s).attention ↔ i ∈ s.attention ∨ ∃ x ∈ l, i = f x := by
  induction l generalizing s with
  | nil => simp
  | cons x xs ih => rw [List.foldl_cons, ih, State.mem_raise]; simp [or_assoc]

theorem State.foldl_raise_eq {α : Type} (f : α → Item) (l : List α) (s : State) :
    l.foldl (fun acc x => acc.raise (f x)) s = s.setAttention (l.foldl (fun acc x => acc.raise (f x)) s).attention := by
  induction l generalizing s with
  | nil => rfl
  | cons x xs ih =>
    rw [List.foldl_cons, ih, State.raise_eq]
    rfl

theorem State.applyJudgements_eq (s : State) (js : List Judgement) : s.applyJudgements js = { s with
    strings := js.map (·.figures), attention := (s.applyJudgements js).attention } := by
  unfold State.applyJudgements
  exact State.foldl_raise_eq (fun x : Nat × Bool => Item.str .deficit x.1) _ _

theorem mem_mapNum {α β : Type} (f : Nat → α → β) (l : List α) (y : β) :
    y ∈ mapNum f 1 l ↔ ∃ n x, getNum l n = some x ∧ y = f n x := by
  constructor
  · intro h
    obtain ⟨n, hn⟩ := mem_getNum h
    rw [getNum_mapNum] at hn
    obtain ⟨x, hx, rfl⟩ := Option.map_eq_some_iff.1 hn
    exact ⟨n + 1, x, hx, by rw [Nat.add_comm]⟩
  · rintro ⟨n, x, hx, rfl⟩
    match n with
    | 0 => cases l <;> simp [getNum] at hx
    | n + 1 =>
      refine getNum_mem (n := n + 1) ?_
      rw [getNum_mapNum, hx, Nat.add_comm 1 n]
      rfl

/-- R64: DEFICIT is raised for every alarm set, and no other item. -/
theorem State.mem_applyJudgements (s : State) (js : List Judgement) (i : Item) : i ∈ (s.applyJudgements js).attention ↔
    i ∈ s.attention ∨ ∃ n x, getNum js n = some x ∧ x.alarmed = true ∧ i = .str .deficit n := by
  unfold State.applyJudgements
  simp only [State.raiseStr_eq]
  rw [State.mem_foldl_raise (fun x : Nat × Bool => Item.str .deficit x.1)]
  refine or_congr Iff.rfl ⟨?_, ?_⟩
  · rintro ⟨x, hx, rfl⟩
    obtain ⟨hm, ha⟩ := List.mem_filter.1 hx
    obtain ⟨n, j, hj, rfl⟩ := (mem_mapNum _ _ _).1 hm
    exact ⟨n, j, hj, ha, rfl⟩
  · rintro ⟨n, j, hj, ha, rfl⟩
    exact ⟨(n, j.alarmed), List.mem_filter.2 ⟨(mem_mapNum _ _ _).2 ⟨n, j, hj, rfl⟩, ha⟩, rfl⟩

/-! ## What a request does -/

/-- R131: whether the recurrence test of a request sets the budget to 0, for an isolation of this round. -/
def StringRec.recurs (r : StringRec) (c : ReqCause) (window : Nat) (round : Word32) : Bool :=
  c.isFault && decide (1 ≤ window) && (r.reconnectedAt.map fun a => decide ((round - a).toNat < window)).getD false

theorem StringRec.recurs_none {r : StringRec} {window : Nat} {round : Word32} (ha : r.reconnectedAt = none) :
    r.recurs c window round = false := by
  simp [StringRec.recurs, ha]

theorem StringRec.recurs_some {r : StringRec} {window : Nat} {round a : Word32} (ha : r.reconnectedAt = some a) :
    r.recurs c window round = true ↔ c.isFault = true ∧ 1 ≤ window ∧ (round - a).toNat < window := by
  simp only [StringRec.recurs, ha, Option.map_some, Option.getD_some, Bool.and_eq_true, decide_eq_true_eq, and_assoc]

/-- R131: the test reads the record's round, and changes the budget alone. -/
theorem StringRec.recurrenceTest_eq (r : StringRec) (c : ReqCause) (window : Nat) :
    (if c.isFault then r.recurrence window else r) = { r with
      budget := match r.record with
        | some d => if r.recurs c window d.round then 0 else r.budget
        | none => r.budget } := by
  have kept : r = { r with budget := r.budget } := rfl
  rcases hq : r.record with _ | q
  · simp only [StringRec.recurrence, hq, ite_self]
    rw [← hq]
  · rcases ha : r.reconnectedAt with _ | a
    · simp only [StringRec.recurrence, hq, ha, ite_self, StringRec.recurs_none ha]
      rw [← hq, ← ha]
      rfl
    · simp only [StringRec.recurrence, hq, ha, StringRec.recurs_some ha]
      rw [← hq, ← ha]
      by_cases hc : c.isFault = true
      · by_cases hw : 1 ≤ window ∧ (q.round - a).toNat < window
        · rw [if_pos hc, if_pos hw, if_pos ⟨hc, hw⟩]
        · rw [if_pos hc, if_neg hw, if_neg fun h => hw h.2]
      · rw [if_neg hc, if_neg fun h => hc h.1]

theorem State.queuedRecord_budget (s : State) (c : ReqCause) (r : StringRec) : s.queuedRecord c r = { r with
    state := .queued, cause := some (.req (s.causeAdmitted c)), verdict := none
    record := some (s.openedFor (s.causeAdmitted c))
    budget := if r.recurs c s.box.recurrence s.scan.counter then 0 else r.budget } := by
  unfold State.queuedRecord
  exact StringRec.recurrenceTest_eq _ c _

/-- R76, R131: the recurrence test of a record that takes the cause. -/
theorem StringRec.recause_eq (r : StringRec) (c : ReqCause) (window : Nat) :
    (if c.isFault then
      ({ r.editRecord (fun q => { q with cause := .req c }) with cause := some (.req c) } : StringRec).recurrence window
      else { r.editRecord (fun q => { q with cause := .req c }) with cause := some (.req c) }) = { r with
        cause := some (.req c), record := r.record.map fun d => { d with cause := .req c }
        budget := match r.record with
          | some d => if r.recurs c window d.round then 0 else r.budget
          | none => r.budget } := by
  refine (StringRec.recurrenceTest_eq _ c window).trans ?_
  unfold StringRec.editRecord
  rcases r.record with _ | q <;> rfl

/-- R76, R131: a raised entry's string takes the cause, in its last isolation record too, and the recurrence test. -/
theorem State.raiseEntry_eq (s : State) (e : QueueEntry) (c : ReqCause) : s.raiseEntry e c =
    (({ s with sched := { s.sched with
      queue := insertEntry s.scan.counter s.sched.arrival { e with severity := c.severity, cause := c }
        (s.sched.queue.filter fun x => x.string != e.string) } } : State).updStr e.string fun q => { q with
          cause := some (.req c), record := q.record.map fun d => { d with cause := .req c }
          budget := match q.record with
            | some d => if q.recurs c s.box.recurrence d.round then 0 else q.budget
            | none => q.budget }) := by
  unfold State.raiseEntry
  simp only [State.recurrenceTest_eq, State.updStr_updStr]
  exact State.updStr_congr _ _ (StringRec.recause_eq _ c _)

theorem isFault_eq (c : ReqCause) : c.isFault =
    decide (c = .reverse ∨ c = .overCurrent ∨ c = .openString ∨ c = .deficit) := by
  cases c <;> rfl

/-- Settles O46: the judgement of one record, the SUSPECT test, and the admission or merging of the request it gives.
-/
theorem criteriaMatureAndGiveOneCause : Obligations.CriteriaMatureAndGiveOneCause := by
  unfold Obligations.CriteriaMatureAndGiveOneCause
  intro r box night group j q lit bright
  have hbright : brightFor night group = true ↔ bright := brightFor_iff night group
  have hact (h : ¬lit ∨ r.p = none) : r.actedOn night group = none := StringRec.actedOn_none h
  refine ⟨rfl, ?_, fun h => ?_, fun h => ?_, fun h => ?_, fun h => ?_, fun g p hl hg hp => ?_, fun h => ?_,
    StringRec.judge_alarmed r box night group, ?_⟩
  · show runAfter _ _ _ = _
    simp [runAfter]
  · show (if night then _ else _) = _
    rw [h]; rfl
  · show (if night then _ else _) = _
    rw [h]; simp [runAfter]
  · rw [StringRec.judge_openRun, if_pos (hbright.2 h)]; simp [runAfter]
  · rw [StringRec.judge_openRun, if_neg (mt hbright.1 h)]
  · have ha : r.actedOn night group = some (g.cfg, p) := StringRec.actedOn_some.2 ⟨hl.1, ⟨g, hg, ?_, rfl⟩, hp⟩
    · refine ⟨?_, ?_⟩
      · rw [StringRec.judge_bucket, ha]
        rfl
      · rw [StringRec.judge_alarm, ha]
        exact alarmAfter_iff _ _ _
    · obtain ⟨-, g', hg', hlit⟩ := hl
      rw [hg] at hg'
      rwa [Option.some.inj hg']
  · rw [StringRec.judge_bucket, StringRec.judge_alarm, hact h]
    exact ⟨rfl, rfl⟩
  · intro reverse exceeded silent deficit
    have hcause := StringRec.judge_cause r box night group
    have hsilent : (brightFor night group = true ∧ (r.judge box night group).figures.openRun = 3) ↔ silent :=
      and_congr_left' hbright
    have hdeficit := StringRec.deficit_iff r box night group
    refine ⟨fun h => ?_, fun h1 h => ?_, fun h1 h2 h => ?_, fun h1 h2 h3 h => ?_, fun h1 h2 h3 h => ?_, fun mode => ⟨?_, ?_⟩,
      ?_, ?_⟩
    · exact hcause.trans (if_pos h)
    · exact hcause.trans ((if_neg h1).trans (if_pos h))
    · exact hcause.trans ((if_neg h1).trans ((if_neg h2).trans (if_pos (hsilent.2 h))))
    · exact hcause.trans ((if_neg h1).trans ((if_neg h2).trans ((if_neg (mt hsilent.1 h3)).trans (if_pos (hdeficit.2 h)))))
    · exact hcause.trans ((if_neg h1).trans ((if_neg h2).trans ((if_neg (mt hsilent.1 h3)).trans (if_neg (mt hdeficit.1 h)))))
    · exact fun h => if_pos (r.judge_judged.2 h)
    · exact fun h => if_neg (mt r.judge_judged.1 h)
    · intro counting watched released
      rw [StringRec.suspectTest_eq]
      have hw : (r.counting || group.any fun g => decide (watchLevel g.cfg ≤ r.bucket)) = true ↔ counting ∨ watched := by
        rw [Bool.or_eq_true, r.counting_iff, r.watched_iff]
      have hr : (!r.counting && group.all fun g => decide (r.bucket < releaseLevel g.cfg)) = true ↔ ¬counting ∧ released := by
        rw [Bool.and_eq_true, r.released_iff, Bool.not_eq_true', ← Bool.not_eq_true, r.counting_iff]
      refine ⟨fun hs h => if_pos ⟨hs, hw.2 h⟩, fun hs h1 h2 => ?_, fun hs h1 h2 => ?_, fun hs h => ?_, fun h1 h2 => ?_⟩
      · rw [if_neg fun h => (hw.1 h.2).elim h1 h2, if_neg (by rw [hs]; simp)]
      · rw [if_neg (by rw [hs]; simp), if_pos ⟨hs, hr.2 ⟨h1, h2⟩⟩]
      · rw [if_neg (by rw [hs]; simp), if_neg fun h' => h.elim (hr.1 h'.2).1 fun hn => hn (hr.1 h'.2).2]
      · rw [if_neg fun h => h1 h.1, if_neg fun h => h2 h.1]
    · intro s js applied
      refine ⟨fun n => getNum_map _ _ n, s.applyJudgements_eq js, s.mem_applyJudgements js, rfl, rfl, fun n c hl hn => ?_⟩
      intro x fault recurs others opened
      have hrec (round : Word32) : x.recurs c s.box.recurrence round = recurs round := by
        simp only [StringRec.recurs, isFault_eq, recurs, fault]
      have hreq : x.state = .connected ∨ x.state = .suspect → s.request n c = (s.admitted n c).walk := by
        rw [← State.queueString_eq]
        intro h
        rcases h with h | h <;> rw [State.request, show (s.str n).state = _ from h]
      have hadm (d : ReqCause) (hd : s.causeAdmitted c = d) : s.admitted n c =
          (opened d).setSched { s.sched with queue := s.queueWith n c, arrival := s.sched.arrival + 1 } := by
        refine congrArg (fun u : State => u.setSched _) (s.updStr_congr n ?_)
        rw [State.queuedRecord_budget, hd, hrec]
        rfl
      refine ⟨fun h ha => ?_, fun h ha hc => ?_, fun e h he hr => ?_, fun e h he hr => ?_, fun h => ?_, fun h h1 h2 => ?_,
        fun h => ?_⟩
      · have hd : s.causeAdmitted c = c := by
          unfold State.causeAdmitted
          rcases ha with ha | ha
          · rw [if_neg (by simp [ha])]
          · rw [ha, ite_self]
        rw [hreq h, hadm c hd, State.queueWith, if_neg (by rintro ⟨h1, h2⟩; rcases ha with ha | ha <;> simp_all),
          State.entryFor, hd]
        rfl
      · have hd : s.causeAdmitted c = .shutdown := if_pos ha
        rw [hreq h, hadm _ hd, State.queueWith, if_pos ⟨ha, hc⟩, State.entryFor, hd]
        rfl
      · rw [State.request, show (s.str n).state = _ from h, State.merge]
        simp only [he]
        exact if_neg (Nat.not_lt.2 hr)
      · have hen : e.string = n := by simpa using List.find?_some he
        rw [State.request, show (s.str n).state = _ from h, State.merge]
        simp only [he]
        rw [if_pos hr, State.raiseEntry_eq, hen]
        refine congrArg State.walk (State.updStr_congr _ n ?_)
        have hb : (match x.record with
            | some d => if x.recurs c s.box.recurrence d.round then 0 else x.budget
            | none => x.budget) = match x.record with
            | some d => if recurs d.round then 0 else x.budget
            | none => x.budget := by
          cases x.record with
          | none => rfl
          | some d => exact if_congr (by rw [hrec]) rfl rfl
        exact congrArg (fun b => ({ x with
          cause := some (.req c), record := x.record.map fun d => { d with cause := .req c }, budget := b } : StringRec)) hb
      · rw [State.request, show (s.str n).state = _ from h]
        refine s.updStr_congr n ?_
        unfold StringRec.hold
        rcases hx : (s.str n).held with _ | d
        · simp only
        · simp only
          split
          · rfl
          · rw [← hx]
      · rcases h with h | h <;> rw [State.request, show (s.str n).state = _ from h]
        · exact if_neg h1
        · exact (if_neg h1).trans (if_neg h2)
      · rcases h with h | h | h | h <;> rw [State.request, show (s.str n).state = _ from h]

end

end Sys2Proof.Machine
end

