-- ==== Sys2Proof/Proofs/IsolatorOutcomes.lean ====
section
/-! The isolator's operations and comparison, and the answers to the contacts' discrepancies (O53). -/

namespace Sys2Proof.Machine

section
variable {s : State} {n : Nat} {c : ReqCause}

/-! ## The isolator (R107, R109, R110) -/

/-- R109: a close that ends without a pending open. -/
theorem State.closeOver_free (state : IsolatorState) (h : s.isolator.pendingOpen = false) : s.closeOver state =
    (s.setIsolator { s.isolator with state := state, pendingOpen := false }).raise (.box .output) := by
  unfold State.closeOver
  simp [h]

/-- R109: a pending open is carried out from the state in which the close ends, and no walk follows while no entry
waits. -/
theorem State.closeOver_pending {state : IsolatorState} (h : s.isolator.pendingOpen = true) (hq : s.sched.queue = [])
    (hs : state = .closed ∨ state = .failed) (hf : s.isolator.feedback ≠ .opened) : s.closeOver state =
      (s.setIsolator ⟨.opening, false, s.isolator.feedback, s.part.now⟩).raise (.box .output) := by
  unfold State.closeOver
  simp only [h, if_true, State.raiseBox_eq]
  rw [State.openRequest_idle (by simpa using hq), State.openOrder_starts (by simpa using hs) (by simpa using hf)]
  simp only [State.raise_isolator, State.raise_part, State.raiseBox_eq]
  rw [State.raise_setIsolator, State.raise_raise]
  rfl

/-- R107, R109: a reading that ends no operation is only read. -/
theorem State.isolatorReads_plain {f : Travel} (h1 : ¬(s.isolator.state = .opening ∧ f = .opened))
    (h2 : ¬(s.isolator.state = .closing ∧ f = .closed)) :
    s.isolatorReads f = s.setIsolator { s.isolator with feedback := f } := by
  unfold State.isolatorReads
  dsimp only
  split
  · next h => exact absurd ⟨h, rfl⟩ h1
  · next h => exact absurd ⟨h, rfl⟩ h2
  · rfl

theorem State.isolatorReads_opened (h : s.isolator.state = .opening) :
    s.isolatorReads .opened = (s.setIsolator { s.isolator with feedback := .opened }).isolatorOpened.walk := by
  have h' : (s.setIsolator { s.isolator with feedback := .opened }).isolator.state = .opening := h
  unfold State.isolatorReads
  dsimp only
  rw [h']

theorem State.isolatorReads_closed (h : s.isolator.state = .closing) :
    s.isolatorReads .closed = (s.setIsolator { s.isolator with feedback := .closed }).closeOver .closed := by
  have h' : (s.setIsolator { s.isolator with feedback := .closed }).isolator.state = .closing := h
  unfold State.isolatorReads
  dsimp only
  rw [h']

/-! ## Discrepancies (R102, R13, R14) -/

/-- R102: a used string without an operation in flight whose contact disagrees with its state. -/
def State.Differs (s : State) (n : Nat) : Prop :=
  (s.str n).cfg.used = true ∧ (s.str n).op = none ∧
    (((s.str n).state = .connected ∨ (s.str n).state = .suspect ∨ (s.str n).state = .stuckClosed) ∧ (s.str n).position = .opened ∨
      ((s.str n).state = .isolated ∨ (s.str n).state = .lockedOut) ∧ (s.str n).position = .closed)

theorem State.disagrees_iff (s : State) (n : Nat) : s.disagrees n = true ↔ s.Differs n := by
  unfold State.disagrees State.Differs
  simp only [Bool.and_eq_true, Option.isNone_iff_eq_none, and_assoc]
  refine and_congr_right fun _ => and_congr_right fun _ => ?_
  cases (s.str n).state <;> cases (s.str n).position <;> simp

/-- R102, R13, R14: the answer to a discrepancy, by the string's state. -/
def State.answered (s : State) (n : Nat) : State :=
  match (s.str n).state with
  | .isolated => s.externalClose n
  | .lockedOut => s.enforceLockout n
  | .stuckClosed => s.stuckFreed n
  | _ => s.externalOpen n

theorem State.discrepancy_eq (s : State) (n : Nat) : s.discrepancy n = if s.disagrees n then s.answered n else s := by
  unfold State.discrepancy State.disagrees State.answered
  by_cases hu : (s.str n).cfg.used = false ∨ (s.str n).op.isSome = true
  · rw [if_pos hu]
    rcases hu with hu | hu
    · simp [hu]
    · simp [← Option.not_isSome, hu]
  · obtain ⟨hu, ho⟩ : (s.str n).cfg.used = true ∧ (s.str n).op = none := by simpa using hu
    simp only [hu, ho]
    cases (s.str n).state <;> cases (s.str n).position <;> rfl

/-- A string that does not differ is left as it is. -/
theorem State.discrepancy_none (h : ¬s.Differs n) : s.discrepancy n = s := by
  rw [State.discrepancy_eq, if_neg (mt (s.disagrees_iff n).1 h)]

theorem State.discrepancy_answers (h : s.Differs n) : s.discrepancy n = s.answered n := by
  rw [State.discrepancy_eq, if_pos ((s.disagrees_iff n).2 h)]

/-- R102: the order in which a completion's requests and discrepancies reach the string controller is free, and every
event due comes once. -/
theorem State.controllerTurn_order (s : State) (js : List Judgement) : ∃ order : List Nat, order.Nodup ∧
    (∀ k, k ∈ order ↔ 1 ≤ k ∧ k ≤ 24 ∧ (∃ j c, getNum js k = some j ∧ j.cause = some c) ∨
      25 ≤ k ∧ k ≤ 48 ∧ s.suspectTests.Differs (k - 24)) ∧
    s.controllerTurn js = (order.foldl (fun (u : State) k => if 24 < k then u.discrepancy (k - 24) else
      match (getNum js k).bind (·.cause) with
      | none => u
      | some c => u.request k c) s.suspectTests).drawn := by
  have hperm := arranged_perm (Config.completionOrder s.suspectTests.free.draws) (s.suspectTests.eventsDue js)
  refine ⟨_, hperm.nodup_iff.2 (List.Nodup.filter _ (by decide)), fun k => ?_, ?_⟩
  · have hc : (causeOf js k).isSome = true ↔ ∃ j c, getNum js k = some j ∧ j.cause = some c := by
      simp only [causeOf, Option.isSome_iff_exists, Option.bind_eq_some_iff]
      exact exists_comm.trans (by simp)
    have hk : k ∈ Config.eventNumbers ↔ 1 ≤ k ∧ k ≤ 48 := by
      simp only [Config.eventNumbers, List.mem_append, List.mem_map, mem_stringNumbers]
      constructor
      · rintro (h | ⟨m, hm, rfl⟩) <;> omega
      · intro h
        by_cases hk : k ≤ 24
        · exact .inl ⟨h.1, hk⟩
        · exact .inr ⟨k - 24, by omega, by omega⟩
    rw [hperm.mem_iff, State.eventsDue, List.mem_filter, hk]
    by_cases h : k ≤ 24
    · rw [if_pos h, hc]
      exact ⟨fun ⟨hk, hc⟩ => .inl ⟨hk.1, h, hc⟩, fun hk => hk.elim (fun ⟨h1, _, hc⟩ => ⟨⟨h1, by omega⟩, hc⟩) (by omega)⟩
    · rw [if_neg h, State.disagrees_iff]
      exact ⟨fun ⟨hk, hd⟩ => .inr ⟨by omega, hk.2, hd⟩, fun hk => hk.elim (by omega) fun ⟨h1, h2, hd⟩ => ⟨⟨by omega, h2⟩, hd⟩⟩
  · unfold State.controllerTurn
    refine congrArg (fun f => State.drawn (List.foldl f _ _)) ?_
    funext u k
    unfold State.controllerEvent
    by_cases h : k ≤ 24
    · rw [if_pos h, if_neg (by omega)]; rfl
    · rw [if_neg h, if_pos (by omega)]

/-! ### A contact found OPEN -/

theorem State.externalOpen_eq (s : State) (n : Nat) : s.externalOpen n = ((s.updStr n fun q => { q with
    state := .isolated, cause := some .externalOpen, verdict := none
    record := some ⟨.externalOpen, s.scan.counter, s.peer.day, some .alreadyOpen, none, none, none, none, 0⟩ }).raise
      (.str .contact n)).place n .diagnose .auto := by
  unfold State.externalOpen State.openRecord
  rw [State.updStr_updStr]
  rfl

/-! ### A contact found CLOSED -/

theorem State.withdraw_not_listed (s : State) (n : Nat) : ∀ e ∈ (s.withdraw n).probe.list, e.string ≠ n := by
  rw [State.withdraw_list]
  intro e he
  simpa using (List.mem_filter.1 he).2

theorem State.withdraw_flight_kept (h : s.probing n = false ∨ s.holdsEntry n = false) :
    (s.withdraw n).probe.flight = s.probe.flight := by
  unfold State.withdraw
  split
  · next he =>
    have hp : s.probing n = false := h.resolve_right (by simp [he])
    have hl : State.probing (s.setProbe { s.probe with list := s.probe.list.filter (fun e => e.string != n) }) n = false := hp
    simp only [hl, Bool.false_eq_true, if_false, State.setProbe_probe]
  · rfl

/-- R14: an ISOLATED string found CLOSED is CONNECTED, its entry withdrawn; ASSERTED, it is then queued. -/
theorem State.externalClose_eq (s : State) (n : Nat) : s.externalClose n = State.shutdownCatch
    (((s.withdraw n).updStr n fun q => { q with
      state := .connected, cause := none, verdict := none
      reverseRun := 0, overRun := 0, openRun := 0, bucket := 0, alarm := false }).raise (.str .contact n)) n := rfl

/-- R144: a string just CONNECTED is queued by a SHUTDOWN request while the shutdown state is ASSERTED. -/
theorem State.shutdownCatch_connected (h : (s.str n).state = .connected) (ha : s.shutdown.asserted = true) :
    s.shutdownCatch n = s.queueString n .shutdown := by
  rw [State.shutdownCatch, if_pos ha, State.request, h]

theorem State.enforceLockout_eq (h : (s.str n).state = .lockedOut) :
    s.enforceLockout n = ((s.raise (.str .contact n)).withdraw n).queueString n .lockoutEnforce := by
  have hs : ((s.raise (.str .contact n)).str n).state = .lockedOut := by rw [State.raise_str]; exact h
  unfold State.enforceLockout State.request
  rw [State.raiseStr_eq, hs]
  rfl

/-! ### No probe starts while shutdown is ASSERTED (R114) -/

theorem State.lookForWork_asserted (h : s.shutdown.asserted = true) : s.lookForWork = s := by
  rcases s.lookForWork_cases with ⟨h, -⟩ | ⟨e, -, he, -⟩
  · exact h
  · have := List.find?_some he
    simp [State.eligible, h] at this

theorem State.place_flight_asserted (h : s.shutdown.asserted = true) (n : Nat) (p : Purpose) (o : Origin) :
    (s.place n p o).probe.flight = s.probe.flight := by
  unfold State.place
  split
  · rfl
  · rw [State.lookForWork_asserted (s := s.enlist n p o) h]; rfl

theorem State.alreadyOpen_flight_asserted (h : s.shutdown.asserted = true) (m : Nat) :
    (s.alreadyOpen m).probe.flight = s.probe.flight := by
  unfold State.alreadyOpen State.offBus
  rw [State.place_flight_asserted]
  · simp [State.settleOff, State.dequeue]
  · simpa [State.settleOff, State.dequeue] using h

theorem State.visit_flight_asserted (h : s.shutdown.asserted = true) (earlier : Bool) (e : QueueEntry) :
    (s.visit earlier e).1.probe.flight = s.probe.flight := by
  rcases s.visit_cases earlier e with hv | hv | hv | hv | hv <;> rw [hv]
  · exact State.alreadyOpen_flight_asserted h _
  · rfl
  · rfl
  · rw [State.openOrder_probe]

/-- A walk made while shutdown is ASSERTED leaves the probe in flight. -/
theorem State.walk_flight_asserted (h : s.shutdown.asserted = true) : s.walk.probe.flight = s.probe.flight :=
  (State.walk_keeps (fun t => t.shutdown = s.shutdown ∧ t.probe.flight = s.probe.flight) ⟨rfl, rfl⟩
    fun t earlier e ht => ⟨((t.visit_within earlier e) .shutdown (by decide)).trans ht.1,
      (State.visit_flight_asserted (by rw [ht.1]; exact h) earlier e).trans ht.2⟩).2

/-- Settles O53: the ends of the isolator's operations, its comparison at a completion, and each discrepancy's answer.
-/
theorem isolatorEndsOrTimesOut : Obligations.IsolatorEndsOrTimesOut := by
  unfold Obligations.IsolatorEndsOrTimesOut
  intro s
  constructor
  · intro hq iso now at_
    have ends (f : Travel) : exec (.isolatorEndReached f) s = .next (s.isolatorReads f) := rfl
    have times : exec .isolatorTimeout s = .next s.isolatorExpired := rfl
    refine ⟨fun f h1 h2 => ?_, fun h => ⟨?_, ?_⟩, fun h hp => ⟨?_, ?_⟩, fun h hp => ⟨?_, fun hf => ?_⟩, fun h1 h2 => ?_,
      fun h hf => ?_, fun h hf => ?_, fun h hf ha => ?_, fun h hf ha => ?_⟩
    · rw [ends, State.isolatorReads_plain h1 h2]
      rfl
    · rw [ends, State.isolatorReads_opened h, State.walk_empty _ (by simpa [State.isolatorOpened] using hq)]
      rfl
    · rw [times, State.isolatorExpired, show s.isolator.state = _ from h]
      rfl
    · rw [ends, State.isolatorReads_closed h, State.closeOver_free (s := s.setIsolator { s.isolator with feedback := .closed }) .closed hp]
      rfl
    · rw [times, State.isolatorExpired, show s.isolator.state = _ from h]
      dsimp only
      rw [State.closeOver_free (s := s.reach _) .failed hp]
      rfl
    · rw [ends, State.isolatorReads_closed h,
        State.closeOver_pending (s := s.setIsolator { s.isolator with feedback := .closed }) hp hq (.inl rfl) (by simp)]
      rfl
    · rw [times, State.isolatorExpired, show s.isolator.state = _ from h]
      dsimp only
      rw [State.closeOver_pending (s := s.reach _) hp hq (.inr rfl) hf]
      rfl
    · rw [times, State.isolatorExpired]
      split
      · exact absurd ‹_› h1
      · exact absurd ‹_› h2
      · rfl
      · rfl
      · rfl
    · unfold State.isolatorCompared
      rcases h with h | h
      · conv_lhs => rw [show s.isolator.feedback = _ from hf, show s.isolator.state = _ from h]
        rfl
      · conv_lhs => rw [show s.isolator.feedback = _ from hf, show s.isolator.state = _ from h]
        rfl
    · unfold State.isolatorCompared
      conv_lhs => rw [show s.isolator.feedback = _ from hf, show s.isolator.state = _ from h]
      exact State.walk_empty s.isolatorOpened (by simpa [State.isolatorOpened] using hq)
    · unfold State.isolatorCompared
      conv_lhs => rw [show s.isolator.feedback = _ from hf, show s.isolator.state = _ from h]
      exact if_neg (by simp [State.raiseBox_eq, ha])
    · unfold State.isolatorCompared
      conv_lhs => rw [show s.isolator.feedback = _ from hf, show s.isolator.state = _ from h]
      let u := (s.setIsolator { s.isolator with state := .closed }).raise (.box .output)
      have hui : u.isolator = { s.isolator with state := .closed } := State.raise_isolator _ _
      have hup : u.part = s.part := State.raise_part _ _
      refine (if_pos (by simpa using ha) : _ = u.openRequest).trans ?_
      rw [State.openRequest_idle (by simpa [u] using hq), State.openOrder_starts (by simp [hui])
        (by rw [hui]; exact fun h => absurd (hf.symm.trans h) (by decide)), hui, hup, State.raiseBox_eq,
        State.raise_setIsolator, State.raise_raise]
      rfl
  · intro differs
    refine ⟨s.controllerTurn_order, ?_⟩
    intro n hl hn r t
    have hstate : differs s n → t = s.answered n := State.discrepancy_answers (s := s) (n := n)
    refine ⟨State.discrepancy_none (s := s) (n := n), fun hd hs => ?_, fun hd hs => ?_, fun hd hs => ?_, fun hd hs => ?_⟩
    · rw [hstate hd, State.answered, ← State.externalOpen_eq]
      rcases hs with hs | hs <;> rw [show (s.str n).state = _ from hs]
    · rw [hstate hd, State.answered, show (s.str n).state = _ from hs]
      rfl
    · have hp : r.position = .closed := by
        rcases hd.2.2 with ⟨h, -⟩ | ⟨-, h⟩
        · exact absurd (hs ▸ h) (by decide)
        · exact h
      let u := ((s.withdraw n).updStr n fun q => { q with
        state := .connected, cause := none, verdict := none
        reverseRun := 0, overRun := 0, openRun := 0, bucket := 0, alarm := false }).raise (.str .contact n)
      have ht : t = u.shutdownCatch n := by
        rw [hstate hd, State.answered, show (s.str n).state = _ from hs, ← State.externalClose_eq]
      have hwl : (s.withdraw n).strings.length = 24 := by rw [(s.withdraw_within n) .strings (by decide)]; exact hl
      have hus : u.str n = { s.str n with
          state := .connected, cause := none, verdict := none
          reverseRun := 0, overRun := 0, openRun := 0, bucket := 0, alarm := false } := by
        rw [State.raise_str, State.str_updStr_valid _ hwl hn, State.withdraw_str]
      have hul : u.strings.length = 24 := by rw [State.raise_strings, State.updStr_length]; exact hwl
      have hua : u.shutdown = s.shutdown := by
        rw [State.raise_shutdown, State.updStr_shutdown, (s.withdraw_within n) .shutdown (by decide)]
      have hup : u.probe = (s.withdraw n).probe := State.raise_probe _ _
      have caught (ha : s.shutdown.asserted = true) : t = u.queueString n .shutdown := by
        rw [ht, State.shutdownCatch_connected (by rw [hus]) (by rw [hua]; exact ha)]
      have free (ha : s.shutdown.asserted = false) : t = u := by
        rw [ht, State.shutdownCatch, if_neg (by rw [hua, ha]; decide)]
      refine ⟨(s.withdraw n).probe.flight, ?_, fun f hf hfn hh => ?_, State.withdraw_flight_kept, fun ha => ?_, fun ha => ?_⟩
      · by_cases ha : s.shutdown.asserted = true
        · rw [caught ha, State.queueString_eq, State.walk_flight_asserted (s := u.admitted n _) (by rw [← hua] at ha; exact ha), ← hup]
          rfl
        · rw [free (by simpa using ha), hup]
      · exact ⟨f.abort s.part.now, State.withdraw_flight hh hf hfn, (f.abort_stage _).2.2.1.trans hfn, (f.abort_stage _).1,
          (f.abort_stage _).2.1⟩
      · rw [free ha, ← State.withdraw_list]
        refine congrArg (fun v : State => (v.updStr n _).raise _) (State.withdraw_eq s n)
      · have hon : OnTheWay n t := by
          rw [caught ha]
          exact State.queueString_onTheWay hul hn (by rw [hus]; exact hp)
        have hlist : ∀ e ∈ t.probe.list, e.string ≠ n := by
          rw [caught ha]
          exact State.queueString_unlisted hul hn (by rw [hus]; exact hp) (by rw [hup]; exact State.withdraw_not_listed s n)
        refine ⟨?_, ?_, hon.state, hlist⟩
        · rw [caught ha, State.queueString_cause hul hn, State.causeAdmitted, ite_self]
        · rw [caught ha]
          exact State.queueString_grows _ _ _ _ (State.mem_raise_self _ _)
    · have hp : r.position = .closed := by
        rcases hd.2.2 with ⟨h, -⟩ | ⟨-, h⟩
        · exact absurd (hs ▸ h) (by decide)
        · exact h
      let u := (s.raise (.str .contact n)).withdraw n
      have ht : t = u.queueString n .lockoutEnforce := by
        rw [hstate hd, State.answered, show (s.str n).state = _ from hs, ← State.enforceLockout_eq hs]
      have hwith : Within [.probe, .attention] s u :=
        ((s.raise_within _).mono (by simp)).trans ((State.withdraw_within _ n).mono (by simp))
      have hul : u.strings.length = 24 := by rw [hwith .strings (by decide)]; exact hl
      have hus : u.str n = s.str n := by rw [State.withdraw_str, State.raise_str]
      have hon : OnTheWay n t := by
        rw [ht]
        exact State.queueString_onTheWay hul hn (by rw [hus]; exact hp)
      have hlist : ∀ e ∈ t.probe.list, e.string ≠ n := by
        rw [ht]
        exact State.queueString_unlisted hul hn (by rw [hus]; exact hp) (State.withdraw_not_listed _ n)
      have hcause : (t.str n).cause = some (.req (u.causeAdmitted .lockoutEnforce)) := by
        rw [ht, State.queueString_cause hul hn]
      have hua : u.shutdown = s.shutdown := hwith .shutdown (by decide)
      have hsched : u.sched = s.sched := hwith .sched (by decide)
      have hscan : u.scan = s.scan := hwith .scan (by decide)
      have hitem : Item.str .contact n ∈ u.attention := by
        rw [(State.withdraw_within _ n) .attention (by decide)]
        exact State.mem_raise_self _ _
      have hlock : t.lockouts = s.lockouts := by
        rw [ht, (u.queueString_within n _) .lockouts (by decide), hwith .lockouts (by decide)]
      refine ⟨?_, hlock, hlist, hon.state, ?_, fun ha => ?_, fun ha => ?_⟩
      · rw [ht]; exact State.queueString_grows _ _ _ _ hitem
      · rw [ht, State.queueString_arrival, hsched]
      · have hc : u.causeAdmitted .lockoutEnforce = .lockoutEnforce := if_neg (by rw [hua, ha]; decide)
        refine ⟨by rw [hcause, hc], fun hn' => ?_⟩
        obtain ⟨hr, hm⟩ := State.queueString_waits (c := .lockoutEnforce) hul hn (by rw [hus]; exact hp) (by rw [hscan]; exact hn')
        obtain ⟨b, hb⟩ := u.queuedRecord_eq .lockoutEnforce (u.str n)
        rw [State.entryFor, hc, hscan, hsched] at hm
        rw [ht]
        exact ⟨by rw [hr, hb], hm⟩
      · rw [hcause, State.causeAdmitted, if_pos (by rw [hua, ha])]

end

end Sys2Proof.Machine
end

