-- ==== Sys2Proof/Proofs/BoxConfig.lean ====
section
/-! BOX_CONFIG (O38): the fields taken, and the effects of an accepted message one after the other. -/

namespace Sys2Proof.Machine

section
variable {s : State} {n : Nat}

/-! ## The fields (R181) -/

theorem clampNat_eq {lo hi : Nat} (h : lo ≤ hi) (x : Nat) : clampNat lo hi x = max lo (min hi x) := by
  unfold clampNat
  split
  · omega
  · split <;> omega

theorem sourceOfCode_eq_some (b : Byte) (x : RoundSource) :
    sourceOfCode b = some x ↔ (b = 0#8 ∨ b = 1#8) ∧ x = if b = 0#8 then .internal else .follow := by
  unfold sourceOfCode
  by_cases h0 : b = 0#8
  · simp [h0, eq_comm]
  · by_cases h1 : b = 1#8
    · simp [h1, eq_comm]
    · simp [h0, h1]

/-- A field of a BOX_CONFIG within a range. -/
def Word16.Inside (lo hi : Nat) (w : Word16) : Prop := lo ≤ w.toNat ∧ w.toNat ≤ hi

/-- R181: the fields of the refused kind are in their ranges. -/
def BoxConfigInRange (m : BoxConfigMsg) : Prop :=
  (m.source = 0#8 ∨ m.source = 1#8) ∧ Word16.Inside 20 300 m.daylightFloor ∧ Word16.Inside 10 1000 m.nightRounds ∧
    Word16.Inside 20 2000 m.reverseLimit ∧ Word16.Inside 1050 1500 m.overLimit ∧ Word16.Inside 10 300 m.coldLimit ∧
    Word16.Inside 20 400 m.hMax ∧ m.hResume.toNat + 10 ≤ m.hMax.toNat ∧ (m.escalation = 0#8 ∨ m.escalation = 1#8) ∧
    Word16.Inside 0 1000 m.closeMargin ∧ 1 ≤ m.attemptLimit.toNat ∧ m.attemptLimit.toNat ≤ 20 ∧ m.perDayMax.toNat ≤ 3 ∧
    Word16.Inside 0 3600 m.recurrence

/-- The settings that an accepted BOX_CONFIG makes. -/
def boxSettingsFrom (m : BoxConfigMsg) : BoxSettings where
  dayPeriod := clampNat 200 5000 m.dayPeriod.toNat
  nightPeriod := clampNat 10 120 m.nightPeriod.toNat
  source := if m.source = 0#8 then .internal else .follow
  averaging := averagingOf m.averaging.toNat
  daylightFloor := m.daylightFloor.toNat
  nightRounds := m.nightRounds.toNat
  reverseLimit := m.reverseLimit.toNat
  overLimit := m.overLimit.toNat
  coldLimit := m.coldLimit.toNat
  quenchTimeout := clampNat 1 50 m.quenchTimeout.toNat
  hMax := m.hMax.toNat
  hResume := m.hResume.toNat
  escalation := decide (m.escalation = 1#8)
  contactTimeout := clampNat 20 500 m.contactTimeout.toNat
  settle := clampNat 100 2000 m.settle.toNat
  nearEarth := clampNat 50 1000 m.nearEarth.toNat
  closeMargin := m.closeMargin.toNat
  attemptLimit := m.attemptLimit.toNat
  perDayMax := m.perDayMax.toNat
  recurrence := m.recurrence.toNat
  longWindow := clampNat 10 600 m.longWindow.toNat
  closedWindow := clampNat 0 60 m.closedWindow.toNat
  openWindow := clampNat 1 120 m.openWindow.toNat

theorem inRange_some {lo hi x : Nat} (h : lo ≤ x ∧ x ≤ hi) : inRange lo hi x = some x := if_pos h

theorem boxSettingsOf_inRange {m : BoxConfigMsg} (h : BoxConfigInRange m) : boxSettingsOf m = some (boxSettingsFrom m) := by
  obtain ⟨hs, hd, hn, hr, ho, hc, hm, hh, he, hg, ha, ha', hp, hw⟩ := h
  have h8 : inRange 0 (m.hMax.toNat - 10) m.hResume.toNat = some m.hResume.toNat := inRange_some (by omega)
  unfold boxSettingsOf
  rw [(sourceOfCode_eq_some _ _).2 ⟨hs, rfl⟩, inRange_some hd, inRange_some hn, inRange_some hr, inRange_some ho,
    inRange_some hc, inRange_some hm, (boolOfCode_eq_some _ _).2 ⟨he, rfl⟩, inRange_some hg, inRange_some ⟨ha, ha'⟩,
    inRange_some ⟨Nat.zero_le _, hp⟩, inRange_some hw]
  simp only [Option.bind_eq_bind, Option.bind_some]
  rw [h8]
  rfl

theorem inRange_of_boxSettingsOf {m : BoxConfigMsg} {b : BoxSettings} (h : boxSettingsOf m = some b) : BoxConfigInRange m := by
  obtain ⟨_, hs, h⟩ := Option.bind_eq_some_iff.1 h
  obtain ⟨_, hd, h⟩ := Option.bind_eq_some_iff.1 h
  obtain ⟨_, hn, h⟩ := Option.bind_eq_some_iff.1 h
  obtain ⟨_, hr, h⟩ := Option.bind_eq_some_iff.1 h
  obtain ⟨_, ho, h⟩ := Option.bind_eq_some_iff.1 h
  obtain ⟨_, hc, h⟩ := Option.bind_eq_some_iff.1 h
  obtain ⟨_, hm, h⟩ := Option.bind_eq_some_iff.1 h
  obtain ⟨_, hh, h⟩ := Option.bind_eq_some_iff.1 h
  obtain ⟨_, he, h⟩ := Option.bind_eq_some_iff.1 h
  obtain ⟨_, hg, h⟩ := Option.bind_eq_some_iff.1 h
  obtain ⟨_, ha, h⟩ := Option.bind_eq_some_iff.1 h
  obtain ⟨_, hp, h⟩ := Option.bind_eq_some_iff.1 h
  obtain ⟨_, hw, -⟩ := Option.bind_eq_some_iff.1 h
  rw [inRange_eq_some] at hd hn hr ho hc hm hh hg ha hp hw
  obtain ⟨hm, rfl⟩ := hm
  exact ⟨((sourceOfCode_eq_some _ _).1 hs).1, hd.1, hn.1, hr.1, ho.1, hc.1, hm, by have := hh.1; omega,
    ((boolOfCode_eq_some _ _).1 he).1, hg.1, ha.1.1, ha.1.2, hp.1.2, hw.1⟩

/-- R181: the averaging factor is rounded down to a power of two. -/
theorem averagingOf_spec (x : Nat) : averagingOf x ∈ [1, 2, 4, 8] ∧ (averagingOf x ≤ x ∨ x = 0 ∧ averagingOf x = 1) ∧
    (x < 2 * averagingOf x ∨ averagingOf x = 8) := by
  unfold averagingOf
  split
  · simp; omega
  · split
    · simp; omega
    · split
      · simp; omega
      · simp; omega

/-! ## The round source (R23 to R26) -/

/-- R26: the round source state after the settings are taken. -/
def State.sourceUnder (s : State) (b : BoxSettings) : SourceState :=
  match s.box.source, b.source with
  | .internal, .follow => .following
  | .follow, .internal => .timed
  | _, _ => s.scan.source

/-- The round period under given settings. -/
def State.periodUnder (s : State) (b : BoxSettings) : Nat :=
  if s.peer.night = true then b.nightPeriod * 1000 else b.dayPeriod

/-- R23 to R26: a changed source or period lets a moment that has passed start a round. -/
def State.BeginsUnder (s : State) (b : BoxSettings) : Prop :=
  (s.periodUnder b ≠ s.periodUnder s.box ∨ b.source ≠ s.box.source) ∧ s.scan.round = none ∧
    s.scan.lastStart + (if s.sourceUnder b = .following then 2 * s.periodUnder b else s.periodUnder b) ≤ s.part.now

/-- The state with the settings and the round source taken. -/
def State.sourced (s : State) (b : BoxSettings) : State :=
  (s.setBox b).setScan { s.scan with source := s.sourceUnder b }

theorem State.takeSource_eq (s : State) (b : BoxSettings) : (s.setBox b).takeSource s.box.source = s.sourced b := by
  unfold State.takeSource State.sourced State.sourceUnder
  simp only [State.setBox_box]
  cases s.box.source <;> cases b.source <;> rfl

theorem State.startRound_eq (h : s.scan.round = none) : s.startRound = s.setScan { s.scan with
    round := some ⟨if s.scan.pendingCapture then 8 else s.box.averaging, 0, s.scan.pendingCapture, channelsOf s.strings, 0, []⟩
    lastStart := s.part.now, pendingCapture := false } := by
  unfold State.startRound
  simp only [h]

theorem State.recheckSource_holds (h : ¬(s.scan.round = none ∧
    s.scan.lastStart + (if s.scan.source = .following then 2 * s.period else s.period) ≤ s.part.now)) :
    s.recheckSource = s := by
  unfold State.recheckSource
  split
  · rfl
  · next hr =>
    have hr : s.scan.round = none := by simpa using hr
    split
    · next hs => exact if_neg fun hl => h ⟨hr, by simpa [hs] using hl⟩
    · next hs => exact if_neg fun hl => h ⟨hr, by simpa [hs] using hl⟩
    · next hs => exact if_neg fun hl => h ⟨hr, by simpa [hs] using hl⟩

theorem State.recheckSource_starts (h : s.scan.round = none)
    (hl : s.scan.lastStart + (if s.scan.source = .following then 2 * s.period else s.period) ≤ s.part.now) :
    s.recheckSource = if s.scan.source = .following then s.enterFallback else s.startRound := by
  unfold State.recheckSource
  rw [if_neg (by simp [h])]
  split
  · next hs => rw [hs]; exact if_pos (by simpa [hs] using hl)
  · next hs => rw [hs]; exact if_pos (by simpa [hs] using hl)
  · next hs => rw [hs]; exact if_pos (by simpa [hs] using hl)

theorem State.newSource_holds {b : BoxSettings} (h : ¬s.BeginsUnder b) : s.newSource b = s.sourced b := by
  unfold State.newSource
  simp only [State.takeSource_eq]
  split
  · rfl
  · next hc =>
    have hc : s.periodUnder b ≠ s.periodUnder s.box ∨ b.source ≠ s.box.source := not_and_or.1 hc
    exact State.recheckSource_holds fun hr => h ⟨hc, hr⟩

theorem State.raise_setScan (s : State) (i : Item) (x : ScanUnit) : (s.raise i).setScan x = (s.setScan x).raise i := by
  unfold State.raise
  by_cases h : i ∈ s.attention
  · rw [if_pos h, if_pos (show i ∈ (s.setScan x).attention from h)]
  · rw [if_neg h, if_neg (show i ∉ (s.setScan x).attention from h)]; rfl

/-- The state with the settings taken and a round begun. -/
def State.begunUnder (s : State) (b : BoxSettings) : State := (s.setBox b).setScan { s.scan with
  source := if s.sourceUnder b = .following then .fallback else s.sourceUnder b
  round := some ⟨if s.scan.pendingCapture then 8 else b.averaging, 0, s.scan.pendingCapture, channelsOf s.strings, 0, []⟩
  lastStart := s.part.now, pendingCapture := false }

theorem State.newSource_begins {b : BoxSettings} (h : s.BeginsUnder b) : s.newSource b =
    if s.sourceUnder b = .following then (s.begunUnder b).raise (.box .syncLost) else s.begunUnder b := by
  obtain ⟨hc, hr, hl⟩ := h
  have hnew : s.newSource b = (s.sourced b).recheckSource := by
    unfold State.newSource
    simp only [State.takeSource_eq]
    refine if_neg fun ⟨h1, h2⟩ => ?_
    exact hc.elim (fun h => h h1) (fun h => h h2)
  rw [hnew, State.recheckSource_starts (s := s.sourced b) hr hl]
  by_cases hf : s.sourceUnder b = .following
  · refine (if_pos hf).trans ?_
    rw [if_pos hf]
    unfold State.enterFallback
    rw [State.startRound_eq (by simpa [State.sourced] using hr)]
    simp only [State.raiseBox_eq, State.raise_setScan]
    unfold State.begunUnder
    rw [if_pos hf]
    simp only [State.raise_scan, State.raise_box, State.raise_strings, State.raise_part]
    rfl
  · refine (if_neg hf).trans ?_
    rw [if_neg hf, State.startRound_eq (s := s.sourced b) hr]
    unfold State.begunUnder
    rw [if_neg hf]
    rfl

/-! ## The cell and the windows (R89, R161) -/

/-- R89: whether the new limits cool a HOT cell, or heat an IDLE one. -/
def Cell.CoolsUnder (x : Cell) (b : BoxSettings) : Prop := x.stage = .hot ∧ x.heat ≤ b.hResume

def Cell.HeatsUnder (x : Cell) (b : BoxSettings) : Prop := x.stage = .idle ∧ b.hMax < x.heat

theorem State.testHeat_cools (hq : s.sched.queue = []) (h : s.cell.CoolsUnder s.box) :
    s.testHeat = s.setCell { s.cell with stage := .idle, served := none, releasing := false } := by
  unfold State.testHeat
  rw [h.1]
  exact (if_pos h).trans (State.cellIdle_idle hq)

theorem State.testHeat_heats (hq : s.sched.queue = []) (h : s.cell.HeatsUnder s.box) :
    s.testHeat = (s.setCell { s.cell with stage := .hot, served := none, releasing := false }).raise (.box .cellHot) := by
  unfold State.testHeat
  rw [h.1]
  exact (if_pos h.2).trans (State.cellHot_idle hq)

theorem State.testHeat_holds (h1 : ¬s.cell.CoolsUnder s.box) (h2 : ¬s.cell.HeatsUnder s.box) : s.testHeat = s := by
  unfold State.testHeat
  cases hs : s.cell.stage with
  | hot => exact if_neg h1
  | idle => exact if_neg fun h => h2 ⟨hs, h⟩
  | attaching => rfl
  | conducting => rfl
  | quenching => rfl
  | detaching => rfl
  | resting => rfl
  | faulted => rfl

theorem State.testHeat_walked (s : State) : Walked s s.testHeat := by
  unfold State.testHeat
  split
  · unfold State.cellCooled
    split
    · exact s.cellIdle_walked
    · exact .refl s
  · split
    · exact s.cellHot_walked
    · exact .refl s
  · exact .refl s
  · exact .refl s
  · exact .refl s
  · exact .refl s
  · exact .refl s
  · exact .refl s

/-- R161: whether the windows now in force, changed from those of `old`, have run out. -/
def State.LapsesFrom (s : State) (old : BoxSettings) : Prop :=
  s.supervision.state = .waiting ∧ s.box.longWindow ≠ old.longWindow ∧
      s.supervision.longStart + s.box.longWindow * 1000 ≤ s.part.now ∨
    s.supervision.state = .supervised ∧ (s.box.closedWindow ≠ old.closedWindow ∨ s.box.openWindow ≠ old.openWindow) ∧
      s.supervision.lastBeat + (s.box.closedWindow + s.box.openWindow) * 1000 ≤ s.part.now

theorem State.recheckWindows_lapses {old : BoxSettings} (h : s.LapsesFrom old) : s.recheckWindows old = s.lapse := by
  unfold State.recheckWindows
  rcases h with ⟨hs, h⟩ | ⟨hs, h⟩ <;> rw [hs] <;> exact if_pos h

theorem State.recheckWindows_holds {old : BoxSettings} (h : ¬s.LapsesFrom old) : s.recheckWindows old = s := by
  unfold State.recheckWindows
  cases hs : s.supervision.state with
  | waiting => exact if_neg fun hw => h (.inl ⟨hs, hw⟩)
  | supervised => exact if_neg fun hw => h (.inr ⟨hs, hw⟩)
  | lapsed => rfl

theorem State.lapse_within (s : State) : Within [.supervision, .attention, .probe] s s.lapse :=
  (((s.setSupervision_within _).mono (by simp)).trans ((State.raise_within _ _).mono (by simp))).trans
    ((State.withdrawAllPreClose_within _).mono (by simp))

theorem State.withdrawAllPreClose_list (s : State) :
    s.withdrawAllPreClose.probe.list = s.probe.list.filter fun e => e.purpose != .preClose := by
  unfold State.withdrawAllPreClose
  simp only
  split
  · split <;> rfl
  · rfl

/-- R159, R160: what a supervision lapse leaves. -/
theorem State.lapse_supervision (s : State) : s.lapse.supervision = { s.supervision with state := .lapsed } := by
  unfold State.lapse
  rw [(State.withdrawAllPreClose_within _) .supervision (by decide)]
  simp

theorem State.lapse_list (s : State) : s.lapse.probe.list = s.probe.list.filter fun e => e.purpose == .diagnose := by
  unfold State.lapse
  rw [State.withdrawAllPreClose_list]
  simp only [State.raiseBox_eq, State.raise_probe, State.setSupervision_probe]
  refine List.filter_congr fun e _ => ?_
  cases e.purpose <;> rfl

theorem State.mem_lapse (s : State) (i : Item) : i ∈ s.lapse.attention ↔ i ∈ s.attention ∨ i = .box .supervisionLapsed := by
  unfold State.lapse
  rw [(State.withdrawAllPreClose_within _) .attention (by decide), State.raiseBox_eq, State.mem_raise]
  rfl

/-! ## The effects of an accepted message -/

theorem State.newSource_within (s : State) (b : BoxSettings) : Within [.box, .scan, .attention] s (s.newSource b) := by
  have begun : Within [.box, .scan, .attention] s (s.begunUnder b) :=
    ((s.setBox_within _).mono (by simp)).trans ((State.setScan_within _ _).mono (by simp))
  by_cases h : s.BeginsUnder b
  · rw [State.newSource_begins h]
    exact Within.ite (begun.trans ((State.raise_within _ _).mono (by simp))) begun
  · rw [State.newSource_holds h]
    exact ((s.setBox_within _).mono (by simp)).trans ((State.setScan_within _ _).mono (by simp))

theorem State.newSource_box (s : State) (b : BoxSettings) : (s.newSource b).box = b := by
  by_cases h : s.BeginsUnder b
  · rw [State.newSource_begins h]
    split
    · rw [State.raise_box]; rfl
    · rfl
  · rw [State.newSource_holds h]; rfl

theorem State.capBudgets_str (s : State) (n : Nat) : (s.capBudgets.str n).budget = min (s.str n).budget s.box.perDayMax ∧
    (s.capBudgets.str n).cfg = (s.str n).cfg := by
  cases hx : getNum s.strings n with
  | none => simp [State.str, State.capBudgets, State.updAll, getNum_map, hx, StringRec.blank]
  | some r => simp [State.str, State.capBudgets, State.updAll, getNum_map, hx]

theorem State.recheckWindows_within (s : State) (old : BoxSettings) :
    Within [.supervision, .attention, .probe] s (s.recheckWindows old) := by
  by_cases h : s.LapsesFrom old
  · rw [State.recheckWindows_lapses h]; exact s.lapse_within
  · rw [State.recheckWindows_holds h]; exact Within.refl _ s

/-- The state after the settings, the source, the budgets and the cell. -/
def State.boxTaken (s : State) (b : BoxSettings) : State := (s.newSource b).capBudgets.testHeat

theorem State.boxTaken_within (s : State) (b : BoxSettings) : Within (.box :: .scan :: breakPath) s (s.boxTaken b) :=
  (((s.newSource_within b).mono (by decide)).trans ((State.setStrings_within _ _).mono (by decide))).trans
    ((s.newSource b).capBudgets.testHeat_walked.within.mono (by decide))

theorem State.boxTaken_box (s : State) (b : BoxSettings) : (s.boxTaken b).box = b :=
  ((s.newSource b).capBudgets.testHeat_walked.within .box (by decide)).trans (s.newSource_box b)

/-- The state before the mark of a changed configuration. -/
def State.boxApplied (s : State) (b : BoxSettings) : State := ((s.boxTaken b).recheckWindows s.box).walk

theorem State.boxApplied_within (s : State) (b : BoxSettings) :
    Within (.box :: .scan :: .supervision :: breakPath) s (s.boxApplied b) :=
  (((s.boxTaken_within b).mono (by decide)).trans ((State.recheckWindows_within _ s.box).mono (by decide))).trans
    ((State.walk_within _).mono (by decide))

theorem State.boxApplied_box (s : State) (b : BoxSettings) : (s.boxApplied b).box = b := by
  unfold State.boxApplied
  rw [State.walk_within _ .box (by decide), State.recheckWindows_within _ _ .box (by decide), State.boxTaken_box]

/-- R6: every budget is lowered to the new maximum, and no other setting of a string is changed. -/
theorem State.boxApplied_str (s : State) (b : BoxSettings) (n : Nat) :
    ((s.boxApplied b).str n).budget = min (s.str n).budget b.perDayMax ∧ ((s.boxApplied b).str n).cfg = (s.str n).cfg := by
  obtain ⟨_, _, _, hw⟩ := (State.walk_walked ((s.boxTaken b).recheckWindows s.box)).strings.2 n
  obtain ⟨_, _, _, hh⟩ := (s.newSource b).capBudgets.testHeat_walked.strings.2 n
  have he : ((s.boxTaken b).recheckWindows s.box).str n = (s.boxTaken b).str n :=
    State.str_congr (State.recheckWindows_within _ _ .strings (by decide)) n
  have hn : (s.newSource b).str n = s.str n := State.str_congr (s.newSource_within b .strings (by decide)) n
  obtain ⟨hb, hc⟩ := (s.newSource b).capBudgets_str n
  rw [State.newSource_box, hn] at hb
  rw [hn] at hc
  unfold State.boxApplied
  rw [hw, he, State.boxTaken, hh]
  exact ⟨hb, hc⟩

/-! ## With no entry waiting -/

section
variable {b : BoxSettings}

theorem State.capped_queue (hq : s.sched.queue = []) : (s.newSource b).capBudgets.sched.queue = [] := by
  have h : (s.newSource b).sched = s.sched := s.newSource_within b .sched (by decide)
  show (s.newSource b).sched.queue = []
  rw [h, hq]

theorem State.capped_cell (s : State) (b : BoxSettings) : (s.newSource b).capBudgets.cell = s.cell :=
  s.newSource_within b .cell (by decide)

theorem State.capped_box (s : State) (b : BoxSettings) : (s.newSource b).capBudgets.box = b := s.newSource_box b

theorem State.boxTaken_idle (hq : s.sched.queue = []) :
    Within [.cell, .attention] (s.newSource b).capBudgets (s.boxTaken b) := by
  unfold State.boxTaken
  by_cases h1 : (s.newSource b).capBudgets.cell.CoolsUnder (s.newSource b).capBudgets.box
  · rw [State.testHeat_cools (State.capped_queue hq) h1]
    exact (State.setCell_within _ _).mono (by simp)
  · by_cases h2 : (s.newSource b).capBudgets.cell.HeatsUnder (s.newSource b).capBudgets.box
    · rw [State.testHeat_heats (State.capped_queue hq) h2]
      exact ((State.setCell_within _ _).mono (by simp)).trans ((State.raise_within _ _).mono (by simp))
    · rw [State.testHeat_holds h1 h2]
      exact Within.refl _ _

theorem State.boxApplied_idle (hq : s.sched.queue = []) : s.boxApplied b = (s.boxTaken b).recheckWindows s.box := by
  refine State.walk_empty _ ?_
  rw [State.recheckWindows_within _ _ .sched (by decide), State.boxTaken_idle hq .sched (by decide)]
  exact State.capped_queue hq

/-- The blocks that an accepted BOX_CONFIG changes while no entry waits. -/
theorem State.boxApplied_idle_within (hq : s.sched.queue = []) :
    Within [.box, .scan, .cell, .supervision, .strings, .probe, .attention] s (s.boxApplied b) := by
  rw [State.boxApplied_idle hq]
  exact ((((s.newSource_within b).mono (by decide)).trans ((State.setStrings_within _ _).mono (by decide))).trans
    ((State.boxTaken_idle hq).mono (by decide))).trans ((State.recheckWindows_within _ _).mono (by decide))

theorem State.boxApplied_strings (hq : s.sched.queue = []) : (s.boxApplied b).strings =
    s.strings.map fun r => { r with budget := min r.budget b.perDayMax } := by
  rw [State.boxApplied_idle hq, State.recheckWindows_within _ _ .strings (by decide),
    State.boxTaken_idle hq .strings (by decide)]
  show (s.newSource b).strings.map (fun r => { r with budget := min r.budget (s.newSource b).box.perDayMax }) = _
  rw [State.newSource_box, s.newSource_within b .strings (by decide)]

theorem State.boxApplied_scan (hq : s.sched.queue = []) : (s.boxApplied b).scan = (s.newSource b).scan := by
  rw [State.boxApplied_idle hq, State.recheckWindows_within _ _ .scan (by decide), State.boxTaken_idle hq .scan (by decide)]
  rfl

theorem State.boxApplied_cell (hq : s.sched.queue = []) : (s.boxApplied b).cell = (s.boxTaken b).cell := by
  rw [State.boxApplied_idle hq, State.recheckWindows_within _ _ .cell (by decide)]

theorem State.boxTaken_lapses (s : State) (b : BoxSettings) : (s.boxTaken b).LapsesFrom s.box ↔
    s.supervision.state = .waiting ∧ b.longWindow ≠ s.box.longWindow ∧
        s.supervision.longStart + b.longWindow * 1000 ≤ s.part.now ∨
      s.supervision.state = .supervised ∧ (b.closedWindow ≠ s.box.closedWindow ∨ b.openWindow ≠ s.box.openWindow) ∧
        s.supervision.lastBeat + (b.closedWindow + b.openWindow) * 1000 ≤ s.part.now := by
  unfold State.LapsesFrom
  rw [State.boxTaken_box, s.boxTaken_within b .supervision (by decide), s.boxTaken_within b .part (by decide)]

theorem State.mem_newSource (i : Item) : i ∈ (s.newSource b).attention ↔
    i ∈ s.attention ∨ (i = .box .syncLost ∧ s.BeginsUnder b ∧ s.sourceUnder b = .following) := by
  by_cases h : s.BeginsUnder b
  · rw [State.newSource_begins h]
    by_cases hf : s.sourceUnder b = .following
    · rw [if_pos hf, State.mem_raise]
      simp [h, hf, State.begunUnder]
    · rw [if_neg hf]
      simp [h, hf, State.begunUnder]
  · rw [State.newSource_holds h]
    simp [h, State.sourced]

theorem State.mem_boxTaken (hq : s.sched.queue = []) (i : Item) : i ∈ (s.boxTaken b).attention ↔
    i ∈ (s.newSource b).attention ∨ (i = .box .cellHot ∧ s.cell.HeatsUnder b) := by
  have hc : (s.newSource b).capBudgets.cell.HeatsUnder (s.newSource b).capBudgets.box ↔ s.cell.HeatsUnder b := by
    rw [State.capped_cell, State.capped_box]
  rw [← hc]
  unfold State.boxTaken
  by_cases h1 : (s.newSource b).capBudgets.cell.CoolsUnder (s.newSource b).capBudgets.box
  · rw [State.testHeat_cools (State.capped_queue hq) h1]
    have h2 : ¬(s.newSource b).capBudgets.cell.HeatsUnder (s.newSource b).capBudgets.box := fun h =>
      absurd (h1.1.symm.trans h.1) (by decide)
    simp only [h2, and_false, or_false]
    exact Iff.rfl
  · by_cases h2 : (s.newSource b).capBudgets.cell.HeatsUnder (s.newSource b).capBudgets.box
    · rw [State.testHeat_heats (State.capped_queue hq) h2, State.mem_raise]
      simp only [h2, and_true]
      exact Iff.rfl
    · rw [State.testHeat_holds h1 h2]
      simp only [h2, and_false, or_false]
      exact Iff.rfl

theorem State.boxTaken_cell_cools (hq : s.sched.queue = []) (h : s.cell.CoolsUnder b) :
    (s.boxTaken b).cell = { s.cell with stage := .idle, served := none, releasing := false } := by
  unfold State.boxTaken
  rw [State.testHeat_cools (State.capped_queue hq) (by rw [State.capped_cell, State.capped_box]; exact h), State.capped_cell]
  rfl

theorem State.boxTaken_cell_heats (hq : s.sched.queue = []) (h : s.cell.HeatsUnder b) :
    (s.boxTaken b).cell = { s.cell with stage := .hot, served := none, releasing := false } := by
  unfold State.boxTaken
  rw [State.testHeat_heats (State.capped_queue hq) (by rw [State.capped_cell, State.capped_box]; exact h), State.raise_cell,
    State.capped_cell]
  rfl

theorem State.boxTaken_cell_holds (h1 : ¬s.cell.CoolsUnder b) (h2 : ¬s.cell.HeatsUnder b) : (s.boxTaken b).cell = s.cell := by
  unfold State.boxTaken
  rw [State.testHeat_holds (by rwa [State.capped_cell, State.capped_box]) (by rwa [State.capped_cell, State.capped_box]),
    State.capped_cell]

/-- R161: whether the new windows have run out. -/
def State.LapsesUnder (s : State) (b : BoxSettings) : Prop :=
  s.supervision.state = .waiting ∧ b.longWindow ≠ s.box.longWindow ∧
      s.supervision.longStart + b.longWindow * 1000 ≤ s.part.now ∨
    s.supervision.state = .supervised ∧ (b.closedWindow ≠ s.box.closedWindow ∨ b.openWindow ≠ s.box.openWindow) ∧
      s.supervision.lastBeat + (b.closedWindow + b.openWindow) * 1000 ≤ s.part.now

theorem State.frame_of_within {t : State} (hb : t.box = b)
    (h : Within [.box, .scan, .cell, .supervision, .strings, .probe, .attention, .store] s t) : t = { s with
      box := b, scan := t.scan, cell := t.cell, supervision := t.supervision, strings := t.strings, probe := t.probe
      attention := t.attention, store := t.store } := by
  rw [← hb, ← h .part (by decide), ← h .mode (by decide), ← h .link (by decide), ← h .peer (by decide),
    ← h .lockouts (by decide), ← h .sched (by decide), ← h .isolator (by decide), ← h .shutdown (by decide),
    ← h .free (by decide), ← h .pending (by decide)]

theorem State.configureBox_frame (hq : s.sched.queue = []) : s.configureBox b = { s with
    box := b, scan := (s.configureBox b).scan, cell := (s.configureBox b).cell
    supervision := (s.configureBox b).supervision, strings := (s.configureBox b).strings, probe := (s.configureBox b).probe
    attention := (s.configureBox b).attention, store := (s.configureBox b).store } :=
  State.frame_of_within (s.boxApplied_box b)
    (((s.boxApplied_idle_within hq).mono (by decide)).trans ((State.setStore_within _ _).mono (by decide)))

theorem State.configureBox_strings (hq : s.sched.queue = []) {r : StringRec} (hr : getNum s.strings n = some r) :
    getNum (s.configureBox b).strings n = some { r with budget := min r.budget b.perDayMax } := by
  show getNum (s.boxApplied b).strings n = _
  rw [State.boxApplied_strings hq, getNum_map, hr]
  rfl

theorem State.configureBox_scan_holds (hq : s.sched.queue = []) (h : ¬s.BeginsUnder b) :
    (s.configureBox b).scan = { s.scan with source := s.sourceUnder b } := by
  refine (State.boxApplied_scan hq).trans ?_
  rw [State.newSource_holds h]
  rfl

theorem State.configureBox_scan_begins (hq : s.sched.queue = []) (h : s.BeginsUnder b) :
    (s.configureBox b).scan = (s.begunUnder b).scan := by
  refine (State.boxApplied_scan hq).trans ?_
  rw [State.newSource_begins h]
  split
  · rw [State.raise_scan]
  · rfl

theorem State.configureBox_cell_cools (hq : s.sched.queue = []) (h : s.cell.CoolsUnder b) :
    (s.configureBox b).cell = { s.cell with stage := .idle, served := none, releasing := false } :=
  (State.boxApplied_cell hq).trans (State.boxTaken_cell_cools hq h)

theorem State.configureBox_cell_heats (hq : s.sched.queue = []) (h : s.cell.HeatsUnder b) :
    (s.configureBox b).cell = { s.cell with stage := .hot, served := none, releasing := false } :=
  (State.boxApplied_cell hq).trans (State.boxTaken_cell_heats hq h)

theorem State.configureBox_cell_holds (hq : s.sched.queue = []) (h1 : ¬s.cell.CoolsUnder b) (h2 : ¬s.cell.HeatsUnder b) :
    (s.configureBox b).cell = s.cell :=
  (State.boxApplied_cell hq).trans (State.boxTaken_cell_holds h1 h2)

theorem State.configureBox_stays (hq : s.sched.queue = []) (h : ¬s.LapsesUnder b) :
    (s.configureBox b).supervision = s.supervision ∧ (s.configureBox b).probe = s.probe := by
  have hrest : s.boxApplied b = s.boxTaken b := by
    rw [State.boxApplied_idle hq, State.recheckWindows_holds (mt (s.boxTaken_lapses b).1 h)]
  constructor
  · show (s.boxApplied b).supervision = _
    rw [hrest, s.boxTaken_within b .supervision (by decide)]
  · show (s.boxApplied b).probe = _
    rw [hrest, State.boxTaken_idle hq .probe (by decide)]
    exact s.newSource_within b .probe (by decide)

theorem State.configureBox_lapses (hq : s.sched.queue = []) (h : s.LapsesUnder b) :
    (s.configureBox b).supervision = { s.supervision with state := .lapsed } ∧
      (s.configureBox b).probe.list = s.probe.list.filter fun e => e.purpose == .diagnose := by
  have hrest : s.boxApplied b = (s.boxTaken b).lapse := by
    rw [State.boxApplied_idle hq, State.recheckWindows_lapses ((s.boxTaken_lapses b).2 h)]
  constructor
  · show (s.boxApplied b).supervision = _
    rw [hrest, State.lapse_supervision, s.boxTaken_within b .supervision (by decide)]
  · show (s.boxApplied b).probe.list = _
    rw [hrest, State.lapse_list, State.boxTaken_idle hq .probe (by decide)]
    show List.filter _ (s.newSource b).probe.list = _
    rw [s.newSource_within b .probe (by decide)]

theorem State.mem_configureBox (hq : s.sched.queue = []) (i : Item) : i ∈ (s.configureBox b).attention ↔
    i ∈ s.attention ∨ (i = .box .syncLost ∧ s.BeginsUnder b ∧ s.sourceUnder b = .following) ∨
      (i = .box .cellHot ∧ s.cell.HeatsUnder b) ∨ (i = .box .supervisionLapsed ∧ s.LapsesUnder b) := by
  show i ∈ (s.boxApplied b).attention ↔ _
  have hlapse : (s.boxTaken b).LapsesFrom s.box ↔ s.LapsesUnder b := s.boxTaken_lapses b
  rw [State.boxApplied_idle hq]
  by_cases h : s.LapsesUnder b
  · rw [State.recheckWindows_lapses (hlapse.2 h), State.mem_lapse, State.mem_boxTaken hq, State.mem_newSource]
    simp only [h, and_true, or_assoc]
  · rw [State.recheckWindows_holds (mt hlapse.1 h), State.mem_boxTaken hq, State.mem_newSource]
    simp only [h, and_false, or_false, or_assoc]

end

/-- Settles O38: the fields' ranges, then the effects of the accepted record block by block, none of which the empty
queue adds to. -/
theorem boxConfigClampsOrRefuses : Obligations.BoxConfigClampsOrRefuses := by
  unfold Obligations.BoxConfigClampsOrRefuses
  intro s m hlis inside good
  have hans : exec (.boxConfig m) s = .next ((s.reqBoxConfig m).1.sendReply Kind.boxConfig.code (s.reqBoxConfig m).2) :=
    congrArg Host.Outcome.next (State.answer_listening hlis _ _)
  refine ⟨fun hm => ?_, fun hm hg => ?_, fun hm hg => ?_⟩
  · rw [hans, State.reqBoxConfig, if_pos hm]
    rfl
  · have hb : boxSettingsOf m = none := by
      rw [Option.eq_none_iff_forall_ne_some]
      exact fun b hb => hg (inRange_of_boxSettingsOf hb)
    rw [hans, State.reqBoxConfig, if_neg (by rw [hm]; decide), hb]
    rfl
  · let b := boxSettingsFrom m
    let t := s.configureBox b
    obtain ⟨ha1, ha2, ha3⟩ := averagingOf_spec m.averaging.toNat
    have hsource : b.source = if m.source = 0#8 then .internal else .follow := rfl
    refine ⟨t, b, ?_, s.boxApplied_box b, ?_, s.boxApplied_within b .lockouts (by decide), s.boxApplied_str b,
      clampNat_eq (by decide) _, clampNat_eq (by decide) _, ha1, ?_, ha3, clampNat_eq (by decide) _, clampNat_eq (by decide) _,
      clampNat_eq (by decide) _, clampNat_eq (by decide) _, clampNat_eq (by decide) _,
      (clampNat_eq (by decide) _).trans (Nat.max_eq_right (Nat.zero_le _)), clampNat_eq (by decide) _, hsource,
      rfl, rfl, rfl, rfl, rfl, rfl, rfl, rfl, rfl, rfl, rfl, rfl, fun hq => ?_⟩
    · rw [hans, State.reqBoxConfig, if_neg (by rw [hm]; decide), boxSettingsOf_inRange hg]
      rfl
    · show { (s.boxApplied b).store with changed := true } = _
      rw [s.boxApplied_within b .store (by decide)]
    · exact ha2.imp_right fun ⟨h0, h1⟩ => ⟨BitVec.eq_of_toNat_eq h0, h1⟩
    · intro source period length begins cools heats lapses
      exact ⟨State.configureBox_frame hq, fun n r hr => State.configureBox_strings hq hr, State.configureBox_scan_holds hq,
        State.configureBox_scan_begins hq, State.configureBox_cell_cools hq, State.configureBox_cell_heats hq,
        State.configureBox_cell_holds hq, State.configureBox_stays hq, State.configureBox_lapses hq, State.mem_configureBox hq⟩

end

end Sys2Proof.Machine
end

