-- ==== Sys2Proof/Proofs/StringConfigured.lean ====
section
/-! An accepted STRING_CONFIG (O36): the four changes of a string's standing, and the member counts that follow. -/

namespace Sys2Proof.Machine

section
variable {s : State} {n : Nat} {c : StringSettings}

/-! ## Member counts (R42) -/

/-- A full table lists its records in ascending number. -/
theorem State.strings_eq (h : s.strings.length = 24) : s.strings = Config.stringNumbers.map s.str := by
  refine List.ext_getElem (by rw [h]; rfl) fun i hi _ => ?_
  have hk : Config.stringNumbers = List.range' 1 24 := rfl
  simp [hk, State.str, Nat.add_comm 1, getNum_eq, hi]

theorem State.members_eq (h : s.strings.length = 24) {g : Nat} (hg : g ≠ 0) :
    (s.strings.filter (·.memberOf g)).length =
      (Config.stringNumbers.filter fun k => (s.str k).cfg.used && (s.str k).cfg.group == g).length := by
  rw [State.strings_eq h, List.filter_map, List.length_map]
  refine congrArg List.length (List.filter_congr fun k _ => ?_)
  simp [StringRec.memberOf]
  exact fun _ h => h ▸ hg

theorem State.recount_groups (h : s.strings.length = 24) {g : Nat} {q : GroupRec} (hq : getNum s.peer.groups g = some q) :
    getNum s.recount.peer.groups g = some { q with
      members := (Config.stringNumbers.filter fun k => (s.str k).cfg.used && (s.str k).cfg.group == g).length } := by
  match g with
  | 0 => cases hs : s.peer.groups <;> simp [hs, getNum] at hq
  | g + 1 =>
    rw [← State.members_eq h (Nat.succ_ne_zero g)]
    unfold State.recount
    simp only [State.setPeer_peer, getNum_mapNum, hq, Option.map_some, Nat.add_comm 1 g]

/-! ## The four changes (R19) -/

/-- R19: the string's new standing, before the counts and the mark. -/
def State.restanding (s : State) (n : Nat) (c : StringSettings) : State :=
  match (s.str n).cfg.used, c.used with
  | true, false => s.makeUnused n c
  | false, true => s.makeUsed n c
  | true, true => s.keepUsed n c
  | false, false => s.keepUnused n c

/-- R19: an unused string's record as it is made used, its contact taken. -/
def State.takenUp (s : State) (n : Nat) (c : StringSettings) : State := s.updStr n fun r => { r with
  cfg := c, budget := s.box.perDayMax, tapFault := false, cause := none
  state := match r.position with | .closed => .connected | .opened => .isolated }

theorem State.makeUsed_open (hl : s.strings.length = 24) (hn : stringNumber n = true) (hp : (s.str n).position = .opened) :
    s.makeUsed n c = s.takenUp n c := by
  have h : ((s.takenUp n c).str n).position = .opened := by
    unfold State.takenUp
    rw [State.str_updStr_valid _ hl hn]
    exact hp
  exact if_neg (h.trans_ne (by decide))

theorem State.makeUsed_closed (hl : s.strings.length = 24) (hn : stringNumber n = true) (hp : (s.str n).position = .closed) :
    s.makeUsed n c = ((s.takenUp n c).connect n).shutdownCatch n := by
  have h : ((s.takenUp n c).str n).position = .closed := by
    unfold State.takenUp
    rw [State.str_updStr_valid _ hl hn]
    exact hp
  exact if_pos h

/-- R29: what stays of a used string's record. -/
def StringRec.keptUsed (r : StringRec) (c : StringSettings) : StringRec :=
  let q := { r.enterRun with cfg := c, tapFault := false }
  if r.cfg.input != c.input then { q with offset := 0, sensorFault := false } else q

theorem State.keepUsed_eq (s : State) (n : Nat) (c : StringSettings) : s.keepUsed n c =
    if (s.str n).cfg.input != c.input then (s.updStr n (·.keptUsed c)).dropChannel n else s.updStr n (·.keptUsed c) := by
  have ht : (s.updStr n fun r =>
      let q := { r.enterRun with cfg := c, tapFault := false }
      if (s.str n).cfg.input != c.input then { q with offset := 0, sensorFault := false } else q) =
        s.updStr n (·.keptUsed c) := s.updStr_congr n rfl
  rw [← ht]
  rfl

/-! ## What the new standing leaves -/

/-- R144: a string made used with its contact CLOSED while shutdown is ASSERTED. -/
def State.Caught (s : State) (n : Nat) (c : StringSettings) : Prop :=
  (s.str n).cfg.used = false ∧ c.used = true ∧ (s.str n).position = .closed ∧ s.shutdown.asserted = true

/-- R28: a string made unused or moved to another input. -/
def State.Dropped (s : State) (n : Nat) (c : StringSettings) : Prop :=
  (s.str n).cfg.used = true ∧ (c.used = false ∨ c.input ≠ (s.str n).cfg.input)

/-- The string CONNECTED from its contact, before a shutdown catches it. -/
theorem State.taken_connected_str (hl : s.strings.length = 24) (hn : stringNumber n = true) :
    ((s.takenUp n c).connect n).str n = { (s.str n).zeroCriteria with
      cfg := c, budget := s.box.perDayMax, tapFault := false, cause := none, verdict := none, state := .connected } := by
  unfold State.takenUp State.connect
  rw [State.updStr_updStr, State.str_updStr_valid _ hl hn]
  rfl

theorem State.makeUsed_free (hl : s.strings.length = 24) (hn : stringNumber n = true) (hp : (s.str n).position = .closed)
    (ha : s.shutdown.asserted = false) : s.makeUsed n c = (s.takenUp n c).connect n := by
  rw [State.makeUsed_closed hl hn hp, State.shutdownCatch, if_neg]
  exact ne_true_of_eq_false ha

theorem State.makeUsed_caught (hl : s.strings.length = 24) (hn : stringNumber n = true) (hp : (s.str n).position = .closed)
    (ha : s.shutdown.asserted = true) : s.makeUsed n c = ((s.takenUp n c).connect n).queueString n .shutdown := by
  rw [State.makeUsed_closed hl hn hp]
  exact State.shutdownCatch_connected (by rw [State.taken_connected_str hl hn]) ha

theorem State.makeUnused_within (s : State) (n : Nat) (c : StringSettings) :
    Within (.scan :: breakPath) s (s.makeUnused n c) :=
  (((s.withdraw_within n).mono (by decide)).trans ((State.updStr_within _ n _).mono (by decide))).trans
    ((State.setScan_within _ _).mono (by decide))

theorem State.makeUsed_within (s : State) (n : Nat) (c : StringSettings) : Within breakPath s (s.makeUsed n c) := by
  have hu : Within breakPath s (s.takenUp n c) := (s.updStr_within n _).mono (by decide)
  have hc : Within breakPath (s.takenUp n c) ((s.takenUp n c).connect n) := (State.updStr_within _ n _).mono (by decide)
  have hd : Within breakPath ((s.takenUp n c).connect n) (((s.takenUp n c).connect n).shutdownCatch n) :=
    Within.ite (State.request_within _ n _) (Within.refl _ _)
  exact Within.ite ((hu.trans hc).trans hd) hu

theorem State.keepUsed_within (s : State) (n : Nat) (c : StringSettings) : Within [.scan, .strings] s (s.keepUsed n c) := by
  have hu : Within [.scan, .strings] s (s.updStr n (·.keptUsed c)) := (s.updStr_within n _).mono (by decide)
  rw [State.keepUsed_eq]
  exact Within.ite (hu.trans ((State.setScan_within _ _).mono (by decide))) hu

theorem State.restanding_within (s : State) (n : Nat) (c : StringSettings) :
    Within (.scan :: breakPath) s (s.restanding n c) := by
  unfold State.restanding
  split
  · exact s.makeUnused_within n c
  · exact (s.makeUsed_within n c).mono (by decide)
  · exact (s.keepUsed_within n c).mono (by decide)
  · exact (s.updStr_within n _).mono (by decide)

theorem State.restanding_length (hl : s.strings.length = 24) : (s.restanding n c).strings.length = 24 := by
  have caught (t : State) : (t.shutdownCatch n).strings.length = t.strings.length := (t.shutdownCatch_calm n).strings.1
  unfold State.restanding
  split
  · have hw : (s.withdraw n).strings = s.strings := s.withdraw_within n .strings (by decide)
    exact (State.updStr_length _ n _).trans (by rw [hw]; exact hl)
  · unfold State.makeUsed
    simp only
    split
    · rw [caught]
      simp [State.connect, hl]
    · simp [hl]
  · rw [State.keepUsed_eq]
    split
    · exact (State.updStr_length _ n _).trans hl
    · exact (State.updStr_length _ n _).trans hl
  · exact (State.updStr_length _ n _).trans hl

/-- R19: the other strings stay as they were, and the queue with them, unless a shutdown catches the string. -/
theorem State.restanding_others (hl : s.strings.length = 24) (hn : stringNumber n = true) (h : ¬s.Caught n c) :
    (∀ k, k ≠ n → (s.restanding n c).str k = s.str k) ∧ (s.restanding n c).sched = s.sched := by
  unfold State.restanding
  split
  · refine ⟨fun k hk => ?_, ?_⟩
    · exact ((s.withdraw n).str_updStr_ne _ n k hk).trans (s.withdraw_str n k)
    · exact s.withdraw_within n .sched (by decide)
  · next hu hc =>
    cases hp : (s.str n).position with
    | opened => rw [State.makeUsed_open hl hn hp]; exact ⟨fun k hk => s.str_updStr_ne _ n k hk, rfl⟩
    | closed =>
      have ha : s.shutdown.asserted = false := by simpa using fun ha => h ⟨hu, hc, hp, ha⟩
      rw [State.makeUsed_free hl hn hp ha]
      exact ⟨fun k hk => (State.str_updStr_ne _ _ n k hk).trans (s.str_updStr_ne _ n k hk), rfl⟩
  · rw [State.keepUsed_eq]
    split
    · exact ⟨fun k hk => s.str_updStr_ne _ n k hk, rfl⟩
    · exact ⟨fun k hk => s.str_updStr_ne _ n k hk, rfl⟩
  · exact ⟨fun k hk => s.str_updStr_ne _ n k hk, rfl⟩

/-! ### Made unused, made used, staying used -/

theorem State.restanding_unused (hu : (s.str n).cfg.used = true) (hc : c.used = false) :
    s.restanding n c = s.makeUnused n c := by
  unfold State.restanding; rw [hu, hc]

theorem State.restanding_used (hu : (s.str n).cfg.used = false) (hc : c.used = true) :
    s.restanding n c = s.makeUsed n c := by
  unfold State.restanding; rw [hu, hc]

theorem State.restanding_kept (hu : (s.str n).cfg.used = true) (hc : c.used = true) :
    s.restanding n c = s.keepUsed n c := by
  unfold State.restanding; rw [hu, hc]

theorem State.restanding_idle (hu : (s.str n).cfg.used = false) (hc : c.used = false) :
    s.restanding n c = s.keepUnused n c := by
  unfold State.restanding; rw [hu, hc]

section
variable (hl : s.strings.length = 24) (hn : stringNumber n = true)
include hl hn

theorem State.makeUnused_str : (s.makeUnused n c).str n =
    { StringRec.blank c (s.str n).position with dropPosition := (s.str n).dropPosition } := by
  have hw : (s.withdraw n).strings.length = 24 := by rw [s.withdraw_within n .strings (by decide)]; exact hl
  refine (State.str_updStr_valid (s := s.withdraw n) _ hw hn).trans ?_
  rw [State.withdraw_str]

theorem State.keepUsed_str : (s.keepUsed n c).str n = (s.str n).keptUsed c := by
  rw [State.keepUsed_eq]
  split
  · exact State.str_updStr_valid _ hl hn
  · exact State.str_updStr_valid _ hl hn

/-- R144: the string that a shutdown catches is queued by a SHUTDOWN request and keeps its new settings. -/
theorem State.makeUsed_caught_str (hp : (s.str n).position = .closed) (ha : s.shutdown.asserted = true) :
    ((s.makeUsed n c).str n).cfg = c ∧ ((s.makeUsed n c).str n).tapFault = false ∧
      ((s.makeUsed n c).str n).budget = s.box.perDayMax := by
  have hv := State.taken_connected_str (c := c) hl hn
  have hvl : ((s.takenUp n c).connect n).strings.length = 24 := by simp [State.takenUp, State.connect, hl]
  obtain ⟨_, _, _, hm⟩ := (State.walk_walked (((s.takenUp n c).connect n).admitted n .shutdown)).strings.2 n
  rw [State.makeUsed_caught hl hn hp ha, State.queueString_eq, hm, State.admitted_str hvl hn,
    State.queuedRecord_of_not_fault _ _ rfl, hv]
  exact ⟨rfl, rfl, rfl⟩

/-- R7, R19: the string takes the settings, and its tap fault mark is cleared. -/
theorem State.restanding_cfg : ((s.restanding n c).str n).cfg = c ∧ ((s.restanding n c).str n).tapFault = false := by
  cases hu : (s.str n).cfg.used <;> cases hc : c.used
  · rw [State.restanding_idle hu hc, State.keepUnused, State.str_updStr_valid _ hl hn]
    exact ⟨rfl, rfl⟩
  · rw [State.restanding_used hu hc]
    cases hp : (s.str n).position with
    | opened =>
      rw [State.makeUsed_open hl hn hp, State.takenUp, State.str_updStr_valid _ hl hn]
      exact ⟨rfl, rfl⟩
    | closed =>
      cases ha : s.shutdown.asserted with
      | false =>
        rw [State.makeUsed_free hl hn hp ha, State.taken_connected_str hl hn]
        exact ⟨rfl, rfl⟩
      | true => exact ⟨(State.makeUsed_caught_str hl hn hp ha).1, (State.makeUsed_caught_str hl hn hp ha).2.1⟩
  · rw [State.restanding_unused hu hc, State.makeUnused_str hl hn]
    exact ⟨rfl, rfl⟩
  · rw [State.restanding_kept hu hc, State.keepUsed_str hl hn]
    unfold StringRec.keptUsed
    simp only
    split
    · exact ⟨rfl, rfl⟩
    · exact ⟨rfl, rfl⟩

/-- R19: what a string made used reads as, when no shutdown catches it. -/
theorem State.makeUsed_str (h : ¬((s.str n).position = .closed ∧ s.shutdown.asserted = true)) :
    ((s.makeUsed n c).str n).cause = none ∧ ((s.makeUsed n c).str n).budget = s.box.perDayMax ∧
      ((s.str n).position = .opened → ((s.makeUsed n c).str n).state = .isolated) ∧
      ((s.str n).position = .closed → ((s.makeUsed n c).str n).state = .connected ∧
        ((s.makeUsed n c).str n).bucket = 0 ∧ ((s.makeUsed n c).str n).reverseRun = 0) := by
  cases hp : (s.str n).position with
  | opened =>
    rw [State.makeUsed_open hl hn hp, State.takenUp, State.str_updStr_valid _ hl hn]
    exact ⟨rfl, rfl, fun _ => by rw [hp], fun h => absurd h (by decide)⟩
  | closed =>
    have ha : s.shutdown.asserted = false := by simpa [hp] using h
    rw [State.makeUsed_free hl hn hp ha, State.taken_connected_str hl hn]
    exact ⟨rfl, rfl, fun h => absurd h (by decide), fun _ => ⟨rfl, rfl, rfl⟩⟩

/-- R19, R67: what a string that stays used keeps. -/
theorem State.keepUsed_keeps : ((s.keepUsed n c).str n).reverseRun = 0 ∧ ((s.keepUsed n c).str n).overRun = 0 ∧
    ((s.keepUsed n c).str n).openRun = 0 ∧ ((s.keepUsed n c).str n).bucket = 0 ∧ ((s.keepUsed n c).str n).alarm = false ∧
    ((s.keepUsed n c).str n).state = (if (s.str n).state = .suspect then .connected else (s.str n).state) ∧
    ((s.keepUsed n c).str n).budget = (s.str n).budget ∧ ((s.keepUsed n c).str n).record = (s.str n).record ∧
    (c.input = (s.str n).cfg.input → ((s.keepUsed n c).str n).offset = (s.str n).offset ∧
      ((s.keepUsed n c).str n).sensorFault = (s.str n).sensorFault) ∧
    (c.input ≠ (s.str n).cfg.input → ((s.keepUsed n c).str n).offset = 0 ∧ ((s.keepUsed n c).str n).sensorFault = false) := by
  rw [State.keepUsed_str hl hn, StringRec.keptUsed, StringRec.enterRun_eq]
  by_cases hi : c.input = (s.str n).cfg.input
  · simp [hi]
  · simp [hi, Ne.symm hi]

end

/-- R28: a string made unused or moved takes no figure from the round in progress. -/
theorem State.restanding_scan_dropped (h : s.Dropped n c) : (s.restanding n c).scan = { s.scan with
    round := s.scan.round.map fun d => { d with channels := d.channels.filter fun x => x.string != n } } := by
  obtain ⟨hu, hc⟩ := h
  by_cases hcu : c.used = true
  · have hi : c.input ≠ (s.str n).cfg.input := hc.resolve_left (by simp [hcu])
    rw [State.restanding_kept hu hcu, State.keepUsed_eq, if_pos (by simpa using hi.symm)]
    rfl
  · rw [State.restanding_unused hu (by simpa using hcu)]
    have hw : (s.withdraw n).scan = s.scan := s.withdraw_within n .scan (by decide)
    rw [← hw]
    rfl

theorem State.restanding_scan_kept (h : ¬s.Dropped n c) : (s.restanding n c).scan = s.scan := by
  cases hu : (s.str n).cfg.used <;> cases hc : c.used
  · rw [State.restanding_idle hu hc]; rfl
  · rw [State.restanding_used hu hc]
    exact s.makeUsed_within n c .scan (by decide)
  · exact absurd ⟨hu, .inl hc⟩ h
  · have hi : c.input = (s.str n).cfg.input := by
      by_contra hi
      exact h ⟨hu, .inr hi⟩
    rw [State.restanding_kept hu hc, State.keepUsed_eq, if_neg (by simp [hi])]
    rfl

/-- R42: the state after the counts and the mark. -/
theorem State.configureString_str (s : State) (n : Nat) (c : StringSettings) (k : Nat) :
    (s.configureString n c).str k = (s.restanding n c).str k := rfl

/-- Settles O36: the standing of the string by its use and contact, and the members and channels that follow it. -/
theorem stringConfigMovesTheStanding : Obligations.StringConfigMovesTheStanding := by
  unfold Obligations.StringConfigMovesTheStanding
  intro s m c hlis hmode hl hn hc hprod hfree n r caught dropped without hb hcl hpr hun
  have hcfg := State.restanding_cfg (c := c) hl hn
  have hwith := s.restanding_within n c
  refine ⟨s.configureString n c, ?_, State.restanding_others hl hn, ?_, ?_, hcfg.1, hcfg.2, ?_, fun g q hq => ?_,
    State.restanding_scan_dropped, State.restanding_scan_kept, fun h => ?_, fun hu h => ?_, fun hu h => ?_, fun hu h hnc => ?_,
    fun hu h => ?_⟩
  · have hans : exec (.stringConfig m) s =
        .next ((s.reqStringConfig m).1.sendReply Kind.stringConfig.code (s.reqStringConfig m).2) :=
      congrArg Host.Outcome.next (State.answer_listening hlis _ _)
    rw [hans, State.reqStringConfig, if_neg (by rw [hmode]; decide), stringOfByte_number hn, hc]
    simp only
    rw [if_neg (Nat.not_lt.2 hprod), if_neg fun h => by simp [hfree h.1] at h, if_neg (by simp [n, r] at *; tauto),
      if_neg fun h => h.2.2.1 (hun h.1 h.2.1)]
    exact congrArg (fun x => Host.Outcome.next ((s.configureString n c).sendReply _ ⟨.accepted, stringConfigBytes n x⟩)) hcfg.1
  · show { (s.restanding n c).store with changed := true } = _
    rw [hwith .store (by decide)]
  · exact hwith .lockouts (by decide)
  · have hp : (s.restanding n c).peer = s.peer := hwith .peer (by decide)
    rw [← hp]
    rfl
  · exact State.recount_groups (State.restanding_length hl) (by rw [hwith .peer (by decide)]; exact hq)
  · obtain ⟨hu, hcu, hp, ha⟩ := h
    let v := (s.takenUp n c).connect n
    have hv : v.str n = _ := State.taken_connected_str hl hn
    have hvl : v.strings.length = 24 := by simp [v, State.takenUp, State.connect, hl]
    have hvp : (v.str n).position = .closed := by rw [hv]; exact hp
    have hw : s.restanding n c = v.queueString n .shutdown := by
      rw [State.restanding_used hu hcu, State.makeUsed_caught hl hn hp ha]
    have hd : v.causeAdmitted .shutdown = .shutdown := if_pos ha
    have hon : OnTheWay n (s.restanding n c) := by rw [hw]; exact State.queueString_onTheWay hvl hn hvp
    refine ⟨?_, ?_, hon.state, ?_, fun hnc => ?_⟩
    · rw [State.configureString_str, hw, State.queueString_cause hvl hn, hd]
    · rw [State.configureString_str, State.restanding_used hu hcu]
      exact (State.makeUsed_caught_str hl hn hp ha).2.2
    · show (s.restanding n c).sched.arrival = _
      rw [hw, State.queueString_arrival]
      rfl
    · obtain ⟨hr, hm⟩ := State.queueString_waits (c := .shutdown) hvl hn hvp hnc
      refine ⟨?_, ?_⟩
      · rw [State.configureString_str, hw, hr, State.queuedRecord_of_not_fault _ _ rfl]
      · show _ ∈ (s.restanding n c).sched.queue
        rw [hw]
        rw [State.entryFor, hd] at hm
        exact hm
  · rw [State.configureString_str, State.restanding_unused hu h]
    exact State.makeUnused_str hl hn
  · show ∀ e ∈ (s.restanding n c).probe.list, e.string ≠ n
    rw [State.restanding_unused hu h]
    exact s.withdraw_not_listed n
  · rw [State.configureString_str, State.restanding_used hu h]
    exact State.makeUsed_str hl hn fun hx => hnc ⟨hu, h, hx⟩
  · rw [State.configureString_str, State.restanding_kept hu h]
    exact State.keepUsed_keeps hl hn

end

end Sys2Proof.Machine
end

