-- ==== Sys2Proof/Proofs/Completion.lean ====
section
/-! A sample set added to the round and a completion (O42): the figures delivered, and what the blocks' work leaves of
them. -/

namespace Sys2Proof.Machine

section
variable {s t : State} {n : Nat}

/-! ## The figures delivered (R28, R30) -/

/-- R30: a capture that succeeds. -/
abbrev Channel.CapturedWell (c : Channel) (total : Nat) : Prop :=
  -50 ≤ c.sum.tdiv (total : Int) ∧ c.sum.tdiv (total : Int) ≤ 50 ∧ c.beyond = false

theorem Channel.captureOk_iff (c : Channel) (total : Nat) :
    captureOk (c.sum.tdiv (total : Int)) c.beyond = true ↔ c.CapturedWell total := by
  simp [captureOk, Channel.CapturedWell, and_assoc]

theorem clampInt_eq {lo hi : Int} (h : lo ≤ hi) (x : Int) : clampInt lo hi x = max lo (min hi x) := by
  unfold clampInt
  split
  · omega
  · split <;> omega

/-- R28: the figure is held to its range exactly when it lies outside. -/
theorem clampInt_ne {lo hi : Int} (h : lo ≤ hi) (x : Int) : clampInt lo hi x ≠ x ↔ x < lo ∨ hi < x := by
  rw [clampInt_eq h]
  omega

/-- R30: a string's offset after a round. -/
def StringRec.offsetAfter (r : StringRec) (c : Channel) (total : Nat) (capture : Bool) : Int :=
  if capture = true ∧ c.CapturedWell total then c.sum.tdiv (total : Int) else r.offset

/-- R28, R30: the record that a round delivers. -/
theorem StringRec.deliver_eq (r : StringRec) (c : Channel) (total : Nat) (capture : Bool) :
    r.deliver c total capture = { r with
      offset := r.offsetAfter c total capture
      current := max (-4000) (min 4000 (c.sum.tdiv (total : Int) - r.offsetAfter c total capture))
      saturated := decide (c.beyond = true ∨ c.sum.tdiv (total : Int) - r.offsetAfter c total capture < -4000 ∨
        4000 < c.sum.tdiv (total : Int) - r.offsetAfter c total capture)
      sensorFault := if capture = true then decide (¬c.CapturedWell total) else r.sensorFault } := by
  have hoff : (if (capture && captureOk (c.sum.tdiv (total : Int)) c.beyond) = true then c.sum.tdiv (total : Int)
      else r.offset) = r.offsetAfter c total capture := by
    simp only [StringRec.offsetAfter, Bool.and_eq_true, c.captureOk_iff]
  have hok : (!captureOk (c.sum.tdiv (total : Int)) c.beyond) = decide (¬c.CapturedWell total) := by
    rw [Bool.eq_iff_iff, Bool.not_eq_true', ← Bool.not_eq_true, c.captureOk_iff, decide_eq_true_iff]
  have hsat (x : Int) : (c.beyond || decide (clampInt (-4000) 4000 x ≠ x)) =
      decide (c.beyond = true ∨ x < -4000 ∨ 4000 < x) := by
    rw [Bool.eq_iff_iff, Bool.or_eq_true, decide_eq_true_iff, decide_eq_true_iff, clampInt_ne (by decide)]
  unfold StringRec.deliver
  dsimp only
  rw [hoff, hok, hsat, clampInt_eq (by decide)]

theorem State.deliverChannel_within (s : State) (total : Nat) (capture : Bool) (c : Channel) :
    Within [.strings, .attention] s (s.deliverChannel total capture c) := by
  have h : Within [.strings, .attention] s (s.updStr c.string fun r => r.deliver c total capture) :=
    (s.updStr_within _ _).mono (by decide)
  unfold State.deliverChannel
  exact Within.ite (h.trans ((State.raise_within _ _).mono (by decide))) h

theorem State.deliverChannel_strings (s : State) (total : Nat) (capture : Bool) (c : Channel) :
    (s.deliverChannel total capture c).strings = (s.updStr c.string fun r => r.deliver c total capture).strings := by
  unfold State.deliverChannel
  simp only
  split
  · exact State.raise_strings _ _
  · rfl

theorem State.mem_deliverChannel (s : State) (total : Nat) (capture : Bool) (c : Channel) (i : Item) :
    i ∈ (s.deliverChannel total capture c).attention ↔
      i ∈ s.attention ∨ (capture = true ∧ ¬c.CapturedWell total ∧ i = .str .sensor c.string) := by
  have hc : (capture && !captureOk (c.sum.tdiv (total : Int)) c.beyond) = true ↔ capture = true ∧ ¬c.CapturedWell total := by
    rw [Bool.and_eq_true, Bool.not_eq_true', ← Bool.not_eq_true, c.captureOk_iff]
  unfold State.deliverChannel
  simp only
  split
  · next h =>
    rw [State.raiseStr_eq, State.mem_raise]
    simp [hc.1 h]
  · next h =>
    have h' := mt hc.2 h
    constructor
    · exact .inl
    · rintro (hi | ⟨h1, h2, -⟩)
      · exact hi
      · exact absurd ⟨h1, h2⟩ h'

/-- The channels of a round delivered one after the other. -/
def State.deliverChannels (s : State) (total : Nat) (capture : Bool) (cs : List Channel) : State :=
  cs.foldl (fun acc c => acc.deliverChannel total capture c) s

section
variable (total : Nat) (capture : Bool) (cs : List Channel)

theorem State.deliverChannels_within (s : State) : Within [.strings, .attention] s (s.deliverChannels total capture cs) :=
  Within.foldl _ (fun t c => t.deliverChannel_within total capture c) cs s

theorem State.deliverChannels_length (s : State) : (s.deliverChannels total capture cs).strings.length = s.strings.length := by
  induction cs generalizing s with
  | nil => rfl
  | cons c cs ih =>
    refine (ih (s.deliverChannel total capture c)).trans ?_
    rw [State.deliverChannel_strings, State.updStr_length]

/-- A string that no channel names keeps its figures. -/
theorem State.deliverChannels_held (s : State) (h : ∀ c ∈ cs, c.string ≠ n) :
    (s.deliverChannels total capture cs).str n = s.str n := by
  induction cs generalizing s with
  | nil => rfl
  | cons c cs ih =>
    refine (ih (s.deliverChannel total capture c) fun x hx => h x (List.mem_cons_of_mem _ hx)).trans ?_
    rw [State.str_congr (s.deliverChannel_strings total capture c)]
    exact s.str_updStr_ne _ _ _ (h c List.mem_cons_self).symm

/-- R28: each channel's string takes the figures of its channel, no other channel naming it. -/
theorem State.deliverChannels_str (s : State) (hl : s.strings.length = 24) (hd : (cs.map (·.string)).Nodup) {c : Channel}
    (hc : c ∈ cs) (hn : stringNumber c.string = true) :
    (s.deliverChannels total capture cs).str c.string = (s.str c.string).deliver c total capture := by
  induction cs generalizing s with
  | nil => cases hc
  | cons x cs ih =>
    obtain ⟨hx, hd⟩ := List.nodup_cons.1 hd
    have hs : (s.deliverChannel total capture x).strings.length = 24 := by
      rw [State.deliverChannel_strings, State.updStr_length, hl]
    rcases List.mem_cons.1 hc with rfl | hc
    · refine (State.deliverChannels_held total capture cs _ fun y hy h => hx (List.mem_map.2 ⟨y, hy, h⟩)).trans ?_
      · rw [State.str_congr (s.deliverChannel_strings total capture c)]
        exact State.str_updStr_valid _ hl hn
    · refine (ih _ hs hd hc).trans (congrArg (fun r => StringRec.deliver r c total capture) ?_)
      rw [State.str_congr (s.deliverChannel_strings total capture x)]
      exact s.str_updStr_ne _ _ _ fun h => hx (List.mem_map.2 ⟨c, hc, h⟩)

theorem State.mem_deliverChannels (s : State) (i : Item) : i ∈ (s.deliverChannels total capture cs).attention ↔
    i ∈ s.attention ∨ (capture = true ∧ ∃ c ∈ cs, ¬c.CapturedWell total ∧ i = .str .sensor c.string) := by
  induction cs generalizing s with
  | nil => simp [State.deliverChannels]
  | cons c cs ih =>
    refine (ih (s.deliverChannel total capture c)).trans ?_
    rw [State.mem_deliverChannel, or_assoc, ← and_or_left]
    simp

end

/-! ## Temperatures (R31, R32) -/

/-- R32: a group source names temperature input `k`. -/
def GroupRec.names (g : GroupRec) (k : Nat) : Bool :=
  g.cfg.source == match k with | 0 => .t1 | 1 => .t2 | 2 => .t3 | _ => .t4

theorem inputOf_names (g : GroupRec) {k : Nat} (hk : k < 4) : (inputOf g.cfg.source == some k) = g.names k := by
  unfold GroupRec.names
  rcases k with _ | _ | _ | _ | k
  · cases g.cfg.source <;> rfl
  · cases g.cfg.source <;> rfl
  · cases g.cfg.source <;> rfl
  · cases g.cfg.source <;> rfl
  · omega

theorem missingSource_eq (temps : List (Option Int)) (groups : List GroupRec) :
    [0, 1, 2, 3].map (missingSource temps groups) =
      [0, 1, 2, 3].map fun k => (temps.getD k none).isNone && groups.any (·.names k) := by
  refine List.map_congr_left fun k hk => ?_
  have h4 : k < 4 := by simp at hk; omega
  unfold missingSource
  simp only [inputOf_names _ h4]

/-- R32: an input becomes a missing source. -/
theorem newlyMissing_iff {missing old : List Bool} (h : missing.length = 4) :
    ((missing.zip old).any fun x => x.1 && !x.2) = true ↔
      ∃ k : Fin 4, missing[k.val]? = some true ∧ old[k.val]? = some false := by
  rw [List.any_eq_true]
  constructor
  · rintro ⟨⟨a, b⟩, hm, hab⟩
    obtain ⟨k, hk⟩ := List.getElem?_of_mem hm
    rw [List.getElem?_zip_eq_some] at hk
    obtain ⟨rfl, rfl⟩ : a = true ∧ b = false := by simpa using hab
    have hlt : k < 4 := h ▸ (List.getElem?_eq_some_iff.1 hk.1).1
    exact ⟨⟨k, hlt⟩, hk⟩
  · rintro ⟨k, h1, h2⟩
    exact ⟨(true, false), List.mem_of_getElem? (List.getElem?_zip_eq_some.2 ⟨h1, h2⟩), rfl⟩

/-! ## What the blocks' work leaves of the figures -/

/-- The figures that a round delivers for a string. -/
structure StringRec.Shown (r q : StringRec) : Prop where
  current : q.current = r.current
  saturated : q.saturated = r.saturated
  sensorFault : q.sensorFault = r.sensorFault
  offset : q.offset = r.offset

theorem StringRec.Shown.refl (r : StringRec) : r.Shown r := ⟨rfl, rfl, rfl, rfl⟩

theorem StringRec.Shown.trans (r q u : StringRec) (h : r.Shown q) (k : q.Shown u) : r.Shown u :=
  ⟨k.current.trans h.current, k.saturated.trans h.saturated, k.sensorFault.trans h.sensorFault, k.offset.trans h.offset⟩

/-- Every figure published for a string: the comparison's with those delivered. -/
structure StringRec.Published (r q : StringRec) : Prop extends StringRec.Shown r q where
  n : q.n = r.n
  p : q.p = r.p

theorem StringRec.Published.refl (r : StringRec) : r.Published r := ⟨.refl r, rfl, rfl⟩

theorem StringRec.Published.trans (r q u : StringRec) (h : r.Published q) (k : q.Published u) : r.Published u :=
  ⟨.trans _ _ _ h.toShown k.toShown, k.n.trans h.n, k.p.trans h.p⟩

theorem StringRec.Gentle.published {r q : StringRec} (h : r.Gentle q) : r.Published q :=
  ⟨⟨h.current, h.saturated, h.sensorFault, h.offset⟩, h.n, h.p⟩

/-- What the scan unit keeps of a completion when a round starts. -/
structure ScanUnit.Delivered (x y : ScanUnit) : Prop where
  counter : y.counter = x.counter
  completed : y.completed = x.completed
  temps : y.temps = x.temps
  missing : y.missing = x.missing
  bus : y.bus = x.bus

theorem ScanUnit.Delivered.refl (x : ScanUnit) : x.Delivered x := ⟨rfl, rfl, rfl, rfl, rfl⟩

theorem ScanUnit.Delivered.of_eq {x y : ScanUnit} (h : y = x) : x.Delivered y := h ▸ .refl x

theorem ScanUnit.Delivered.trans {x y z : ScanUnit} (h : x.Delivered y) (k : y.Delivered z) : x.Delivered z :=
  ⟨k.counter.trans h.counter, k.completed.trans h.completed, k.temps.trans h.temps, k.missing.trans h.missing, k.bus.trans h.bus⟩

/-- The comparator's work: the delivered figures, the scan unit's and every item stay. -/
structure Compared (s t : State) : Prop where
  strings : Each StringRec.Shown s t
  scan : s.scan.Delivered t.scan
  items : Grows s t

theorem Compared.trans {s t u : State} (h : Compared s t) (k : Compared t u) : Compared s u :=
  ⟨h.strings.trans StringRec.Shown.trans k.strings, h.scan.trans k.scan, h.items.trans k.items⟩

/-- The other blocks' work: the published figures, the comparator's block, the scan unit's figures and every item stay. -/
structure Worked (s t : State) : Prop where
  strings : Each StringRec.Published s t
  peer : t.peer = s.peer
  scan : s.scan.Delivered t.scan
  items : Grows s t

theorem Worked.refl (s : State) : Worked s s := ⟨Each.of_strings StringRec.Published.refl rfl, rfl, .refl _, .refl s⟩

theorem Worked.trans {s t u : State} (h : Worked s t) (k : Worked t u) : Worked s u :=
  ⟨h.strings.trans StringRec.Published.trans k.strings, k.peer.trans h.peer, h.scan.trans k.scan, h.items.trans k.items⟩

theorem Worked.compared {s t : State} (h : Worked s t) : Compared s t :=
  ⟨h.strings.mono fun _ _ h => h.toShown, h.scan, h.items⟩

theorem Worked.of_calm {s t : State} (hc : Calm s t) (hw : Within (.free :: breakPath) s t) (hg : Grows s t) : Worked s t :=
  ⟨hc.strings.mono fun _ _ h => h.published, hw .peer (by decide), .of_eq (hw .scan (by decide)), hg⟩

theorem Worked.foldl {α : Type} {f : State → α → State} (hf : ∀ t x, Worked t (f t x)) (l : List α) (s : State) :
    Worked s (l.foldl f s) := by
  induction l generalizing s with
  | nil => exact .refl s
  | cons x xs ih => exact (hf s x).trans (ih (f s x))

/-! ### The comparator -/

theorem State.compare_compared (s : State) (fresh : List Nat) : Compared s (s.compare fresh) := by
  refine ⟨.of_getNum .refl (by simp [State.compare]) fun n r hr => ?_, .refl _, .of_eq rfl⟩
  obtain ⟨p, hp, -⟩ := s.compare_getNum fresh n r hr
  refine ⟨_, hp, ?_⟩
  have hn : r.Shown r.normalize := by
    unfold StringRec.normalize
    split
    · exact ⟨rfl, rfl, rfl, rfl⟩
    · exact .refl r
  split
  · exact ⟨hn.current, hn.saturated, hn.sensorFault, hn.offset⟩
  · exact hn

theorem State.abortKeeping_compared (s : State) : Worked s s.abortKeeping :=
  have h := s.abortKeeping_within
  ⟨Each.of_strings StringRec.Published.refl (h .strings (by decide)), h .peer (by decide), .of_eq (h .scan (by decide)),
    .of_eq (h .attention (by decide))⟩

theorem Worked.raise (s : State) (i : Item) : Worked s (s.raise i) :=
  ⟨Each.of_strings StringRec.Published.refl (s.raise_strings i), s.raise_peer i, .of_eq (s.raise_scan i), .raise s i⟩

theorem State.decideDay_compared (s : State) : Compared s s.decideDay := by
  have published (x : Comparator) : Compared s (s.setPeer x) :=
    ⟨Each.of_strings StringRec.Shown.refl rfl, .refl _, .of_eq rfl⟩
  have day : Compared s s.startDay := by
    refine (Compared.trans ?_ (Worked.raise (State.updAll _ _) _).compared)
    refine ⟨.updAll .refl _ fun r => ?_, .refl _, .of_eq rfl⟩
    split
    · exact ⟨rfl, rfl, rfl, rfl⟩
    · exact .refl r
  have night : Compared s s.enterNight := by
    refine (Compared.trans (Compared.trans ?_ (Worked.raise (State.setScan _ _) _).compared)
      (State.abortKeeping_compared _).compared)
    exact ⟨Each.of_strings StringRec.Shown.refl rfl, ⟨rfl, rfl, rfl, rfl, rfl⟩, .of_eq rfl⟩
  unfold State.decideDay
  split
  · split
    · exact (Worked.refl s).compared
    · exact day
  · split
    · split
      · exact night
      · exact published _
    · exact published _

/-! ### The other blocks -/

theorem State.startRound_worked (s : State) : Worked s s.startRound := by
  unfold State.startRound
  split
  · exact .refl s
  · exact ⟨Each.of_strings StringRec.Published.refl rfl, rfl, ⟨rfl, rfl, rfl, rfl, rfl⟩, .of_eq rfl⟩

theorem State.enterFallback_worked (s : State) : Worked s s.enterFallback := by
  have h : Worked s (s.setScan { s.scan with source := .fallback }) :=
    ⟨Each.of_strings StringRec.Published.refl rfl, rfl, ⟨rfl, rfl, rfl, rfl, rfl⟩, .of_eq rfl⟩
  exact (h.trans (Worked.raise _ _)).trans (State.startRound_worked _)

theorem State.newPeriod_worked (s b : State) : Worked s (s.newPeriod b) := by
  have ite {p : Prop} [Decidable p] {t : State} (h : Worked s t) : Worked s (if p then t else s) := by
    split
    · exact h
    · exact .refl s
  unfold State.newPeriod
  split
  · exact .refl s
  · unfold State.recheckSource
    split
    · exact .refl s
    · split
      · exact ite s.startRound_worked
      · exact ite s.startRound_worked
      · exact ite s.enterFallback_worked

theorem State.clearWaiting_worked (s : State) : Worked s s.clearWaiting :=
  ⟨Each.of_strings StringRec.Published.refl rfl, rfl, .refl _, .of_eq rfl⟩

theorem State.abortUnlit_worked (s : State) : Worked s s.abortUnlit := by
  unfold State.abortUnlit
  split
  · exact .refl s
  · split
    · exact .refl s
    · exact s.abortKeeping_compared

theorem StringRec.monitor_published (r : StringRec) (mode : Mode) (box : BoxSettings) (night : Bool) (g : Option GroupRec) :
    r.Published (r.monitor mode box night g).figures := by
  unfold StringRec.monitor
  split
  · exact ⟨⟨rfl, rfl, rfl, rfl⟩, rfl, rfl⟩
  · exact .refl r

theorem State.applyJudgements_worked (s : State) : Worked s (s.applyJudgements s.judgements) := by
  have h : Worked s (s.setStrings (s.judgements.map (·.figures))) := by
    refine ⟨.of_getNum .refl (by simp [State.judgements]) fun n r hr => ⟨_, ?_, r.monitor_published s.mode s.box s.peer.night
      (s.grp r.cfg.group)⟩, rfl, .refl _, .of_eq rfl⟩
    simp [State.judgements, getNum_map, hr]
  exact h.trans (Worked.foldl (fun t x => Worked.raise t _) _ _)

theorem State.discrepancy_within (s : State) (n : Nat) : Within breakPath s (s.discrepancy n) := by
  have upd (t : State) (f : StringRec → StringRec) : Within breakPath t (t.updStr n f) := (t.updStr_within n f).mono (by decide)
  have item (t : State) : Within breakPath t (t.raise (.str .contact n)) := (t.raise_within _).mono (by decide)
  have placed (t : State) : Within breakPath t (t.place n .diagnose .auto) := (t.place_within _ _ _).mono (by decide)
  have gone : Within breakPath s (s.withdraw n) := (s.withdraw_within n).mono (by decide)
  rw [State.discrepancy_eq]
  refine Within.ite ?_ (Within.refl _ s)
  unfold State.answered
  split
  · rw [State.externalClose_eq]
    exact ((gone.trans (upd _ _)).trans (item _)).trans (Within.ite (State.request_within _ n _) (Within.refl _ _))
  · exact (item s).trans (State.request_within _ n _)
  · exact ((upd s _).trans (item _)).trans (placed _)
  · rw [State.externalOpen_eq]
    exact ((upd s _).trans (item _)).trans (placed _)

theorem State.controllerEvent_worked (js : List Judgement) (s : State) (k : Nat) : Worked s (State.controllerEvent js s k) := by
  refine .of_calm (s.controllerEvent_calm js k) ?_ ?_
  · unfold State.controllerEvent State.makeRequest
    split
    · split
      · exact Within.refl _ s
      · exact (s.request_within _ _).mono (by decide)
    · exact (s.discrepancy_within _).mono (by decide)
  · unfold State.controllerEvent State.makeRequest
    split
    · split
      · exact .refl s
      · exact s.request_grows _ _
    · exact s.discrepancy_grows _

theorem State.controllerTurn_worked (s : State) (js : List Judgement) : Worked s (s.controllerTurn js) := by
  have tests : Worked s s.suspectTests :=
    .of_calm (s.updAll_calm fun r => r.suspectTest_gentle _) ((s.setStrings_within _).mono (by decide)) (.of_eq rfl)
  have drawn (t : State) : Worked t t.drawn := ⟨Each.of_strings StringRec.Published.refl rfl, rfl, .refl _, .of_eq rfl⟩
  exact (tests.trans (Worked.foldl (fun t k => t.controllerEvent_worked js k) _ _)).trans (drawn _)

theorem State.walk_worked (s : State) : Worked s s.walk :=
  .of_calm s.walk_walked.calm (s.walk_within.mono (by decide)) s.walk_grows

theorem State.openRequest_worked (s : State) : Worked s s.openRequest :=
  .of_calm s.openRequest_walked.calm (s.openRequest_within.mono (by decide)) s.openRequest_grows

theorem State.isolatorCompared_worked (s : State) : Worked s s.isolatorCompared := by
  have moved (x : Isolator) : Worked s ((s.setIsolator x).raise (.box .output)) :=
    Worked.trans (t := s.setIsolator x) ⟨Each.of_strings StringRec.Published.refl rfl, rfl, .refl _, .of_eq rfl⟩ (.raise _ _)
  unfold State.isolatorCompared
  split
  · exact (moved _).trans (State.walk_worked _)
  · exact moved _
  · exact moved _
  · simp only
    split
    · exact (moved _).trans (State.openRequest_worked _)
    · exact moved _
  · exact .refl s

theorem State.lookForWork_worked (s : State) : Worked s s.lookForWork := by
  rw [State.lookForWork_eq]
  exact ⟨Each.of_strings StringRec.Published.refl rfl, rfl, .refl _, .of_eq rfl⟩

/-! ## A completion -/

/-- The scan unit once a round's figures have been delivered (R22, R31, R32, R34). -/
def State.scanAfter (s : State) (r : Round) : ScanUnit := { s.scan with
  round := none, counter := s.scan.counter + 1, completed := true
  bus := (max 0 (min 16000 (r.busSum.tdiv (r.total : Int)))).toNat
  temps := r.temps.map tempOf
  missing := [0, 1, 2, 3].map fun k => ((r.temps.map tempOf).getD k none).isNone && s.peer.groups.any (·.names k) }

/-- R32: an input has become a missing source. -/
def State.NewlyMissing (s : State) (r : Round) : Prop :=
  ∃ k : Fin 4, (s.scanAfter r).missing[k.val]? = some true ∧ s.scan.missing[k.val]? = some false

/-- R22: what a round's delivery leaves. -/
theorem State.deliverRound_spec (s : State) (r : Round) : ∃ d : State,
    d = (s.setScan { s.scan with
      round := none, counter := s.scan.counter + 1, completed := true
      bus := (clampInt 0 16000 (r.busSum.tdiv (r.total : Int))).toNat }).deliverChannels r.total r.capture r.channels ∧
    (s.deliverRound r).strings = d.strings ∧ (s.deliverRound r).scan = s.scanAfter r ∧
    Within [.scan, .strings, .attention] s (s.deliverRound r) ∧
    ∀ i, i ∈ (s.deliverRound r).attention ↔ i ∈ d.attention ∨ (i = .box .tempStale ∧ s.NewlyMissing r) := by
  refine ⟨_, rfl, ?_⟩
  set d := (s.setScan { s.scan with
    round := none, counter := s.scan.counter + 1, completed := true
    bus := (clampInt 0 16000 (r.busSum.tdiv (r.total : Int))).toNat }).deliverChannels r.total r.capture r.channels with hd
  have hw : Within [.strings, .attention] (s.setScan _) d := State.deliverChannels_within _ _ _ _
  have hscan : { d.scan with
      temps := r.temps.map tempOf
      missing := [0, 1, 2, 3].map (missingSource (r.temps.map tempOf) d.peer.groups) } = s.scanAfter r := by
    rw [hw .scan (by decide), hw .peer (by decide), missingSource_eq, clampInt_eq (by decide)]
    rfl
  have hround : s.deliverRound r = if (((s.scanAfter r).missing.zip s.scan.missing).any fun x => x.1 && !x.2) = true then
      (d.setScan (s.scanAfter r)).raise (.box .tempStale) else d.setScan (s.scanAfter r) := by
    have hm : (s.scanAfter r).missing = [0, 1, 2, 3].map (missingSource (r.temps.map tempOf) d.peer.groups) :=
      (congrArg ScanUnit.missing hscan).symm
    have ho : d.scan.missing = s.scan.missing := by rw [hw .scan (by decide)]; rfl
    rw [← hscan, ← ho]
    rfl
  have hwith : Within [.scan, .strings, .attention] s (d.setScan (s.scanAfter r)) :=
    (((s.setScan_within _).mono (by decide)).trans (hw.mono (by decide))).trans ((State.setScan_within _ _).mono (by decide))
  rw [hround]
  by_cases h : (((s.scanAfter r).missing.zip s.scan.missing).any fun x => x.1 && !x.2) = true
  · rw [if_pos h]
    refine ⟨State.raise_strings _ _, State.raise_scan _ _, hwith.trans ((State.raise_within _ _).mono (by decide)), fun i => ?_⟩
    rw [State.mem_raise]
    have hn : s.NewlyMissing r := (newlyMissing_iff rfl).1 h
    simp [hn]
  · rw [if_neg h]
    refine ⟨rfl, rfl, hwith, fun i => ?_⟩
    have hn : ¬s.NewlyMissing r := fun hx => h ((newlyMissing_iff rfl).2 hx)
    simp [hn]

/-- The comparator's work on a delivered round. -/
theorem State.decided_compared (u : State) (fresh : List Nat) : Compared u (u.compare fresh).decideDay :=
  (u.compare_compared fresh).trans (State.decideDay_compared _)

/-- The work of the blocks after the comparator (R22). -/
def State.blocksWork (v u : State) : State :=
  let w := (v.newPeriod u).clearWaiting.abortUnlit
  (((w.applyJudgements w.judgements).controllerTurn w.judgements).isolatorCompared.walk).lookForWork

theorem State.blocksWork_worked (v u : State) : Worked v (v.blocksWork u) := by
  have hw : Worked v (v.newPeriod u).clearWaiting.abortUnlit :=
    ((v.newPeriod_worked u).trans (State.clearWaiting_worked _)).trans (State.abortUnlit_worked _)
  exact ((((hw.trans (State.applyJudgements_worked _)).trans (State.controllerTurn_worked _ _)).trans
    (State.isolatorCompared_worked _)).trans (State.walk_worked _)).trans (State.lookForWork_worked _)

theorem State.frame_of_delivered {z u : State} (h : Within [.scan, .strings, .attention] z u) :
    u = { z with scan := u.scan, strings := u.strings, attention := u.attention } := by
  rw [← h .part (by decide), ← h .mode (by decide), ← h .box (by decide), ← h .link (by decide), ← h .peer (by decide),
    ← h .lockouts (by decide), ← h .sched (by decide), ← h .cell (by decide), ← h .isolator (by decide),
    ← h .probe (by decide), ← h .store (by decide), ← h .supervision (by decide), ← h .shutdown (by decide),
    ← h .free (by decide), ← h .pending (by decide)]

/-- Settles O42: the delivery of the figures is followed channel by channel, and the blocks' work after it keeps what
it published. -/
theorem sampleSetAddsOrCompletes : Obligations.SampleSetAddsOrCompletes := by
  unfold Obligations.SampleSetAddsOrCompletes
  intro s set
  have taken : exec (.sampleSet set) s = .next (s.takeSet set) := rfl
  refine ⟨fun h => ?_, fun r hr => ?_⟩
  · rw [taken, State.takeSet, h]
  · intro now sampleOf channels busSum
    have hset : s.takeSet set = if r.taken + 1 < r.total then
        (s.reach (s.scan.lastStart + 5 * (r.taken + 1))).setScan { s.scan with round := some (r.add set) }
        else (s.reach (s.scan.lastStart + 5 * (r.taken + 1))).completeRound (r.add set) := by
      rw [State.takeSet, hr]
      rfl
    refine ⟨fun h => ?_, fun h hl hd => ?_⟩
    · rw [taken, hset, if_pos h]
      rfl
    · intro readings temps named missing newly capturedWell
      let z := s.reach (s.scan.lastStart + 5 * (r.taken + 1))
      obtain ⟨d, hdef, hstr, hscan, hwith, hmem⟩ := z.deliverRound_spec (r.add set)
      let u := z.deliverRound (r.add set)
      let v := (u.compare (r.channels.map (·.string))).decideDay
      have hch : (r.add set).channels.map (·.string) = r.channels.map (·.string) := by
        simp [Round.add, Channel.add, Function.comp_def]
      have hpeer : z.peer = u.peer := (hwith .peer (by decide)).symm
      have ht : exec (.sampleSet set) s = .next (v.blocksWork u) := by
        rw [taken, hset, if_neg (Nat.not_lt.2 h), State.completeRound, State.published, hch, State.newPeriod, hpeer]
        rfl
      have hcomp : Compared u v := u.decided_compared _
      have hwork : Worked v (v.blocksWork u) := v.blocksWork_worked u
      have hall : Compared u (v.blocksWork u) := hcomp.trans hwork.compared
      have hheld (n : Nat) (hn : ∀ c ∈ channels, c.string ≠ n) : u.str n = s.str n := by
        rw [State.str_congr hstr, hdef]
        exact State.deliverChannels_held _ _ _ _ hn
      have hchan (c : Channel) (hc : c ∈ channels) (hn : stringNumber c.string = true) :
          u.str c.string = (s.str c.string).deliver c r.total r.capture := by
        rw [State.str_congr hstr, hdef]
        exact State.deliverChannels_str (r.add set).total (r.add set).capture channels (z.setScan _) hl (hch.symm ▸ hd) hc hn
      have hitems (i : Item) : i ∈ u.attention ↔ i ∈ s.attention ∨ (i = .box .tempStale ∧ newly) ∨
          (r.capture = true ∧ ∃ c ∈ channels, ¬capturedWell c ∧ i = .str .sensor c.string) := by
        rw [hmem, hdef, State.mem_deliverChannels, or_assoc, or_comm (a := _ ∧ ∃ _, _)]
        rfl
      refine ⟨v.blocksWork u, u, ht, ?_, ?_, fun n _ hn => hheld n hn, fun c hc hn => ?_, hitems, ?_, ?_⟩
      · have hframe := State.frame_of_delivered hwith
        rw [hscan] at hframe
        exact hframe
      · rw [hstr, hdef, State.deliverChannels_length]
        exact hl
      · rw [hchan c hc hn, StringRec.deliver_eq]
        rfl
      · exact ⟨hwork.peer, fun n => ⟨(hwork.strings.2 n).n, (hwork.strings.2 n).p⟩, rfl⟩
      · have hs := hall.scan
        rw [hscan] at hs
        refine ⟨hs.counter, hs.completed, hs.temps, hs.missing, hs.bus, fun n _ hn => ?_, fun c hc hn => ?_⟩
        · obtain ⟨hcurrent, hsat, hsensor, hoffset⟩ := hall.strings.2 n
          rw [hcurrent, hsat, hsensor, hoffset, hheld n hn]
          exact ⟨rfl, rfl, rfl, rfl⟩
        · obtain ⟨hcurrent, hsat, hsensor, hoffset⟩ := hall.strings.2 c.string
          rw [hchan c hc hn, StringRec.deliver_eq] at hcurrent hsat hsensor hoffset
          refine ⟨hoffset, hcurrent, ?_, fun hf => ?_, fun ht => ?_, fun ht hbad => ?_⟩
          · rw [hsat]
            exact decide_eq_true_iff
          · rw [hsensor]
            simp [hf]
          · rw [hsensor]
            simp only [ht, if_true]
            exact decide_eq_true_iff
          · exact hall.items _ ((hitems _).2 (.inr (.inr ⟨ht, c, hc, hbad, rfl⟩)))

end

end Sys2Proof.Machine
end

