-- ==== Sys2Proof/Proofs/LoadEnd.lean ====
section
/-! The load's end (O4): the tests of an image are those that R184 lists, the configuration in force is the loaded one, and
the rest of the start-up keeps it. -/

namespace Sys2Proof.Machine

/-! ## The tests of an image (R184) -/

theorem within_iff (lo hi x : Nat) : within lo hi x = true ↔ Between lo hi x := by simp [within]

theorem boxValid_iff (b : BoxSettings) : boxValid b = true ↔ ValidBox b := by
  have haveraging : [1, 2, 4, 8].contains b.averaging = true ↔
      b.averaging = 1 ∨ b.averaging = 2 ∨ b.averaging = 4 ∨ b.averaging = 8 := by simp
  simp only [boxValid, Bool.and_eq_true, within_iff, decide_eq_true_eq, haveraging]
  constructor
  · intro h
    exact {
      periods := by omega, averaging := by omega, daylight := by omega, limits := by omega, quench := by omega
      heat := by omega, contact := by omega, probe := by omega, reconnection := by omega, windows := by omega }
  · rintro ⟨hperiods, haver, hdaylight, hlimits, hquench, hheat, hcontact, hprobe, hreconnection, hwindows⟩
    omega

theorem groupValid_iff (g : GroupSettings) : groupValid g = true ↔ ValidGroup g := by
  simp only [groupValid, Bool.and_eq_true, within_iff, decide_eq_true_eq]
  constructor
  · intro h
    exact { beta := by omega, deficit := by omega }
  · rintro ⟨hbeta, hdeficit⟩
    omega

theorem stringValid_iff (c : StringSettings) : stringValid c = true ↔ ValidString c := by
  simp only [stringValid, Bool.and_eq_true, within_iff, decide_eq_true_eq]
  constructor
  · rintro ⟨⟨⟨⟨⟨hgroup, hinput⟩, hrated⟩, hmodules⟩, hvoc⟩, hproduct⟩
    exact { place := ⟨hgroup.2, hinput⟩, rating := ⟨hrated, hmodules, hvoc⟩, product := hproduct }
  · rintro ⟨⟨hgroup, hinput⟩, ⟨hrated, hmodules, hvoc⟩, hproduct⟩
    exact ⟨⟨⟨⟨⟨⟨Nat.zero_le _, hgroup⟩, hinput⟩, hrated⟩, hmodules⟩, hvoc⟩, hproduct⟩

/-- A symmetric relation of every two entries of a table, by their numbers. -/
theorem pairwise_iff_getNum {α : Type} {R : α → α → Prop} (hR : ∀ x y, R x y → R y x) (l : List α) :
    l.Pairwise R ↔ ∀ m n x y, getNum l m = some x → getNum l n = some y → m ≠ n → R x y := by
  rw [List.pairwise_iff_getElem]
  constructor
  · intro h m n x y hm hn hne
    rcases m with _ | m
    · cases l <;> cases hm
    rcases n with _ | n
    · cases l <;> cases hn
    rw [getNum_eq, List.getElem?_eq_some_iff] at hm hn
    obtain ⟨hm, rfl⟩ := hm
    obtain ⟨hn, rfl⟩ := hn
    rcases Nat.lt_or_gt_of_ne (show m ≠ n by omega) with hlt | hlt
    · exact h m n hm hn hlt
    · exact hR _ _ (h n m hn hm hlt)
  · intro h m n hm hn hlt
    refine h (m + 1) (n + 1) _ _ ?_ ?_ (by omega)
    · rw [getNum_eq, List.getElem?_eq_getElem hm]
    · rw [getNum_eq, List.getElem?_eq_getElem hn]

/-- R184: no sensor input is named by two used strings. -/
theorem inputs_distinct_iff (l : List StringSettings) : ((l.filter (·.used)).map (·.input)).Nodup ↔
    ∀ m n x y, getNum l m = some x → getNum l n = some y → x.used = true → y.used = true → x.input = y.input → m = n := by
  have hpair : ((l.filter (·.used)).map (·.input)).Nodup ↔
      l.Pairwise fun x y => x.used = true → y.used = true → x.input ≠ y.input := by
    rw [List.Nodup, List.pairwise_map, List.pairwise_filter]
  rw [hpair, pairwise_iff_getNum fun x y h hy hx => (h hx hy).symm]
  constructor
  · intro h m n x y hm hn hx hy hxy
    by_contra hne
    exact h m n x y hm hn hne hx hy hxy
  · intro h m n x y hm hn hne hx hy hxy
    exact hne (h m n x y hm hn hx hy hxy)

/-- R184: a loaded image is taken when every test holds. -/
theorem imageValid_iff (i : Image) : imageValid i = true ↔ ValidImage i := by
  have hlockouts : (i.lockouts.map (·.string)).Nodup ↔ i.lockouts.Pairwise fun x y => x.string ≠ y.string := by
    rw [List.Nodup, List.pairwise_map]
  simp only [imageValid, linkValid, Bool.and_eq_true, within_iff, boxValid_iff, beq_iff_eq, List.all_eq_true, groupValid_iff,
    stringValid_iff, decide_eq_true_eq, inputs_distinct_iff, hlockouts, locking_iff]
  constructor
  · rintro ⟨⟨⟨⟨⟨⟨⟨⟨hlink, hbox⟩, hgroups⟩, hgroup⟩, hstrings⟩, hstring⟩, hinputs⟩, hdistinct⟩, hrecords⟩
    exact ⟨hlink, hbox, ⟨hgroups, hgroup⟩, ⟨hstrings, hstring⟩, hinputs, hdistinct, hrecords⟩
  · rintro ⟨hlink, hbox, ⟨hgroups, hgroup⟩, ⟨hstrings, hstring⟩, hinputs, hdistinct, hrecords⟩
    exact ⟨⟨⟨⟨⟨⟨⟨⟨hlink, hbox⟩, hgroups⟩, hgroup⟩, hstrings⟩, hstring⟩, hinputs⟩, hdistinct⟩, hrecords⟩

theorem State.loaded_iff (s : State) (answers : Bool) (i : Image) :
    s.loaded answers = some i ↔ answers = true ∧ s.store.image = some i ∧ ValidImage i := by
  unfold State.loaded
  split
  · next h => simp [h, Option.filter_eq_some_iff, imageValid_iff]
  · next h => simp [h]

/-! ## The settings in force -/

theorem map_mapNum {α β γ : Type} (f : Nat → α → β) (g : β → γ) (h : α → γ) (hf : ∀ n x, g (f n x) = h x) (l : List α)
    (n : Nat) : (mapNum f n l).map g = l.map h := by
  induction l generalizing n with
  | nil => rfl
  | cons x xs ih => simp [mapNum, hf, ih]

theorem zipWith_map_right {α β γ : Type} (f : α → β → γ) (g : γ → β) (hf : ∀ x y, g (f x y) = y) (l : List α) (k : List β)
    (h : k.length ≤ l.length) : (List.zipWith f l k).map g = k := by
  induction k generalizing l with
  | nil => simp
  | cons y ys ih =>
    cases l with
    | nil => cases h
    | cons x xs => simp [hf, ih xs (Nat.le_of_succ_le_succ h)]

/-- R184: the configuration in force is the one taken, with its tables as long as those of the state. -/
theorem State.takeSettings_settings (s : State) (c : Settings) (hg : c.groups.length ≤ s.peer.groups.length)
    (hs : c.strings.length ≤ s.strings.length) : (s.takeSettings c).settings = c := by
  have groups : (s.takeSettings c).peer.groups.map (·.cfg) = c.groups := by
    refine (map_mapNum _ _ (fun r : GroupRec => r.cfg) ?_ _ 1).trans (zipWith_map_right _ _ ?_ _ _ hg)
    · intro _ _; rfl
    · intro _ _; rfl
  have strings : (s.takeSettings c).strings.map (·.cfg) = c.strings := zipWith_map_right _ _ (fun _ _ => rfl) _ _ hs
  rw [State.settings, groups, strings]
  rfl

/-- A record whose configuration stays. -/
def StringRec.SameCfg (r q : StringRec) : Prop := q.cfg = r.cfg

theorem Each.sameCfg_of_strings {s t : State} (h : t.strings = s.strings) : Each StringRec.SameCfg s t :=
  Each.of_strings (R := StringRec.SameCfg) (fun _ => rfl) h

/-- What the rest of the start-up keeps of the load: all but the way off the bus, the configurations and the items. -/
structure Started (s t : State) : Prop where
  within : Within breakPath s t
  strings : Each StringRec.SameCfg s t
  items : Grows s t

theorem Started.refl (s : State) : Started s s := ⟨Within.refl _ s, Each.sameCfg_of_strings rfl, .refl s⟩

theorem Started.trans {s t u : State} (h : Started s t) (k : Started t u) : Started s u :=
  ⟨h.within.trans k.within, h.strings.trans (R := StringRec.SameCfg) (fun _ _ _ h k => Eq.trans k h) k.strings, h.items.trans k.items⟩

theorem Started.of_calm {s t : State} (hc : Calm s t) (hw : Within breakPath s t) (hg : Grows s t) : Started s t :=
  ⟨hw, hc.strings.mono fun _ _ h => h.cfg, hg⟩

theorem State.openRequest_started (s : State) : Started s s.openRequest :=
  .of_calm s.openRequest_walked.calm s.openRequest_within s.openRequest_grows

theorem State.raise_started (s : State) (i : Item) : Started s (s.raise i) :=
  .of_calm (s.raise_calm i) ((s.raise_within i).path (by decide)) (.raise s i)

theorem State.updStr_started (s : State) (n : Nat) {f : StringRec → StringRec} (h : ∀ r, (f r).cfg = r.cfg) :
    Started s (s.updStr n f) :=
  ⟨(s.updStr_within n f).path (by decide), Each.updStr (R := StringRec.SameCfg) (fun _ => rfl) s n (h _), .of_eq rfl⟩

theorem State.cellCheck_started (s : State) : Started s s.cellCheck := by
  have cell (x : Cell) : Started s (s.setCell x) :=
    ⟨(s.setCell_within x).path (by decide), Each.sameCfg_of_strings rfl, .of_eq rfl⟩
  have faulted : Started s (s.cellFaulted .reset none) := (cell _).trans (State.raise_started _ (.box .cellFault))
  unfold State.cellCheck
  split
  · exact faulted.trans (State.openRequest_started _)
  · exact .refl s

theorem State.lineCheck_started (s : State) : Started s s.lineCheck := by
  unfold State.lineCheck
  split
  · exact s.openRequest_started.trans (State.raise_started _ _)
  · exact .refl s

theorem State.shutdownCatch_started (s : State) (n : Nat) : Started s (s.shutdownCatch n) :=
  .of_calm (s.shutdownCatch_calm n) (Within.ite (s.request_within n _) (Within.refl _ s)) (s.shutdownCatch_grows n)

theorem State.connect_started (s : State) (n : Nat) : Started s (s.connect n) := s.updStr_started n fun _ => rfl

theorem State.openRecord_started (s : State) (n : Nat) (c : Cause) (k : Option BreakKind) : Started s (s.openRecord n c k) :=
  s.updStr_started n fun _ => rfl

theorem State.place_started (s : State) (n : Nat) (p : Purpose) (o : Origin) : Started s (s.place n p o) :=
  .of_calm (s.place_calm n p o) ((s.place_within n p o).path (by decide)) (.place s n p o)

theorem State.placeString_started (s : State) (n : Nat) : Started s (s.placeString n) := by
  have budget : Started s (s.updStr n fun r => { r with budget := s.box.perDayMax }) := s.updStr_started n fun _ => rfl
  unfold State.placeString
  split
  · exact .refl s
  · simp only
    split
    · exact (budget.trans (State.connect_started _ n)).trans (State.shutdownCatch_started _ n)
    · exact budget.trans (.of_calm (State.queueString_calm _ n _) (State.queueString_within _ n _) (State.queueString_grows _ n _))
    · exact budget.trans (State.updStr_started _ n fun _ => rfl)
    · refine (Started.trans ?_ (State.openRecord_started _ n _ _)).trans (State.place_started _ n _ _)
      exact budget.trans (State.updStr_started _ n fun _ => rfl)

theorem Started.foldl {f : State → Nat → State} (hf : ∀ t n, Started t (f t n)) (l : List Nat) (s : State) :
    Started s (l.foldl f s) := by
  induction l generalizing s with
  | nil => exact .refl s
  | cons n ns ih => exact (hf s n).trans (ih (f s n))

/-- R150 to R153: the start-up after the load, up to the first round. -/
theorem State.reconciled_started (s : State) : Started s s.cellCheck.lineCheck.reconcile :=
  (s.cellCheck_started.trans (State.lineCheck_started _)).trans (Started.foldl State.placeString_started _ _)

/-- The rest of the start-up keeps the configuration in force. -/
theorem Started.settings {s t : State} (h : Started s t) (hl : s.strings.length = 24) : t.settings = s.settings := by
  have cfgs (u : State) (hu : u.strings.length = 24) : u.strings.map (·.cfg) = Config.stringNumbers.map fun n => (u.str n).cfg := by
    conv_lhs => rw [State.strings_eq hu, List.map_map]
    rfl
  have strings : t.strings.map (·.cfg) = s.strings.map (·.cfg) := by
    rw [cfgs t (h.strings.1.trans hl), cfgs s hl]
    exact List.map_congr_left fun n _ => h.strings.2 n
  rw [State.settings, State.settings, strings, h.within .link (by decide), h.within .box (by decide),
    h.within .peer (by decide)]

/-! ## The load's end -/

/-- R26, R150: the first round has started and the part runs. -/
theorem State.startRound_some (s : State) : s.startRound.scan.round.isSome = true := by
  cases h : s.scan.round with
  | some r => simp [State.startRound, h]
  | none => rw [State.startRound_eq h]; rfl

theorem State.firstRound_within (s : State) : Within [.scan] s s.firstRound := by
  have round (t : State) : Within [.scan] t t.startRound := by
    unfold State.startRound
    split
    · exact Within.refl _ _
    · exact State.setScan_within _ _
  exact (s.setScan_within _).trans (round _)

theorem State.load_some {s : State} {answers : Bool} {i : Image} (h : s.loaded answers = some i) :
    s.load answers = ((s.takeSettings i.settings).setLockouts (keptLockouts i)).setMode .run ∧
      s.loadedSettings answers = i.settings := by
  unfold State.load State.loadedSettings
  simp only [h]
  exact ⟨trivial, trivial⟩

theorem State.load_none {s : State} {answers : Bool} (h : s.loaded answers = none) :
    s.load answers = (((s.takeSettings Config.settings).setLockouts []).setMode .setup).raise (.box .storeFault) ∧
      s.loadedSettings answers = Config.settings := by
  unfold State.load State.loadedSettings
  simp only [h, State.raiseBox_eq]
  exact ⟨trivial, trivial⟩

theorem State.raise_settings (s : State) (i : Item) : (s.raise i).settings = s.settings := by
  rw [State.settings, State.settings, State.raise_link, State.raise_box, State.raise_peer, State.raise_strings]

/-- R184: the load takes the settings, and the store holds no write. -/
theorem State.load_settings (s : State) (answers : Bool) (h : TableSizes s) :
    (s.load answers).settings = s.loadedSettings answers ∧ (s.load answers).store.writing = none ∧
      (s.load answers).store.pending = false ∧ (s.load answers).store.changed = false ∧
      (s.load answers).store.stored = s.loadedSettings answers ∧
      (s.load answers).link.operating = (s.loadedSettings answers).link := by
  obtain ⟨hs, hg⟩ := h
  obtain ⟨hcs, hcg⟩ := s.loadedSettings_lengths answers
  have taken := s.takeSettings_settings (s.loadedSettings answers) (by rw [hg, hcg]) (by rw [hs, hcs])
  cases hi : s.loaded answers with
  | some i =>
    obtain ⟨hload, hset⟩ := State.load_some hi
    rw [hset] at taken
    rw [hload, hset]
    exact ⟨taken, rfl, rfl, rfl, rfl, rfl⟩
  | none =>
    obtain ⟨hload, hset⟩ := State.load_none hi
    rw [hset] at taken
    rw [hload, hset, State.raise_settings, State.raise_store, State.raise_link]
    exact ⟨taken, rfl, rfl, rfl, rfl, rfl⟩

theorem State.loadEnded_eq {s : State} (h : s.part.stage = .load) (answers : Bool) :
    s.loadEnded answers = (s.load answers).cellCheck.lineCheck.reconcile.firstRound.begin := if_pos h

/-- Settles O4: the load alone writes what the statement names of the mode, the lockouts and the settings, and the rest of the
start-up stays within the way off the bus. -/
theorem loadEndTakesTheImageOrTheDefaults : Obligations.LoadEndTakesTheImageOrTheDefaults := by
  unfold Obligations.LoadEndTakesTheImageOrTheDefaults
  intro s answers hstage hsizes
  refine ⟨s.loaded_iff answers, ?_⟩
  obtain ⟨u, hu⟩ : ∃ u, u = s.load answers := ⟨_, rfl⟩
  obtain ⟨v, hv⟩ : ∃ v, v = u.cellCheck.lineCheck.reconcile := ⟨_, rfl⟩
  obtain ⟨hset, hwriting, hpending, hchanged, hstored, hoper⟩ := s.load_settings answers hsizes
  rw [← hu] at hset hwriting hpending hchanged hstored hoper
  have hstarted : Started u v := hv ▸ u.reconciled_started
  have hround : Within [.scan] v v.firstRound := v.firstRound_within
  have hlen : u.strings.length = 24 := by
    rw [hu, (s.load_tables answers).1, List.length_zipWith, hsizes.1, (s.loadedSettings_lengths answers).1, Nat.min_self]
  have hkeep : Within (.scan :: breakPath) u v.firstRound :=
    (hstarted.within.mono (List.subset_cons_self _ _)).trans (hround.mono (by simp))
  have hstore : v.firstRound.store = u.store := hkeep .store (by decide)
  have hsettings : v.firstRound.begin.settings = u.settings := by
    rw [← hstarted.settings hlen, State.settings, State.settings, ← hround .link (by decide), ← hround .box (by decide),
      ← hround .peer (by decide), ← hround .strings (by decide)]
    rfl
  have hend : exec (.loadEnd answers) s = .next v.firstRound.begin := by
    rw [hv, hu, ← State.loadEnded_eq hstage]
    rfl
  refine ⟨v.firstRound.begin, hend, rfl, rfl, State.startRound_some _, ?_, ?_, ?_, ?_⟩
  · exact (congrArg SettingsStore.writing hstore).trans hwriting
  · exact (congrArg SettingsStore.pending hstore).trans hpending
  · exact (congrArg SettingsStore.changed hstore).trans hchanged
  · have hstoredEnd : v.firstRound.begin.store.stored = u.store.stored := congrArg SettingsStore.stored hstore
    have hport : v.firstRound.link = u.link := hkeep .link (by decide)
    have hlink : v.firstRound.begin.link.operating = u.link.operating := congrArg (·.operating) hport
    have hmode : v.firstRound.begin.mode = u.mode := hkeep .mode (by decide)
    have hlockouts : v.firstRound.begin.lockouts = u.lockouts := hkeep .lockouts (by decide)
    have hitems : Grows u v.firstRound.begin := hstarted.items.trans (.of_eq (hround .attention (by decide)))
    rw [hsettings, hset, hstoredEnd, hstored, hlink, hoper, hmode, hlockouts, hu]
    cases hi : s.loaded answers with
    | some i =>
      obtain ⟨hload, hsettings⟩ := State.load_some hi
      rw [hload, hsettings]
      exact ⟨rfl, rfl, rfl, rfl, rfl⟩
    | none =>
      obtain ⟨hload, hsettings⟩ := State.load_none hi
      have hfault : Item.box .storeFault ∈ u.attention := by rw [hu, hload]; exact State.mem_raise_self _ _
      rw [hload, hsettings, State.raise_mode, State.raise_lockouts]
      exact ⟨rfl, rfl, rfl, rfl, rfl, hitems _ hfault⟩

end Sys2Proof.Machine
end

