-- ==== Sys2Proof/Proofs/Reconciled.lean ====
section
/-! Reconciliation (O5). Before the first completion a walk takes no string whose contact is CLOSED, so each string's
placement is a change of its own record with an entry put in the queue or in the probe list, and the strings are placed one
after the other. -/

namespace Sys2Proof.Machine

section
variable {c s t : State} {n : Nat}

/-! ## A walk before the first completion (R79, R153) -/

/-- R79: before the first completion a string whose contact is CLOSED is left to wait. -/
theorem State.visit_still (hc : s.scan.completed = false) {e : QueueEntry} (hp : (s.str e.string).position = .closed)
    (earlier : Bool) : s.visit earlier e = (s, earlier) := by
  unfold State.visit
  simp only
  rw [if_neg (by rw [hp]; decide), if_pos hc]

theorem State.walk_still (hc : s.scan.completed = false) (hq : ∀ e ∈ s.sched.queue, (s.str e.string).position = .closed) :
    s.walk = s := by
  have visits (l : List QueueEntry) (hl : ∀ e ∈ l, (s.str e.string).position = .closed) (b : Bool) :
      l.foldl (fun (acc : State × Bool) e => acc.1.visit acc.2 e) (s, b) = (s, b) := by
    induction l with
    | nil => rfl
    | cons e es ih =>
      rw [List.foldl_cons, State.visit_still hc (hl e List.mem_cons_self)]
      exact ih fun x hx => hl x (List.mem_cons_of_mem _ hx)
  have once : s.walkOnce = s := by rw [State.walkOnce, visits _ hq]
  have arrival : s.reachedOpen s = false := by simp [State.reachedOpen]
  unfold State.walk
  simp only [once, arrival]
  exact if_neg (by simp)

/-! ## What reconciliation keeps -/

/-- A state within reconciliation, which began in state `c`: every entry is of a string whose contact is CLOSED. -/
structure Placing (c s : State) : Prop where
  within : Within [.strings, .sched, .probe] c s
  size : s.strings.length = 24
  contacts : ∀ e ∈ s.sched.queue, (s.str e.string).position = .closed
  entries : ∀ e ∈ s.sched.queue, e.severity = e.cause.severity ∧ (c.shutdown.asserted = true → e.cause = .shutdown)
  flight : c.shutdown.asserted = true → s.probe.flight = none

/-- A part of the placement of string `n`. -/
structure Passing (c : State) (n : Nat) (s t : State) : Prop where
  placing : Placing c t
  others : ∀ m, m ≠ n → t.str m = s.str m
  queue : ∀ e ∈ s.sched.queue, e.string ≠ n → e ∈ t.sched.queue
  list : ∀ e ∈ s.probe.list, e ∈ t.probe.list
  listed : ∀ e ∈ t.probe.list, e ∈ s.probe.list ∨ e.string = n

theorem Passing.refl (h : Placing c s) : Passing c n s s :=
  ⟨h, fun _ _ => rfl, fun _ he _ => he, fun _ he => he, fun _ he => .inl he⟩

theorem Passing.trans {u : State} (h : Passing c n s t) (k : Passing c n t u) : Passing c n s u where
  placing := k.placing
  others := fun m hm => (k.others m hm).trans (h.others m hm)
  queue := fun e he hn => k.queue e (h.queue e he hn) hn
  list := fun e he => k.list e (h.list e he)
  listed := fun e he => (k.listed e he).elim (h.listed e) .inr

/-- A change of the record that leaves the contact's reading. -/
theorem Placing.updStr (h : Placing c s) (n : Nat) {f : StringRec → StringRec} (hf : ∀ r, (f r).position = r.position) :
    Passing c n s (s.updStr n f) := by
  have position (m : Nat) : ((s.updStr n f).str m).position = (s.str m).position := by
    rcases s.str_updStr n m f with hm | ⟨rfl, hm⟩ <;> rw [hm]
    exact hf _
  refine ⟨⟨h.within.trans ((s.updStr_within n f).mono (by simp)), (s.updStr_length n f).trans h.size, fun e he => ?_,
    h.entries, h.flight⟩, fun m hm => s.str_updStr_ne f n m hm, fun _ he _ => he, fun _ he => he, fun _ he => .inl he⟩
  rw [position]
  exact h.contacts e he

/-- R112: the string is put to the probe. -/
theorem Placing.place (h : Placing c s) (n : Nat) (p : Purpose) (o : Origin) : Passing c n s (s.place n p o) := by
  have hw : Within [.strings, .sched, .probe] c (s.place n p o) := h.within.trans ((s.place_within n p o).mono (by simp))
  have hsched : (s.place n p o).sched = s.sched := s.place_sched n p o
  refine ⟨⟨hw, (congrArg List.length (s.place_strings n p o)).trans h.size, fun e he => ?_, fun e he => ?_, fun ha => ?_⟩,
    fun m _ => s.place_str n m p o, fun e he _ => hsched ▸ he, fun e he => ?_, fun e he => ?_⟩
  · rw [State.place_str]; exact h.contacts e (hsched ▸ he)
  · exact h.entries e (hsched ▸ he)
  · have hs : s.shutdown.asserted = true := by rw [h.within .shutdown (by decide)]; exact ha
    rw [State.place_flight_asserted hs]; exact h.flight ha
  · rw [State.place_list]
    split
    · exact he
    · exact List.mem_append_left _ he
  · rw [State.place_list] at he
    split at he
    · exact .inl he
    · exact (List.mem_append.1 he).imp_right fun hm => congrArg ProbeEntry.string (List.mem_singleton.1 hm)

theorem Placing.causeAdmitted (h : Placing c s) (k : ReqCause) : s.causeAdmitted k = c.causeAdmitted k := by
  unfold State.causeAdmitted
  rw [h.within .shutdown (by decide)]

/-- R75: a string whose contact is CLOSED is queued, and no walk takes it. -/
theorem Placing.queueString (h : Placing c s) (hc : c.scan.completed = false) (hp : (s.str n).position = .closed)
    (k : ReqCause) : s.queueString n k = s.admitted n k ∧ Passing c n s (s.admitted n k) := by
  have position (m : Nat) : ((s.admitted n k).str m).position = (s.str m).position := by
    rcases s.str_updStr n m (s.queuedRecord k) with hm | ⟨rfl, hm⟩
    · exact congrArg StringRec.position hm
    · obtain ⟨b, hb⟩ := s.queuedRecord_eq k (s.str m)
      have hpos := congrArg StringRec.position hb
      exact (congrArg StringRec.position hm).trans hpos
  have contacts : ∀ e ∈ s.queueWith n k, ((s.admitted n k).str e.string).position = .closed := fun e he => by
    rw [position]
    rcases State.mem_queueWith he with rfl | he
    · exact hp
    · exact h.contacts e he
  have entries : ∀ e ∈ s.queueWith n k, e.severity = e.cause.severity ∧ (c.shutdown.asserted = true → e.cause = .shutdown) :=
    fun e he => by
      rcases State.mem_queueWith he with rfl | he
      · exact ⟨rfl, fun ha => (h.causeAdmitted k).trans (if_pos ha)⟩
      · exact h.entries e he
  have keeps : ∀ e ∈ s.sched.queue, e.string ≠ n → e ∈ s.queueWith n k := fun e he hn => by
    unfold State.queueWith
    split
    · exact (mem_insertEntry _ _ _ _ _).2 (.inr (List.mem_filter.2 ⟨he, by simpa using hn⟩))
    · exact (mem_insertEntry _ _ _ _ _).2 (.inr he)
  have hw : Within [.strings, .sched, .probe] c (s.admitted n k) :=
    (h.within.trans ((s.updStr_within n _).mono (by simp))).trans ((State.setSched_within _ _).mono (by simp))
  refine ⟨?_, ⟨hw, (s.admitted_length n k).trans h.size, contacts, entries, h.flight⟩, fun m hm => State.admitted_str_ne hm, keeps,
    fun _ he => he, fun _ he => .inl he⟩
  rw [State.queueString_eq]
  exact State.walk_still (s := s.admitted n k) ((congrArg ScanUnit.completed (hw .scan (by decide))).trans hc) contacts

/-- A queued record is the same throughout reconciliation. -/
theorem Placing.queuedRecord (h : Placing c s) (k : ReqCause) (r : StringRec) : s.queuedRecord k r = c.queuedRecord k r := by
  unfold State.queuedRecord State.openedFor
  rw [h.causeAdmitted, h.within .scan (by decide), h.within .peer (by decide), h.within .box (by decide)]

/-! ## One string's placement (R152) -/

/-- A record on the bus (R4, R5, R67). -/
def StringRec.joined (r : StringRec) : StringRec := { r.zeroCriteria with state := .connected, cause := none, verdict := none }

/-- A record found off the bus after a restart (R8, R152). -/
def State.restarted (c : State) (r : StringRec) : StringRec := { r with
  state := .isolated, cause := some .restart, verdict := none
  record := some ⟨.restart, c.scan.counter, c.peer.day, some .alreadyOpen, none, none, none, none, 0⟩ }

/-- The record with which reconciliation leaves a used string. -/
def State.placedUsed (c : State) (n : Nat) (r : StringRec) : StringRec :=
  match r.dropPosition, c.locked n with
  | .closed, false => if c.shutdown.asserted = true then c.queuedRecord .shutdown r.joined else r.joined
  | .closed, true => c.queuedRecord .lockoutEnforce r
  | .opened, true => { r with state := .lockedOut }
  | .opened, false => c.restarted r

section
variable {r : StringRec}

theorem State.placedUsed_closed (hd : r.dropPosition = .closed) (hk : c.locked n = false) :
    c.placedUsed n r = if c.shutdown.asserted = true then c.queuedRecord .shutdown r.joined else r.joined := by
  simp only [State.placedUsed, hd, hk]

theorem State.placedUsed_enforced (hd : r.dropPosition = .closed) (hk : c.locked n = true) :
    c.placedUsed n r = c.queuedRecord .lockoutEnforce r := by
  simp only [State.placedUsed, hd, hk]

theorem State.placedUsed_lockedOut (hd : r.dropPosition = .opened) (hk : c.locked n = true) :
    c.placedUsed n r = { r with state := .lockedOut } := by
  simp only [State.placedUsed, hd, hk]

theorem State.placedUsed_isolated (hd : r.dropPosition = .opened) (hk : c.locked n = false) :
    c.placedUsed n r = c.restarted r := by
  simp only [State.placedUsed, hd, hk]

end

/-- The record with which reconciliation leaves a string. -/
def State.placedRecord (c : State) (n : Nat) (r : StringRec) : StringRec :=
  if r.cfg.used = true then c.placedUsed n { r with budget := c.box.perDayMax } else r

/-- A QUEUED string has its entry in the queue, an ISOLATED one its DIAGNOSE entry in the probe list. -/
structure Settled (n : Nat) (t : State) : Prop where
  queued : (t.str n).state = .queued → ∃ e ∈ t.sched.queue, e.string = n ∧ (t.str n).cause = some (.req e.cause)
  isolated : (t.str n).state = .isolated →
    ∃ e ∈ t.probe.list, e.string = n ∧ e.purpose = .diagnose ∧ e.origin = .auto

/-- A string placed is left by the placement of another. -/
theorem Settled.passing {m : Nat} (h : Settled n s) (k : Passing c m s t) (hm : n ≠ m) : Settled n t := by
  have hs := k.others n hm
  refine ⟨fun hq => ?_, fun hi => ?_⟩
  · rw [hs] at hq ⊢
    obtain ⟨e, he, hn, hcause⟩ := h.queued hq
    exact ⟨e, k.queue e he (hn ▸ hm), hn, hcause⟩
  · rw [hs] at hi
    obtain ⟨e, he, hentry⟩ := h.isolated hi
    exact ⟨e, k.list e he, hentry⟩

theorem Settled.of_state {x : StringState} (hx : (t.str n).state = x) (hq : x ≠ .queued) (hi : x ≠ .isolated) : Settled n t :=
  ⟨fun h => absurd (hx.symm.trans h) hq, fun h => absurd (hx.symm.trans h) hi⟩

/-- What is left of string `n`'s placement. -/
structure PlacedAs (c : State) (n : Nat) (r : StringRec) (s t : State) : Prop where
  passing : Passing c n s t
  record : t.str n = r
  settled : Settled n t

/-- A string whose contact is CLOSED is queued. -/
theorem Placing.queued (h : Placing c s) (hc : c.scan.completed = false) (hn : stringNumber n = true)
    (hp : (s.str n).position = .closed) (k : ReqCause) : PlacedAs c n (c.queuedRecord k (s.str n)) s (s.queueString n k) := by
  obtain ⟨heq, hpass⟩ := h.queueString hc hp k
  have hrec : (s.admitted n k).str n = c.queuedRecord k (s.str n) := by
    rw [State.admitted_str h.size hn, h.queuedRecord]
  rw [heq]
  obtain ⟨b, hb⟩ := c.queuedRecord_eq k (s.str n)
  refine ⟨hpass, hrec, fun _ => ⟨s.entryFor n k, s.entryFor_mem n k, rfl, ?_⟩, fun hi => ?_⟩
  · rw [hrec, hb, ← h.causeAdmitted]; rfl
  · rw [hrec, hb] at hi; cases hi

/-- R152: a used string's placement, its budget already restored. -/
def State.placeByContact (b : State) (n : Nat) : State :=
  match (b.str n).dropPosition, b.locked n with
  | .closed, false => (b.connect n).shutdownCatch n
  | .closed, true => b.queueString n .lockoutEnforce
  | .opened, true => b.updStr n fun r => { r with state := .lockedOut }
  | .opened, false => ((b.updStr n fun r => { r with state := .isolated, cause := some .restart }).openRecord n .restart
      (some .alreadyOpen)).place n .diagnose .auto

theorem State.placeString_used (hl : s.strings.length = 24) (hn : stringNumber n = true) (hu : (s.str n).cfg.used = true) :
    s.placeString n = (s.updStr n fun r => { r with budget := s.box.perDayMax }).placeByContact n := by
  have hd : ((s.updStr n fun r => { r with budget := s.box.perDayMax }).str n).dropPosition = (s.str n).dropPosition := by
    rw [State.str_updStr_valid _ hl hn]
  unfold State.placeByContact
  rw [hd]
  exact if_neg (by simp [hu])

/-- R152, R144: a string found CLOSED is on the bus; with the line asserted it is queued at once. -/
theorem Placing.joined (h : Placing c s) (hc : c.scan.completed = false) (hn : stringNumber n = true)
    (hp : (s.str n).position = .closed) :
    PlacedAs c n (if c.shutdown.asserted = true then c.queuedRecord .shutdown (s.str n).joined else (s.str n).joined) s
      ((s.connect n).shutdownCatch n) := by
  have hpass : Passing c n s (s.connect n) := h.updStr n fun _ => rfl
  have hrec : (s.connect n).str n = (s.str n).joined := State.str_updStr_valid _ h.size hn
  have hshut : (s.connect n).shutdown = c.shutdown := h.within .shutdown (by decide)
  by_cases ha : c.shutdown.asserted = true
  · rw [if_pos ha, State.shutdownCatch_connected (s := s.connect n) (by rw [hrec]; rfl) (by rw [hshut]; exact ha), ← hrec]
    have hq := hpass.placing.queued hc hn (by rw [hrec]; exact hp) .shutdown
    exact ⟨hpass.trans hq.passing, hq.record, hq.settled⟩
  · have hsame : (s.connect n).shutdownCatch n = s.connect n := if_neg (by rw [hshut]; exact ha)
    rw [if_neg ha, hsame]
    exact ⟨hpass, hrec, .of_state (x := .connected) (congrArg StringRec.state hrec) (by decide) (by decide)⟩

/-- R152: a string found OPEN without a lockout record is ISOLATED and put to the probe. -/
theorem Placing.restarted (h : Placing c s) (hn : stringNumber n = true) (hfree : ∀ e ∈ s.probe.list, e.string ≠ n) :
    PlacedAs c n (c.restarted (s.str n)) s
      (((s.updStr n fun r => { r with state := .isolated, cause := some .restart }).openRecord n .restart
        (some .alreadyOpen)).place n .diagnose .auto) := by
  obtain ⟨u, hu⟩ : ∃ u : State, u = s.updStr n fun r => { r with state := .isolated, cause := some .restart } := ⟨_, rfl⟩
  have hisolated : Passing c n s u := hu ▸ h.updStr n fun _ => rfl
  have hopened : Passing c n u (u.openRecord n .restart (some .alreadyOpen)) := hisolated.placing.updStr n fun _ => rfl
  have hlisted := hopened.placing.place n .diagnose .auto
  have hscan : u.scan = c.scan := hisolated.placing.within .scan (by decide)
  have hpeer : u.peer = c.peer := hisolated.placing.within .peer (by decide)
  have hrec : ((u.openRecord n .restart (some .alreadyOpen)).place n .diagnose .auto).str n = c.restarted (s.str n) := by
    rw [State.place_str, State.openRecord, State.str_updStr_valid _ hisolated.placing.size hn, hscan, hpeer, hu,
      State.str_updStr_valid _ h.size hn]
    rfl
  have hfree' : (u.openRecord n .restart (some .alreadyOpen)).holdsEntry n = false := by
    rw [← Bool.not_eq_true, State.holdsEntry_iff]
    rintro ⟨e, he, hen⟩
    have he' : e ∈ s.probe.list := by rw [hu] at he; exact he
    exact hfree e he' hen
  rw [← hu]
  refine ⟨(hisolated.trans hopened).trans hlisted, hrec, fun hq => ?_, fun _ => ?_⟩
  · rw [hrec] at hq; cases hq
  · refine ⟨⟨n, .diagnose, .auto, 0, false⟩, ?_, rfl, rfl, rfl⟩
    rw [State.place_list, if_neg (by rw [hfree']; decide)]
    exact List.mem_append_right _ (List.mem_singleton_self _)

theorem Placing.placeByContact (h : Placing c s) (hc : c.scan.completed = false) (hn : stringNumber n = true)
    (hp : (s.str n).dropPosition = (s.str n).position) (hfree : ∀ e ∈ s.probe.list, e.string ≠ n) :
    PlacedAs c n (c.placedUsed n (s.str n)) s (s.placeByContact n) := by
  have hlocked : s.locked n = c.locked n := State.locked_congr (h.within .lockouts (by decide)) n
  unfold State.placeByContact
  rw [hlocked, hp]
  cases hd : (s.str n).position with
  | closed =>
    cases hk : c.locked n with
    | false => rw [State.placedUsed_closed (hp.trans hd) hk]; exact h.joined hc hn hd
    | true => rw [State.placedUsed_enforced (hp.trans hd) hk]; exact h.queued hc hn hd .lockoutEnforce
  | opened =>
    cases hk : c.locked n with
    | false => rw [State.placedUsed_isolated (hp.trans hd) hk]; exact h.restarted hn hfree
    | true =>
      have hrec := State.str_updStr_valid (s := s) (fun r => { r with state := .lockedOut }) h.size hn
      rw [State.placedUsed_lockedOut (hp.trans hd) hk]
      exact ⟨h.updStr n fun _ => rfl, hrec, .of_state (x := .lockedOut) (congrArg StringRec.state hrec) (by decide) (by decide)⟩

/-- R152: the placement of a string that holds no probe entry yet. -/
theorem Placing.placeString (h : Placing c s) (hc : c.scan.completed = false) (hn : stringNumber n = true)
    (hp : (s.str n).dropPosition = (s.str n).position) (hs : (s.str n).state = .unused)
    (hfree : ∀ e ∈ s.probe.list, e.string ≠ n) : PlacedAs c n (c.placedRecord n (s.str n)) s (s.placeString n) := by
  by_cases hu : (s.str n).cfg.used = true
  · have hbox : s.box.perDayMax = c.box.perDayMax := by rw [h.within .box (by decide)]
    have hpass : Passing c n s (s.updStr n fun r => { r with budget := s.box.perDayMax }) := h.updStr n fun _ => rfl
    have hrec := State.str_updStr_valid (s := s) (fun r => { r with budget := s.box.perDayMax }) h.size hn
    have hplaced := hpass.placing.placeByContact hc hn (by rw [hrec]; exact hp) hfree
    rw [State.placedRecord, if_pos hu, State.placeString_used h.size hn hu, ← hbox, ← hrec]
    exact ⟨hpass.trans hplaced.passing, hplaced.record, hplaced.settled⟩
  · have hsame : s.placeString n = s := if_pos (by simpa using hu)
    rw [State.placedRecord, if_neg hu, hsame]
    exact ⟨.refl h, rfl, .of_state hs (by decide) (by decide)⟩

/-! ## All strings (R152, R153) -/

/-- A string not placed yet. -/
structure Unplaced (s : State) (n : Nat) : Prop where
  number : stringNumber n = true
  contact : (s.str n).dropPosition = (s.str n).position
  unused : (s.str n).state = .unused
  free : ∀ e ∈ s.probe.list, e.string ≠ n

theorem Unplaced.passing {m : Nat} (h : Unplaced s n) (k : Passing c m s t) (hm : n ≠ m) : Unplaced t n := by
  have hs := k.others n hm
  refine ⟨h.number, by rw [hs]; exact h.contact, by rw [hs]; exact h.unused, fun e he => ?_⟩
  rcases k.listed e he with he | he
  · exact h.free e he
  · exact he ▸ hm.symm

/-- R152: every string of a list is placed, and the others are left. -/
theorem Placing.placeStrings (hc : c.scan.completed = false) (l : List Nat) (hd : l.Nodup) (s : State) (h : Placing c s)
    (hu : ∀ n ∈ l, Unplaced s n) :
    Placing c (l.foldl State.placeString s) ∧
      (∀ n ∈ l, (l.foldl State.placeString s).str n = c.placedRecord n (s.str n) ∧ Settled n (l.foldl State.placeString s)) ∧
      ∀ n, n ∉ l → (l.foldl State.placeString s).str n = s.str n ∧ (Settled n s → Settled n (l.foldl State.placeString s)) := by
  induction l generalizing s with
  | nil => exact ⟨h, fun n hn => absurd hn List.not_mem_nil, fun n _ => ⟨rfl, id⟩⟩
  | cons m ms ih =>
    obtain ⟨hm, hd⟩ := List.nodup_cons.1 hd
    obtain ⟨hnum, hcontact, hunused, hfree⟩ := hu m List.mem_cons_self
    have hplaced := h.placeString hc hnum hcontact hunused hfree
    have later (n : Nat) (hn : n ∈ ms) : n ≠ m := fun hnm => hm (hnm ▸ hn)
    obtain ⟨hend, hdone, hrest⟩ := ih hd (s.placeString m) hplaced.passing.placing fun n hn =>
      (hu n (List.mem_cons_of_mem _ hn)).passing hplaced.passing (later n hn)
    refine ⟨hend, fun n hn => ?_, fun n hn => ?_⟩
    · rcases List.mem_cons.1 hn with rfl | hn
      · obtain ⟨hstr, hsettled⟩ := hrest n hm
        exact ⟨hstr.trans hplaced.record, hsettled hplaced.settled⟩
      · obtain ⟨hstr, hsettled⟩ := hdone n hn
        rw [hplaced.passing.others n (later n hn)] at hstr
        exact ⟨hstr, hsettled⟩
    · obtain ⟨hnm, hn⟩ := not_or.1 (mt List.mem_cons.2 hn)
      obtain ⟨hstr, hsettled⟩ := hrest n hn
      exact ⟨hstr.trans (hplaced.passing.others n hnm), fun hs => hsettled (hs.passing hplaced.passing hnm)⟩

end

end Sys2Proof.Machine
end

