-- ==== Sys2Proof/Proofs/StartChecks.lean ====
section
/-! The start-up's checks and its end (O5): the cell check and the line check before reconciliation, and the state in which the
load's end leaves a board. -/

namespace Sys2Proof.Machine

section
variable {s t : State} {n : Nat}

/-! ## Open requests before the first round -/

/-- R104: the isolator state that a feedback stands for after a drop stage. -/
def restingAt : Travel → IsolatorState
  | .opened => .opened
  | .mid => .failed
  | .closed => .closed

/-- An isolator as the drop stage left it, or opening with the box output item raised, and no entry waiting. -/
structure Starting (f : Travel) (s : State) : Prop where
  queue : s.sched.queue = []
  feedback : s.isolator.feedback = f
  state : s.isolator.state = restingAt f ∨
    s.isolator.state = .opening ∧ f ≠ .opened ∧ Item.box .output ∈ s.attention

/-- What an open request leaves of a starting isolator. -/
structure Asked (f : Travel) (s t : State) : Prop where
  starting : Starting f t
  within : Within [.isolator, .attention] s t
  opening : f ≠ .opened → t.isolator.state = .opening
  items : ∀ i, i ∈ t.attention ↔ i ∈ s.attention ∨ (f ≠ .opened ∧ i = .box .output)

/-- R106: an open request before the first round. -/
theorem Starting.openRequest {f : Travel} (h : Starting f s) : Asked f s s.openRequest := by
  rw [State.openRequest_idle h.queue]
  rcases h.state with hs | ⟨hs, hf, hm⟩
  · by_cases hf : f = .opened
    · rw [State.openOrder_holds (.inr (by rw [hs, hf]; rfl))]
      exact ⟨h, Within.refl _ s, fun hn => absurd hf hn, fun i => by simp [hf]⟩
    · have hrest : s.isolator.state = .closed ∨ s.isolator.state = .failed := by
        rw [hs]
        cases f with
        | opened => exact absurd rfl hf
        | mid => exact .inr rfl
        | closed => exact .inl rfl
      have hfeedback : s.isolator.feedback ≠ .opened := by rw [h.feedback]; exact hf
      rw [State.openOrder_starts hrest hfeedback, State.raiseBox_eq]
      refine ⟨⟨?_, ?_, .inr ⟨?_, hf, State.mem_raise_self _ _⟩⟩, ?_, fun _ => ?_, fun i => ?_⟩
      · rw [State.raise_sched]; exact h.queue
      · rw [State.raise_isolator]; exact h.feedback
      · rw [State.raise_isolator]; rfl
      · exact ((s.setIsolator_within _).mono (by simp)).trans ((State.raise_within _ _).mono (by simp))
      · rw [State.raise_isolator]; rfl
      · rw [State.mem_raise]; simp [hf]
  · rw [State.openOrder_holds (.inl hs)]
    refine ⟨h, Within.refl _ s, fun _ => hs, fun i => ⟨.inl, ?_⟩⟩
    rintro (hi | ⟨-, rfl⟩)
    · exact hi
    · exact hm

theorem Starting.raise {f : Travel} (h : Starting f s) (i : Item) : Starting f (s.raise i) := by
  refine ⟨by rw [State.raise_sched]; exact h.queue, by rw [State.raise_isolator]; exact h.feedback, ?_⟩
  rw [State.raise_isolator]
  exact h.state.imp_right fun ⟨hs, hf, hm⟩ => ⟨hs, hf, (s.mem_raise i _).2 (.inl hm)⟩

/-! ## The checks (R94, R151) -/

/-- What the cell check leaves: `loud` is the monitor's current above the cold-break limit. -/
structure CellChecked (f : Travel) (s t : State) : Prop where
  starting : Starting f t
  within : Within [.cell, .isolator, .attention] s t
  loud : s.box.coldLimit < magnitude s.cell.monitor → t.cell.stage = .faulted ∧ t.cell.served = none ∧
    t.cell.fault = some ⟨.reset, none, magnitude s.cell.monitor, s.scan.counter⟩ ∧ (f ≠ .opened → t.isolator.state = .opening)
  still : ¬s.box.coldLimit < magnitude s.cell.monitor → t = s
  items : ∀ i, i ∈ t.attention ↔ i ∈ s.attention ∨ (s.box.coldLimit < magnitude s.cell.monitor ∧
    (i = .box .cellFault ∨ (f ≠ .opened ∧ i = .box .output)))

theorem Starting.cellCheck {f : Travel} (h : Starting f s) : CellChecked f s s.cellCheck := by
  by_cases hl : s.box.coldLimit < magnitude s.cell.monitor
  · have hcheck : s.cellCheck = (s.cellFaulted .reset none).openRequest := if_pos hl
    have hfault : s.cellFaulted .reset none = (s.setCell { s.cell with
        stage := .faulted, served := none, releasing := false
        fault := some ⟨.reset, none, magnitude s.cell.monitor, s.scan.counter⟩ }).raise (.box .cellFault) := rfl
    obtain ⟨u, hu⟩ : ∃ u : State, u = s.setCell { s.cell with
        stage := .faulted, served := none, releasing := false
        fault := some ⟨.reset, none, magnitude s.cell.monitor, s.scan.counter⟩ } := ⟨_, rfl⟩
    have hstart : Starting f u := by rw [hu]; exact ⟨h.queue, h.feedback, h.state⟩
    obtain ⟨hopened, hwithin, hopening, hitems⟩ := (hstart.raise (.box .cellFault)).openRequest
    rw [hcheck, hfault, ← hu]
    have hcell : ((u.raise (.box .cellFault)).openRequest).cell = u.cell :=
      (hwithin .cell (by decide)).trans (u.raise_cell _)
    have hsu : Within [.cell] s u := by rw [hu]; exact s.setCell_within _
    refine ⟨hopened, ?_, fun _ => ?_, fun hn => absurd hl hn, fun i => ?_⟩
    · exact ((hsu.mono (by simp)).trans ((u.raise_within _).mono (by simp))).trans (hwithin.mono (by simp))
    · rw [hcell]
      refine ⟨by rw [hu]; rfl, by rw [hu]; rfl, by rw [hu]; rfl, hopening⟩
    · rw [hitems, State.mem_raise, hsu .attention (by decide), or_assoc]
      simp [hl]
  · have hcheck : s.cellCheck = s := if_neg hl
    rw [hcheck]
    exact ⟨h, Within.refl _ s, fun hn => absurd hn hl, fun _ => rfl, fun i => by simp [hl]⟩

/-- What the line check leaves. -/
structure LineChecked (f : Travel) (s t : State) : Prop where
  starting : Starting f t
  within : Within [.isolator, .attention] s t
  low : s.shutdown.foundAtDrop = true → f ≠ .opened → t.isolator.state = .opening
  still : s.shutdown.foundAtDrop = false → t = s
  items : ∀ i, i ∈ t.attention ↔ i ∈ s.attention ∨ (s.shutdown.foundAtDrop = true ∧
    (i = .box .shutdown ∨ (f ≠ .opened ∧ i = .box .output)))

theorem Starting.lineCheck {f : Travel} (h : Starting f s) : LineChecked f s s.lineCheck := by
  by_cases hl : s.shutdown.foundAtDrop = true
  · have hcheck : s.lineCheck = s.openRequest.raise (.box .shutdown) := if_pos hl
    obtain ⟨hopened, hwithin, hopening, hitems⟩ := h.openRequest
    rw [hcheck]
    refine ⟨hopened.raise _, hwithin.trans ((State.raise_within _ _).mono (by simp)), fun _ hf => ?_,
      fun hn => absurd (hl.symm.trans hn) (by decide), fun i => ?_⟩
    · rw [State.raise_isolator]; exact hopening hf
    · rw [State.mem_raise, hitems]
      simp only [hl, true_and]
      tauto
  · have hcheck : s.lineCheck = s := if_neg hl
    rw [hcheck]
    exact ⟨h, Within.refl _ s, fun hn => absurd hn hl, fun _ => rfl, fun i => by simp [hl]⟩

/-- What both checks leave, for the monitor's current and the line's level. -/
structure Checked (f : Travel) (loud low : Prop) (s t : State) : Prop where
  starting : Starting f t
  within : Within [.cell, .isolator, .attention] s t
  faulted : loud → t.cell.stage = .faulted ∧ t.cell.served = none ∧
    t.cell.fault = some ⟨.reset, none, magnitude s.cell.monitor, s.scan.counter⟩
  quiet : ¬loud → t.cell = s.cell
  asked : loud ∨ low → f ≠ .opened → t.isolator.state = .opening
  still : ¬loud → ¬low → t = s
  items : ∀ i, i ∈ t.attention ↔ i ∈ s.attention ∨ (loud ∧ i = .box .cellFault) ∨ (low ∧ i = .box .shutdown) ∨
    ((loud ∨ low) ∧ f ≠ .opened ∧ i = .box .output)

theorem or_checks {a l x w y o : Prop} : (a ∨ l ∧ (x ∨ o)) ∨ w ∧ (y ∨ o) ↔ a ∨ l ∧ x ∨ w ∧ y ∨ (l ∨ w) ∧ o := by
  tauto

theorem Starting.checked {f : Travel} (h : Starting f s) :
    Checked f (s.box.coldLimit < magnitude s.cell.monitor) (s.shutdown.foundAtDrop = true) s s.cellCheck.lineCheck := by
  obtain ⟨hstart, hwithin, hloud, hquiet, hitems⟩ := h.cellCheck
  obtain ⟨u, hu⟩ : ∃ u, u = s.cellCheck := ⟨_, rfl⟩
  rw [← hu] at hstart hwithin hloud hquiet hitems ⊢
  obtain ⟨kstart, kwithin, klow, kstill, kitems⟩ := hstart.lineCheck
  have hcell : u.lineCheck.cell = u.cell := kwithin .cell (by decide)
  have hlow : u.shutdown.foundAtDrop = s.shutdown.foundAtDrop := by rw [hwithin .shutdown (by decide)]
  rw [hlow] at klow kstill kitems
  refine ⟨kstart, hwithin.trans (kwithin.mono (by simp)), fun hl => ?_, fun hl => ?_, fun ha hf => ?_, fun hl hn => ?_,
    fun i => ?_⟩
  · rw [hcell]
    obtain ⟨hstage, hserved, hfault, -⟩ := hloud hl
    exact ⟨hstage, hserved, hfault⟩
  · rw [hcell, hquiet hl]
  · by_cases hn : s.shutdown.foundAtDrop = true
    · exact klow hn hf
    · rw [kstill (by simpa using hn)]
      obtain ⟨-, -, -, hopening⟩ := hloud (ha.resolve_right hn)
      exact hopening hf
  · rw [kstill (by simpa using hn), hquiet hl]
  · rw [kitems, hitems]
    exact or_checks

/-- R104: an isolator found OPEN stays there. -/
theorem Starting.opened {f : Travel} (h : Starting f s) (hf : f = .opened) : s.isolator.state = .opened := by
  rcases h.state with hs | ⟨-, hn, -⟩
  · rw [hs, hf]; rfl
  · exact absurd hf hn

end

end Sys2Proof.Machine
end

