-- ==== Sys2Proof/Proofs/Restart.lean ====
section
/-! The load's end after a drop stage (O5), from the loaded image to the strings placed. -/

namespace Sys2Proof.Machine

/-! ## The loaded state -/

/-- A state in which the load of an image has just ended after a drop stage. -/
structure LoadedAs (positions : List Contact) (feedback : Travel) (monitor : Word16) (low : Bool) (i : Image) (u : State) :
    Prop where
  starting : Starting feedback u
  size : u.strings.length = 24
  box : u.box = i.settings.box
  monitor : u.cell.monitor = monitor
  cell : u.cell.stage = .idle ∧ u.cell.fault = none
  shutdown : u.shutdown.asserted = low ∧ u.shutdown.foundAtDrop = low
  items : u.attention = [.box .restarted]
  rounds : u.scan.completed = false ∧ u.scan.counter = 0
  day : u.peer.day = 0
  probe : u.probe = ⟨[], none⟩
  strings : ∀ n, stringNumber n = true → ∃ x p, getNum positions n = some p ∧ u.str n = StringRec.blank x p

theorem dropped_loadedAs (kind : ResetKind) (now seconds : Nat) (positions : List Contact) (feedback : Travel) (monitor : Word16)
    (low : Bool) (i : Image) (free : FreeChoices) (pending : List Instr) (hl : positions.length = 24)
    (hv : imageValid i = true) : LoadedAs positions feedback monitor low i
      ((State.dropped kind now seconds positions feedback monitor low (some i) free pending).load true) := by
  obtain ⟨d, hd⟩ : ∃ d, d = State.dropped kind now seconds positions feedback monitor low (some i) free pending := ⟨_, rfl⟩
  have hloaded : d.loaded true = some i := by rw [hd]; exact Option.filter_eq_some_iff.2 ⟨rfl, hv⟩
  have hstrings : (d.load true).strings = List.zipWith (fun r x => { r with cfg := x }) d.strings i.settings.strings := by
    rw [(State.load_some hloaded).1]; rfl
  have hsize := (imageValid_lengths hv).1
  have hdrop : d.strings = List.zipWith StringRec.blank (Config.stringNumbers.map Config.string) positions := by rw [hd]; rfl
  have hlength : (d.load true).strings.length = 24 := by
    rw [hstrings, hdrop]; simp [hl, hsize, Config.stringNumbers]
  have hstr : ∀ n, stringNumber n = true → ∃ x p, getNum positions n = some p ∧ (d.load true).str n = StringRec.blank x p := by
    intro n hn
    obtain ⟨k, rfl⟩ : ∃ k, n = k + 1 := ⟨n - 1, by have := (stringNumber_iff n).1 hn; omega⟩
    have hk : k < 24 := by have := (stringNumber_iff (k + 1)).1 hn; omega
    refine ⟨i.settings.strings[k], positions[k], by rw [getNum_eq, List.getElem?_eq_getElem], ?_⟩
    rw [State.str, getNum_eq, hstrings, hdrop, List.getElem?_eq_getElem (by simp [hl, hsize, Config.stringNumbers, hk])]
    simp
    rfl
  rw [← hd]
  have hload := (State.load_some hloaded).1
  have hisolator : (d.load true).isolator.state = restingAt feedback := by
    rw [hload, hd]
    cases feedback <;> rfl
  exact {
    starting := ⟨by rw [hload, hd]; rfl, by rw [hload, hd]; rfl, .inl hisolator⟩
    size := hlength
    box := by rw [hload]; rfl
    monitor := by rw [hload, hd]; rfl
    cell := by rw [hload, hd]; exact ⟨rfl, rfl⟩
    shutdown := by rw [hload, hd]; exact ⟨rfl, rfl⟩
    items := by rw [hload, hd]; rfl
    rounds := by rw [hload, hd]; exact ⟨rfl, rfl⟩
    day := by rw [hload, hd]; rfl
    probe := by rw [hload, hd]; rfl
    strings := hstr }

/-! ## The strings placed -/

section
variable {positions : List Contact} {feedback : Travel} {monitor : Word16} {low : Bool} {i : Image} {u : State} {n : Nat}

/-- R152, R153: reconciliation after a drop stage places every string. -/
theorem LoadedAs.placed (h : LoadedAs positions feedback monitor low i u) :
    Placing u.cellCheck.lineCheck u.cellCheck.lineCheck.reconcile ∧ ∀ n, stringNumber n = true →
      u.cellCheck.lineCheck.reconcile.str n = u.cellCheck.lineCheck.placedRecord n (u.str n) ∧
        Settled n u.cellCheck.lineCheck.reconcile := by
  have hchecked := h.starting.checked
  obtain ⟨c, hc⟩ : ∃ c, c = u.cellCheck.lineCheck := ⟨_, rfl⟩
  rw [← hc] at hchecked ⊢
  have hwithin := hchecked.within
  have hqueue := hchecked.starting.queue
  have hprobe : c.probe = ⟨[], none⟩ := (hwithin .probe (by decide)).trans h.probe
  have hstr (n : Nat) : c.str n = u.str n := State.str_congr (hwithin .strings (by decide)) n
  have hsize : c.strings.length = 24 := (congrArg List.length (hwithin .strings (by decide))).trans h.size
  have hcompleted : c.scan.completed = false := (congrArg ScanUnit.completed (hwithin .scan (by decide))).trans h.rounds.1
  have hplacing : Placing c c := {
    within := Within.refl _ c
    size := hsize
    contacts := fun e he => by rw [hqueue] at he; cases he
    entries := fun e he => by rw [hqueue] at he; cases he
    flight := fun _ => by rw [hprobe] }
  have hunplaced : ∀ n ∈ Config.stringNumbers, Unplaced c n := fun n hn => by
    have hnum := (stringNumber_iff n).2 ((mem_stringNumbers n).1 hn)
    obtain ⟨x, p, -, hu⟩ := h.strings n hnum
    have hblank := (hstr n).trans hu
    exact ⟨hnum, by rw [hblank]; rfl, by rw [hblank]; rfl, fun e he => by rw [hprobe] at he; cases he⟩
  obtain ⟨hend, hdone, -⟩ := Placing.placeStrings hcompleted Config.stringNumbers (by decide) c hplacing hunplaced
  refine ⟨hend, fun n hn => ?_⟩
  rw [← hstr n]
  exact hdone n ((mem_stringNumbers n).2 ((stringNumber_iff n).1 hn))

/-- R8: the last isolation record with which a string is queued before the first round. -/
def queuedAfresh (k : ReqCause) : IsoRecord := ⟨.req k, 0, 0, none, none, none, none, none, 0⟩

/-- The state in which reconciliation leaves a used string, by its contact and the lockout set. -/
def Restored (low : Bool) (n : Nat) (t : State) : Contact → Bool → Prop
  | .closed, false =>
    (low = false → (t.str n).state = .connected ∧ (t.str n).cause = none) ∧
    (low = true → (t.str n).state = .queued ∧ (t.str n).cause = some (.req .shutdown) ∧
      (t.str n).record = some (queuedAfresh .shutdown) ∧ ∃ e ∈ t.sched.queue, e.string = n)
  | .closed, true =>
    let cause : ReqCause := if low = true then .shutdown else .lockoutEnforce
    (t.str n).state = .queued ∧ (t.str n).cause = some (.req cause) ∧ (t.str n).record = some (queuedAfresh cause) ∧
      ∃ e ∈ t.sched.queue, e.string = n ∧ e.severity = cause.severity ∧ e.cause = cause
  | .opened, true => (t.str n).state = .lockedOut ∧ (t.str n).cause = none ∧ (t.str n).record = none
  | .opened, false => (t.str n).state = .isolated ∧ (t.str n).cause = some .restart ∧
      (t.str n).record = some ⟨.restart, 0, 0, some .alreadyOpen, none, none, none, none, 0⟩ ∧
      ∃ e ∈ t.probe.list, e.string = n ∧ e.purpose = .diagnose ∧ e.origin = .auto

/-- A string left QUEUED has its entry, with the severity of its cause. -/
theorem Placing.entry {c t : State} (h : Placing c t) (hs : Settled n t) {k : ReqCause} (hq : (t.str n).state = .queued)
    (hk : (t.str n).cause = some (.req k)) : ∃ e ∈ t.sched.queue, e.string = n ∧ e.severity = k.severity ∧ e.cause = k := by
  obtain ⟨e, he, hn, hcause⟩ := hs.queued hq
  obtain rfl : k = e.cause := by rw [hk] at hcause; cases hcause; rfl
  exact ⟨e, he, hn, (h.entries e he).1, rfl⟩

/-- A used string's placement, before the first round. -/
theorem Placing.restored {c t : State} {x : StringSettings} {p : Contact} {b : Nat} (h : Placing c t)
    (hlow : c.shutdown.asserted = low) (hcounter : c.scan.counter = 0) (hday : c.peer.day = 0)
    (hrec : t.str n = c.placedUsed n { StringRec.blank x p with budget := b }) (hs : Settled n t) :
    ((t.str n).budget = b ∧ (t.str n).reconnectedAt = none) ∧ Restored low n t p (t.locked n) := by
  have hlocked : t.locked n = c.locked n := State.locked_congr (h.within .lockouts (by decide)) n
  have hafresh (k : ReqCause) : c.openedFor k = queuedAfresh k := by rw [State.openedFor, hcounter, hday]; rfl
  have hqueued (k : ReqCause) (r : StringRec) (hk : k.isFault = false) : c.queuedRecord k r = { r with
      state := .queued, cause := some (.req (c.causeAdmitted k)), verdict := none
      record := some (queuedAfresh (c.causeAdmitted k)) } := by rw [c.queuedRecord_of_not_fault r hk, hafresh]
  rw [hlocked]
  cases p with
  | closed =>
    cases hk : c.locked n with
    | false =>
      rw [State.placedUsed_closed rfl hk, hlow] at hrec
      by_cases ha : low = true
      · rw [if_pos ha, hqueued _ _ rfl, State.causeAdmitted, ite_self] at hrec
        have hstate : (t.str n).state = .queued := by rw [hrec]
        have hreq : (t.str n).cause = some (.req .shutdown) := by rw [hrec]
        obtain ⟨e, he, hn, -⟩ := h.entry hs hstate hreq
        exact ⟨by rw [hrec]; exact ⟨rfl, rfl⟩, fun hl => absurd (ha.symm.trans hl) (by decide),
          fun _ => ⟨hstate, hreq, by rw [hrec], e, he, hn⟩⟩
      · rw [if_neg ha] at hrec
        exact ⟨by rw [hrec]; exact ⟨rfl, rfl⟩, fun _ => by rw [hrec]; exact ⟨rfl, rfl⟩, fun hl => absurd hl ha⟩
    | true =>
      have hcause : c.causeAdmitted .lockoutEnforce = if low = true then .shutdown else .lockoutEnforce := by
        rw [State.causeAdmitted, hlow]
      rw [State.placedUsed_enforced rfl hk, hqueued _ _ rfl, hcause] at hrec
      have hstate : (t.str n).state = .queued := by rw [hrec]
      have hreq := congrArg StringRec.cause hrec
      exact ⟨by rw [hrec]; exact ⟨rfl, rfl⟩, hstate, hreq, by rw [hrec], h.entry hs hstate hreq⟩
  | opened =>
    cases hk : c.locked n with
    | false =>
      rw [State.placedUsed_isolated rfl hk, State.restarted, hcounter, hday] at hrec
      have hstate : (t.str n).state = .isolated := by rw [hrec]
      exact ⟨by rw [hrec]; exact ⟨rfl, rfl⟩, hstate, by rw [hrec], by rw [hrec], hs.isolated hstate⟩
    | true =>
      rw [State.placedUsed_lockedOut rfl hk] at hrec
      exact ⟨by rw [hrec]; exact ⟨rfl, rfl⟩, by rw [hrec], by rw [hrec]; rfl, by rw [hrec]; rfl⟩

/-- What a string's placement leaves of a used string, and of an unused one. -/
theorem LoadedAs.restored (h : LoadedAs positions feedback monitor low i u) (hn : stringNumber n = true) :
    ∃ p, getNum positions n = some p ∧
      (((u.cellCheck.lineCheck.reconcile).str n).cfg.used = false →
        ((u.cellCheck.lineCheck.reconcile).str n).state = .unused) ∧
      (((u.cellCheck.lineCheck.reconcile).str n).cfg.used = true →
        (((u.cellCheck.lineCheck.reconcile).str n).budget = i.settings.box.perDayMax ∧
          ((u.cellCheck.lineCheck.reconcile).str n).reconnectedAt = none) ∧
        Restored low n u.cellCheck.lineCheck.reconcile p ((u.cellCheck.lineCheck.reconcile).locked n)) := by
  obtain ⟨hend, hplaced⟩ := h.placed
  obtain ⟨hrec, hsettled⟩ := hplaced n hn
  obtain ⟨x, p, hp, hblank⟩ := h.strings n hn
  have hwithin := h.starting.checked.within
  have hcfg := u.reconciled_started.strings.2 n
  obtain ⟨c, hc⟩ : ∃ c, c = u.cellCheck.lineCheck := ⟨_, rfl⟩
  rw [← hc] at hend hrec hsettled hwithin hcfg ⊢
  have hused : (c.reconcile.str n).cfg.used = x.used := by
    rw [show (c.reconcile.str n).cfg = (u.str n).cfg from hcfg, hblank]; rfl
  have hbox : c.box = i.settings.box := (hwithin .box (by decide)).trans h.box
  rw [hblank, State.placedRecord] at hrec
  refine ⟨p, hp, fun hu => ?_, fun hu => ?_⟩
  · rw [hrec, if_neg (show ¬(StringRec.blank x p).cfg.used = true by rw [← Bool.not_eq_true, hused] at hu; exact hu)]
    rfl
  · rw [if_pos (show (StringRec.blank x p).cfg.used = true from hused.symm.trans hu), hbox] at hrec
    refine hend.restored ?_ ?_ ?_ hrec hsettled
    · rw [hwithin .shutdown (by decide)]; exact h.shutdown.1
    · rw [hwithin .scan (by decide)]; exact h.rounds.2
    · rw [hwithin .peer (by decide)]; exact h.day

end

/-! ## The load's end -/

/-- Settles O5: the checks of the start-up write the cell, the isolator and the items, and reconciliation the strings, the queue
and the probe list. -/
theorem reconciliationPlacesEveryUsedString : Obligations.ReconciliationPlacesEveryUsedString := by
  unfold Obligations.ReconciliationPlacesEveryUsedString
  intro kind now seconds positions feedback monitor low i free pending hl hv loud
  have hu := dropped_loadedAs kind now seconds positions feedback monitor low i free pending hl hv
  obtain ⟨d, hd⟩ : ∃ d, d = State.dropped kind now seconds positions feedback monitor low (some i) free pending := ⟨_, rfl⟩
  have hstage : d.part.stage = .load := by rw [hd]; rfl
  have hexec : exec (.loadEnd true) d = .next (d.loadEnded true) := rfl
  rw [← hd] at hu ⊢
  rw [hexec, State.loadEnded_eq hstage]
  obtain ⟨u, hdu⟩ : ∃ u, u = d.load true := ⟨_, rfl⟩
  rw [← hdu] at hu ⊢
  have hchecked := hu.starting.checked
  obtain ⟨hend, -⟩ := hu.placed
  have hstrings := fun n => hu.restored (n := n)
  obtain ⟨c, hc⟩ : ∃ c, c = u.cellCheck.lineCheck := ⟨_, rfl⟩
  rw [← hc] at hchecked hend hstrings ⊢
  obtain ⟨v, hvc⟩ : ∃ v, v = c.reconcile := ⟨_, rfl⟩
  rw [← hvc] at hend hstrings ⊢
  obtain ⟨w, hw⟩ : ∃ w, w = v.firstRound.begin := ⟨_, rfl⟩
  rw [← hw]
  have hround : Within [.part, .link, .scan] v w :=
    hw ▸ (v.firstRound_within.mono (by simp)).trans
      (((State.setPart_within _ _).mono (by simp)).trans ((State.setLink_within _ _).mono (by simp)))
  have hcell : w.cell = c.cell := (hround .cell (by decide)).trans (hend.within .cell (by decide))
  have hisolator : w.isolator = c.isolator := (hround .isolator (by decide)).trans (hend.within .isolator (by decide))
  have hattention : w.attention = c.attention := (hround .attention (by decide)).trans (hend.within .attention (by decide))
  have hasserted : c.shutdown.asserted = low := by rw [hchecked.within .shutdown (by decide)]; exact hu.shutdown.1
  have hshutdown : w.shutdown.asserted = low := by
    rw [hround .shutdown (by decide), hend.within .shutdown (by decide), hasserted]
  have hsched : w.sched = v.sched := hround .sched (by decide)
  have hprobe : w.probe = v.probe := hround .probe (by decide)
  have hstr (n : Nat) : w.str n = v.str n := State.str_congr (hround .strings (by decide)) n
  have hlocked (n : Nat) : w.locked n = v.locked n := State.locked_congr (hround .lockouts (by decide)) n
  rw [hu.box, hu.monitor, hu.shutdown.2] at hchecked
  obtain ⟨hstart, -, hfaulted, hquiet, hasked, hstill, hitems⟩ := hchecked
  rw [hu.items] at hitems
  refine ⟨w, rfl, fun hl => ?_, fun hl => ?_, fun ha hf => ?_, fun hf => ?_, fun hl hn => ?_, hshutdown, ?_, fun ha => ?_,
    fun ha e he => ?_, fun n hn => ?_⟩
  · obtain ⟨hstage, hserved, hfault⟩ := hfaulted hl
    rw [hcell, hattention, hitems]
    rw [hu.monitor, hu.rounds.2] at hfault
    exact ⟨hstage, hserved, .inr (.inl ⟨hl, rfl⟩), hfault⟩
  · rw [hcell, hattention, hitems, hquiet hl]
    have hlow : ¬i.settings.box.coldLimit < magnitude monitor := hl
    exact ⟨hu.cell.1, hu.cell.2, by simpa using hlow⟩
  · rw [hisolator, hattention, hitems]
    exact ⟨hasked ha hf, .inr (.inr (.inr ⟨ha, hf, rfl⟩))⟩
  · rw [hisolator, hattention, hitems]
    exact ⟨hstart.opened hf, by simp [hf]⟩
  · rw [hisolator, hstill hl (by simp [hn])]
    rcases hu.starting.state with hs | ⟨-, -, hm⟩
    · exact hs.trans (by cases feedback <;> rfl)
    · rw [hu.items] at hm
      simp at hm
  · rw [hattention, hitems]
    simp
  · rw [hprobe]
    exact hend.flight (hasserted.trans ha)
  · rw [hsched] at he
    obtain ⟨hseverity, hcause⟩ := hend.entries e he
    rw [hseverity, hcause (hasserted.trans ha)]
    exact ⟨rfl, rfl⟩
  · obtain ⟨p, hp, hunused, hused⟩ := hstrings n hn
    rw [hstr, hlocked, hsched, hprobe]
    refine ⟨hunused, fun hx => ?_⟩
    obtain ⟨⟨hbudget, hreconnected⟩, hrestored⟩ := hused hx
    refine ⟨hbudget, hreconnected, ?_⟩
    rw [hp]
    revert hrestored
    cases p <;> cases v.locked n <;> exact id

end Sys2Proof.Machine
end

