-- ==== Sys2Proof/Proofs/ExternalTemps.lean ====
section
/-! External temperatures (O24): TEMPERATURE, the elapsed second, and the staleness at 900 s. -/

namespace Sys2Proof.Machine

section
variable {s : State} {g : Nat}

theorem groupOfByte_eq (b : Byte) : groupOfByte b = if groupNumber b.toNat then some b.toNat else none := by
  simp [groupOfByte, groupNumber]

/-- The scan unit with group `g`'s external temperature replaced. -/
def State.extSet (s : State) (g : Nat) (x : ExtTemp) : State :=
  s.setScan { s.scan with ext := updNum (fun _ => x) s.scan.ext g }

theorem State.extSet_ne (s : State) (x : ExtTemp) {k : Nat} (h : k ≠ g) :
    getNum (s.extSet g x).scan.ext k = getNum s.scan.ext k := getNum_updNum_ne _ _ _ _ h

theorem State.extSet_self {y : ExtTemp} (h : getNum s.scan.ext g = some y) (x : ExtTemp) :
    getNum (s.extSet g x).scan.ext g = some x := by
  simp [State.extSet, getNum_updNum_self, h]

/-- R175: TEMPERATURE for a group that exists. -/
theorem State.reqTemperature_stores {b : Byte} (h : groupNumber b.toNat = true) (value : Byte) :
    s.reqTemperature b value = accept (s.extSet b.toNat (.valid (clampInt (-40) 90 value.toInt) 0))
      [b, byteOfInt (clampInt (-40) 90 value.toInt)] := by
  have hb : byteOf b.toNat = b := by simp [byteOf]
  unfold State.reqTemperature
  rw [groupOfByte_eq, if_pos h]
  simp only [hb]
  rfl

theorem State.reqTemperature_refused {b : Byte} (h : groupNumber b.toNat = false) (value : Byte) :
    s.reqTemperature b value = refuse s .range := by
  unfold State.reqTemperature
  rw [groupOfByte_eq, h]
  rfl

/-- R33: whether group `g` takes its temperature from outside. -/
def State.UsesExternal (s : State) (g : Nat) : Prop := ∃ r, s.grp g = some r ∧ r.cfg.source = .external

/-- R33: an external temperature that becomes stale raises TEMP_STALE exactly when its group uses it. -/
theorem State.extStale_old {v : Int} (h : getNum s.scan.ext g = some (.valid v 900)) :
    (s.UsesExternal g → s.extStale g = (s.extSet g (.stale v)).raise (.box .tempStale)) ∧
      (¬s.UsesExternal g → s.extStale g = s.extSet g (.stale v)) := by
  have hstale : s.extStale g = match s.grp g with
      | some r => if r.cfg.source = .external then (s.extSet g (.stale v)).raiseBox .tempStale else s.extSet g (.stale v)
      | none => s.extSet g (.stale v) := by
    unfold State.extStale
    simp only [h]
    rfl
  rw [hstale]
  refine ⟨fun ⟨r, hr, he⟩ => by simp [hr, he], fun hx => ?_⟩
  cases hr : s.grp g with
  | none => rfl
  | some r => exact if_neg fun he => hx ⟨r, hr, he⟩

theorem State.extStale_young {v : Int} {age : Nat} (h : getNum s.scan.ext g = some (.valid v age)) (ha : age < 900) :
    s.extStale g = s := by
  unfold State.extStale
  simp only [h]
  exact if_neg (by omega)

end

/-- Settles O24: each of the three rows replaces entries of the table of external temperatures. -/
theorem externalTemperatureFollowsItsRule : Obligations.ExternalTemperatureFollowsItsRule := by
  unfold Obligations.ExternalTemperatureFollowsItsRule
  intro s g group value hl
  refine ⟨fun hs hg => ?_, fun hs hg => ?_, ?_, fun v hv => ?_, fun v age hv ha => ?_⟩
  · refine congrArg Host.Outcome.next ((State.answer_listening hs _ _).trans ?_)
    rw [State.reqTemperature_refused hg]
    rfl
  · obtain ⟨h1, h6⟩ : 1 ≤ group.toNat ∧ group.toNat ≤ 6 := by simpa [groupNumber] using hg
    obtain ⟨x, hx⟩ := getNum_some s.scan.ext group.toNat h1 (by omega)
    have hclamp := clampInt_eq (by decide : (-40 : Int) ≤ 90) value.toInt
    refine ⟨_, ?_, State.extSet_self hx (.valid (max (-40) (min 90 value.toInt)) 0), fun k hk => s.extSet_ne _ hk⟩
    refine congrArg Host.Outcome.next ((State.answer_listening hs _ _).trans ?_)
    rw [State.reqTemperature_stores hg, hclamp]
    rfl
  · refine ⟨s.scan.ext.map ExtTemp.second, rfl, fun k => ?_⟩
    rw [getNum_map]
    refine congrArg (fun f => (getNum s.scan.ext k).map f) (funext fun x => ?_)
    cases x <;> rfl
  · obtain ⟨huses, hother⟩ := State.extStale_old hv
    by_cases he : s.UsesExternal g
    · refine ⟨_, congrArg Host.Outcome.next (huses he), ?_, ?_, fun k hk => ?_, fun i => ?_⟩
      · rw [State.raise_scan]
        exact State.raise_eq _ _
      · rw [State.raise_scan]
        exact State.extSet_self hv _
      · rw [State.raise_scan]
        exact s.extSet_ne _ hk
      · rw [State.mem_raise]
        exact or_congr Iff.rfl (iff_self_and.2 fun _ => he)
    · refine ⟨_, congrArg Host.Outcome.next (hother he), rfl, State.extSet_self hv _, fun k hk => s.extSet_ne _ hk, fun i => ?_⟩
      exact (or_iff_left fun h => he h.2).symm
  · exact congrArg Host.Outcome.next (State.extStale_young hv ha)

end Sys2Proof.Machine
end

