-- ==== Sys2Proof/Proofs/RoundStarts.lean ====
section
/-! The starts of rounds by the round source (O41). -/

namespace Sys2Proof.Machine

section
variable {s : State}

/-! ## The channels of a round (R27) -/

theorem mem_channelsOf (strings : List StringRec) (c : Channel) : c ∈ channelsOf strings ↔
    ∃ n r, getNum strings n = some r ∧ r.cfg.used = true ∧ c = ⟨n, r.cfg.input, 0, false⟩ := by
  simp only [channelsOf, List.mem_map, List.mem_filter, mem_mapNum]
  constructor
  · rintro ⟨_, ⟨⟨n, r, hr, rfl⟩, hu⟩, rfl⟩
    exact ⟨n, r, hr, hu, rfl⟩
  · rintro ⟨n, r, hr, hu, rfl⟩
    exact ⟨(n, r), ⟨⟨n, r, hr, rfl⟩, hu⟩, rfl⟩

/-! ## Round starts (R21, R23 to R25) -/

/-- R21: a round in progress is left as it is. -/
theorem State.startRound_busy (h : s.scan.round ≠ none) : s.startRound = s := by
  unfold State.startRound
  split
  · rfl
  · exact absurd ‹_› h

/-- The state with the round source in a state. -/
def State.withSource (s : State) (x : SourceState) : State := s.setScan { s.scan with source := x }

@[simp] theorem State.withSource_round (s : State) (x : SourceState) : (s.withSource x).scan.round = s.scan.round := rfl

theorem State.withSource_self (s : State) : s.withSource s.scan.source = s := rfl

/-- R21, R30: the state with a round begun now, the round source in a state. -/
def State.begun (s : State) (x : SourceState) : State := s.setScan { s.scan with
  round := some ⟨if s.scan.pendingCapture then 8 else s.box.averaging, 0, s.scan.pendingCapture, channelsOf s.strings, 0, []⟩
  source := x, lastStart := s.part.now, pendingCapture := false }

theorem State.startRound_begins (h : s.scan.round = none) : s.startRound = s.begun s.scan.source := State.startRound_eq h

theorem State.withSource_startRound (h : s.scan.round = none) (x : SourceState) :
    (s.withSource x).startRound = s.begun x := State.startRound_begins (s := s.withSource x) h

/-- R25: FALLBACK is entered with no round in progress. -/
theorem State.enterFallback_starts (h : s.scan.round = none) :
    s.enterFallback = (s.begun .fallback).raise (.box .syncLost) := by
  have hfree : ((s.withSource .fallback).raise (.box .syncLost)).scan.round = none := by simp [h]
  show ((s.withSource .fallback).raise (.box .syncLost)).startRound = _
  rw [State.startRound_eq hfree, State.raise_setScan]
  simp only [State.raise_scan, State.raise_part, State.raise_box, State.raise_strings]
  rfl

/-- R23, R25: the round timer starts rounds in TIMED and FALLBACK. -/
theorem State.roundTimer_counts (h : s.scan.source = .timed ∨ s.scan.source = .fallback) :
    s.roundTimer = (s.reach (s.scan.lastStart + s.period)).startRound := by
  unfold State.roundTimer
  rcases h with h | h <;> simp only [h]

theorem State.roundTimer_following (h : s.scan.source = .following) : s.roundTimer = s := by
  unfold State.roundTimer
  simp only [h]

/-- R24, R25: an edge is followed in FOLLOWING and FALLBACK. -/
theorem State.syncEdge_follows (h : s.scan.source = .following ∨ s.scan.source = .fallback) :
    s.syncEdge = (s.withSource .following).startRound := by
  unfold State.syncEdge
  rcases h with h | h
  · simp only [h]
    rw [← h, s.withSource_self]
  · simp only [h]
    rfl

theorem State.syncEdge_timed (h : s.scan.source = .timed) : s.syncEdge = s := by
  unfold State.syncEdge
  simp only [h]

/-- R24: the SYNC watch runs in FOLLOWING alone. -/
theorem State.syncWatch_following (h : s.scan.source = .following) :
    s.syncWatch = (s.reach (s.scan.lastStart + 2 * s.period)).enterFallback := by
  unfold State.syncWatch
  simp only [h]

theorem State.syncWatch_other (h : s.scan.source ≠ .following) : s.syncWatch = s := by
  unfold State.syncWatch
  split
  · exact absurd ‹_› h
  · rfl
  · rfl

/-! ## The rows -/

theorem exec_roundTimerExpiry (h : s.running = true) : exec .roundTimerExpiry s = .next s.roundTimer :=
  congrArg Host.Outcome.next (if_pos h)

theorem exec_syncWatchExpiry (h : s.running = true) : exec .syncWatchExpiry s = .next s.syncWatch :=
  congrArg Host.Outcome.next (if_pos h)

theorem exec_syncFallingEdge (h : s.running = true) {low : Nat} (hl : 20 ≤ low) :
    exec (.syncFallingEdge low) s = .next s.syncEdge :=
  congrArg Host.Outcome.next (if_pos ⟨h, hl⟩)

/-- R24: a low level shorter than 20 µs is not an edge. -/
theorem exec_syncFallingEdge_short {low : Nat} (hl : low < 20) : exec (.syncFallingEdge low) s = .next s :=
  congrArg Host.Outcome.next (if_neg fun h => absurd h.2 (by omega))

end

/-- Settles O41: each row by the source state, with and without a round in progress. -/
theorem roundsStartBySource : Obligations.RoundsStartBySource := by
  unfold Obligations.RoundsStartBySource
  intro s hr began due watch
  refine ⟨mem_channelsOf s.strings, fun hs low => ⟨?_, ?_⟩, fun hs => ?_, fun hs => ?_, fun low => exec_syncFallingEdge_short,
    fun hn => ⟨fun hs => ?_, fun low hl hs => ?_, fun hs => ?_⟩, fun hn => ⟨fun hs => ?_, fun low hl hs => ?_⟩⟩
  · rcases Nat.lt_or_ge low 20 with hl | hl
    · exact exec_syncFallingEdge_short hl
    · rw [exec_syncFallingEdge hr hl, State.syncEdge_timed hs]
  · rw [exec_syncWatchExpiry hr, State.syncWatch_other (by simp [hs])]
  · rw [exec_syncWatchExpiry hr, State.syncWatch_other (by simp [hs])]
  · rw [exec_roundTimerExpiry hr, State.roundTimer_following hs]
  · rw [exec_roundTimerExpiry hr, State.roundTimer_counts hs, State.startRound_begins (s := s.reach _) hn]
    rfl
  · rw [exec_syncFallingEdge hr hl, State.syncEdge_follows hs, State.withSource_startRound hn]
    rfl
  · rw [exec_syncWatchExpiry hr, State.syncWatch_following hs, State.enterFallback_starts (s := s.reach _) hn]
    rfl
  · rw [exec_roundTimerExpiry hr, State.roundTimer_counts hs, State.startRound_busy (s := s.reach _) hn]
    rfl
  · rw [exec_syncFallingEdge hr hl, State.syncEdge_follows hs, State.startRound_busy (s := s.withSource .following) hn]
    rfl

end Sys2Proof.Machine
end

