-- ==== Sys2Proof/Proofs/ProbeStages.lean ====
section
/-! The stages of a probe and its readings (O54), the group temperature of R120 among them. -/

namespace Sys2Proof.Machine

section
variable {s : State} {f : ProbeFlight}

/-! ## Readings (R116) -/

theorem poleReading_eq (samples : List Word16) : poleReading samples =
    max (-16000) (min 16000 ((samples.map fun (x : Word16) => x.toInt).sum.tdiv 8)) := by
  rw [poleReading, clampInt_eq (by decide), List.sum_eq_foldl, List.foldl_map]

/-- R120: the temperature of an input, 25 while it is ABSENT. -/
theorem inputTemperature_eq (temps : List (Option Int)) (k : Nat) :
    inputTemperature temps k = (temps[k]?.join.map fun v => max (-40) (min 90 v)).getD 25 := by
  unfold inputTemperature
  rw [List.getD_eq_getElem?_getD]
  rcases temps[k]? with _ | _ | v
  · rfl
  · rfl
  · exact clampInt_eq (by decide) v

/-! ## Stages and drives (R116) -/

theorem State.probeTap_eq (hf : s.probe.flight = some f) :
    s.probeTap = if f.stage = .release then none else some (f.string, f.stage) := by
  simp only [State.probeTap, hf]

theorem State.positiveBias_iff (hf : s.probe.flight = some f) : s.positiveBias = true ↔ f.stage = .p2 := by
  rw [State.positiveBias, State.probeTap_eq hf]
  cases f.stage <;> simp

theorem State.negativeBias_iff (hf : s.probe.flight = some f) : s.negativeBias = true ↔ f.stage = .p3 := by
  rw [State.negativeBias, State.probeTap_eq hf]
  cases f.stage <;> simp

theorem State.settled_samples (hf : s.probe.flight = some f) (hs : f.stage ≠ .release) (hg : f.sampling = false) :
    s.settled = (s.reach (f.since + f.settle)).setFlight (some { f with sampling := true }) := by
  unfold State.settled
  simp only [hf]
  exact if_neg (by simp [hs, hg])

theorem State.settled_disregarded (hf : s.probe.flight = some f) (h : f.stage = .release ∨ f.sampling = true) :
    s.settled = s := by
  unfold State.settled
  simp only [hf]
  exact if_pos h

/-- R116: a reading before the settle time's end or in RELEASE. -/
theorem State.reading_disregarded (hf : s.probe.flight = some f) (h : f.sampling = false ∨ f.stage = .release)
    (vp vn : List Word16) : s.reading vp vn = s := by
  unfold State.reading
  simp only [hf]
  split
  · rfl
  · rcases h with h | h
    · exact absurd h ‹_›
    · simp only [h]

/-- R116, R120: the P1 reading of a probe takes Tg and βv with it. -/
theorem State.reading_p1 (hf : s.probe.flight = some f) (hs : f.stage = .p1) (hp : f.purpose = .diagnose)
    (hg : f.sampling = true) (vp vn : List Word16) :
    s.reading vp vn = (s.reach (f.since + f.settle + 8)).setFlight (some { f with
      stage := .p2, sampling := false, p1 := some ⟨poleReading vp, poleReading vn⟩
      tg := (s.groupTemperature f.string).1, beta := (s.groupTemperature f.string).2
      since := max s.part.now (f.since + f.settle + 8) }) := by
  unfold State.reading
  simp only [hf, hg, hs, hp]
  rfl

theorem State.reading_p2 (hf : s.probe.flight = some f) (hs : f.stage = .p2) (hg : f.sampling = true) (vp vn : List Word16) :
    s.reading vp vn = (s.reach (f.since + f.settle + 8)).setFlight (some { f with
      stage := .p3, sampling := false, p2 := some ⟨poleReading vp, poleReading vn⟩
      since := max s.part.now (f.since + f.settle + 8) }) := by
  unfold State.reading
  simp only [hf, hg, hs]
  rfl

end

/-- Settles O54: each row by the stage of the flight; the table of R120 by the source that the string's group names. -/
theorem probeStagesFollowEachOther : Obligations.ProbeStagesFollowEachOther := by
  unfold Obligations.ProbeStagesFollowEachOther
  intro s f vp vn hf settled read poles goes input group tg beta
  have hinput (k : Nat) : inputTemperature s.scan.temps k = input k := by
    rw [inputTemperature_eq]
    simp only [input]
    rcases s.scan.temps[k]? with _ | _ | v <;> rfl
  have htable : s.groupTemperature f.string = (tg, beta) := by
    simp only [State.groupTemperature, tg, beta, group, ← hinput]
    cases s.grp (s.str f.string).cfg.group with
    | none => rfl
    | some g =>
      refine Prod.ext ?_ rfl
      show _ = _
      cases hsource : g.cfg.source <;> simp only [Option.map_some, hsource]
      rcases getNum s.scan.ext (s.str f.string).cfg.group with _ | _ | _ | _ <;> rfl
  refine ⟨fun hs hg => ⟨?_, ?_⟩, fun h => ?_, fun hs => ⟨?_, ?_⟩, fun hs => ?_, State.positiveBias_iff hf,
    State.negativeBias_iff hf, fun hs hp hg => ?_, fun hs hg => ?_, poleReading_eq vp, poleReading_eq vn⟩
  · exact congrArg Host.Outcome.next (State.settled_samples hf hs hg)
  · exact congrArg Host.Outcome.next (State.reading_disregarded hf (.inl hg) vp vn)
  · exact congrArg Host.Outcome.next (State.settled_disregarded hf h)
  · exact congrArg Host.Outcome.next (State.reading_disregarded hf (.inr hs) vp vn)
  · rw [State.probeTap_eq hf, if_pos hs]
  · rw [State.probeTap_eq hf, if_neg hs]
  · refine congrArg Host.Outcome.next ((State.reading_p1 hf hs hp hg vp vn).trans ?_)
    rw [htable]
    rfl
  · exact congrArg Host.Outcome.next (State.reading_p2 hf hs hg vp vn)

end Sys2Proof.Machine
end

