-- ==== Sys2Proof/Proofs/NightAndDay.lean ====
section
/-! Night and day, and the probe unit's part of a completion (O45). -/

namespace Sys2Proof.Machine

section
variable {s : State}

/-! ## The probe unit (R114, R115, R126) -/

/-- R126: an entry after the abort of a probe in flight that keeps it. -/
def ProbeEntry.kept (f : ProbeFlight) (e : ProbeEntry) : ProbeEntry :=
  if e.string = f.string ∧ e.purpose = .diagnose then { e with attempts := 0 } else e

/-- An abort changes the attempts of an entry alone. -/
theorem ProbeEntry.kept_fields (f : ProbeFlight) (e : ProbeEntry) :
    ((e.kept f).string, (e.kept f).purpose, (e.kept f).origin, (e.kept f).waiting) = (e.string, e.purpose, e.origin, e.waiting) := by
  unfold ProbeEntry.kept
  split <;> rfl

theorem State.abortKeeping_none (h : s.probe.flight = none) : s.abortKeeping = s := by
  unfold State.abortKeeping
  simp only [h]

theorem State.abortKeeping_some {f : ProbeFlight} (h : s.probe.flight = some f) :
    s.abortKeeping = s.setProbe ⟨s.probe.list.map (·.kept f), some (f.abort s.part.now)⟩ := by
  unfold State.abortKeeping State.abortProbe
  simp only [h, State.setProbe_probe, Option.map_some]
  rfl

/-- R126: after the abort no probe is in flight but one in RELEASE without a held pass, and every entry has kept its
place. -/
theorem State.abortKeeping_probe (s : State) : ∃ probe : ProbeUnit, s.abortKeeping = s.setProbe probe ∧
    (∀ f, probe.flight = some f → f.stage = .release ∧ f.pass = false) ∧
    probe.list.map (fun e => (e.string, e.purpose, e.origin, e.waiting)) =
      s.probe.list.map (fun e => (e.string, e.purpose, e.origin, e.waiting)) := by
  cases hf : s.probe.flight with
  | none => exact ⟨s.probe, State.abortKeeping_none hf, by simp [hf], rfl⟩
  | some f =>
    refine ⟨_, State.abortKeeping_some hf, ?_, ?_⟩
    · rintro _ ⟨⟩
      obtain ⟨hstage, hpass, -, -⟩ := f.abort_stage s.part.now
      exact ⟨hstage, hpass⟩
    · rw [List.map_map]
      exact List.map_congr_left fun e _ => e.kept_fields f

theorem State.skyFor_iff (s : State) (n : Nat) : s.skyFor n = true ↔
    (s.str n).cfg.group = 0 ∨ ∃ g, s.grp (s.str n).cfg.group = some g ∧ g.lit = true := by
  unfold State.skyFor
  cases s.grp (s.str n).cfg.group <;> simp

theorem State.eligible_iff (s : State) (e : ProbeEntry) : s.eligible e = true ↔
    s.peer.night = false ∧ s.shutdown.asserted = false ∧ s.skyFor e.string = true ∧ e.waiting = false := by
  simp [State.eligible, and_assoc]

theorem State.abortUnlit_none (h : s.probe.flight = none) : s.abortUnlit = s := by
  unfold State.abortUnlit
  simp only [h]

theorem State.abortUnlit_some {f : ProbeFlight} (h : s.probe.flight = some f) :
    s.abortUnlit = if s.skyFor f.string then s else s.abortKeeping := by
  unfold State.abortUnlit
  simp only [h]

theorem State.lookForWork_rests (h : s.probe.flight ≠ none ∨ ∀ e ∈ s.probe.list, ¬s.eligible e = true) : s.lookForWork = s := by
  rcases s.lookForWork_cases with ⟨hsame, -⟩ | ⟨e, hnone, he, -⟩
  · exact hsame
  · rcases h with h | h
    · exact absurd hnone h
    · exact absurd (List.find?_some he) (h e (List.mem_of_find?_eq_some he))

theorem State.lookForWork_starts {earlier later : List ProbeEntry} {e : ProbeEntry} (h : s.probe.flight = none)
    (hl : s.probe.list = earlier ++ e :: later) (hx : ∀ x ∈ earlier, ¬s.eligible x = true) (he : s.eligible e = true) :
    s.lookForWork = s.startProbe e := by
  have hfind : s.probe.list.find? s.eligible = some e := by
    refine List.find?_eq_some_iff_append.2 ⟨he, earlier, later, hl, fun x hm => ?_⟩
    simpa using hx x hm
  unfold State.lookForWork
  simp only [h, hfind]

/-! ## The day/night decision (R50 to R55) -/

/-- R50: a dark round. -/
def State.Dark (s : State) : Prop := (∀ g ∈ s.peer.groups, g.lit = false) ∧
  ∀ r ∈ s.strings, r.cfg.used = true → r.cfg.group = 0 → r.state = .connected ∨ r.state = .suspect →
    r.sensorFault = false → r.n < (s.box.daylightFloor : Int)

theorem State.darkRound_iff (s : State) : s.darkRound = true ↔ s.Dark := by
  have hstring (r : StringRec) : (!(r.cfg.used && r.cfg.group == 0 && r.onBus && !r.sensorFault) ||
      decide (r.n < (s.box.daylightFloor : Int))) = true ↔ (r.cfg.used = true → r.cfg.group = 0 →
        r.state = .connected ∨ r.state = .suspect → r.sensorFault = false → r.n < (s.box.daylightFloor : Int)) := by
    rw [Bool.or_eq_true, Bool.not_eq_true', ← Bool.not_eq_true, ← imp_iff_not_or]
    simp [StringRec.onBus]
  simp only [State.darkRound, State.Dark, Bool.and_eq_true, List.all_eq_true, Bool.not_eq_true', hstring]

theorem State.decideDay_bright (hn : s.peer.night = false) (hd : ¬s.Dark) :
    s.decideDay = s.setPeer { s.peer with dark := 0 } := by
  rw [State.decideDay, if_neg (by simp [hn]), if_neg (mt s.darkRound_iff.1 hd)]

theorem State.decideDay_dark (hn : s.peer.night = false) (hd : s.Dark) :
    s.decideDay = if s.box.nightRounds ≤ s.peer.dark + 1 then s.enterNight
      else s.setPeer { s.peer with dark := s.peer.dark + 1 } := by
  rw [State.decideDay, if_neg (by simp [hn]), if_pos (s.darkRound_iff.2 hd)]

theorem State.decideDay_nightStays (hn : s.peer.night = true) (hd : s.Dark) : s.decideDay = s := by
  rw [State.decideDay, if_pos hn, if_pos (s.darkRound_iff.2 hd)]

theorem State.decideDay_nightEnds (hn : s.peer.night = true) (hd : ¬s.Dark) : s.decideDay = s.startDay := by
  rw [State.decideDay, if_pos hn, if_neg (mt s.darkRound_iff.1 hd)]

/-- R52: the box at the start of a night, its probe unit as it was. -/
def State.nightFallen (s : State) : State := ((s.setPeer { s.peer with night := true, dark := 0 }).setScan
  { s.scan with pendingCapture := true }).raise (.box .daylight)

theorem State.enterNight_eq (s : State) : s.enterNight = s.nightFallen.abortKeeping := rfl

@[simp] theorem State.nightFallen_probe (s : State) : s.nightFallen.probe = s.probe := State.raise_probe _ _

/-! ## A changed period (R23, R24) -/

/-- The length of the round timer or of the SYNC watch, whichever the source state runs. -/
def State.sourceLength (s : State) : Nat := if s.scan.source = .following then 2 * s.period else s.period

theorem State.newPeriod_holds {b : State}
    (h : b.peer.night = s.peer.night ∨ s.part.now < s.scan.lastStart + s.sourceLength ∨ s.scan.round ≠ none) :
    s.newPeriod b = s := by
  unfold State.newPeriod
  split
  · rfl
  · next hne =>
    refine State.recheckSource_holds fun ⟨hr, hl⟩ => ?_
    rcases h with h | h | h
    · exact hne h.symm
    · exact absurd hl (Nat.not_le.2 h)
    · exact h hr

theorem State.newPeriod_starts {b : State} (h : b.peer.night ≠ s.peer.night)
    (hl : s.scan.lastStart + s.sourceLength ≤ s.part.now) (hr : s.scan.round = none) :
    s.newPeriod b = if s.scan.source = .following then (s.begun .fallback).raise (.box .syncLost)
      else s.begun s.scan.source := by
  rw [State.newPeriod, if_neg (Ne.symm h), State.recheckSource_starts hr hl, State.enterFallback_starts hr,
    State.startRound_begins hr]

end

/-- Settles O45: the decision by the present period and the round, then each part of the completion's work. -/
theorem nightAndDayFollowTheDarkRounds : Obligations.NightAndDayFollowTheDarkRounds := by
  unfold Obligations.NightAndDayFollowTheDarkRounds
  intro s dark
  refine ⟨fun hn hd => State.decideDay_bright hn hd, fun hn hd hc => ?_, fun hn hd hc => ?_,
    fun hn hd => State.decideDay_nightStays hn hd, fun hn hd => State.decideDay_nightEnds hn hd, ?_, ?_⟩
  · rw [State.decideDay_dark hn hd, if_neg (Nat.not_le.2 hc)]
    rfl
  · rw [State.decideDay_dark hn hd, if_pos hc, State.enterNight_eq]
    obtain ⟨probe, heq, hflight, hlist⟩ := s.nightFallen.abortKeeping_probe
    rw [State.nightFallen_probe] at hlist
    exact ⟨probe, heq, hflight, hlist⟩
  · intro began period length b
    have hlength : length = s.sourceLength := by
      simp only [length, period, State.sourceLength, State.period]
      cases s.scan.source <;> rfl
    rw [hlength]
    refine ⟨State.newPeriod_holds, fun hb hl hr => ⟨fun hs => ?_, fun hs => ?_⟩⟩
    · rw [State.newPeriod_starts hb hl hr, if_neg hs]
      rfl
    · rw [State.newPeriod_starts hb hl hr, if_pos hs]
      rfl
  · intro sky eligible
    have hsky (n : Nat) : s.skyFor n = true ↔ sky n := s.skyFor_iff n
    have heligible (e : ProbeEntry) : s.eligible e = true ↔ eligible e := by rw [s.eligible_iff, hsky]
    refine ⟨rfl, State.abortUnlit_none, fun f hf => ⟨fun h => ?_, fun h => ?_⟩, fun h => ?_,
      fun hf earlier e later hl hx he => ?_⟩
    · rw [State.abortUnlit_some hf, if_pos ((hsky _).2 h)]
    · rw [State.abortUnlit_some hf, if_neg (mt (hsky _).1 h), State.abortKeeping_some hf]
      rfl
    · refine State.lookForWork_rests ?_
      simpa only [heligible] using h
    · simp only [← heligible] at hx he
      exact State.lookForWork_starts hf hl hx he

end Sys2Proof.Machine
end

