-- ==== Sys2Proof/Proofs/PeerComparison.lean ====
section
/-! The median (O43), and what the comparison writes into the string and group records (O44). -/

namespace Sys2Proof.Machine

/-! ## The median (R44) -/

/-- A list has one ascending arrangement. -/
theorem sortAsc_eq_of_perm {values ascending : List Nat} (hperm : ascending.Perm values)
    (hasc : ascending.Pairwise (· ≤ ·)) : sortAsc values = ascending :=
  ((sortAsc_perm values).trans hperm.symm).eq_of_pairwise' (sortAsc_ascending values) hasc

theorem median_odd {values : List Nat} {h : Nat} (hl : values.length = 2 * h + 1) :
    median values = (sortAsc values).getD h 0 := by
  have hlen : (sortAsc values).length = 2 * h + 1 := (sortAsc_perm values).length_eq.trans hl
  have hhalf : (2 * h + 1) / 2 = h := by omega
  simp only [median, hlen, hhalf]
  exact if_pos (by omega)

theorem median_even {values : List Nat} {h : Nat} (hl : values.length = 2 * h + 2) :
    median values = ((sortAsc values).getD h 0 + (sortAsc values).getD (h + 1) 0) / 2 := by
  have hlen : (sortAsc values).length = 2 * h + 2 := (sortAsc_perm values).length_eq.trans hl
  have hhalf : (2 * h + 2) / 2 = h + 1 := by omega
  simp only [median, hlen, hhalf]
  exact if_neg (by omega)

/-- Settles O43: the model's sorted list is the given arrangement, so its middle values are read there. -/
theorem medianIsTakenInAscendingOrder : Obligations.MedianIsTakenInAscendingOrder := by
  unfold Obligations.MedianIsTakenInAscendingOrder
  intro values ascending h hperm hasc
  have hsort : sortAsc values = ascending := sortAsc_eq_of_perm hperm hasc
  refine ⟨fun x hl hx => ?_, fun x y hl hx hy => ?_⟩
  · simp [median_odd hl, hsort, hx]
  · simp [median_even hl, hsort, hx, hy]

/-! ## Normalized currents and indices (R41, R47) -/

theorem StringRec.normalize_used {r : StringRec} (h : r.cfg.used = true) :
    r.normalize = { r with n := normalized r.current r.cfg.rated } := if_pos h

theorem StringRec.normalize_unused {r : StringRec} (h : r.cfg.used = false) : r.normalize = r :=
  if_neg (ne_true_of_eq_false h)

@[simp] theorem StringRec.normalize_cfg (r : StringRec) : r.normalize.cfg = r.cfg := by
  unfold StringRec.normalize
  split <;> rfl

/-- R47: in a group, an index is given against a reference, to an eligible string while the group is lit. -/
theorem StringRec.index_group (r : StringRec) (fresh : Bool) (q : GroupRec) :
    r.index fresh (some q) = match q.reference with
      | none => none
      | some m =>
        if q.lit = true ∧ r.isEligible fresh = true then
          some (max 0 (min 4000 (roundDiv (r.n * 1000) (m : Int)))).toNat
        else none := by
  cases href : q.reference with
  | none => simp only [StringRec.index, href]
  | some m => simp only [StringRec.index, href, Bool.and_eq_true, clampInt_eq (show (0 : Int) ≤ 4000 by decide)]

/-! ## The comparison of a full table (R40) -/

/-- Tables are numbered from 1. -/
@[simp] theorem getNum_zero {α : Type} (l : List α) : getNum l 0 = none := by cases l <;> rfl

theorem getNum_ne_zero {α : Type} {l : List α} {n : Nat} {x : α} (h : getNum l n = some x) : n ≠ 0 := by
  rintro rfl
  simp at h

theorem mapNum_map_range' {α β : Type} (f : Nat → α → β) (h : Nat → α) (k m : Nat) :
    mapNum f k ((List.range' k m).map h) = (List.range' k m).map fun n => f n (h n) := by
  induction m generalizing k with
  | zero => rfl
  | succ m ih => simp [List.range'_succ, mapNum, ih]

/-- The table as the comparison reads it: each string with its n, and whether it was delivered a figure (R41, R43). -/
def State.marked (s : State) (fresh : List Nat) : List (StringRec × Bool) :=
  mapNum (fun n r => (r, fresh.contains n)) 1 (s.strings.map (·.normalize))

/-- R43: whether string `n` of the compared state counts for group `g`'s reference. -/
def State.counts (t : State) (fresh : List Nat) (g n : Nat) : Bool :=
  let r := t.str n
  r.cfg.used && r.cfg.group == g && (r.state == .connected || r.state == .suspect) && !r.saturated &&
    !r.sensorFault && decide (0 ≤ r.n) && fresh.contains n

section
variable {s : State} {n g : Nat} (fresh : List Nat)

theorem State.marked_eq (h : s.strings.length = 24) :
    s.marked fresh = Config.stringNumbers.map fun n => ((s.str n).normalize, fresh.contains n) := by
  have hk : Config.stringNumbers = List.range' 1 24 := rfl
  rw [State.marked, State.strings_eq h, List.map_map, hk, mapNum_map_range']
  rfl

/-- The comparison writes the string table and the group records alone. -/
theorem State.compare_frame (s : State) : s.compare fresh = { s with
    strings := (s.compare fresh).strings, peer := { s.peer with groups := (s.compare fresh).peer.groups } } := rfl

theorem State.compare_sizes (h : TableSizes s) : TableSizes (s.compare fresh) :=
  (s.compare_bounded 0 fresh).sizes h

theorem State.compare_grp {r : GroupRec} (hr : getNum s.peer.groups g = some r) :
    getNum (s.compare fresh).peer.groups g = some (r.refer g s.box.daylightFloor (s.marked fresh)) := by
  obtain ⟨k, rfl⟩ := Nat.exists_eq_succ_of_ne_zero (getNum_ne_zero hr)
  simp only [State.compare, State.setPeer_peer, getNum_mapNum, hr, Option.map_some, Nat.add_comm 1 k]
  rfl

theorem State.compare_grp_none (h : s.grp g = none) : (s.compare fresh).grp g = none := by
  have hr : getNum s.peer.groups g = none := h
  match g with
  | 0 => exact getNum_zero _
  | g + 1 => simp only [State.grp, State.compare, State.setPeer_peer, getNum_mapNum, hr, Option.map_none]

/-- What the comparison makes of one record, its group's record being the one just written. -/
theorem State.compare_str (h : s.strings.length = 24) (hn : stringNumber n = true) :
    (s.compare fresh).str n = if (s.str n).cfg.used then
      { (s.str n).normalize with
        p := (s.str n).normalize.index (fresh.contains n) ((s.compare fresh).grp (s.str n).cfg.group) }
      else (s.str n).normalize := by
  obtain ⟨h1, h2⟩ := (stringNumber_iff n).1 hn
  obtain ⟨r, hr⟩ := getNum_some s.strings n h1 (h ▸ h2)
  obtain ⟨k, rfl⟩ := Nat.exists_eq_add_of_le' h1
  simp only [State.str, State.grp, State.compare, State.setPeer_strings, State.setStrings_strings, State.setPeer_peer,
    getNum_map, getNum_mapNum, hr, Option.map_some, Option.getD_some, StringRec.normalize_cfg, Nat.add_comm 1 k]

theorem State.compare_str_unused (h : s.strings.length = 24) (hn : stringNumber n = true)
    (hu : (s.str n).cfg.used = false) : (s.compare fresh).str n = s.str n := by
  rw [State.compare_str fresh h hn, hu, StringRec.normalize_unused hu]
  rfl

theorem State.compare_str_used (h : s.strings.length = 24) (hn : stringNumber n = true)
    (hu : (s.str n).cfg.used = true) : (s.compare fresh).str n = { s.str n with
      n := normalized (s.str n).current (s.str n).cfg.rated
      p := (s.str n).normalize.index (fresh.contains n) ((s.compare fresh).grp (s.str n).cfg.group) } := by
  rw [State.compare_str fresh h hn, if_pos hu, StringRec.normalize_used hu]

/-- The comparison leaves every string's configuration. -/
theorem State.compare_cfg (h : s.strings.length = 24) (hn : stringNumber n = true) :
    ((s.compare fresh).str n).cfg = (s.str n).cfg := by
  rw [State.compare_str fresh h hn]
  split <;> exact StringRec.normalize_cfg _

/-- R43: the strings that the comparison counts can be read off the records it leaves, since p has no part in it. -/
theorem State.counts_compare (h : s.strings.length = 24) (hn : stringNumber n = true) (hg : g ≠ 0) :
    (s.compare fresh).counts fresh g n =
      ((s.str n).normalize.memberOf g && (s.str n).normalize.isEligible (fresh.contains n)) := by
  cases hu : (s.str n).cfg.used with
  | false =>
    rw [State.counts, State.compare_str_unused fresh h hn hu, StringRec.normalize_unused hu]
    simp [StringRec.memberOf, hu]
  | true =>
    rw [State.counts, State.compare_str_used fresh h hn hu, StringRec.normalize_used hu]
    have hgroup : (g != 0) = true := bne_iff_ne.2 hg
    simp [StringRec.memberOf, StringRec.isEligible, StringRec.onBus, hu, hgroup, Bool.and_assoc]

/-- R47: a used string counts for its own group exactly when it is eligible. -/
theorem State.counts_group (h : s.strings.length = 24) (hn : stringNumber n = true) (hg : (s.str n).cfg.group ≠ 0)
    (hu : (s.str n).cfg.used = true) :
    (s.compare fresh).counts fresh (s.str n).cfg.group n = (s.str n).normalize.isEligible (fresh.contains n) := by
  rw [State.counts_compare fresh h hn hg]
  simp [StringRec.memberOf, hu, hg]

/-- R43: the n values of the strings counted for group `g`, in ascending number. -/
def State.countedValues (t : State) (fresh : List Nat) (g : Nat) : List Nat :=
  (Config.stringNumbers.filter (t.counts fresh g)).map fun n => (t.str n).n.toNat

theorem State.compare_n (h : s.strings.length = 24) (hn : stringNumber n = true) :
    ((s.compare fresh).str n).n = (s.str n).normalize.n := by
  rw [State.compare_str fresh h hn]
  split <;> rfl

theorem stringNumber_of_mem (hn : n ∈ Config.stringNumbers) : stringNumber n = true :=
  (stringNumber_iff n).2 ((mem_stringNumbers n).1 hn)

/-- R43: the values from which the comparison takes group `g`'s reference. -/
theorem State.countedValues_compare (h : s.strings.length = 24) (hg : g ≠ 0) :
    (((s.marked fresh).filter fun x => x.1.memberOf g && x.1.isEligible x.2).map fun x => x.1.n.toNat) =
      (s.compare fresh).countedValues fresh g := by
  rw [State.marked_eq fresh h, List.filter_map, List.map_map, State.countedValues]
  have hfilter : Config.stringNumbers.filter ((s.compare fresh).counts fresh g) = Config.stringNumbers.filter fun n =>
      (s.str n).normalize.memberOf g && (s.str n).normalize.isEligible (fresh.contains n) :=
    List.filter_congr fun n hn => State.counts_compare fresh h (stringNumber_of_mem hn) hg
  rw [hfilter]
  refine List.map_congr_left fun n hn => ?_
  have hnumber : stringNumber n = true := stringNumber_of_mem (List.mem_filter.1 hn).1
  simp only [Function.comp_apply, State.compare_n fresh h hnumber]

/-- R42: the marked table's members of a group are those of the configuration. -/
theorem State.marked_members (h : s.strings.length = 24) (hg : g ≠ 0) :
    ((s.marked fresh).filter fun x => x.1.memberOf g).length =
      (Config.stringNumbers.filter fun n => (s.str n).cfg.used && (s.str n).cfg.group == g).length := by
  rw [State.marked_eq fresh h, ← State.members_eq h hg, State.strings_eq h]
  simp only [List.filter_map, List.length_map]
  refine congrArg List.length (List.filter_congr fun n _ => ?_)
  simp [StringRec.memberOf]

/-- R42 to R46: the record that the comparison writes for group `g`. -/
theorem State.compare_grp_eq (h : s.strings.length = 24) {r : GroupRec} (hr : getNum s.peer.groups g = some r) :
    getNum (s.compare fresh).peer.groups g = some ⟨r.cfg,
      (Config.stringNumbers.filter fun n => (s.str n).cfg.used && (s.str n).cfg.group == g).length,
      ((s.compare fresh).countedValues fresh g).length, referenceOf ((s.compare fresh).countedValues fresh g),
      litOf (referenceOf ((s.compare fresh).countedValues fresh g)) s.box.daylightFloor⟩ := by
  have hg : g ≠ 0 := getNum_ne_zero hr
  rw [State.compare_grp fresh hr, ← State.countedValues_compare fresh h hg, ← State.marked_members fresh h hg,
    List.length_map]
  rfl

/-- R47: the comparison writes a used string's index from the record just written for its group. -/
theorem State.compare_p (h : s.strings.length = 24) (hn : stringNumber n = true) (hu : (s.str n).cfg.used = true) :
    ((s.compare fresh).str n).p =
      (s.str n).normalize.index (fresh.contains n) ((s.compare fresh).grp (s.str n).cfg.group) := by
  rw [State.compare_str_used fresh h hn hu]

theorem State.compare_p_group (h : s.strings.length = 24) (hn : stringNumber n = true) (hu : (s.str n).cfg.used = true)
    {q : GroupRec} (hq : (s.compare fresh).grp (s.str n).cfg.group = some q) :
    ((s.compare fresh).str n).p = match q.reference with
      | none => none
      | some m =>
        if q.lit = true ∧ (s.compare fresh).counts fresh (s.str n).cfg.group n = true then
          some (max 0 (min 4000 (roundDiv (((s.compare fresh).str n).n * 1000) (m : Int)))).toNat
        else none := by
  rw [State.compare_p fresh h hn hu, hq, StringRec.index_group, State.compare_n fresh h hn,
    State.counts_group fresh h hn (getNum_ne_zero hq) hu]

end

/-- Settles O44: the frame, each string's n, each group's record with its strings' indices, and no index without a
group. -/
theorem comparisonWritesReferencesAndIndices : Obligations.ComparisonWritesReferencesAndIndices := by
  unfold Obligations.ComparisonWritesReferencesAndIndices
  intro s fresh hsizes t eligible
  have hl : s.strings.length = 24 := hsizes.1
  refine ⟨⟨_, _, State.compare_frame fresh s⟩, State.compare_sizes fresh hsizes, fun n hn => ⟨?_, ?_, fun hu => ?_⟩,
    fun g r hr => ?_, fun n hn hu hgroup => ?_⟩
  · cases hu : (s.str n).cfg.used with
    | false => rw [State.compare_str_unused fresh hl hn hu]
    | true => rw [State.compare_str_used fresh hl hn hu]
  · exact State.compare_str_unused fresh hl hn
  · rw [State.compare_str_used fresh hl hn hu]
    exact clampInt_eq (by decide) _
  · intro numbers values reference lit
    have hgrp := State.compare_grp_eq fresh hl hr
    refine ⟨hgrp, fun n hn hu hgroup => ?_⟩
    rw [State.compare_cfg fresh hl hn] at hu hgroup
    subst hgroup
    exact State.compare_p_group fresh hl hn hu hgrp
  · rw [State.compare_cfg fresh hl hn] at hu hgroup
    rw [State.compare_p fresh hl hn hu, State.compare_grp_none fresh hgroup]
    rfl

end Sys2Proof.Machine
end

