-- ==== Sys2Proof/Proofs/GroupLinkConfig.lean ====
section
/-! GROUP_CONFIG and LINK_CONFIG (O37): the fields taken, and what an accepted message replaces. -/

namespace Sys2Proof.Machine

section
variable {s : State}

/-! ## GROUP_CONFIG (R38, R182) -/

/-- R38: the fields of a GROUP_CONFIG, each within its range, are the settings taken. -/
theorem groupSettingsOf_eq_some (m : GroupConfigMsg) (c : GroupSettings) :
    groupSettingsOf m = some c ↔ (tempSourceOfCode m.source = some c.source ∧ policyOfCode m.policy = some c.policy ∧
      (-60 ≤ m.beta.toInt ∧ m.beta.toInt ≤ 0) ∧ (500 ≤ m.deficit.toNat ∧ m.deficit.toNat ≤ 950) ∧
      m.leak.toNat ≤ 1000 ∧ 1000 ≤ m.trip.toNat ∧ m.trip.toNat ≤ 60000) ∧
      c = ⟨c.source, m.beta.toInt, m.deficit.toNat, m.leak.toNat, m.trip.toNat, c.policy⟩ := by
  by_cases hb : -60 ≤ m.beta.toInt ∧ m.beta.toInt ≤ 0
  · simp only [groupSettingsOf, if_pos hb, Option.bind_eq_bind, Option.bind_some, Option.bind_eq_some_iff, inRange_eq_some]
    constructor
    · rintro ⟨_, hs, _, ⟨hd, rfl⟩, _, ⟨hl, rfl⟩, _, ⟨ht, rfl⟩, _, hp, hc⟩
      obtain rfl := Option.some.inj hc
      exact ⟨⟨hs, hp, hb, hd, hl.2, ht⟩, rfl⟩
    · rintro ⟨⟨hs, hp, -, hd, hl, ht⟩, hc⟩
      exact ⟨_, hs, _, ⟨hd, rfl⟩, _, ⟨⟨Nat.zero_le _, hl⟩, rfl⟩, _, ⟨ht, rfl⟩, _, hp, congrArg some hc.symm⟩
  · simp [groupSettingsOf, hb]

theorem State.reqGroupConfig_run (m : GroupConfigMsg) (h : s.mode = .run) : s.reqGroupConfig m = refuse s .mode := if_pos h

theorem State.reqGroupConfig_accepts {m : GroupConfigMsg} {c : GroupSettings} (h : s.mode = .setup)
    (hg : groupNumber m.group.toNat = true) (hc : groupSettingsOf m = some c) :
    s.reqGroupConfig m = accept (s.configureGroup m.group.toNat c) (groupConfigBytes m.group.toNat c) := by
  have hrun : s.mode ≠ .run := h.trans_ne (by decide)
  simp only [State.reqGroupConfig, if_neg hrun, groupOfByte_eq, if_pos hg, hc]

/-- R182: a GROUP_CONFIG without a group, or without its settings, is refused RANGE. -/
theorem State.reqGroupConfig_refuses {m : GroupConfigMsg} (h : s.mode = .setup)
    (hbad : groupNumber m.group.toNat = false ∨ groupSettingsOf m = none) : s.reqGroupConfig m = refuse s .range := by
  have hrun : s.mode ≠ .run := h.trans_ne (by decide)
  simp only [State.reqGroupConfig, if_neg hrun, groupOfByte_eq]
  rcases hbad with hg | hc
  · simp [hg]
  · simp [hc]

/-! ## LINK_CONFIG (R183) -/

/-- R190: a byte that names a rate is that rate's code. -/
theorem codeOfRate_rateOfCode {b : Byte} {r : Rate} (h : rateOfCode b = some r) : codeOfRate r = b := by
  unfold rateOfCode at h
  split_ifs at h with h0 h1 h2 <;> obtain rfl := Option.some.inj h
  · exact h0.symm
  · exact h1.symm
  · exact h2.symm

theorem State.reqLinkConfig_run (rate address : Byte) (h : s.mode = .run) :
    s.reqLinkConfig rate address = refuse s .mode := if_pos h

theorem State.reqLinkConfig_accepts {rate address : Byte} {r : Rate} (h : s.mode = .setup) (hr : rateOfCode rate = some r)
    (ha : 1 ≤ address.toNat ∧ address.toNat ≤ 99) :
    s.reqLinkConfig rate address = accept (s.configureLink ⟨r, address.toNat⟩) [rate, address] := by
  have hrun : s.mode ≠ .run := h.trans_ne (by decide)
  have hbytes : linkBytes ⟨r, address.toNat⟩ = [rate, address] := by
    simp [linkBytes, codeOfRate_rateOfCode hr, byteOf]
  simp only [State.reqLinkConfig, if_neg hrun, hr, inRange_some ha, hbytes]

theorem State.reqLinkConfig_refuses {rate address : Byte} (h : s.mode = .setup)
    (hbad : rateOfCode rate = none ∨ ¬(1 ≤ address.toNat ∧ address.toNat ≤ 99)) :
    s.reqLinkConfig rate address = refuse s .range := by
  have hrun : s.mode ≠ .run := h.trans_ne (by decide)
  simp only [State.reqLinkConfig, if_neg hrun]
  rcases hbad with hr | ha
  · simp [hr]
  · simp [inRange, ha]

end

/-- Settles O37: the mode and the tests of the fields decide, and an accepted message replaces its record alone. -/
theorem groupAndLinkConfigReplaceTheirRecord : Obligations.GroupAndLinkConfigReplaceTheirRecord := by
  unfold Obligations.GroupAndLinkConfigReplaceTheirRecord
  intro s m rate address hl marked
  have group : exec (.groupConfig m) s = .next ((s.reqGroupConfig m).1.sendReply _ (s.reqGroupConfig m).2) :=
    congrArg Host.Outcome.next (State.answer_listening hl _ _)
  have link : exec (.linkConfig rate address) s =
      .next ((s.reqLinkConfig rate address).1.sendReply _ (s.reqLinkConfig rate address).2) :=
    congrArg Host.Outcome.next (State.answer_listening hl _ _)
  rw [group, link]
  refine ⟨fun h => ?_, fun h => ⟨fun source policy hg hs hp hb hb' hd hd' hk ht ht' => ?_, fun hbad => ?_,
    fun r hr ha ha' => ?_, fun hbad => ?_⟩⟩
  · rw [State.reqGroupConfig_run m h, State.reqLinkConfig_run rate address h]
    exact ⟨rfl, rfl⟩
  · intro c
    have hc : groupSettingsOf m = some c := (groupSettingsOf_eq_some m c).2 ⟨⟨hs, hp, ⟨hb, hb'⟩, ⟨hd, hd'⟩, hk, ht, ht'⟩, rfl⟩
    rw [State.reqGroupConfig_accepts h hg hc]
    rfl
  · have hrange : groupNumber m.group.toNat = false ∨ groupSettingsOf m = none := by
      refine hbad.imp_right fun hfield => Option.eq_none_iff_forall_ne_some.2 fun c hc => ?_
      obtain ⟨⟨hs, hp, hb, hd, hk, ht⟩, -⟩ := (groupSettingsOf_eq_some m c).1 hc
      rw [hs, hp] at hfield
      simp only [reduceCtorEq, false_or] at hfield
      omega
    rw [State.reqGroupConfig_refuses h hrange]
    rfl
  · rw [State.reqLinkConfig_accepts h hr ⟨ha, ha'⟩]
    rfl
  · rw [State.reqLinkConfig_refuses h (hbad.imp_right fun _ => by omega)]
    rfl

end Sys2Proof.Machine
end

