-- ==== Sys2Proof/Proofs/Resets.lean ====
section
/-! The drop stage of a reset and the loss of supply (O3). -/

namespace Sys2Proof.Machine

section
variable {s : State}

/-! ## The drop stage (R150) -/

/-- R1: a reset leaves a blank record of every string, with its contact where it lay. -/
theorem State.drop_str (kind : ResetKind) {n : Nat} (hl : s.strings.length = 24) (hn : stringNumber n = true) :
    ∃ c, (s.drop kind).str n = StringRec.blank c (s.str n).position := by
  obtain ⟨h1, h2⟩ := (stringNumber_iff n).1 hn
  obtain ⟨k, rfl⟩ : ∃ k, n = k + 1 := ⟨n - 1, by omega⟩
  have hk : k < s.strings.length := by omega
  have hc : k < (Config.stringNumbers.map Config.string).length := show k < 24 by omega
  have hd : (s.drop kind).strings[k]? =
      some (StringRec.blank (Config.stringNumbers.map Config.string)[k] s.strings[k].position) := by
    show (List.zipWith StringRec.blank _ (s.strings.map (·.position)))[k]? = _
    rw [List.getElem?_zipWith, List.getElem?_eq_getElem hc, List.getElem?_map, List.getElem?_eq_getElem hk]
    rfl
  refine ⟨(Config.stringNumbers.map Config.string)[k], ?_⟩
  rw [State.str, State.str, getNum_eq, getNum_eq, hd, List.getElem?_eq_getElem hk]
  rfl

theorem State.drop_drivesOff (s : State) (kind : ResetKind) : DrivesOff (s.drop kind) where
  gate := rfl
  tap := rfl
  probeTap := rfl
  openDrive := by
    show (restingAt s.isolator.feedback == .opening) = false
    cases s.isolator.feedback <;> rfl
  closeDrive := by
    show (restingAt s.isolator.feedback == .closing) = false
    cases s.isolator.feedback <;> rfl
  coils := fun n => by simp [State.openCoil, State.closeCoil, (s.drop_unused kind n).2]
  driver := rfl

/-- R150: what the drop stage of a reset leaves. -/
theorem Dropped.of_drop (kind : ResetKind) (hl : s.strings.length = 24) : Dropped kind s (s.drop kind) where
  part := rfl
  attention := rfl
  queue := rfl
  probe := rfl
  cell := ⟨rfl, rfl, rfl, rfl⟩
  isolator := ⟨rfl, rfl⟩
  shutdown := rfl
  supervision := ⟨rfl, rfl, rfl⟩
  rounds := ⟨rfl, rfl, rfl, rfl, rfl, rfl⟩
  dayAndNight := ⟨rfl, rfl, rfl⟩
  groups := fun g hg => by
    obtain rfl := List.eq_of_mem_replicate hg
    exact ⟨rfl, rfl, rfl⟩
  link := ⟨rfl, rfl⟩
  store := ⟨rfl, rfl, rfl⟩
  strings := fun n hn => by
    obtain ⟨c, h⟩ := State.drop_str kind hl hn
    rw [h]
    exact .blank c _
  drives := s.drop_drivesOff kind

/-! ## What stands in the store (R136) -/

theorem State.imageLeft_idle (h : s.store.writing = none) : s.imageLeft = s.store.image := by
  simp [State.imageLeft, h]

/-- R136: a write in flight leaves one of three contents, whichever the free value names. -/
theorem State.imageLeft_writing {w : Image} (h : s.store.writing = some w) :
    s.imageLeft = s.store.image ∨ s.imageLeft = some w ∨ s.imageLeft = none := by
  simp only [State.imageLeft, h]
  cases Config.residue s.free.draws with
  | before => exact .inl rfl
  | after => exact .inr (.inl rfl)
  | fails => exact .inr (.inr rfl)

/-! ## The loss of supply (R166) -/

/-- R166: without supply the state is that of a drop stage that no reset has begun. -/
theorem State.supplyLost_powered (h : s.powered = true) : s.supplyLost =
    ((s.drop s.part.cause).setPart { (s.drop s.part.cause).part with stage := .off }).setAttention [] := if_pos h

theorem State.supplyLost_drivesOff (h : s.powered = true) : DrivesOff s.supplyLost := by
  have d := s.drop_drivesOff s.part.cause
  rw [State.supplyLost_powered h]
  exact { gate := rfl, tap := d.tap, probeTap := d.probeTap, openDrive := d.openDrive, closeDrive := d.closeDrive
          coils := d.coils, driver := d.driver }

/-- Settles O3: each reset is the one drop stage, and the loss of supply is that stage without supply. -/
theorem resetsAndSupplyLossDropEverything : Obligations.ResetsAndSupplyLossDropEverything := by
  unfold Obligations.ResetsAndSupplyLossDropEverything
  intro s hl image
  have left (t : State) (ht : t.store.image = s.imageLeft) : image t :=
    ⟨fun h => ht.trans (State.imageLeft_idle h), fun w h => ht ▸ State.imageLeft_writing h⟩
  refine ⟨⟨s.drop .powerOn, rfl, Dropped.of_drop _ hl, left _ rfl⟩, fun hp => ?_, fun hp => ?_, fun hr ho => ?_,
    fun hp => ?_, fun hp => ?_⟩
  · exact ⟨s.drop .resetLine, congrArg Host.Outcome.next (if_pos hp), Dropped.of_drop _ hl, left _ rfl⟩
  · exact congrArg Host.Outcome.next (if_neg (by simp [hp]))
  · refine ⟨s.drop .restartMessage, congrArg Host.Outcome.next ?_, Dropped.of_drop _ hl, left _ rfl⟩
    simp only [State.replySent, hr, ho, if_true]
  · refine ⟨s.supplyLost, rfl, ?_, ?_, ?_, State.supplyLost_drivesOff hp, left _ ?_, fun n hn => ?_⟩
    · rw [State.supplyLost_powered hp]; rfl
    · rw [State.supplyLost_powered hp]; rfl
    · rw [State.supplyLost_powered hp]; rfl
    · rw [State.supplyLost_powered hp]; rfl
    · obtain ⟨c, h⟩ := State.drop_str s.part.cause hl hn
      rw [State.supplyLost_powered hp, State.setAttention_str, State.setPart_str, h]
      exact .blank c _
  · exact congrArg Host.Outcome.next (if_neg (by simp [hp]))

end

end Sys2Proof.Machine
end

