-- ==== Sys2Proof/Proofs/CellRestored.lean ====
section
/-! CELL_RESTORE (O33). -/

namespace Sys2Proof.Machine

section
variable {s : State}

/-! ## The cell's entry to HOT or IDLE (R89, R91) -/

theorem State.cellRested_cool (h : s.cell.heat ≤ s.box.hMax) : s.cellRested = s.cellIdle := if_neg (Nat.not_lt.2 h)

theorem State.cellRested_hot (h : s.box.hMax < s.cell.heat) : s.cellRested = s.cellHot := if_pos h

theorem State.escalateWaiting_cases (s : State) : s.escalateWaiting = s ∨ s.escalateWaiting = s.openRequest := by
  unfold State.escalateWaiting
  split
  · exact .inr rfl
  · exact .inl rfl

/-- R92: the escalation of waiting entries leaves a cell that is not IDLE. -/
theorem State.escalateWaiting_cell (h : s.cell.stage ≠ .idle) : s.escalateWaiting.cell = s.cell := by
  rcases s.escalateWaiting_cases with he | he <;> rw [he]
  exact State.openRequest_cell h

theorem State.escalateWaiting_grows (s : State) : Grows s s.escalateWaiting := by
  rcases s.escalateWaiting_cases with he | he <;> rw [he]
  · exact .refl s
  · exact s.openRequest_grows

/-- R89: HOT is shown whatever the entries that wait ask for. -/
theorem State.cellHot_entered (s : State) :
    s.cellHot.cell = { s.cell with stage := .hot, served := none, releasing := false } ∧
      Item.box .cellHot ∈ s.cellHot.attention := by
  unfold State.cellHot
  rw [State.escalateWaiting_cell (by simp)]
  exact ⟨by simp, State.escalateWaiting_grows _ _ (State.mem_raise_self _ _)⟩

/-! ## The request (R91, R178) -/

/-- R178: the tests of CELL_RESTORE in their order. -/
theorem State.reqCellRestore_accepts (h : s.cell.stage = .faulted ∧ s.cell.releasing = false)
    (hm : magnitude s.cell.monitor ≤ s.box.coldLimit) (hs : s.supervision.state = .supervised) :
    s.reqCellRestore = accept s.restoreCell [codeOfCellStage s.restoredStage] := by
  have hv : ¬s.supervised = false := fun hv => (s.supervised_iff.1 hv) hs
  simp [State.reqCellRestore, h.1, h.2, Nat.not_lt.2 hm, hv]

theorem State.reqCellRestore_unready (h : ¬(s.cell.stage = .faulted ∧ s.cell.releasing = false)) :
    s.reqCellRestore = refuse s .conflict := by
  refine if_pos ?_
  by_cases hf : s.cell.stage = .faulted
  · exact .inr (by simpa [hf] using h)
  · exact .inl hf

/-- R91: without a string in the record the cell goes to HOT or to IDLE. -/
theorem State.restoreCell_stringless {f : CellFault} (hf : s.cell.fault = some f) (hn : f.string = none) :
    s.restoreCell = s.cellRested ∧ s.restoredStage = if s.box.hMax < s.cell.heat then .hot else .idle := by
  simp [State.restoreCell, State.restoredStage, hf, hn]

theorem State.restoreCell_string {f : CellFault} {n : Nat} (hf : s.cell.fault = some f) (hn : f.string = some n) :
    s.restoreCell = s.setCell { s.cell with releasing := true, since := s.part.now, timeout := 30 } ∧
      s.restoredStage = .faulted := by
  simp [State.restoreCell, State.restoredStage, hf, hn]

/-- Settles O33: the tests in their order, then the two outcomes by the string in the cell's record. -/
theorem cellRestoreReleasesTheTap : Obligations.CellRestoreReleasesTheTap := by
  unfold Obligations.CellRestoreReleasesTheTap
  intro s hlis refused ready
  have answered : exec .cellRestore s = .next (s.reqCellRestore.1.sendReply Kind.cellRestore.code s.reqCellRestore.2) :=
    congrArg Host.Outcome.next (State.answer_listening hlis _ _)
  have refuses (r : Reason) (h : s.reqCellRestore = refuse s r) : refused r := by
    show exec .cellRestore s = _
    rw [answered, h]
    rfl
  refine ⟨fun h => refuses _ (State.reqCellRestore_unready h), fun h hm => refuses _ ?_, fun h hm hs => refuses _ ?_,
    fun h hm hs => ?_⟩
  · simp [State.reqCellRestore, h.1, h.2, hm]
  · simp [State.reqCellRestore, h.1, h.2, Nat.not_lt.2 hm, s.supervised_iff.2 hs]
  · rw [answered, State.reqCellRestore_accepts h hm hs]
    refine ⟨fun f n hf hn => ?_, fun f hf hn => ?_⟩
    · obtain ⟨hr, hst⟩ := State.restoreCell_string hf hn
      rw [hr, hst]
      rfl
    · obtain ⟨hr, hst⟩ := State.restoreCell_stringless hf hn
      rw [hr, hst]
      refine ⟨fun hh => ⟨s.cellIdle, ?_, fun hq => State.cellIdle_idle hq⟩,
        fun hh => ⟨s.cellHot, ?_, s.cellHot_entered.1, s.cellHot_entered.2, fun hq => State.cellHot_idle hq⟩⟩
      · rw [State.cellRested_cool hh, if_neg (Nat.not_lt.2 hh)]; rfl
      · rw [State.cellRested_hot hh, if_pos hh]; rfl

end

end Sys2Proof.Machine
end

