-- ==== Sys2Proof/Proofs/QueueOrder.lean ====
section
/-! The order of the queue, the visits of a walk and the escalation of the entries that wait (O47). -/

namespace Sys2Proof.Machine

/-! ## The order of two entries (R74) -/

section
variable {counter arrival : Word32} {a b c e : QueueEntry} {q : List QueueEntry}

theorem QueueEntry.before_iff : a.before counter arrival b = true ↔
    b.severity.rank < a.severity.rank ∨ a.severity.rank = b.severity.rank ∧
      ((counter - b.round).toNat < (counter - a.round).toNat ∨ (counter - a.round).toNat = (counter - b.round).toNat ∧
        (arrival - b.arrival).toNat < (arrival - a.arrival).toNat) := by
  simp [QueueEntry.before]

theorem QueueEntry.before_trans (h : a.before counter arrival b = true) (k : b.before counter arrival c = true) :
    a.before counter arrival c = true := by
  rw [QueueEntry.before_iff] at h k ⊢
  omega

theorem QueueEntry.before_asymm (h : a.before counter arrival b = true) : b.before counter arrival a = false := by
  rw [← Bool.not_eq_true, QueueEntry.before_iff]
  rw [QueueEntry.before_iff] at h
  omega

/-- Differences modulo 2^32 from one counter's value tell the indices apart. -/
theorem toNat_sub_injective {x y : Word32} (h : (arrival - x).toNat = (arrival - y).toNat) : x = y :=
  sub_right_injective (BitVec.eq_of_toNat_eq h)

/-- R74: of two entries with different indices one goes before the other. -/
theorem QueueEntry.before_total (hne : a.arrival ≠ b.arrival) (h : a.before counter arrival b = false) :
    b.before counter arrival a = true := by
  have hp : (arrival - a.arrival).toNat ≠ (arrival - b.arrival).toNat := fun hp => hne (toNat_sub_injective hp)
  rw [← Bool.not_eq_true, QueueEntry.before_iff] at h
  rw [QueueEntry.before_iff]
  omega

/-! ## An entry put in its place -/

theorem insertEntry_perm (counter arrival : Word32) (e : QueueEntry) (q : List QueueEntry) :
    (insertEntry counter arrival e q).Perm (e :: q) := by
  induction q with
  | nil => rfl
  | cons x xs ih =>
    rw [insertEntry]
    split
    · rfl
    · exact (ih.cons x).trans (List.Perm.swap e x xs)

/-- R74: the queue stays in its order. -/
theorem insertEntry_ordered (hd : ∀ x ∈ q, x.arrival ≠ e.arrival)
    (ho : q.Pairwise fun a b => a.before counter arrival b = true) :
    (insertEntry counter arrival e q).Pairwise fun a b => a.before counter arrival b = true := by
  induction q with
  | nil => exact List.pairwise_singleton _ _
  | cons x xs ih =>
    obtain ⟨hx, hxs⟩ := List.pairwise_cons.1 ho
    rw [insertEntry]
    split
    · next hb =>
      refine List.pairwise_cons.2 ⟨fun y hy => ?_, ho⟩
      rcases List.mem_cons.1 hy with rfl | hy
      · exact hb
      · exact QueueEntry.before_trans hb (hx y hy)
    · next hb =>
      have hxe := QueueEntry.before_total (hd x List.mem_cons_self).symm (Bool.eq_false_iff.2 hb)
      refine List.pairwise_cons.2 ⟨fun y hy => ?_, ih (fun y hy => hd y (List.mem_cons_of_mem _ hy)) hxs⟩
      rcases (mem_insertEntry _ _ _ _ _).1 hy with rfl | hy
      · exact hxe
      · exact hx y hy

/-- R74: the other entries keep their order. -/
theorem insertEntry_others (hd : ∀ x ∈ q, x.arrival ≠ e.arrival) :
    (insertEntry counter arrival e q).filter (fun x => x.arrival != e.arrival) = q := by
  have kept : q.filter (fun x => x.arrival != e.arrival) = q := List.filter_eq_self.2 fun x hx => by simpa using hd x hx
  have passed : (insertEntry counter arrival e q).filter (fun x => x.arrival != e.arrival) =
      q.filter fun x => x.arrival != e.arrival := by
    clear kept hd
    induction q with
    | nil => simp [insertEntry]
    | cons y ys ih =>
      rw [insertEntry]
      split
      · simp
      · simp only [List.filter_cons, ih]
  exact passed.trans kept

end

section
variable {s : State} {n : Nat} {x : QueueEntry} {earlier : Bool}

/-! ## An open request (R106, R107) -/

/-- R106, R107: an open request from CLOSED or FAILED, by the feedback. -/
theorem State.openOrder_begins (h : s.isolator.state = .closed ∨ s.isolator.state = .failed) :
    s.openOrder = (s.setIsolator { s.isolator with
      state := if s.isolator.feedback = .opened then .opened else .opening, since := s.part.now }).raise (.box .output) := by
  by_cases hf : s.isolator.feedback = .opened
  · have hs : s.openOrder = s.startOpening := by unfold State.openOrder; rcases h with h | h <;> simp [h]
    rw [hs, if_pos hf]
    unfold State.startOpening
    simp only [State.raiseBox_eq, State.raise_isolator]
    refine (if_pos hf).trans ?_
    unfold State.isolatorOpened
    rw [State.raiseBox_eq, State.raise_setIsolator, State.raise_raise, State.raise_isolator]
    rfl
  · rw [State.openOrder_starts h hf, if_neg hf]
    rfl

theorem State.openRequest_reached (h : s.openOrder.isolator.state = .opened ∧ s.isolator.state ≠ .opened) :
    s.openRequest = s.openOrder.walk := by
  unfold State.openRequest State.reachedOpen
  simp [h.1, h.2]

theorem State.openRequest_unreached (h : ¬(s.openOrder.isolator.state = .opened ∧ s.isolator.state ≠ .opened)) :
    s.openRequest = s.openOrder := by
  unfold State.openRequest State.reachedOpen
  exact if_neg (by simpa using h)

/-! ## One visit (R79, R92, R153) -/

/-- R79, steps 1 to 3, and R153: the entry needs commutation. -/
theorem State.needsCommutation_iff : s.needsCommutation n = true ↔
    (s.str n).position = .closed ∧ s.scan.completed = true ∧ s.box.coldLimit < (s.str n).current.natAbs := by
  simp [State.needsCommutation, and_assoc]

theorem Severity.high_le_iff (v : Severity) : Severity.high.rank ≤ v.rank ↔ v ≠ .normal := by
  cases v <;> decide

theorem Severity.critical_le_iff (v : Severity) : Severity.critical.rank ≤ v.rank ↔ v = .critical ∨ v = .shutdown := by
  cases v <;> decide

/-- R92: when an entry that waits asks for the box output open. -/
theorem State.escalates_iff : s.escalates x = true ↔ s.box.escalation = true ∧
    ((x.severity ≠ .normal ∧ (s.str x.string).tapFault = true) ∨
      ((x.severity = .critical ∨ x.severity = .shutdown) ∧ (s.cell.stage = .hot ∨ s.cell.stage = .faulted))) := by
  simp [State.escalates, Severity.high_le_iff, Severity.critical_le_iff]

theorem State.visit_eq_alreadyOpen (h : (s.str x.string).position = .opened) :
    s.visit earlier x = (s.alreadyOpen x.string, earlier) := if_pos h

theorem State.visit_eq_unjudged (h : (s.str x.string).position = .closed) (hc : s.scan.completed = false) :
    s.visit earlier x = (s, earlier) := by
  simp [State.visit, h, hc]

theorem State.visit_eq_cold (h : (s.str x.string).position = .closed) (hc : s.scan.completed = true)
    (hi : (s.str x.string).current.natAbs ≤ s.box.coldLimit) : s.visit earlier x = (s.startCold x, earlier) := by
  simp [State.visit, h, hc, hi]

/-- R79, step 4: a visit of an entry that needs commutation, by whether it has its turn. -/
theorem State.visit_eq_commutation (h : s.needsCommutation x.string = true) : s.visit earlier x =
    if (s.str x.string).tapFault = false ∧ earlier = false ∧ s.cell.stage = .idle then (s.startCommutated x, true)
    else (if s.escalates x then s.openOrder else s, earlier || !(s.str x.string).tapFault) := by
  obtain ⟨hp, hc, hi⟩ := State.needsCommutation_iff.1 h
  simp [State.visit, hp, hc, Nat.not_le.2 hi]

/-- R12, R79: an entry found open leaves the queue, and its string the bus. -/
theorem State.alreadyOpen_eq (s : State) (n : Nat) : s.alreadyOpen n =
    (((s.dequeue n).updStr n fun q => { q with
      record := q.record.map fun d => { d with kind := some .alreadyOpen, current := none }
      state := if s.locked n then .lockedOut else .isolated }).raise (.str .isolated n)).place n .diagnose .auto := by
  unfold State.alreadyOpen State.offBus State.settleOff
  rw [State.updStr_updStr]
  rfl

/-! ## The walk and the escalation of waiting entries (R78, R92) -/

/-- R78: an arrival of the isolator at OPEN within a walk starts a second one. -/
theorem State.walk_eq (s : State) : s.walk =
    if s.walkOnce.isolator.state = .opened ∧ s.isolator.state ≠ .opened then s.walkOnce.walkOnce else s.walkOnce :=
  if_congr (by simp [State.reachedOpen]) rfl rfl

/-- R92: an entry of severity CRITICAL or above that needs commutation waits. -/
def State.Presses (s : State) : Prop :=
  s.box.escalation = true ∧ ∃ x ∈ s.sched.queue, (x.severity = .critical ∨ x.severity = .shutdown) ∧
    s.needsCommutation x.string = true

theorem State.escalateWaiting_pressed (h : s.Presses) : s.escalateWaiting = s.openRequest := by
  obtain ⟨he, x, hx, hv, hn⟩ := h
  refine if_pos ?_
  rw [he, Bool.true_and, List.any_eq_true]
  exact ⟨x, hx, by simp [Severity.critical_le_iff, hv, hn]⟩

theorem State.escalateWaiting_unpressed (h : ¬s.Presses) : s.escalateWaiting = s := by
  refine if_neg fun hx => h ?_
  obtain ⟨he, hx⟩ := Bool.and_eq_true_iff.1 hx
  obtain ⟨x, hx, hv⟩ := List.any_eq_true.1 hx
  obtain ⟨hv, hn⟩ := Bool.and_eq_true_iff.1 hv
  exact ⟨he, x, hx, (Severity.critical_le_iff _).1 (of_decide_eq_true hv), hn⟩

/-! ## The cell's way back (R89, R91) -/

/-- A walk makes no string BREAK_FAILED. -/
theorem State.walk_not_breakFailed (h : (s.str n).state ≠ .breakFailed) : (s.walk.str n).state ≠ .breakFailed := by
  rcases s.walk_state n with hw | hw | hw | hw <;> rw [hw] <;> [exact h; decide; decide; decide]

theorem State.escalateWaiting_not_breakFailed (h : (s.str n).state ≠ .breakFailed) :
    (s.escalateWaiting.str n).state ≠ .breakFailed := by
  have asked : (s.openOrder.str n).state ≠ .breakFailed := by rw [State.str_congr s.openOrder_strings]; exact h
  rcases s.escalateWaiting_cases with he | he <;> rw [he]
  · exact h
  · rcases s.openRequest_cases with ho | ho <;> rw [ho]
    · exact asked
    · exact State.walk_not_breakFailed asked

/-- R91: the tap's release, when it is the one that CELL_RESTORE ordered, of a string that is not BREAK_FAILED. -/
theorem State.tapReleased_restored (hs : s.cell.stage = .faulted) (hr : s.cell.releasing = true)
    (hv : s.cell.served = some n) (hb : (s.cellRested.str n).state ≠ .breakFailed) : s.tapReleased n = s.cellRested := by
  unfold State.tapReleased
  simp only [hv, hs, hr, ne_eq, not_true, if_false, if_true]
  exact if_neg hb

end

/-- Settles O47: the order is a strict one that tells the indices apart, a visit is decided branch by branch, and each entry
of the cell to IDLE, HOT or FAULTED is the walk or the test of the entries that wait. -/
theorem queueKeepsItsOrder : Obligations.QueueKeepsItsOrder := by
  unfold Obligations.QueueKeepsItsOrder
  intro counter arrival e queue hd ho
  refine ⟨insertEntry_ordered hd ho, insertEntry_perm _ _ _ _, insertEntry_others hd, fun a b => ?_⟩
  intro goesFirst
  have first (h : a.before counter arrival b = true) : goesFirst := ⟨h, QueueEntry.before_asymm h⟩
  refine ⟨fun h => first (QueueEntry.before_iff.2 (.inl h)),
    fun hv h => first (QueueEntry.before_iff.2 (.inr ⟨congrArg _ hv, .inl h⟩)),
    fun hv hr h => first (QueueEntry.before_iff.2 (.inr ⟨congrArg _ hv, .inr ⟨by rw [hr], h⟩⟩)), fun s hl => ?_⟩
  intro iso asked needs escalates pressing once late left resting
  have hasked : s.openOrder = asked := by
    simp only [asked, iso]
    split
    · next h => exact State.openOrder_holds (.inl h)
    · next h => exact State.openOrder_holds (.inr h)
    · next h => exact State.openOrder_pends h
    · next h1 h2 h3 => exact State.openOrder_begins (by cases h : s.isolator.state <;> simp_all)
  have hneeds (x : QueueEntry) : s.needsCommutation x.string = true ↔ needs x := State.needsCommutation_iff
  have hesc (x : QueueEntry) : s.escalates x = true ↔ escalates x := State.escalates_iff
  have hpress : s.Presses ↔ pressing := by
    unfold State.Presses
    simp only [hneeds, pressing]
  have rested (t : State) (ht : t.cell = s.cell) (hb : t.box = s.box) :
      (s.cell.heat ≤ s.box.hMax → t.cellRested = t.cellIdle) ∧ (s.box.hMax < s.cell.heat → t.cellRested = t.cellHot) :=
    ⟨fun h => State.cellRested_cool (by rwa [ht, hb]), fun h => State.cellRested_hot (by rwa [ht, hb])⟩
  refine ⟨fun x earlier hx => ?_, ?_, fun h => State.escalateWaiting_unpressed (mt hpress.1 h), ?_, fun hs hh => ?_,
    fun hs hh => ?_, fun hs hh => ?_, fun n hs hr hv hn hb => ?_, fun n hs hv => ?_⟩
  · intro r sched turn
    refine ⟨fun hp => ?_, fun hp hc => State.visit_eq_unjudged hp hc, fun hp hc hi => State.visit_eq_cold hp hc hi,
      fun hx ht => ?_, fun hx ht he => ?_, fun hx ht he => ?_⟩
    · rw [State.visit_eq_alreadyOpen hp, State.alreadyOpen_eq]
      rfl
    · rw [State.visit_eq_commutation ((hneeds x).2 hx), if_pos ht]
      rfl
    · rw [State.visit_eq_commutation ((hneeds x).2 hx), if_neg ht, if_neg (mt (hesc x).1 he)]
    · rw [State.visit_eq_commutation ((hneeds x).2 hx), if_neg ht, if_pos ((hesc x).2 he), hasked]
  · intro reached
    exact ⟨fun h => s.walk_eq.trans (if_neg h), fun h => s.walk_eq.trans (if_pos h)⟩
  · intro reached hp
    rw [State.escalateWaiting_pressed (hpress.2 hp)]
    simp only [reached, ← hasked]
    exact ⟨State.openRequest_unreached, State.openRequest_reached⟩
  · refine congrArg Host.Outcome.next ((if_pos hs).trans ?_)
    rw [(rested (s.reach _) rfl rfl).1 hh]
    rfl
  · refine congrArg Host.Outcome.next ((if_pos hs).trans ?_)
    rw [(rested (s.reach _) rfl rfl).2 hh]
    rfl
  · exact congrArg Host.Outcome.next (if_pos ⟨hs, hh⟩)
  · have hidle : (s.cellIdle.str n).state ≠ .breakFailed := State.walk_not_breakFailed hb
    have hhot : (s.cellHot.str n).state ≠ .breakFailed := State.escalateWaiting_not_breakFailed (by simpa using hb)
    refine ⟨fun hh => ?_, fun hh => ?_⟩
    · have h := (rested s rfl rfl).1 hh
      exact congrArg Host.Outcome.next ((State.tapReleased_restored hs hr hv (by rw [h]; exact hidle)).trans h)
    · have h := (rested s rfl rfl).2 hh
      exact congrArg Host.Outcome.next ((State.tapReleased_restored hs hr hv (by rw [h]; exact hhot)).trans h)
  · show Host.Outcome.next s.detachExpired = _
    unfold State.detachExpired
    simp only [hv, hs]
    rfl

end Sys2Proof.Machine
end

