-- ==== Sys2Proof/Proofs/ShutdownRequests.lean ====
section
/-! SUPPORT. The SHUTDOWN requests of an assertion (R143), followed string by string: what the walks of the other strings'
requests do to a string, and what its own request does. -/

namespace Sys2Proof.Machine

section
variable {c : Claims} {s t u : State} {n m : Nat}

/-! ## What walks do to a string -/

/-- From one state to another, string `n` has been moved by walks alone: its state only by a walk of its entry, and of its
entries in the queue none is new. -/
structure Onward (n : Nat) (s t : State) : Prop where
  moved : (s.str n).Moved (t.str n)
  state : (t.str n).state = (s.str n).state ∨ (s.str n).state = .queued ∧
    ((t.str n).state = .breaking ∨ (t.str n).state = .isolated ∨ (t.str n).state = .lockedOut)
  entries : ∀ e ∈ t.sched.queue, e.string = n → e ∈ s.sched.queue

theorem Onward.of_same (hs : t.str n = s.str n) (hq : ∀ e ∈ t.sched.queue, e.string = n → e ∈ s.sched.queue) :
    Onward n s t := ⟨hs ▸ .refl _, .inl (by rw [hs]), hq⟩

theorem Onward.refl (n : Nat) (s : State) : Onward n s s := .of_same rfl fun _ h _ => h

theorem Onward.trans (h : Onward n s t) (k : Onward n t u) : Onward n s u where
  moved := .trans _ _ _ h.moved k.moved
  state := by
    rcases k.state with hk | ⟨hk, hu⟩
    · rw [hk]; exact h.state
    · rcases h.state with hs | ⟨-, hs⟩
      · exact .inr ⟨hs ▸ hk, hu⟩
      · rw [hk] at hs; simp at hs
  entries := fun e he hn => h.entries e (k.entries e he hn) hn

/-- A string in a state other than QUEUED is left in it. -/
theorem Onward.state_kept (h : Onward n s t) (hs : (s.str n).state ≠ .queued) : (t.str n).state = (s.str n).state :=
  h.state.resolve_right fun k => hs k.1

theorem Onward.cause (h : Onward n s t) : (t.str n).cause = (s.str n).cause := by
  obtain ⟨_, _, _, hm⟩ := h.moved
  rw [hm]

theorem Onward.budget (h : Onward n s t) : (t.str n).budget = (s.str n).budget := by
  obtain ⟨_, _, _, hm⟩ := h.moved
  rw [hm]

theorem Onward.held (h : Onward n s t) : (t.str n).held = (s.str n).held := by
  obtain ⟨_, _, _, hm⟩ := h.moved
  rw [hm]

/-- R78: a walk moves a string on when its entries are those of a QUEUED string. -/
theorem Onward.walk (h : ∀ e ∈ s.sched.queue, e.string = n → (s.str n).state = .queued) : Onward n s s.walk where
  moved := s.walk_walked.strings.2 n
  state := by
    by_cases hq : (s.str n).state = .queued
    · exact (s.walk_state n).imp_right fun hw => ⟨hq, hw⟩
    · rw [State.walk_str_unqueued s fun e he hn => hq (h e he hn)]
      exact .inl rfl
  entries := fun e he _ => s.walk_keeps (fun t => ∀ e ∈ t.sched.queue, e ∈ s.sched.queue) (fun _ h => h)
    (fun t earlier x ht e he => ht e (t.visit_queue_subset earlier x e he)) e he

theorem Accord.entries_queued (h : Accord c s) : ∀ e ∈ s.sched.queue, e.string = n → (s.str n).state = .queued :=
  fun _ he hn => hn ▸ h.queued he

theorem Accord.openRequest_onward (h : Accord c s) (n : Nat) : Onward n s s.openRequest := by
  have ordered : Onward n s s.openOrder :=
    .of_same (State.str_congr s.openOrder_strings n) fun e he _ => by rwa [State.openOrder_sched] at he
  rcases s.openRequest_cases with hr | hr <;> rw [hr]
  · exact ordered
  · exact ordered.trans (.walk h.openOrder.entries_queued)

/-! ## A request for another string -/

theorem State.admitted_entries (hm : m ≠ n) :
    ∀ e ∈ (s.admitted n .shutdown).sched.queue, e.string = m → e ∈ s.sched.queue :=
  fun _ he hs => (State.mem_queueWith he).resolve_left fun h => hm (by rw [← hs, h]; rfl)

theorem State.raiseEntry_str_ne (e : QueueEntry) (q : ReqCause) (hm : m ≠ e.string) : (s.raiseEntry e q).str m = s.str m := by
  rw [State.raiseEntry_eq, State.str_updStr_ne _ _ _ _ hm]
  rfl

/-- R76: a raised entry is the only one of its string. -/
theorem State.mem_raiseEntry (e x : QueueEntry) (q : ReqCause) : x ∈ (s.raiseEntry e q).sched.queue ↔
    x = { e with severity := q.severity, cause := q } ∨ x ∈ s.sched.queue ∧ x.string ≠ e.string := by
  rw [State.raiseEntry_eq]
  exact (mem_insertEntry _ _ _ _ _).trans (or_congr Iff.rfl (by simp))

/-- R11: a SHUTDOWN request moves no other string but by its walk. -/
theorem Accord.request_onward (h : Accord c s) (hm : m ≠ n) : Onward m s (s.request n .shutdown) := by
  have admitted : Onward m s (s.queueString n .shutdown) := by
    have ha : Onward m s (s.admitted n .shutdown) := .of_same (State.admitted_str_ne hm) (State.admitted_entries hm)
    rw [State.queueString_eq]
    exact ha.trans (.walk fun e he hs => by rw [State.admitted_str_ne hm]; exact h.entries_queued e (ha.entries e he hs) hs)
  have merged : Onward m s (s.merge n .shutdown) := by
    unfold State.merge
    split
    · exact .refl m s
    · next e he =>
      have hen : m ≠ e.string := fun hme => hm (hme.trans (by simpa using List.find?_some he))
      have hr : Onward m s (s.raiseEntry e .shutdown) := .of_same (State.raiseEntry_str_ne e _ hen) fun x hx hs =>
        ((State.mem_raiseEntry e x _).1 hx).elim (fun h => absurd (by rw [← hs, h]) hen) And.left
      split
      · exact hr.trans (.walk fun x hx hs => by
          rw [State.raiseEntry_str_ne e _ hen]; exact h.entries_queued x (hr.entries x hx hs) hs)
      · exact .refl m s
  unfold State.request
  split
  · exact admitted
  · exact admitted
  · exact merged
  · exact .refl m s
  · exact .refl m s
  · exact .refl m s
  · exact .of_same (s.str_updStr_ne _ n m hm) fun _ h _ => h
  · exact .refl m s
  · exact .refl m s
  · exact .refl m s

/-! ## A string's own request -/

/-- What an assertion leaves of string `n` (R11, R76, R143): off the bus under the cause SHUTDOWN, held in a close, or with
its entry at severity SHUTDOWN in its round and index. -/
structure TakenOff (n : Nat) (s t : State) : Prop where
  off : (t.str n).state ≠ .connected ∧ (t.str n).state ≠ .suspect
  bus : (s.str n).state = .connected ∨ (s.str n).state = .suspect →
    (t.str n).cause = some (.req .shutdown) ∧ (t.str n).budget = (s.str n).budget
  closing : (s.str n).state = .closing → (t.str n).state = .closing ∧ (t.str n).held = some .shutdown
  raised : ∀ e ∈ t.sched.queue, e.string = n → e.severity = .shutdown ∧
    ((∃ x ∈ s.sched.queue, x.string = n ∧ x.severity = .shutdown) ∨
      e.cause = .shutdown ∧ (t.str n).cause = some (.req .shutdown))
  places : (s.str n).state ≠ .connected → (s.str n).state ≠ .suspect → ∀ e ∈ t.sched.queue, e.string = n →
    ∃ x ∈ s.sched.queue, x.string = n ∧ e.round = x.round ∧ e.arrival = x.arrival

theorem TakenOff.after (h : TakenOff n t u) (k : Onward n s t) : TakenOff n s u where
  off := h.off
  bus := fun hs => by
    have hk := k.state_kept (by rcases hs with hs | hs <;> simp [hs])
    obtain ⟨hc, hb⟩ := h.bus (by rwa [hk])
    exact ⟨hc, hb.trans k.budget⟩
  closing := fun hs => h.closing ((k.state_kept (by simp [hs])).trans hs)
  raised := fun e he hn => (h.raised e he hn).imp_right fun ho => ho.imp_left fun ⟨x, hx, hxn, hv⟩ =>
    ⟨x, k.entries x hx hxn, hxn, hv⟩
  places := fun h1 h2 e he hn => by
    have away : (t.str n).state ≠ .connected ∧ (t.str n).state ≠ .suspect := by
      rcases k.state with hk | ⟨-, hk⟩
      · rw [hk]; exact ⟨h1, h2⟩
      · rcases hk with hk | hk | hk <;> simp [hk]
    obtain ⟨x, hx, hxn, hr⟩ := h.places away.1 away.2 e he hn
    exact ⟨x, k.entries x hx hxn, hxn, hr⟩

theorem TakenOff.before (h : TakenOff n s t) (k : Onward n t u) : TakenOff n s u where
  off := by
    rcases k.state with hk | ⟨-, hk⟩
    · rw [hk]; exact h.off
    · rcases hk with hk | hk | hk <;> simp [hk]
  bus := fun hs => by rw [k.cause, k.budget]; exact h.bus hs
  closing := fun hs => by
    obtain ⟨hc, hh⟩ := h.closing hs
    exact ⟨(k.state_kept (by simp [hc])).trans hc, k.held.trans hh⟩
  raised := fun e he hn => by rw [k.cause]; exact h.raised e (k.entries e he hn) hn
  places := fun h1 h2 e he hn => h.places h1 h2 e (k.entries e he hn) hn

/-- A string that a SHUTDOWN request finds in a state in which it does nothing. -/
theorem Accord.takenOff_unmet (h : Accord c s) (hn : (s.str n).meetsShutdown = false) : TakenOff n s s := by
  simp only [StringRec.meetsShutdown, Bool.or_eq_false_iff, beq_eq_false_iff_ne] at hn
  obtain ⟨⟨⟨h1, h2⟩, h3⟩, h4⟩ := hn
  have none (e : QueueEntry) (he : e ∈ s.sched.queue) : e.string ≠ n := fun hs => h3 (h.entries_queued e he hs)
  exact ⟨⟨h1, h2⟩, fun hs => absurd hs (by simp [h1, h2]), fun hs => absurd hs h4, fun e he hs => absurd hs (none e he),
    fun _ _ e he hs => absurd hs (none e he)⟩

/-- R11, R143: a string on the bus is queued with a SHUTDOWN entry. -/
theorem Accord.takenOff_bus (h : Accord c s) (hs : (s.str n).state = .connected ∨ (s.str n).state = .suspect) :
    TakenOff n s (s.queueString n .shutdown) := by
  have hn : stringNumber n = true := h.number (by rcases hs with hs | hs <;> simp [hs])
  have hd : s.causeAdmitted .shutdown = .shutdown := ite_self _
  have hstr : (s.admitted n .shutdown).str n = { s.str n with
      state := .queued, cause := some (.req .shutdown), verdict := none, record := some (s.openedFor .shutdown) } := by
    rw [State.admitted_str h.size hn, State.queuedRecord_of_not_fault s _ rfl, hd]
  have hentry (e : QueueEntry) (he : e ∈ (s.admitted n .shutdown).sched.queue) (hen : e.string = n) :
      e = s.entryFor n .shutdown := by
    refine (State.mem_queueWith he).resolve_right fun hx => ?_
    have := h.entries_queued e hx hen
    rcases hs with hs | hs <;> simp [hs] at this
  have taken : TakenOff n s (s.admitted n .shutdown) := {
    off := by rw [hstr]; simp
    bus := fun _ => by rw [hstr]; exact ⟨rfl, rfl⟩
    closing := fun hc => by rcases hs with hs | hs <;> simp [hs] at hc
    raised := fun e he hen => by
      rw [hentry e he hen, hstr]
      exact ⟨congrArg ReqCause.severity hd, .inr ⟨hd, rfl⟩⟩
    places := fun h1 h2 => absurd hs (by simp [h1, h2]) }
  rw [State.queueString_eq]
  exact taken.before (.walk fun _ _ _ => by rw [hstr])

/-- R73: a QUEUED string of a state in accord has one entry. -/
theorem Accord.entry (h : Accord c s) (hs : (s.str n).state = .queued) : ∃ e ∈ s.sched.queue, e.string = n ∧
    s.queued n = some e ∧ ∀ x ∈ s.sched.queue, x.string = n → x = e := by
  have hw : (s.sched.queue.map (·.string)).count n = 1 := (h.of_queued hs).2.2.2.1
  obtain ⟨e, he, hen⟩ := List.mem_map.1 (List.count_pos_iff.1 (by omega : 0 < (s.sched.queue.map (·.string)).count n))
  have only (x : QueueEntry) (hx : x ∈ s.sched.queue) (hxn : x.string = n) : x = e :=
    List.inj_on_of_nodup_map h.queueDistinct hx he (hxn.trans hen.symm)
  refine ⟨e, he, hen, ?_, only⟩
  cases hf : s.queued n with
  | none => exact absurd (List.find?_eq_none.1 hf e he) (by simp [hen])
  | some x => rw [only x (List.mem_of_find?_eq_some hf) (by simpa using List.find?_some hf)]

/-- R76, R143: a QUEUED string's entry is raised to SHUTDOWN in its place. -/
theorem Accord.takenOff_queued (h : Accord c s) (hs : (s.str n).state = .queued) : TakenOff n s (s.merge n .shutdown) := by
  have hn : stringNumber n = true := h.number (by simp [hs])
  obtain ⟨e, he, rfl, hf, only⟩ := h.entry hs
  unfold State.merge
  simp only [hf]
  split
  · have hstr : ∃ d b, (s.raiseEntry e .shutdown).str e.string = { s.str e.string with
        cause := some (.req .shutdown), record := d, budget := b } := by
      rw [State.raiseEntry_eq]
      exact ⟨_, _, State.str_updStr_valid _ h.size hn⟩
    obtain ⟨d, b, hstr⟩ := hstr
    have hentry (x : QueueEntry) (hx : x ∈ (s.raiseEntry e .shutdown).sched.queue) (hxn : x.string = e.string) :
        x = { e with severity := .shutdown, cause := .shutdown } :=
      ((State.mem_raiseEntry e x .shutdown).1 hx).resolve_right fun h => h.2 hxn
    have taken : TakenOff e.string s (s.raiseEntry e .shutdown) := {
      off := by rw [hstr]; simp [hs]
      bus := fun hb => absurd hb (by simp [hs])
      closing := fun hc => absurd hc (by simp [hs])
      raised := fun x hx hxn => by
        rw [hentry x hx hxn, hstr]
        exact ⟨rfl, .inr ⟨rfl, rfl⟩⟩
      places := fun _ _ x hx hxn => ⟨e, he, rfl, by rw [hentry x hx hxn], by rw [hentry x hx hxn]⟩ }
    exact taken.before (.walk fun _ _ _ => by rw [hstr]; exact hs)
  · next hr =>
    have hv : e.severity = .shutdown := by
      cases hv : e.severity <;> simp_all [Severity.rank, ReqCause.severity]
    exact {
      off := by simp [hs]
      bus := fun hb => absurd hb (by simp [hs])
      closing := fun hc => absurd hc (by simp [hs])
      raised := fun x hx hxn => by
        rw [only x hx hxn]
        exact ⟨hv, .inl ⟨e, he, rfl, hv⟩⟩
      places := fun _ _ x hx hxn => ⟨e, he, rfl, by rw [only x hx hxn], by rw [only x hx hxn]⟩ }

/-- R11: no request held is of a higher severity than SHUTDOWN. -/
theorem StringRec.hold_shutdown (r : StringRec) : (r.hold .shutdown).held = some .shutdown := by
  unfold StringRec.hold
  split
  · rfl
  · next d hd =>
    split
    · rfl
    · next hr => cases d <;> simp_all [Severity.rank, ReqCause.severity]

/-- R11, R143: a CLOSING string holds the request. -/
theorem Accord.takenOff_closing (h : Accord c s) (hs : (s.str n).state = .closing) :
    TakenOff n s (s.updStr n (·.hold .shutdown)) := by
  have hstr : (s.updStr n (·.hold .shutdown)).str n = (s.str n).hold .shutdown :=
    State.str_updStr_valid _ h.size (h.number (by simp [hs]))
  have hstate : ((s.updStr n (·.hold .shutdown)).str n).state = .closing := by
    rw [hstr, (StringRec.hold_same _ _).1, hs]
  have none (e : QueueEntry) (he : e ∈ s.sched.queue) (hen : e.string = n) : False := by
    simpa [hs] using h.entries_queued e he hen
  exact {
    off := by simp [hstate]
    bus := fun hb => absurd hb (by simp [hs])
    closing := fun _ => ⟨hstate, by rw [hstr]; exact StringRec.hold_shutdown _⟩
    raised := fun e he hen => (none e he hen).elim
    places := fun _ _ e he hen => (none e he hen).elim }

/-- R11, R143: a string's own SHUTDOWN request. -/
theorem Accord.request_takenOff (h : Accord c s) (n : Nat) : TakenOff n s (s.request n .shutdown) := by
  have unmet (x : StringState) (hx : (s.str n).state = x) (hm : (x == .connected || x == .suspect || x == .queued ||
      x == .closing) = false) : TakenOff n s s := h.takenOff_unmet (by rw [StringRec.meetsShutdown, hx]; exact hm)
  unfold State.request
  split
  case h_1 hs => exact h.takenOff_bus (.inl hs)
  case h_2 hs => exact h.takenOff_bus (.inr hs)
  case h_3 hs => exact h.takenOff_queued hs
  case h_4 hs => exact unmet _ hs rfl
  case h_5 hs => exact unmet _ hs rfl
  case h_6 hs => exact unmet _ hs rfl
  case h_7 hs => exact h.takenOff_closing hs
  case h_8 hs => exact unmet _ hs rfl
  case h_9 hs => exact unmet _ hs rfl
  case h_10 hs => exact unmet _ hs rfl

/-! ## The requests of an assertion, in whatever order -/

/-- The SHUTDOWN requests for the strings of a list, one after the other. -/
def State.requestEach (s : State) (l : List Nat) : State := l.foldl (fun t n => t.request n .shutdown) s

theorem Accord.requestEach (h : Accord c s) (l : List Nat) : Accord c (s.requestEach l) :=
  Accord.foldl (fun _ n ht => ht.request n .shutdown) l h

theorem Accord.requestEach_onward (h : Accord c s) (l : List Nat) (hn : n ∉ l) : Onward n s (s.requestEach l) := by
  induction l generalizing s with
  | nil => exact .refl n s
  | cons x xs ih =>
    obtain ⟨hx, hxs⟩ := not_or.1 (mt List.mem_cons.2 hn)
    exact (h.request_onward hx).trans (ih (h.request x .shutdown) hxs)

/-- R75, R143: each string of the list is taken off the bus, whatever the place of its request. -/
theorem Accord.requestEach_takenOff (h : Accord c s) (l : List Nat) (hd : l.Nodup) (hn : n ∈ l) :
    TakenOff n s (s.requestEach l) := by
  induction l generalizing s with
  | nil => cases hn
  | cons x xs ih =>
    obtain ⟨hx, hxs⟩ := List.nodup_cons.1 hd
    by_cases hnx : n = x
    · subst hnx
      exact (h.request_takenOff n).before ((h.request n .shutdown).requestEach_onward xs hx)
    · exact (ih (h.request x .shutdown) hxs ((List.mem_cons.1 hn).resolve_left hnx)).after (h.request_onward hnx)

/-- R143: the assertion's requests reach each string that they concern once. -/
theorem State.shutdownRequests_order (s : State) : ∃ order : List Nat, order.Nodup ∧
    (∀ n, n ∈ order ↔ stringNumber n = true ∧ (s.str n).meetsShutdown = true) ∧
    s.shutdownRequests = (s.requestEach order).drawn := by
  have hperm := arranged_perm (Config.arrivalOrder s.free.draws)
    (Config.stringNumbers.filter fun n => (s.str n).meetsShutdown)
  refine ⟨_, hperm.nodup_iff.2 (List.Nodup.filter _ (by decide)), fun n => ?_, rfl⟩
  rw [hperm.mem_iff, List.mem_filter, mem_stringNumbers, stringNumber_iff]

/-- R143: every string is taken off the bus, or holds its request. -/
theorem Accord.shutdownRequests_takenOff (h : Accord c s) (n : Nat) : TakenOff n s s.shutdownRequests := by
  obtain ⟨order, hd, hm, ho⟩ := s.shutdownRequests_order
  have drawn : Onward n (s.requestEach order) (s.requestEach order).drawn := .of_same rfl fun _ h _ => h
  rw [ho]
  refine TakenOff.before ?_ drawn
  by_cases hn : n ∈ order
  · exact h.requestEach_takenOff order hd hn
  · refine (h.takenOff_unmet ?_).before (h.requestEach_onward order hn)
    by_contra hc
    have hmeets := Bool.eq_true_of_not_eq_false hc
    have hnum : stringNumber n = true := h.number fun hu => by simp [StringRec.meetsShutdown, hu] at hmeets
    exact hn ((hm n).2 ⟨hnum, hmeets⟩)

end

end Sys2Proof.Machine
end

