-- ==== Sys2Proof/Proofs/ShutdownActs.lean ====
section
/-! The assertion and the release of SHUTDOWN (O59): the probe unit and the isolator through the requests, and the abort. -/

namespace Sys2Proof.Machine

section
variable {c : Claims} {s t u : State} {n : Nat}

/-! ## The probe unit and the isolator through the requests -/

/-- An order to open is under way, or will be carried out at the end of a close (R106, R109). -/
def Isolator.ordered (i : Isolator) : Prop := i.state = .opening ∨ i.state = .closing ∧ i.pendingOpen = true

/-- What the requests of an assertion leave while shutdown is ASSERTED: the shutdown monitor, the probe in flight (R114), every
entry of the probe list, and an isolator already ordered to open. -/
structure Aside (s t : State) : Prop where
  shutdown : t.shutdown = s.shutdown
  flight : s.shutdown.asserted = true → t.probe.flight = s.probe.flight
  list : ∀ e ∈ s.probe.list, e ∈ t.probe.list
  isolator : s.isolator.ordered → t.isolator = s.isolator

theorem Aside.of_eq (hs : t.shutdown = s.shutdown) (hp : t.probe = s.probe) (hi : t.isolator = s.isolator) : Aside s t :=
  ⟨hs, fun _ => by rw [hp], fun _ he => by rwa [hp], fun _ => hi⟩

theorem Aside.refl (s : State) : Aside s s := .of_eq rfl rfl rfl

theorem Aside.trans (h : Aside s t) (k : Aside t u) : Aside s u where
  shutdown := k.shutdown.trans h.shutdown
  flight := fun ha => (k.flight (by rwa [h.shutdown])).trans (h.flight ha)
  list := fun e he => k.list e (h.list e he)
  isolator := fun hi => (k.isolator (by rwa [h.isolator hi])).trans (h.isolator hi)

theorem State.place_list_grows (s : State) (n : Nat) (p : Purpose) (o : Origin) :
    ∀ e ∈ s.probe.list, e ∈ (s.place n p o).probe.list := by
  intro e he
  rw [State.place_list]
  split
  · exact he
  · exact List.mem_append_left _ he

theorem State.alreadyOpen_list_grows (s : State) (n : Nat) : ∀ e ∈ s.probe.list, e ∈ (s.alreadyOpen n).probe.list := by
  intro e he
  rw [State.alreadyOpen_eq]
  refine State.place_list_grows _ _ _ _ e ?_
  rw [State.raise_probe]
  exact he

/-- R106: a second order leaves an isolator already ordered to open. -/
theorem State.openOrder_ordered (h : s.isolator.ordered) : s.openOrder.isolator = s.isolator := by
  rcases h with h | ⟨h, hp⟩
  · rw [State.openOrder_holds (.inl h)]
  · rw [State.openOrder_pends h, State.setIsolator_isolator, ← hp]

theorem State.openOrder_aside (s : State) : Aside s s.openOrder where
  shutdown := s.openOrder_within .shutdown (by decide)
  flight := fun _ => by rw [State.openOrder_probe]
  list := fun _ he => by rwa [State.openOrder_probe]
  isolator := State.openOrder_ordered

theorem State.visit_aside (s : State) (earlier : Bool) (e : QueueEntry) : Aside s (s.visit earlier e).1 := by
  rcases s.visit_cases earlier e with h | h | h | h | h <;> rw [h]
  · exact ⟨s.alreadyOpen_within _ .shutdown (by decide), fun ha => State.alreadyOpen_flight_asserted ha _,
      s.alreadyOpen_list_grows _, fun _ => State.offBus_isolator _ _⟩
  · exact .refl s
  · exact .of_eq rfl rfl rfl
  · exact .of_eq rfl rfl rfl
  · exact s.openOrder_aside

theorem State.walk_aside (s : State) : Aside s s.walk :=
  s.walk_keeps (Aside s) (.refl s) fun t earlier e h => h.trans (t.visit_aside earlier e)

theorem State.openRequest_aside (s : State) : Aside s s.openRequest := by
  rcases s.openRequest_cases with h | h <;> rw [h]
  · exact s.openOrder_aside
  · exact s.openOrder_aside.trans (State.walk_aside _)

theorem State.raiseEntry_aside (s : State) (e : QueueEntry) (q : ReqCause) : Aside s (s.raiseEntry e q) := by
  rw [State.raiseEntry_eq]
  exact .of_eq rfl rfl rfl

/-- R11: a SHUTDOWN request withdraws no entry of the probe list. -/
theorem State.request_aside (s : State) (n : Nat) : Aside s (s.request n .shutdown) := by
  have admitted : Aside s (s.queueString n .shutdown) := by
    have ha : Aside s (s.admitted n .shutdown) := .of_eq rfl rfl rfl
    rw [State.queueString_eq]
    exact ha.trans (State.walk_aside _)
  have merged : Aside s (s.merge n .shutdown) := by
    unfold State.merge
    split
    · exact .refl s
    · split
      · exact (s.raiseEntry_aside _ _).trans (State.walk_aside _)
      · exact .refl s
  unfold State.request
  split
  · exact admitted
  · exact admitted
  · exact merged
  · exact .refl s
  · exact .refl s
  · exact .refl s
  · exact .of_eq rfl rfl rfl
  · exact .refl s
  · exact .refl s
  · exact .refl s

theorem State.requestEach_aside (s : State) (l : List Nat) : Aside s (s.requestEach l) := by
  induction l generalizing s with
  | nil => exact .refl s
  | cons x xs ih => exact (s.request_aside x).trans (ih _)

theorem State.shutdownRequests_aside (s : State) : Aside s s.shutdownRequests :=
  (s.requestEach_aside _).trans (.of_eq rfl rfl rfl)

theorem State.shutdownRequests_within (s : State) : Within (.free :: breakPath) s s.shutdownRequests :=
  (Within.foldl _ (fun t n => (t.request_within n .shutdown).mono (by decide)) _ s).trans
    ((State.setFree_within _ _).mono (by decide))

/-! ## The abort and the withdrawal (R113, R126) -/

/-- No probe is in flight but one in RELEASE without a held pass. -/
def ProbeUnit.Stopped (x : ProbeUnit) : Prop := ∀ f, x.flight = some f → f.stage = .release ∧ f.pass = false

theorem State.abortKeeping_stopped (s : State) : s.abortKeeping.probe.Stopped := by
  obtain ⟨probe, hp, hf, -⟩ := s.abortKeeping_probe
  rw [hp]
  exact hf

theorem State.abortProbe_stopped (s : State) : s.abortProbe.probe.Stopped := by
  intro f hf
  obtain ⟨g, -, rfl⟩ := Option.map_eq_some_iff.1 hf
  obtain ⟨hs, hp, -, -⟩ := g.abort_stage s.part.now
  exact ⟨hs, hp⟩

theorem State.withdrawAllPreClose_stopped (h : s.probe.Stopped) : s.withdrawAllPreClose.probe.Stopped := by
  unfold State.withdrawAllPreClose
  simp only
  split
  · split
    · exact State.abortProbe_stopped _
    · exact h
  · exact h

/-- R126: the abort sets the attempts of the DIAGNOSE entry of the probe in flight to 0 and keeps the others. -/
theorem State.mem_abortKeeping {e : ProbeEntry} (he : e ∈ s.probe.list) (hp : e.purpose = .diagnose) :
    (if s.probing e.string then { e with attempts := 0 } else e) ∈ s.abortKeeping.probe.list := by
  cases hf : s.probe.flight with
  | none => simpa [State.abortKeeping_none hf, State.probing, hf] using he
  | some f =>
    rw [State.abortKeeping_some hf]
    refine List.mem_map.2 ⟨e, he, if_congr ?_ rfl rfl⟩
    simp only [State.probing, hf, hp, and_true, beq_iff_eq]
    exact eq_comm

/-! ## The assertion (R142, R143) -/

/-- R142: the shutdown state has become ASSERTED. -/
def State.nowAsserted (s : State) : State := s.setShutdown { s.shutdown with asserted := true }

/-- R143: the assertion as the contact driver and the string controller have answered it. -/
def State.allRequested (s : State) : State := s.nowAsserted.openRequest.shutdownRequests

/-- R143: what the probe unit and the attention unit then do leaves the other blocks. -/
theorem State.assertShutdown_within (s : State) : Within [.probe, .attention] s.allRequested s.assertShutdown :=
  (((State.abortKeeping_within _).trans (State.withdrawAllPreClose_within _)).mono (by decide)).trans
    ((State.raise_within _ _).mono (by decide))

theorem State.assertShutdown_probe (s : State) :
    s.assertShutdown.probe = s.allRequested.abortKeeping.withdrawAllPreClose.probe := State.raise_probe _ _

theorem State.lowTaken_asserts (hp : s.powered = true) (ha : s.shutdown.asserted = false) (hl : s.shutdown.lineLow = true) :
    s.lowTaken = (s.reach (s.shutdown.since + 20)).assertShutdown := by
  unfold State.lowTaken State.lineHeld
  rw [if_pos hl]
  exact if_pos ⟨hp, ha⟩

theorem State.highTaken_releases (hp : s.powered = true) (ha : s.shutdown.asserted = true) (hl : s.shutdown.lineLow = false) :
    s.highTaken = (s.reach (s.shutdown.since + 20)).releaseShutdown := by
  unfold State.highTaken State.lineHeld
  rw [if_pos hl]
  exact if_pos ⟨hp, ha⟩

/-- R143: the blocks that the requests of an assertion leave. -/
theorem State.allRequested_aside (s : State) : Aside s.nowAsserted s.allRequested :=
  (State.openRequest_aside _).trans (State.shutdownRequests_aside _)

theorem State.allRequested_part (s : State) : s.allRequested.part = s.part :=
  (State.shutdownRequests_within _ .part (by decide)).trans (State.openRequest_within s.nowAsserted .part (by decide))

theorem Accord.nowAsserted (h : Accord c s) : Accord c s.nowAsserted := h.of_same rfl rfl fun _ => rfl

theorem Accord.allRequested (h : Accord c s) : Accord c s.allRequested :=
  (Accord.foldl (fun _ n ht => ht.request n .shutdown) _ h.nowAsserted.openRequest).drawn

/-- R143: every string through the open request and the SHUTDOWN requests. -/
theorem Accord.allRequested_takenOff (h : Accord c s) (n : Nat) : TakenOff n s s.allRequested := by
  have set : Onward n s s.nowAsserted := .of_same rfl fun _ he _ => he
  exact (h.nowAsserted.openRequest.shutdownRequests_takenOff n).after (set.trans (h.nowAsserted.openRequest_onward n))

/-- R76: the entry of a string that stays QUEUED keeps its round and its index. -/
theorem Accord.allRequested_places (h : Accord c s) {x : QueueEntry} (hx : x ∈ s.sched.queue)
    (hq : (s.allRequested.str x.string).state = .queued) :
    ∃ e ∈ s.allRequested.sched.queue, e.string = x.string ∧ e.round = x.round ∧ e.arrival = x.arrival := by
  obtain ⟨e, he, hen, -⟩ := h.allRequested.entry hq
  have hxq := h.queued hx
  obtain ⟨y, hy, hyn, hround, harrival⟩ :=
    (h.allRequested_takenOff x.string).places (by simp [hxq]) (by simp [hxq]) e he hen
  obtain rfl : y = x := List.inj_on_of_nodup_map h.queueDistinct hy hx hyn
  exact ⟨e, he, hen, hround, harrival⟩

/-- R106, R143: the requests leave an isolator that the assertion's order has found able to wait or to open. -/
theorem State.allRequested_isolator (h : s.nowAsserted.openRequest.isolator.ordered) :
    s.allRequested.isolator = s.nowAsserted.openRequest.isolator := (State.shutdownRequests_aside _).isolator h

theorem State.allRequested_opening (h : s.isolator.state = .closed ∨ s.isolator.state = .failed)
    (hf : s.isolator.feedback ≠ .opened) : s.allRequested.isolator.state = .opening := by
  have ho : s.nowAsserted.openRequest.isolator.state = .opening := by
    rw [State.openRequest_eq (s := s.nowAsserted) (.inl hf), State.openOrder_starts (s := s.nowAsserted) h hf]
    simp
  rw [State.allRequested_isolator (.inl ho), ho]

theorem State.allRequested_closing (h : s.isolator.state = .closing) :
    s.allRequested.isolator.state = .closing ∧ s.allRequested.isolator.pendingOpen = true := by
  have ho : s.nowAsserted.openRequest.isolator = { s.isolator with pendingOpen := true } := by
    rw [State.openRequest_eq (s := s.nowAsserted) (.inr (.inr (.inr h))), State.openOrder_pends (s := s.nowAsserted) h]
    rfl
  rw [State.allRequested_isolator (by rw [ho]; exact .inr ⟨h, rfl⟩), ho]
  exact ⟨h, rfl⟩

end

/-- Settles O59: the requests are followed string by string in whatever order they come, and the abort and the withdrawal
are then read off the probe unit. -/
theorem shutdownActsOnEveryBlock : Obligations.ShutdownActsOnEveryBlock := by
  unfold Obligations.ShutdownActsOnEveryBlock
  intro s
  refine ⟨fun low => rfl, fun hp ha hl hsound => ?_, fun hp ha hl => ?_⟩
  · let b := s.reach (s.shutdown.since + 20)
    let r := b.allRequested
    let t := b.assertShutdown
    have accord := (Coherent.of_sound (full := False) hsound False.elim).accord.reach (s.shutdown.since + 20)
    have off (n : Nat) : TakenOff n b r := accord.allRequested_takenOff n
    have aside := b.allRequested_aside
    have within : Within [.probe, .attention] r t := b.assertShutdown_within
    have hstr (n : Nat) : t.str n = r.str n := State.str_congr (within .strings (by decide)) n
    have hsched : t.sched = r.sched := within .sched (by decide)
    have hiso : t.isolator = r.isolator := within .isolator (by decide)
    have hprobe : t.probe = r.abortKeeping.withdrawAllPreClose.probe := b.assertShutdown_probe
    have hflight : r.probe.flight = s.probe.flight := aside.flight rfl
    refine ⟨t, congrArg Host.Outcome.next (State.lowTaken_asserts hp ha hl), ?_, ?_, State.mem_raise_self _ _, fun n => ?_,
      fun n hs => ?_, fun n hs => ?_, fun e he => ?_, fun x hx hq => ?_, fun e he => ?_, fun e he hd => ?_, fun f hf => ?_,
      fun hs hf => ?_, fun hs => ?_⟩
    · exact (within .shutdown (by decide)).trans aside.shutdown
    · exact congrArg Part.now ((within .part (by decide)).trans b.allRequested_part)
    · rw [hstr]; exact (off n).off
    · rw [hstr]; exact (off n).bus hs
    · rw [hstr]; exact (off n).closing hs
    · rw [hsched] at he
      rw [hstr]
      exact (off e.string).raised e he rfl
    · rw [hstr] at hq
      rw [hsched]
      exact accord.allRequested_places hx hq
    · rw [hprobe, State.withdrawAllPreClose_list] at he
      have hpre := (List.mem_filter.1 he).2
      cases hpur : e.purpose <;> simp_all
    · rw [hprobe, State.withdrawAllPreClose_list]
      have hm := State.mem_abortKeeping (aside.list e he) hd
      rw [show r.probing e.string = s.probing e.string by simp only [State.probing, hflight]] at hm
      refine List.mem_filter.2 ⟨hm, ?_⟩
      split <;> simp [hd]
    · rw [hprobe] at hf
      exact State.withdrawAllPreClose_stopped r.abortKeeping_stopped f hf
    · rw [hiso]; exact State.allRequested_opening (s := b) hs hf
    · rw [hiso]; exact State.allRequested_closing (s := b) hs
  · exact congrArg Host.Outcome.next (State.highTaken_releases hp ha hl)

end Sys2Proof.Machine
end

