-- ==== Sys2Proof/Proofs/CloseFree.lean ====
section
/-! SUPPORT. Starting no close: the operations after which no more strings are CLOSING than before, and the isolator is
CLOSING only if it was. Taking strings off the bus, the requests, the break cell, the contactors and the probe unit start
none. -/

namespace Sys2Proof.Machine

/-- From one state to another no close has been started: no contact's (R100) and not the box output isolator's (R108). -/
structure NoClose (s t : State) : Prop where
  strings : ∀ n, (t.str n).state = .closing → (s.str n).state = .closing
  isolator : t.isolator.state = .closing → s.isolator.state = .closing

section
variable {s t u : State}

/-! ## Composition -/

theorem NoClose.refl (s : State) : NoClose s s := ⟨fun _ => id, id⟩

theorem NoClose.trans (h : NoClose s t) (k : NoClose t u) : NoClose s u :=
  ⟨fun n hn => h.strings n (k.strings n hn), fun hi => h.isolator (k.isolator hi)⟩

theorem NoClose.ite {p : Prop} [Decidable p] (h : NoClose s t) (k : NoClose s u) : NoClose s (if p then t else u) := by
  split
  · exact h
  · exact k

theorem NoClose.foldl {α : Type} {f : State → α → State} (h : ∀ t x, NoClose t (f t x)) (l : List α) (s : State) :
    NoClose s (l.foldl f s) := by
  induction l generalizing s with
  | nil => exact .refl s
  | cons x xs ih => exact (h s x).trans (ih (f s x))

theorem NoClose.of_eq (hs : t.strings = s.strings) (hi : t.isolator = s.isolator) : NoClose s t :=
  ⟨fun n => by rw [State.str_congr hs]; exact id, by rw [hi]; exact id⟩

/-- What changes neither the string table nor the isolator starts no close. -/
theorem NoClose.of_within {bs : List Block} (h : Within bs s t) (hs : Block.strings ∉ bs := by decide)
    (hi : Block.isolator ∉ bs := by decide) : NoClose s t := .of_eq (h .strings hs) (h .isolator hi)

/-! ## The string table written -/

theorem NoClose.updStr (s : State) (n : Nat) {f : StringRec → StringRec}
    (h : (f (s.str n)).state = .closing → (s.str n).state = .closing) : NoClose s (s.updStr n f) := by
  refine ⟨fun m hm => ?_, id⟩
  rcases s.str_updStr n m f with hs | ⟨rfl, hs⟩ <;> rw [hs] at hm
  · exact hm
  · exact h hm

/-- A record whose state stands. -/
theorem NoClose.updStr_keeping (s : State) (n : Nat) {f : StringRec → StringRec}
    (h : ∀ r, (f r).state = r.state := by intro r; rfl) : NoClose s (s.updStr n f) := .updStr s n (by rw [h]; exact id)

/-- A record taken to another state than CLOSING. -/
theorem NoClose.updStr_leaving (s : State) (n : Nat) {f : StringRec → StringRec}
    (h : ∀ r, (f r).state ≠ .closing := by intro r hr; cases hr) : NoClose s (s.updStr n f) :=
  .updStr s n fun hf => absurd hf (h _)

theorem NoClose.updAll (s : State) {f : StringRec → StringRec} (h : ∀ r, (f r).state = .closing → r.state = .closing) :
    NoClose s (s.updAll f) := by
  refine ⟨fun m hm => ?_, id⟩
  rcases s.str_updAll m f with hs | hs <;> rw [hs] at hm
  · exact hm
  · exact h _ hm

/-- A table written entry by entry, each left in the state it had. -/
theorem NoClose.of_getNum (hi : t.isolator = s.isolator) (h : ∀ n q, getNum t.strings n = some q →
    ∃ r, getNum s.strings n = some r ∧ q.state = r.state) : NoClose s t := by
  refine ⟨fun n hn => ?_, by rw [hi]; exact id⟩
  cases hq : getNum t.strings n with
  | none =>
    rw [State.str, hq] at hn
    cases hn
  | some q =>
    obtain ⟨r, hr, hs⟩ := h n q hq
    rw [State.str, hq, Option.getD_some, hs] at hn
    rwa [State.str, hr]

/-! ## The other blocks written, and the shared operations -/

theorem NoClose.setPart (s : State) (x : Part) : NoClose s (s.setPart x) := .of_eq rfl rfl
theorem NoClose.setMode (s : State) (x : Mode) : NoClose s (s.setMode x) := .of_eq rfl rfl
theorem NoClose.setLink (s : State) (x : LinkPort) : NoClose s (s.setLink x) := .of_eq rfl rfl
theorem NoClose.setScan (s : State) (x : ScanUnit) : NoClose s (s.setScan x) := .of_eq rfl rfl
theorem NoClose.setPeer (s : State) (x : Comparator) : NoClose s (s.setPeer x) := .of_eq rfl rfl
theorem NoClose.setLockouts (s : State) (x : List Lockout) : NoClose s (s.setLockouts x) := .of_eq rfl rfl
theorem NoClose.setSched (s : State) (x : Scheduler) : NoClose s (s.setSched x) := .of_eq rfl rfl
theorem NoClose.setCell (s : State) (x : Cell) : NoClose s (s.setCell x) := .of_eq rfl rfl
theorem NoClose.setProbe (s : State) (x : ProbeUnit) : NoClose s (s.setProbe x) := .of_eq rfl rfl
theorem NoClose.setShutdown (s : State) (x : ShutdownMonitor) : NoClose s (s.setShutdown x) := .of_eq rfl rfl
theorem NoClose.setSupervision (s : State) (x : Supervision) : NoClose s (s.setSupervision x) := .of_eq rfl rfl
theorem NoClose.setAttention (s : State) (x : List Item) : NoClose s (s.setAttention x) := .of_eq rfl rfl
theorem NoClose.setStore (s : State) (x : SettingsStore) : NoClose s (s.setStore x) := .of_eq rfl rfl
theorem NoClose.setFree (s : State) (x : FreeChoices) : NoClose s (s.setFree x) := .of_eq rfl rfl

theorem NoClose.setIsolator (s : State) {x : Isolator} (h : x.state = .closing → s.isolator.state = .closing) :
    NoClose s (s.setIsolator x) := ⟨fun _ => id, h⟩

theorem NoClose.setIsolator_leaving (s : State) {x : Isolator} (h : x.state ≠ .closing := by intro h; cases h) :
    NoClose s (s.setIsolator x) := .setIsolator s fun hx => absurd hx h

theorem NoClose.raise (s : State) (i : Item) : NoClose s (s.raise i) := .of_within (s.raise_within i)

theorem NoClose.place (s : State) (n : Nat) (p : Purpose) (o : Origin) : NoClose s (s.place n p o) :=
  .of_within (s.place_within n p o)

theorem NoClose.withdraw (s : State) (n : Nat) : NoClose s (s.withdraw n) := .of_within (s.withdraw_within n)

theorem NoClose.reach (s : State) (due : Nat) : NoClose s (s.reach due) := .of_within (s.reach_within due)

theorem NoClose.lookForWork (s : State) : NoClose s s.lookForWork := .of_within s.lookForWork_within

theorem NoClose.abortKeeping (s : State) : NoClose s s.abortKeeping := .of_within s.abortKeeping_within

theorem NoClose.withdrawAllPreClose (s : State) : NoClose s s.withdrawAllPreClose := .of_within s.withdrawAllPreClose_within

theorem NoClose.requestWrite (s : State) : NoClose s s.requestWrite := .of_within s.requestWrite_within

theorem NoClose.openRecord (s : State) (n : Nat) (c : Cause) (k : Option BreakKind) : NoClose s (s.openRecord n c k) :=
  .updStr_keeping s n fun _ => rfl

end

/-! ## Off the bus, and the service walk -/

theorem State.settleOff_noClose (s : State) (n : Nat) : NoClose s (s.settleOff n) :=
  .updStr_leaving s n fun _ => by dsimp only; split <;> decide

theorem State.offBus_noClose (s : State) (n : Nat) : NoClose s (s.offBus n) :=
  ((s.settleOff_noClose n).trans (.raise _ _)).trans (.place _ _ _ _)

theorem State.openOrder_noClose (s : State) : NoClose s s.openOrder := by
  rcases s.openOrder_cases with ⟨h, -⟩ | ⟨h, -⟩ | ⟨-, h⟩
  · rw [h]; exact .refl s
  · rw [h]; exact .setIsolator s id
  · rw [State.openOrder_begins h]
    exact (NoClose.setIsolator_leaving s (by dsimp only; split <;> decide)).trans (.raise _ _)

theorem State.visit_noClose (s : State) (earlier : Bool) (e : QueueEntry) : NoClose s (s.visit earlier e).1 := by
  rcases s.visit_cases earlier e with h | h | h | h | h <;> rw [h]
  · exact ((NoClose.setSched s _).trans (.updStr_keeping _ _)).trans
      (State.offBus_noClose _ _)
  · exact .refl s
  · exact ((NoClose.setSched s _).trans (.setSched _ _)).trans (.updStr_leaving _ _)
  · exact (((NoClose.setSched s _).trans (.setSched _ _)).trans (.updStr_leaving _ _)).trans (.setCell _ _)
  · exact s.openOrder_noClose

/-- R78: a service walk starts no close. -/
theorem State.walk_noClose (s : State) : NoClose s s.walk :=
  State.walk_keeps (NoClose s) (.refl s) fun t earlier e h => h.trans (t.visit_noClose earlier e)

/-- R106: an open request starts no close. -/
theorem State.openRequest_noClose (s : State) : NoClose s s.openRequest := by
  rcases s.openRequest_cases with h | h <;> rw [h]
  · exact s.openOrder_noClose
  · exact s.openOrder_noClose.trans (State.walk_noClose _)

theorem State.escalateWaiting_noClose (s : State) : NoClose s s.escalateWaiting := by
  rcases s.escalateWaiting_cases with h | h <;> rw [h]
  · exact .refl s
  · exact s.openRequest_noClose

/-! ## Requests (R11) -/

theorem State.recurrenceTest_noClose (s : State) (n : Nat) (c : ReqCause) : NoClose s (s.recurrenceTest n c) :=
  .ite (.updStr_keeping s n fun r => by unfold StringRec.recurrence; (repeat' split) <;> rfl) (.refl s)

theorem State.raiseEntry_noClose (s : State) (e : QueueEntry) (c : ReqCause) : NoClose s (s.raiseEntry e c) :=
  (((NoClose.setSched s _).trans (.setSched _ _)).trans (.updStr_keeping _ _)).trans (State.recurrenceTest_noClose _ _ _)

theorem State.merge_noClose (s : State) (n : Nat) (c : ReqCause) : NoClose s (s.merge n c) := by
  unfold State.merge
  split
  · exact .refl s
  · exact .ite ((s.raiseEntry_noClose _ c).trans (State.walk_noClose _)) (.refl s)

theorem State.admitEntry_noClose (s : State) (n : Nat) (c : ReqCause) : NoClose s (s.admitEntry n c) :=
  (((NoClose.setSched s _).trans (.setSched _ _)).trans (.ite (State.raiseEntry_noClose _ _ _) (.refl _))).trans
    (State.walk_noClose _)

theorem State.queueString_noClose (s : State) (n : Nat) (c : ReqCause) : NoClose s (s.queueString n c) :=
  (((NoClose.updStr_leaving s n).trans (.openRecord _ n _ _)).trans (State.recurrenceTest_noClose _ n c)).trans
    (State.admitEntry_noClose _ n c)

theorem State.withdrawPreClose_noClose (s : State) (n : Nat) : NoClose s (s.withdrawPreClose n) :=
  .of_within (s.withdrawPreClose_within n)

/-- R11: an isolation request starts no close; in CLOSING it is held. -/
theorem State.request_noClose (s : State) (n : Nat) (c : ReqCause) : NoClose s (s.request n c) := by
  unfold State.request
  split
  · exact s.queueString_noClose n c
  · exact s.queueString_noClose n c
  · exact s.merge_noClose n c
  · exact .refl s
  · exact .ite ((s.withdrawPreClose_noClose n).trans (.updStr_keeping _ n)) (.refl s)
  · exact .ite (s.withdrawPreClose_noClose n)
      (.ite ((NoClose.withdraw s n).trans (State.queueString_noClose _ n c)) (.refl s))
  · exact .updStr_keeping s n fun r => by unfold StringRec.hold; (repeat' split) <;> rfl
  · exact .refl s
  · exact .refl s
  · exact .refl s

theorem State.shutdownCatch_noClose (s : State) (n : Nat) : NoClose s (s.shutdownCatch n) :=
  .ite (s.request_noClose n _) (.refl s)

/-! ## Reaching the bus, and discrepancies (R13 to R15) -/

theorem State.connect_noClose (s : State) (n : Nat) : NoClose s (s.connect n) := .updStr_leaving s n fun _ => nofun

/-- R15: a confirmed close is over, whatever request was held. -/
theorem State.closeConfirmed_noClose (s : State) (n : Nat) (origin : Origin) : NoClose s (s.closeConfirmed n origin) := by
  have h := ((s.connect_noClose n).trans (.updStr_keeping _ n (f := fun r => { r with
    held := none
    reconnectedAt := if origin = .auto then some s.scan.counter else r.reconnectedAt }))).trans
      (.raise _ (.str .closed n))
  unfold State.closeConfirmed
  dsimp only
  split
  · exact h.trans (State.shutdownCatch_noClose _ n)
  · exact (h.trans (State.request_noClose _ n _)).trans (State.shutdownCatch_noClose _ n)

theorem State.closeFailed_noClose (s : State) (n : Nat) : NoClose s (s.closeFailed n) :=
  ((NoClose.updStr_leaving s n).trans (.raise _ _)).trans (.raise _ _)

theorem State.answered_noClose (s : State) (n : Nat) : NoClose s (s.answered n) := by
  unfold State.answered
  split
  · exact (((NoClose.withdraw s n).trans (State.connect_noClose _ n)).trans (.raise _ _)).trans
      (State.shutdownCatch_noClose _ n)
  · exact (NoClose.raise s _).trans (State.request_noClose _ n _)
  · exact ((s.settleOff_noClose n).trans (.raise _ _)).trans (.place _ _ _ _)
  · exact (((NoClose.updStr_leaving s n).trans (.openRecord _ n _ _)).trans (.raise _ _)).trans
      (.place _ _ _ _)

theorem State.discrepancy_noClose (s : State) (n : Nat) : NoClose s (s.discrepancy n) := by
  rw [State.discrepancy_eq]
  exact .ite (s.answered_noClose n) (.refl s)

/-! ## The break cell -/

theorem State.cellIdle_noClose (s : State) : NoClose s s.cellIdle := (NoClose.setCell s _).trans (State.walk_noClose _)

theorem State.cellHot_noClose (s : State) : NoClose s s.cellHot :=
  ((NoClose.setCell s _).trans (.raise _ _)).trans (State.escalateWaiting_noClose _)

theorem State.cellRested_noClose (s : State) : NoClose s s.cellRested := .ite s.cellHot_noClose s.cellIdle_noClose

theorem State.cellCooled_noClose (s : State) : NoClose s s.cellCooled := .ite s.cellIdle_noClose (.refl s)

theorem State.cellFaulted_noClose (s : State) (stage : FaultStage) (n : Option Nat) : NoClose s (s.cellFaulted stage n) :=
  (NoClose.setCell s _).trans (.raise _ _)

theorem State.quenchSucceeded_noClose (s : State) (n : Nat) : NoClose s (s.quenchSucceeded n) :=
  ((NoClose.setSched s _).trans (.setCell _ _)).trans (State.offBus_noClose _ n)

theorem State.quenchStart_noClose (s : State) (n : Nat) : NoClose s (s.quenchStart n) := by
  unfold State.quenchStart
  extract_lets iq t cell u v
  have hu : NoClose s u := (NoClose.setCell s _).trans (.setCell t _)
  have h : NoClose s v := hu.trans (.updStr_keeping u n)
  exact .ite (h.trans (State.quenchSucceeded_noClose _ n)) h

theorem State.conduct_noClose (s : State) (n : Nat) : NoClose s (s.conduct n) := by
  unfold State.conduct
  extract_lets t
  have h : NoClose s t := (NoClose.setCell s _).trans (.updStr_keeping _ n)
  exact .ite (h.trans (State.quenchStart_noClose _ n)) (h.trans (.updStr_keeping _ n))

theorem State.breakStuck_noClose (s : State) (n : Nat) : NoClose s (s.breakStuck n) := by
  unfold State.breakStuck
  extract_lets hard t
  have h : NoClose s t := ((NoClose.setSched s _).trans (.updStr_leaving _ n)).trans (.raise _ _)
  exact .ite (h.trans (State.openRequest_noClose _)) h

theorem State.attachExpired_noClose (s : State) : NoClose s s.attachExpired := by
  unfold State.attachExpired
  split
  · dsimp only
    refine NoClose.trans (NoClose.trans ?_ (.updStr_leaving _ _)) (State.cellIdle_noClose _)
    split
    · exact .reach s _
    · exact ((NoClose.reach s _).trans (.setSched _ _)).trans (.setSched _ _)
  · exact .refl s

theorem State.failedFreed_noClose (s : State) (n : Nat) : NoClose s (s.failedFreed n) :=
  .ite ((s.settleOff_noClose n).trans (.place _ _ _ _)) (.refl s)

theorem State.tapReleased_noClose (s : State) (n : Nat) : NoClose s (s.tapReleased n) := by
  unfold State.tapReleased
  refine .ite (.refl s) ?_
  split
  case h_1 => exact .setCell s _
  case h_2 => exact .ite (s.cellRested_noClose.trans (State.failedFreed_noClose _ n)) (.refl s)
  all_goals exact .refl s

theorem State.detachExpired_noClose (s : State) : NoClose s s.detachExpired := by
  unfold State.detachExpired
  split
  · exact (((NoClose.reach s _).trans (State.cellFaulted_noClose _ _ _)).trans
      (.updStr_keeping _ _)).trans (State.escalateWaiting_noClose _)
  · exact .refl s

theorem State.releaseExpired_noClose (s : State) : NoClose s s.releaseExpired :=
  .ite (((NoClose.reach s _).trans (.setCell _ _)).trans (.raise _ _)) (.refl s)

theorem State.monitorReads_noClose (s : State) (w : Word16) : NoClose s (s.monitorReads w) := by
  have h : NoClose s (s.setCell { s.cell with monitor := w }) := .setCell s _
  unfold State.monitorReads
  dsimp only
  split
  · exact .ite (h.trans (State.quenchSucceeded_noClose _ _)) h
  · exact h

theorem State.quenchExpired_noClose (s : State) : NoClose s s.quenchExpired := by
  unfold State.quenchExpired
  split
  · exact ((((NoClose.reach s _).trans (State.cellFaulted_noClose _ _ _)).trans (.setSched _ _)).trans
      (.updStr_leaving _ _)).trans (State.openRequest_noClose _)
  · exact .refl s

theorem State.restEnded_noClose (s : State) : NoClose s s.restEnded :=
  .ite ((NoClose.reach s _).trans (State.cellRested_noClose _)) (.refl s)

/-! ## The contactors (R98, R99) -/

theorem State.pulseOpened_noClose (s : State) (n : Nat) : NoClose s (s.pulseOpened n) :=
  .ite (s.quenchStart_noClose n) ((NoClose.setSched s _).trans (State.offBus_noClose _ n))

theorem State.pulseStuck_noClose (s : State) (n : Nat) : NoClose s (s.pulseStuck n) :=
  .ite ((NoClose.setCell s _).trans (State.breakStuck_noClose _ n)) (s.breakStuck_noClose n)

theorem State.contactMoved_noClose (s : State) (n : Nat) (position : Contact) : NoClose s (s.contactMoved n position) := by
  have h := NoClose.updStr_keeping s n (f := fun r => { r with position := position }) fun _ => rfl
  have k := h.trans (.updStr_keeping _ n (f := fun r => { r with op := none }))
  unfold State.contactMoved
  dsimp only
  split
  · exact k.trans (State.pulseOpened_noClose _ n)
  · exact k.trans (State.closeConfirmed_noClose _ n _)
  all_goals exact h

theorem State.contactExpired_noClose (s : State) (n : Nat) : NoClose s (s.contactExpired n) := by
  have h (due : Nat) := (NoClose.reach s due).trans (.updStr_keeping _ n (f := fun r => { r with op := none }))
  unfold State.contactExpired
  split
  · exact .refl s
  · exact (h _).trans (State.pulseStuck_noClose _ n)
  · exact (h _).trans (State.closeFailed_noClose _ n)

/-! ## The box output isolator (R107, R109, R110) -/

theorem State.isolatorOpened_noClose (s : State) : NoClose s s.isolatorOpened :=
  (NoClose.setIsolator_leaving s).trans (.raise _ _)

/-- R109: a close that is over is not started again. -/
theorem State.closeOver_noClose (s : State) {x : IsolatorState} (hx : x ≠ .closing) : NoClose s (s.closeOver x) := by
  have h : NoClose s ((s.setIsolator { s.isolator with state := x, pendingOpen := false }).raiseBox .output) :=
    (NoClose.setIsolator_leaving s hx).trans (.raise _ _)
  exact .ite (h.trans (State.openRequest_noClose _)) h

theorem State.isolatorReads_noClose (s : State) (feedback : Travel) : NoClose s (s.isolatorReads feedback) := by
  have h : NoClose s (s.setIsolator { s.isolator with feedback := feedback }) := .setIsolator s id
  unfold State.isolatorReads
  dsimp only
  split
  · exact (h.trans (State.isolatorOpened_noClose _)).trans (State.walk_noClose _)
  · exact h.trans (State.closeOver_noClose _ (by decide))
  · exact h

theorem State.isolatorExpired_noClose (s : State) : NoClose s s.isolatorExpired := by
  unfold State.isolatorExpired
  split
  · exact ((NoClose.reach s _).trans (.setIsolator_leaving _)).trans (.raise _ _)
  · exact (NoClose.reach s _).trans (State.closeOver_noClose _ (by decide))
  all_goals exact .refl s

theorem State.isolatorCompared_noClose (s : State) : NoClose s s.isolatorCompared := by
  have h (x : IsolatorState) (hx : x ≠ .closing) :
      NoClose s ((s.setIsolator { s.isolator with state := x }).raiseBox .output) :=
    (NoClose.setIsolator_leaving s hx).trans (.raise _ _)
  unfold State.isolatorCompared
  split
  · exact s.isolatorOpened_noClose.trans (State.walk_noClose _)
  · exact h .failed nofun
  · exact h .failed nofun
  · exact .ite ((h .closed nofun).trans (State.openRequest_noClose _)) (h .closed nofun)
  · exact .refl s

/-! ## The probe unit -/

theorem State.addLockout_noClose (s : State) (n : Nat) (v : Verdict) : NoClose s (s.addLockout n v) :=
  .ite (.refl s) ((NoClose.setLockouts s _).trans (.requestWrite _))

theorem State.lockOut_noClose (s : State) (n : Nat) (v : Verdict) : NoClose s (s.lockOut n v) := by
  refine ((s.addLockout_noClose n v).trans (.raise _ _)).trans (.updStr _ n ?_)
  dsimp only
  split
  · nofun
  · exact id

theorem State.reconnectAuto_noClose (s : State) (n : Nat) : NoClose s (s.reconnectAuto n) :=
  .ite ((NoClose.updStr_keeping s n).trans (.place _ _ _ _)) (.refl s)

theorem State.verdictReported_noClose (s : State) (n : Nat) (x : Finding) : NoClose s (s.verdictReported n x) := by
  unfold State.verdictReported
  extract_lets t
  have h : NoClose s t := (NoClose.updStr_keeping s n).trans (.raise _ _)
  exact .ite (h.trans (State.lockOut_noClose _ n _)) (.ite (h.trans (State.reconnectAuto_noClose _ n)) h)

theorem State.verdictFormed_noClose (s : State) (f : ProbeFlight) (x : Finding) : NoClose s (s.verdictFormed f x) :=
  ((NoClose.setProbe s _).trans (.setProbe _ _)).trans (State.verdictReported_noClose _ _ x)

theorem State.diagnosed_noClose (s : State) (f : ProbeFlight) (p1 p2 p3 : Poles) : NoClose s (s.diagnosed f p1 p2 p3) := by
  have inconsistent : NoClose s (s.inconsistent f) := by
    unfold State.inconsistent
    split
    · exact s.verdictFormed_noClose f _
    · exact .ite ((NoClose.setProbe s _).trans (.setProbe _ _)) (s.verdictFormed_noClose f _)
  unfold State.diagnosed
  split
  · exact s.verdictFormed_noClose f _
  · exact s.verdictFormed_noClose f _
  · exact s.verdictFormed_noClose f _
  · exact inconsistent

theorem State.checkFailed_noClose (s : State) (n : Nat) : NoClose s (s.checkFailed n) := by
  unfold State.checkFailed
  split
  · exact .refl s
  · extract_lets t
    have h : NoClose s t := .updStr_keeping s n
    exact .ite (h.trans (.setProbe _ _)) ((h.trans (.setProbe _ _)).trans (.raise _ _))

theorem State.checked_noClose (s : State) (f : ProbeFlight) (p : Poles) : NoClose s (s.checked f p) :=
  .ite (.setProbe s _) ((NoClose.setProbe s _).trans (State.checkFailed_noClose _ _))

theorem State.settled_noClose (s : State) : NoClose s s.settled := by
  unfold State.settled
  split
  · exact .refl s
  · exact .ite (.refl s) ((NoClose.reach s _).trans (.setProbe _ _))

/-- R116, R124: a reading judges a check but orders no close; the pass is held to the end of RELEASE. -/
theorem State.reading_noClose (s : State) (vp vn : List Word16) : NoClose s (s.reading vp vn) := by
  unfold State.reading
  split
  · exact .refl s
  · next f _ =>
    refine .ite (.refl s) ?_
    have h := NoClose.reach s (f.since + f.settle + 8)
    dsimp only
    split
    · exact h.trans (State.checked_noClose _ f _)
    · exact h.trans (.setProbe _ _)
    · exact h.trans (.setProbe _ _)
    · exact h.trans (State.diagnosed_noClose _ f _ _ _)
    · exact .refl s
    · exact .refl s

/-- R100: a close is not ordered while shutdown is ASSERTED. -/
theorem State.closeOrder_noClose {s : State} (ha : s.shutdown.asserted = true) (n : Nat) (origin : Origin) :
    NoClose s (s.closeOrder n origin) := by
  unfold State.closeOrder
  rw [if_pos (.inl ha)]
  exact .setProbe s _

theorem State.released_noClose {s : State} (ha : s.shutdown.asserted = true) : NoClose s s.released := by
  unfold State.released
  split
  · exact .refl s
  · refine .ite ?_ (.refl s)
    extract_lets t
    have h : NoClose s t := (NoClose.reach s _).trans (.setProbe _ _)
    exact (h.trans (.ite (State.closeOrder_noClose (s := t) ha _ _) (.refl t))).trans (.lookForWork _)

/-! ## Supervision and the shutdown monitor -/

theorem State.lapse_noClose (s : State) : NoClose s s.lapse := .of_within s.lapse_within

theorem State.lineHeld_noClose (s : State) (low : Bool) : NoClose s (s.lineHeld low) := .ite (.reach s _) (.setShutdown s _)

theorem State.heartbeat_noClose (s : State) (token : Word16) : NoClose s (s.heartbeat token) := by
  unfold State.heartbeat
  split
  · exact .setSupervision s _
  · exact s.lapse_noClose
  · exact s.lapse_noClose
  · exact .ite (.refl s) s.lapse_noClose

theorem State.shutdownRequests_noClose (s : State) : NoClose s s.shutdownRequests :=
  (NoClose.foldl (fun t n => t.request_noClose n .shutdown) _ _).trans (.setFree _ _)

theorem State.assertShutdown_noClose (s : State) : NoClose s s.assertShutdown :=
  (((((NoClose.setShutdown s _).trans (State.openRequest_noClose _)).trans (State.shutdownRequests_noClose _)).trans
    (.abortKeeping _)).trans (.withdrawAllPreClose _)).trans (.raise _ _)

theorem State.lowTaken_noClose (s : State) : NoClose s s.lowTaken :=
  .ite ((s.lineHeld_noClose true).trans (State.assertShutdown_noClose _)) (s.lineHeld_noClose true)

theorem State.highTaken_noClose (s : State) : NoClose s s.highTaken :=
  .ite ((s.lineHeld_noClose false).trans (((NoClose.setShutdown _ _).trans (.raise _ _)).trans (.lookForWork _)))
    (s.lineHeld_noClose false)

end Sys2Proof.Machine
end

