-- ==== Sys2Proof/Proofs/CloseFreeRounds.lean ====
section
/-! SUPPORT. Rounds, configuration messages, resets and the load start no close. -/

namespace Sys2Proof.Machine

/-! ## Rounds (R21 to R26) -/

theorem State.startRound_noClose (s : State) : NoClose s s.startRound := by
  unfold State.startRound
  split
  · exact .refl s
  · exact .setScan s _

theorem State.enterFallback_noClose (s : State) : NoClose s s.enterFallback :=
  ((NoClose.setScan s _).trans (.raise _ _)).trans (State.startRound_noClose _)

theorem State.recheckSource_noClose (s : State) : NoClose s s.recheckSource := by
  unfold State.recheckSource
  refine .ite (.refl s) ?_
  split
  · exact .ite s.startRound_noClose (.refl s)
  · exact .ite s.startRound_noClose (.refl s)
  · exact .ite s.enterFallback_noClose (.refl s)

theorem State.roundTimer_noClose (s : State) : NoClose s s.roundTimer := by
  unfold State.roundTimer
  split
  · exact (NoClose.reach s _).trans (State.startRound_noClose _)
  · exact (NoClose.reach s _).trans (State.startRound_noClose _)
  · exact .refl s

theorem State.syncEdge_noClose (s : State) : NoClose s s.syncEdge := by
  unfold State.syncEdge
  split
  · exact .refl s
  · exact s.startRound_noClose
  · exact (NoClose.setScan s _).trans (State.startRound_noClose _)

theorem State.syncWatch_noClose (s : State) : NoClose s s.syncWatch := by
  unfold State.syncWatch
  split
  · exact (NoClose.reach s _).trans (State.enterFallback_noClose _)
  · exact .refl s
  · exact .refl s

theorem State.secondElapsed_noClose (s : State) : NoClose s s.secondElapsed :=
  ((NoClose.setPart s _).trans (.setCell _ _)).trans (.setScan _ _)

theorem State.extStale_noClose (s : State) (g : Nat) : NoClose s (s.extStale g) := by
  unfold State.extStale
  split
  · refine .ite ?_ (.refl s)
    extract_lets scan t
    have h : NoClose s t := .setScan s _
    split
    · exact .ite (h.trans (.raise _ _)) h
    · exact h
  · exact .refl s

/-! ## A completion (R22) -/

theorem State.deliverRound_noClose (s : State) (r : Round) : NoClose s (s.deliverRound r) := by
  have channel (t : State) (c : Channel) : NoClose t (t.deliverChannel r.total r.capture c) :=
    have h := NoClose.updStr_keeping t c.string (f := fun q => q.deliver c r.total r.capture)
    .ite (h.trans (.raise _ _)) h
  have temps (t : State) (x : List Int) : NoClose t (t.deliverTemps x) :=
    .ite ((NoClose.setScan t _).trans (.raise _ _)) (.setScan t _)
  exact ((NoClose.setScan s _).trans (.foldl channel _ _)).trans (temps _ _)

theorem State.compare_noClose (s : State) (fresh : List Nat) : NoClose s (s.compare fresh) := by
  refine .of_getNum rfl fun n q hq => ?_
  cases hr : getNum s.strings n with
  | none =>
    match n with
    | 0 => cases hs : (s.compare fresh).strings <;> simp [hs] at hq
    | n + 1 => simp [State.compare, getNum_map, getNum_mapNum, hr] at hq
  | some r =>
    obtain ⟨p, hp, -⟩ := s.compare_getNum fresh n r hr
    have hn : r.normalize.state = r.state := by unfold StringRec.normalize; split <;> rfl
    refine ⟨r, rfl, ?_⟩
    obtain rfl := Option.some.inj (hp.symm.trans hq)
    split <;> exact hn

theorem State.decideDay_noClose (s : State) : NoClose s s.decideDay := by
  have day : NoClose s s.startDay :=
    ((NoClose.setPeer s _).trans (.updAll _ fun r => by split <;> exact id)).trans (.raise _ _)
  have night : NoClose s s.enterNight :=
    (((NoClose.setPeer s _).trans (.setScan _ _)).trans (.raise _ _)).trans (.abortKeeping _)
  exact .ite (.ite (.refl s) day) (.ite (.ite night (.setPeer s _)) (.setPeer s _))

theorem State.newPeriod_noClose (s b : State) : NoClose s (s.newPeriod b) := .ite (.refl s) s.recheckSource_noClose

theorem State.abortUnlit_noClose (s : State) : NoClose s s.abortUnlit := by
  unfold State.abortUnlit
  split
  · exact .refl s
  · exact .ite (.refl s) (.abortKeeping s)

theorem StringRec.monitor_state (r : StringRec) (mode : Mode) (box : BoxSettings) (night : Bool) (g : Option GroupRec) :
    (r.monitor mode box night g).figures.state = r.state := by
  unfold StringRec.monitor
  split <;> rfl

theorem State.applyJudgements_noClose (s : State) : NoClose s (s.applyJudgements s.judgements) := by
  have figures : NoClose s (s.setStrings (s.judgements.map (·.figures))) := by
    refine .of_getNum rfl fun n q hq => ?_
    rw [State.setStrings_strings, State.judgements, getNum_map, getNum_map, Option.map_map, Option.map_eq_some_iff] at hq
    obtain ⟨r, hr, rfl⟩ := hq
    exact ⟨r, hr, r.monitor_state _ _ _ _⟩
  exact figures.trans (.foldl (fun t x => .raise t _) _ _)

theorem StringRec.suspectTest_closing (r : StringRec) (g : Option GroupRec) (h : (r.suspectTest g).state = .closing) :
    r.state = .closing := by
  unfold StringRec.suspectTest at h
  extract_lets counting high low at h
  split at h
  · cases h
  · split at h
    · cases h
    · exact h

theorem State.controllerTurn_noClose (s : State) (js : List Judgement) : NoClose s (s.controllerTurn js) := by
  have event (t : State) (k : Nat) : NoClose t (State.controllerEvent js t k) := by
    unfold State.controllerEvent State.makeRequest
    refine .ite ?_ (t.discrepancy_noClose _)
    split
    · exact .refl t
    · exact t.request_noClose _ _
  exact ((NoClose.updAll s fun r => r.suspectTest_closing _).trans (.foldl event _ _)).trans (.setFree _ _)

/-- R22: a completion starts no close, for all its requests and discrepancies. -/
theorem State.completeRound_noClose (s : State) (r : Round) : NoClose s (s.completeRound r) := by
  unfold State.completeRound
  extract_lets t js
  have h : NoClose s t :=
    (((((s.deliverRound_noClose r).trans (State.compare_noClose _ _)).trans (State.decideDay_noClose _)).trans
      (State.newPeriod_noClose _ s)).trans (.setProbe _ _)).trans (State.abortUnlit_noClose _)
  exact ((((h.trans t.applyJudgements_noClose).trans (State.controllerTurn_noClose _ js)).trans
    (State.isolatorCompared_noClose _)).trans (State.walk_noClose _)).trans (.lookForWork _)

theorem State.takeSet_noClose (s : State) (set : SampleSet) : NoClose s (s.takeSet set) := by
  unfold State.takeSet
  split
  · exact .refl s
  · exact .ite ((NoClose.reach s _).trans (.setScan _ _)) ((NoClose.reach s _).trans (State.completeRound_noClose _ _))

/-! ## Configuration messages (R19, R181) -/

theorem StringRec.enterRun_closing (r : StringRec) (h : r.enterRun.state = .closing) : r.state = .closing := by
  unfold StringRec.enterRun at h
  dsimp only at h
  split at h
  · cases h
  · exact h

theorem State.configureString_noClose (s : State) (n : Nat) (c : StringSettings) : NoClose s (s.configureString n c) := by
  have unused : NoClose s (s.makeUnused n c) :=
    ((NoClose.withdraw s n).trans (.updStr_leaving _ n)).trans (.setScan _ _)
  have used : NoClose s (s.makeUsed n c) := by
    unfold State.makeUsed
    extract_lets t
    have h : NoClose s t := .updStr_leaving s n fun r => by cases r.position <;> simp
    exact .ite ((h.trans (State.connect_noClose _ n)).trans (State.shutdownCatch_noClose _ n)) h
  have kept : NoClose s (s.keepUsed n c) := by
    unfold State.keepUsed
    extract_lets moved t
    have h : NoClose s t := .updStr s n fun hc => (s.str n).enterRun_closing (by dsimp only at hc; split at hc <;> exact hc)
    exact .ite (h.trans (.setScan _ _)) h
  have idle : NoClose s (s.keepUnused n c) := .updStr_keeping s n
  unfold State.configureString
  refine NoClose.trans (NoClose.trans ?_ (.setPeer _ _)) (.setStore _ _)
  split
  · exact unused
  · exact used
  · exact kept
  · exact idle

theorem State.configureBox_noClose (s : State) (b : BoxSettings) : NoClose s (s.configureBox b) := by
  have heat (t : State) : NoClose t t.testHeat := by
    unfold State.testHeat
    split
    · exact t.cellCooled_noClose
    · exact .ite t.cellHot_noClose (.refl t)
    all_goals exact .refl t
  have source : NoClose s (s.newSource b) := .of_within (s.newSource_within b)
  have budgets (t : State) : NoClose t t.capBudgets := .updAll t fun _ => id
  have windows (t : State) : NoClose t (t.recheckWindows s.box) := .of_within (t.recheckWindows_within _)
  exact ((((source.trans (budgets _)).trans (heat _)).trans (windows _)).trans (State.walk_noClose _)).trans (.setStore _ _)

/-! ## Resets and the load (R150 to R153) -/

theorem State.drop_noClose (s : State) (kind : ResetKind) : NoClose s (s.drop kind) where
  strings := fun n h => by rw [(s.drop_unused kind n).1] at h; cases h
  isolator := fun h => by
    have hf : restingAt s.isolator.feedback ≠ .closing := by cases s.isolator.feedback <;> decide
    exact absurd h hf

theorem State.supplyLost_noClose (s : State) : NoClose s s.supplyLost :=
  .ite (((s.drop_noClose _).trans (.setPart _ _)).trans (.setAttention _ _)) (.refl s)

theorem getNum_zipWith {α β γ : Type} (f : α → β → γ) (l : List α) (k : List β) {n : Nat} {z : γ}
    (h : getNum (List.zipWith f l k) n = some z) : ∃ x y, getNum l n = some x ∧ z = f x y := by
  match n with
  | 0 => cases hz : List.zipWith f l k <;> simp [hz] at h
  | n + 1 =>
    rw [getNum_eq, List.getElem?_zipWith_eq_some] at h
    obtain ⟨x, y, hx, -, rfl⟩ := h
    exact ⟨x, y, by rw [getNum_eq, hx], rfl⟩

theorem State.load_isolator (s : State) (answers : Bool) : (s.load answers).isolator = s.isolator := by
  unfold State.load
  split
  · rfl
  · rw [State.raiseBox_eq, State.raise_isolator]; rfl

theorem State.load_noClose (s : State) (answers : Bool) : NoClose s (s.load answers) := by
  refine .of_getNum (s.load_isolator answers) fun n q hq => ?_
  rw [(s.load_tables answers).1] at hq
  obtain ⟨r, c, hr, rfl⟩ := getNum_zipWith _ _ _ hq
  exact ⟨r, hr, rfl⟩

theorem State.placeString_noClose (s : State) (n : Nat) : NoClose s (s.placeString n) := by
  unfold State.placeString
  refine .ite (.refl s) ?_
  extract_lets t
  have h : NoClose s t := .updStr_keeping s n
  split
  · exact (h.trans (State.connect_noClose _ n)).trans (State.shutdownCatch_noClose _ n)
  · exact h.trans (State.queueString_noClose _ n _)
  · exact h.trans (.updStr_leaving _ n)
  · exact ((h.trans (.updStr_leaving _ n)).trans (.openRecord _ n _ _)).trans (.place _ _ _ _)

/-- R150: the start-up sequence starts no close. -/
theorem State.loadEnded_noClose (s : State) (answers : Bool) : NoClose s (s.loadEnded answers) := by
  have cell (t : State) : NoClose t t.cellCheck :=
    .ite ((t.cellFaulted_noClose _ _).trans (State.openRequest_noClose _)) (.refl t)
  have line (t : State) : NoClose t t.lineCheck := .ite (t.openRequest_noClose.trans (.raise _ _)) (.refl t)
  have placed (t : State) : NoClose t t.reconcile := .foldl State.placeString_noClose _ _
  have first (t : State) : NoClose t t.firstRound := (NoClose.setScan t _).trans (State.startRound_noClose _)
  have begun (t : State) : NoClose t t.begin := (NoClose.setPart t _).trans (.setLink _ _)
  exact .ite ((((((s.load_noClose answers).trans (cell _)).trans (line _)).trans (placed _)).trans (first _)).trans (begun _))
    (.refl s)

theorem State.verified_noClose (s : State) (readBack : ReadBack) : NoClose s (s.verified readBack) := by
  have ended (t : State) : NoClose t t.writeEnded := .ite ((NoClose.setStore t _).trans (.setStore _ _)) (.setStore t _)
  unfold State.verified
  split
  · exact .refl s
  · exact (NoClose.setStore s _).trans (ended _)
  · exact ((NoClose.setStore s _).trans (.raise _ _)).trans (ended _)

end Sys2Proof.Machine
end

