-- ==== Sys2Proof/Proofs/CloseFreeCommands.lean ====
section
/-! No command starts a close while shutdown is ASSERTED (O21). -/

namespace Sys2Proof.Machine

section
variable {s : State}

/-! ## What requests do -/

theorem State.releaseLockout_noClose (s : State) (n : Nat) : NoClose s (s.releaseLockout n) :=
  ((NoClose.setLockouts s _).trans (.updStr_leaving _ n)).trans (.requestWrite _)

theorem State.restoreVisits_noClose (s : State) : NoClose s s.restoreVisits.1 := by
  have one (acc : State × Nat) (n : Nat) : NoClose acc.1 (State.restoreOne acc n).1 := by
    unfold State.restoreOne
    split
    · split
      · exact .setProbe _ _
      · split
        · exact (NoClose.withdraw acc.1 n).trans (.setProbe _ _)
        · exact .refl _
    · exact .refl _
  have all (l : List Nat) (acc : State × Nat) : NoClose acc.1 (l.foldl State.restoreOne acc).1 := by
    induction l generalizing acc with
    | nil => exact .refl _
    | cons n ns ih => exact (one acc n).trans (ih _)
  exact all _ (s, 0)

theorem State.restoreAll_noClose (s : State) : NoClose s s.restoreAll.1 := by
  unfold State.restoreAll
  simp only
  exact .ite s.restoreVisits_noClose (s.restoreVisits_noClose.trans (.lookForWork _))

theorem State.restoreCell_noClose (s : State) : NoClose s s.restoreCell := by
  unfold State.restoreCell
  split
  · exact .setCell s _
  · exact s.cellRested_noClose

theorem State.clearAttention_noClose (s : State) (mask : List Byte) : NoClose s (s.clearAttention mask) :=
  .ite ((NoClose.setAttention s _).trans (.setSupervision _ _)) (.setAttention s _)

/-! ## Requests of the site link (R171) -/

/-- A test of a request, whose two answers start no close. -/
theorem NoClose.tested {p : Prop} [Decidable p] {a b : Answer} (h : NoClose s a.1) (k : NoClose s b.1) :
    NoClose s (if p then a else b).1 := by
  split
  · exact h
  · exact k

theorem State.reqConfigRead_noClose (target : Byte) (number : Option Byte) : NoClose s (s.reqConfigRead target number).1 := by
  unfold State.reqConfigRead
  repeat' split
  all_goals exact .refl s

theorem State.reqTemperature_noClose (group value : Byte) : NoClose s (s.reqTemperature group value).1 := by
  unfold State.reqTemperature
  split
  · exact .refl s
  · exact .setScan s _

theorem State.reqIsolate_noClose (b : Byte) : NoClose s (s.reqIsolate b).1 := by
  unfold State.reqIsolate
  split
  · exact .refl s
  · exact .tested (.refl s) (s.request_noClose _ _)

theorem State.reqReconnect_noClose (b : Byte) : NoClose s (s.reqReconnect b).1 := by
  unfold State.reqReconnect
  split
  · exact .refl s
  · exact .tested (.refl s) (.tested (.refl s) (.tested (.refl s) (.tested (.refl s) (.tested (.refl s) (.place s _ _ _)))))

theorem State.reqProbe_noClose (b : Byte) : NoClose s (s.reqProbe b).1 := by
  unfold State.reqProbe
  split
  · exact .refl s
  · exact .tested (.refl s) (.tested (.refl s) (.place s _ _ _))

theorem State.reqRelease_noClose (b : Byte) : NoClose s (s.reqRelease b).1 := by
  unfold State.reqRelease
  split
  · exact .refl s
  · exact .tested (.refl s) (.tested (.refl s) (s.releaseLockout_noClose _))

theorem State.reqRestore_noClose : NoClose s s.reqRestore.1 := by
  unfold State.reqRestore
  refine .tested (.refl s) (.tested (.refl s) ?_)
  rw [accept_fst]
  exact s.restoreAll_noClose

/-- R108: a close of the isolator is refused while shutdown is ASSERTED. -/
theorem State.reqBoxOutputClose_noClose (ha : s.shutdown.asserted = true) : NoClose s s.reqBoxOutputClose.1 := by
  unfold State.reqBoxOutputClose
  rw [if_pos ha]
  exact .tested (.refl s) (.refl s)

theorem reqBoxOutput_noClose (ha : s.shutdown.asserted = true) (b : Byte) : NoClose s (reqBoxOutput b s).1 :=
  .tested s.openRequest_noClose (.tested (State.reqBoxOutputClose_noClose ha) (.refl s))

theorem State.reqCellRestore_noClose : NoClose s s.reqCellRestore.1 :=
  .tested (.refl s) (.tested (.refl s) (.tested (.refl s) s.restoreCell_noClose))

theorem State.reqModeSetup_noClose : NoClose s s.reqModeSetup.1 := by
  unfold State.reqModeSetup
  split
  · exact .refl s
  · exact .tested (.refl s) (.setMode s _)

theorem State.reqModeRun_noClose : NoClose s s.reqModeRun.1 := by
  unfold State.reqModeRun
  split
  · exact .refl s
  · exact (NoClose.setMode s _).trans (.updAll _ StringRec.enterRun_closing)

theorem reqMode_noClose (b : Byte) : NoClose s (reqMode b s).1 :=
  .tested State.reqModeSetup_noClose (.tested State.reqModeRun_noClose (.refl s))

theorem State.reqStringConfig_noClose (m : StringConfigMsg) : NoClose s (s.reqStringConfig m).1 := by
  unfold State.reqStringConfig
  refine .tested (.refl s) ?_
  split
  · exact .tested (.refl s) (.tested (.refl s) (.tested (.refl s) (.tested (.refl s) (s.configureString_noClose _ _))))
  · exact .refl s

theorem State.reqGroupConfig_noClose (m : GroupConfigMsg) : NoClose s (s.reqGroupConfig m).1 := by
  unfold State.reqGroupConfig
  refine .tested (.refl s) ?_
  split
  · exact (NoClose.setPeer s _).trans (.setStore _ _)
  · exact .refl s

theorem State.reqBoxConfig_noClose (m : BoxConfigMsg) : NoClose s (s.reqBoxConfig m).1 := by
  unfold State.reqBoxConfig
  refine .tested (.refl s) ?_
  split
  · exact .refl s
  · exact s.configureBox_noClose _

theorem State.reqLinkConfig_noClose (rate address : Byte) : NoClose s (s.reqLinkConfig rate address).1 := by
  unfold State.reqLinkConfig
  refine .tested (.refl s) ?_
  split
  · exact (NoClose.setLink s _).trans (.setStore _ _)
  · exact .refl s

theorem State.reqStore_noClose : NoClose s s.reqStore.1 :=
  .tested (.refl s) (.tested (.refl s) ((NoClose.setStore s _).trans (.setStore _ _)))

theorem State.reqRestart_noClose (b : Byte) : NoClose s (s.reqRestart b).1 :=
  .tested (.refl s) (.tested (.refl s) (.setLink s _))

/-! ## Requests that come byte by byte (R168, R191) -/

theorem emptyForm_noClose {handle : State → Answer} (h : NoClose s (handle s).1) (p : List Byte) :
    NoClose s (emptyForm p handle s).1 := by
  unfold emptyForm
  split
  · exact h
  · exact .refl s

theorem byteForm_noClose {handle : Byte → State → Answer} (h : ∀ b, NoClose s (handle b s).1) (p : List Byte) :
    NoClose s (byteForm p handle s).1 := by
  unfold byteForm
  split
  · exact h _
  · exact .refl s

theorem pairForm_noClose {handle : Byte → Byte → State → Answer} (h : ∀ a b, NoClose s (handle a b s).1) (p : List Byte) :
    NoClose s (pairForm p handle s).1 := by
  unfold pairForm
  split
  · exact h _ _
  · exact .refl s

theorem configReadForm_noClose (p : List Byte) : NoClose s (configReadForm p s).1 := by
  unfold configReadForm
  split
  · exact State.reqConfigRead_noClose _ _
  · exact State.reqConfigRead_noClose _ _
  · exact .refl s

theorem stringConfigForm_noClose (p : List Byte) : NoClose s (stringConfigForm p s).1 := by
  unfold stringConfigForm
  split
  · exact State.reqStringConfig_noClose _
  · exact .refl s

theorem groupConfigForm_noClose (p : List Byte) : NoClose s (groupConfigForm p s).1 := by
  unfold groupConfigForm
  split
  · exact State.reqGroupConfig_noClose _
  · exact .refl s

theorem Kind.dispatch_noClose (ha : s.shutdown.asserted = true) (k : Kind) (p : List Byte) :
    NoClose s (k.dispatch p s).1 := by
  cases k with
  | identify => exact emptyForm_noClose (.refl s) p
  | boxStatus => exact emptyForm_noClose (.refl s) p
  | stringRead => exact pairForm_noClose (fun _ _ => .tested (.refl s) (.refl s)) p
  | groupRead => exact emptyForm_noClose (.refl s) p
  | queueRead => exact byteForm_noClose (fun _ => .tested (.refl s) (.refl s)) p
  | probeListRead => exact emptyForm_noClose (.refl s) p
  | attentionRead => exact emptyForm_noClose (.refl s) p
  | configRead => exact configReadForm_noClose p
  | attentionClear => exact .tested (s.clearAttention_noClose p) (.refl s)
  | heartbeat => exact pairForm_noClose (fun _ _ => s.heartbeat_noClose _) p
  | temperature => exact pairForm_noClose State.reqTemperature_noClose p
  | isolate => exact byteForm_noClose State.reqIsolate_noClose p
  | reconnect => exact byteForm_noClose State.reqReconnect_noClose p
  | probe => exact byteForm_noClose State.reqProbe_noClose p
  | release => exact byteForm_noClose State.reqRelease_noClose p
  | restore => exact emptyForm_noClose State.reqRestore_noClose p
  | boxOutput => exact byteForm_noClose (reqBoxOutput_noClose ha) p
  | cellRestore => exact emptyForm_noClose State.reqCellRestore_noClose p
  | mode => exact byteForm_noClose reqMode_noClose p
  | stringConfig => exact stringConfigForm_noClose p
  | groupConfig => exact groupConfigForm_noClose p
  | boxConfig => exact .tested (State.reqBoxConfig_noClose _) (.refl s)
  | linkConfig => exact pairForm_noClose State.reqLinkConfig_noClose p
  | store => exact emptyForm_noClose State.reqStore_noClose p
  | restart => exact byteForm_noClose State.reqRestart_noClose p

theorem State.answer_noClose (kind : Byte) {handle : State → Answer} (h : NoClose s (handle s).1) :
    NoClose s (s.answer kind handle) := .ite (h.trans (.setLink _ _)) (.refl s)

theorem dispatch_noClose (ha : s.shutdown.asserted = true) (kind : Byte) (p : List Byte) :
    NoClose s (dispatch kind p s).1 := by
  unfold dispatch
  split
  · exact .refl s
  · exact Kind.dispatch_noClose ha _ p

theorem State.lineByte_noClose (ha : s.shutdown.asserted = true) (b : Byte) (stop : Bool) :
    NoClose s (s.lineByte b stop) := by
  have link (x : LinkPort) : NoClose s (s.setLink x) := .setLink s x
  have checked (frame : List Byte) : NoClose s (s.frameCheck frame) :=
    .ite (link _) (.ite (link _) (State.answer_noClose _ (dispatch_noClose ha _ _)))
  unfold State.lineByte
  refine .ite ?_ (.refl s)
  split
  · exact .refl s
  · exact .ite (.refl s) (.ite (link _) (.ite (link _) (.refl s)))
  · exact .ite (link _) (.ite (link _) (.ite (checked _) (link _)))
  · exact .ite (link _) (link _)
  · exact .refl s

theorem State.gapExpired_noClose : NoClose s s.gapExpired := by
  unfold State.gapExpired
  split
  · exact .setLink s _
  · exact .setLink s _
  all_goals exact .refl s

theorem State.replySent_noClose : NoClose s s.replySent := by
  unfold State.replySent
  split
  · exact .ite (s.drop_noClose _) (.setLink s _)
  all_goals exact .refl s

/-! ## Every command -/

/-- R100: while shutdown is ASSERTED no command starts a close. -/
theorem exec_noClose {c : Instr} {t : State} (ha : s.shutdown.asserted = true) (h : exec c s = .next t) : NoClose s t := by
  cases c with
  | identify => cases h; exact State.answer_noClose _ (.refl s)
  | boxStatus => cases h; exact State.answer_noClose _ (.refl s)
  | stringRead first count => cases h; exact State.answer_noClose _ (.tested (.refl s) (.refl s))
  | groupRead => cases h; exact State.answer_noClose _ (.refl s)
  | queueRead first => cases h; exact State.answer_noClose _ (.tested (.refl s) (.refl s))
  | probeListRead => cases h; exact State.answer_noClose _ (.refl s)
  | attentionRead => cases h; exact State.answer_noClose _ (.refl s)
  | configRead target number => cases h; exact State.answer_noClose _ (State.reqConfigRead_noClose _ _)
  | attentionClear mask => cases h; exact State.answer_noClose _ (.tested (s.clearAttention_noClose _) (.refl s))
  | heartbeat token => cases h; exact State.answer_noClose _ (s.heartbeat_noClose token)
  | temperature group value => cases h; exact State.answer_noClose _ (State.reqTemperature_noClose _ _)
  | isolate string => cases h; exact State.answer_noClose _ (State.reqIsolate_noClose _)
  | reconnect string => cases h; exact State.answer_noClose _ (State.reqReconnect_noClose _)
  | probe string => cases h; exact State.answer_noClose _ (State.reqProbe_noClose _)
  | release string => cases h; exact State.answer_noClose _ (State.reqRelease_noClose _)
  | restore => cases h; exact State.answer_noClose _ State.reqRestore_noClose
  | boxOutputOpen => cases h; exact State.answer_noClose _ s.openRequest_noClose
  | boxOutputClose => cases h; exact State.answer_noClose _ (State.reqBoxOutputClose_noClose ha)
  | cellRestore => cases h; exact State.answer_noClose _ State.reqCellRestore_noClose
  | modeSetup => cases h; exact State.answer_noClose _ State.reqModeSetup_noClose
  | modeRun => cases h; exact State.answer_noClose _ State.reqModeRun_noClose
  | stringConfig m => cases h; exact State.answer_noClose _ (State.reqStringConfig_noClose _)
  | groupConfig m => cases h; exact State.answer_noClose _ (State.reqGroupConfig_noClose _)
  | boxConfig m => cases h; exact State.answer_noClose _ (State.reqBoxConfig_noClose _)
  | linkConfig rate address => cases h; exact State.answer_noClose _ (State.reqLinkConfig_noClose _ _)
  | store => cases h; exact State.answer_noClose _ State.reqStore_noClose
  | restart address => cases h; exact State.answer_noClose _ (State.reqRestart_noClose _)
  | linkByte byte stop => cases h; exact State.lineByte_noClose ha byte stop
  | linkQuietExpiry => cases h; exact .ite (.setLink s _) (.refl s)
  | linkGapExpiry => cases h; exact State.gapExpired_noClose
  | replyComplete => cases h; exact State.replySent_noClose
  | powerOn => cases h; exact s.drop_noClose _
  | resetLine => cases h; exact .ite (s.drop_noClose _) (.refl s)
  | loadEnd answers => cases h; exact s.loadEnded_noClose answers
  | roundTimerExpiry => cases h; exact .ite s.roundTimer_noClose (.refl s)
  | syncFallingEdge low => cases h; exact .ite s.syncEdge_noClose (.refl s)
  | syncWatchExpiry => cases h; exact .ite s.syncWatch_noClose (.refl s)
  | sampleSet set => cases h; exact s.takeSet_noClose set
  | elapsedSecond => cases h; exact s.secondElapsed_noClose
  | cellHotEnd => cases h; exact s.cellCooled_noClose
  | externalTempStale g => cases h; exact s.extStale_noClose g
  | tapClosedFeedback n => cases h; exact .ite (s.conduct_noClose n) (.refl s)
  | tapAttachTimeout => cases h; exact s.attachExpired_noClose
  | tapReleasedFeedback n => cases h; exact s.tapReleased_noClose n
  | tapDetachTimeout => cases h; exact s.detachExpired_noClose
  | restoreReleaseTimeout => cases h; exact s.releaseExpired_noClose
  | quenchEnd w => cases h; exact s.monitorReads_noClose w
  | quenchTimeout => cases h; exact s.quenchExpired_noClose
  | restingEnd => cases h; exact s.restEnded_noClose
  | contactPositionChange n position => cases h; exact s.contactMoved_noClose n position
  | contactTimeout n => cases h; exact s.contactExpired_noClose n
  | isolatorEndReached feedback => cases h; exact s.isolatorReads_noClose feedback
  | isolatorTimeout => cases h; exact s.isolatorExpired_noClose
  | probeSettleEnd => cases h; exact s.settled_noClose
  | probeReading vp vn => cases h; exact s.reading_noClose vp vn
  | probeReleaseEnd => cases h; exact State.released_noClose ha
  | shutdownAssertion => cases h; exact s.lowTaken_noClose
  | shutdownRelease => cases h; exact s.highTaken_noClose
  | longWindowExpiry => cases h; exact .ite ((NoClose.reach s _).trans (State.lapse_noClose _)) (.refl s)
  | openWindowExpiry => cases h; exact .ite ((NoClose.reach s _).trans (State.lapse_noClose _)) (.refl s)
  | storeWriteEnd readBack => cases h; exact s.verified_noClose readBack
  | supplyLoss => cases h; exact s.supplyLost_noClose
  | shutdownLevelChange low => cases h; exact .setShutdown s _

end

/-- Settles O21: no operation starts a close but a check's pass at the end of its RELEASE and the site's close request, and
both find the shutdown state ASSERTED. -/
theorem noCloseStartsWhileShutdownIsAsserted : Obligations.NoCloseStartsWhileShutdownIsAsserted := by
  unfold Obligations.NoCloseStartsWhileShutdownIsAsserted
  intro s t c ha h
  exact ⟨(exec_noClose ha h).strings, (exec_noClose ha h).isolator⟩

end Sys2Proof.Machine
end

