-- ==== Sys2Proof/Proofs/BoxOutput.lean ====
section
/-! BOX_OUTPUT: the open request by the isolator's state (O31), and the tests of the close request (O32). -/

namespace Sys2Proof.Machine

section
variable {s : State}

/-! ## Naming open (R106, R107) -/

theorem State.boxOutputOpen_answered (h : s.listening = true) {t : State} (ht : s.openRequest = t) :
    exec .boxOutputOpen s = .next (t.sendReply Kind.boxOutput.code
      ⟨.accepted, [codeOfIsolator t.isolator.state, byteOfBool t.isolator.pendingOpen]⟩) := by
  subst ht
  exact congrArg Host.Outcome.next (State.answer_listening h _ _)

/-- A walk leaves an isolator that is OPEN. -/
theorem State.walk_isolator_opened (h : s.isolator.state = .opened) : s.walk.isolator = s.isolator := by
  refine State.walk_keeps (fun t => t.isolator = s.isolator) rfl fun t earlier e ht => ?_
  rcases t.visit_cases earlier e with hv | hv | hv | hv | hv <;> rw [hv]
  · exact (State.offBus_isolator _ _).trans ht
  · exact ht
  · exact ht
  · exact ht
  · rw [State.openOrder_holds (.inr (by rw [ht]; exact h)), ht]

/-- R107: an open request that finds the feedback OPEN ends at once, and its walk leaves the isolator there. -/
theorem State.openRequest_ends (h : s.isolator.state = .closed ∨ s.isolator.state = .failed)
    (hf : s.isolator.feedback = .opened) :
    s.openRequest.isolator = { s.isolator with state := .opened, since := s.part.now } ∧
      Item.box .output ∈ s.openRequest.attention := by
  obtain ⟨x, hx⟩ : ∃ x : Isolator, x = { s.isolator with state := .opened, since := s.part.now } := ⟨_, rfl⟩
  have ho : s.openOrder = (s.setIsolator x).raise (.box .output) := by
    rw [State.openOrder_begins h, if_pos hf, hx]
  have hi : s.openOrder.isolator = x := by rw [ho, State.raise_isolator, State.setIsolator_isolator]
  have hs : s.openOrder.isolator.state = .opened := by rw [hi, hx]
  have hm : Item.box .output ∈ s.openOrder.attention := by rw [ho]; exact State.mem_raise_self _ _
  rw [State.openRequest_reached ⟨hs, by rcases h with h | h <;> rw [h] <;> decide⟩, ← hx]
  exact ⟨(State.walk_isolator_opened hs).trans hi, State.walk_grows _ _ hm⟩

/-! ## Naming close (R108) -/

theorem State.boxOutputClose_answered (h : s.listening = true) : exec .boxOutputClose s =
    .next (s.reqBoxOutputClose.1.sendReply Kind.boxOutput.code s.reqBoxOutputClose.2) :=
  congrArg Host.Outcome.next (State.answer_listening h _ _)

/-- R108: a BREAK_FAILED string or a FAILED isolator bars a close. -/
def State.BarsClose (s : State) : Prop := (∃ r ∈ s.strings, r.state = .breakFailed) ∨ s.isolator.state = .failed

theorem State.barsClose_iff :
    (s.strings.any (fun r => r.state == .breakFailed) = true ∨ s.isolator.state = .failed) ↔ s.BarsClose := by
  simp [State.BarsClose]

/-- R108: a close that finds the feedback short of its end is under way. -/
theorem State.closeRequest_starts (h : s.isolator.state = .opened) (hf : s.isolator.feedback ≠ .closed) : s.closeRequest =
    (s.setIsolator { s.isolator with state := .closing, since := s.part.now }).raise (.box .output) := by
  unfold State.closeRequest
  rw [if_pos h]
  unfold State.startClosing
  simp only [State.raiseBox_eq, State.raise_isolator]
  exact if_neg hf

section
variable (h1 : s.isolator.state ≠ .opening) (h2 : s.isolator.state ≠ .closing)
include h1 h2

theorem State.reqBoxOutputClose_asserted (ha : s.shutdown.asserted = true) : s.reqBoxOutputClose = refuse s .shutdown := by
  unfold State.reqBoxOutputClose
  rw [if_neg (not_or.2 ⟨h1, h2⟩), if_pos ha]

theorem State.reqBoxOutputClose_unsupervised (ha : s.shutdown.asserted = false) (hv : s.supervision.state ≠ .supervised) :
    s.reqBoxOutputClose = refuse s .unsupervised := by
  unfold State.reqBoxOutputClose
  rw [if_neg (not_or.2 ⟨h1, h2⟩), if_neg (by simp [ha]), if_pos (by simp [State.supervised, hv])]

/-- R108: past the tests of the operation, the shutdown state and supervision. -/
theorem State.reqBoxOutputClose_supervised (ha : s.shutdown.asserted = false) (hv : s.supervision.state = .supervised) :
    (s.BarsClose → s.reqBoxOutputClose = refuse s .state) ∧
      (¬s.BarsClose → s.reqBoxOutputClose = accept s.closeRequest s.closeRequest.isolatorBytes) := by
  unfold State.reqBoxOutputClose
  rw [if_neg (not_or.2 ⟨h1, h2⟩), if_neg (by simp [ha]), if_neg (by simp [State.supervised, hv])]
  exact ⟨fun hb => if_pos (State.barsClose_iff.2 hb), fun hb => if_neg (mt State.barsClose_iff.1 hb)⟩

end

end

/-- Settles O31: the open request is followed by the isolator's state, and the reply reads the isolator it leaves. -/
theorem openRequestActsByTheIsolatorsState : Obligations.OpenRequestActsByTheIsolatorsState := by
  unfold Obligations.OpenRequestActsByTheIsolatorsState
  intro s hl answered flag
  have reply (t : State) (ht : s.openRequest = t) :
      answered t (codeOfIsolator t.isolator.state) (byteOfBool t.isolator.pendingOpen) := State.boxOutputOpen_answered hl ht
  refine ⟨fun h => ?_, fun h => ?_, fun h => ?_, fun h hf => ?_, fun h hf => ⟨s.openRequest, ?_, ?_, ?_⟩⟩
  · have r := reply s (by rw [State.openRequest_eq (.inr (.inl h)), State.openOrder_holds (.inl h)])
    rwa [h] at r
  · have r := reply s (by rw [State.openRequest_eq (.inr (.inr (.inl h))), State.openOrder_holds (.inr h)])
    rwa [h] at r
  · have r := reply _ ((State.openRequest_eq (.inr (.inr (.inr h)))).trans (State.openOrder_pends h))
    rwa [State.setIsolator_isolator, h] at r
  · have r := reply _ ((State.openRequest_eq (.inl hf)).trans (State.openOrder_starts h hf))
    rwa [State.raiseBox_eq, State.raise_isolator, State.setIsolator_isolator] at r
  · have r := reply s.openRequest rfl
    rwa [(State.openRequest_ends h hf).1] at r
  · rw [(State.openRequest_ends h hf).1]
  · exact (State.openRequest_ends h hf).2

/-- Settles O32: each refusal is read off its test, and an accepted close off the isolator's state. -/
theorem closeRequestIsTestedInOrder : Obligations.CloseRequestIsTestedInOrder := by
  unfold Obligations.CloseRequestIsTestedInOrder
  intro s hl iso failed refused flag
  have answered {t : State} {r : Reply} (h : s.reqBoxOutputClose = (t, r)) :
      exec .boxOutputClose s = .next (t.sendReply Kind.boxOutput.code r) := by
    rw [State.boxOutputClose_answered hl, h]
  refine ⟨fun h => answered (if_pos h), fun h1 h2 ha => answered (State.reqBoxOutputClose_asserted h1 h2 ha),
    fun h1 h2 ha hv => answered (State.reqBoxOutputClose_unsupervised h1 h2 ha hv), fun h1 h2 ha hv => ?_⟩
  obtain ⟨barred, passed⟩ := State.reqBoxOutputClose_supervised h1 h2 ha hv
  refine ⟨fun hb => answered (barred hb), fun hb hs => ?_, fun hb hs hf => ?_⟩
  · have hc : s.closeRequest = s := if_neg (by rw [show s.isolator.state = .closed from hs]; decide)
    have r := answered (passed hb)
    rwa [hc, State.isolatorBytes, show s.isolator.state = .closed from hs] at r
  · have r := answered (passed hb)
    rwa [State.closeRequest_starts hs hf, State.isolatorBytes, State.raise_isolator, State.setIsolator_isolator] at r

end Sys2Proof.Machine
end

