-- ==== Sys2Proof/Proofs/SupervisionLapse.lean ====
section
/-! The expiry of a supervision window (O10). -/

namespace Sys2Proof.Machine

section
variable {s : State}

/-! ## The lapse (R113, R159, R160) -/

/-- R113: what becomes of the probe or check in flight when every PRE_CLOSE entry is withdrawn. -/
theorem State.withdrawAllPreClose_flight (s : State) : s.withdrawAllPreClose.probe.flight =
    s.probe.flight.map fun f => if f.purpose = .preClose then f.abort s.part.now else f := by
  unfold State.withdrawAllPreClose
  cases hf : s.probe.flight with
  | none => exact hf
  | some f =>
    by_cases hp : f.purpose = .preClose
    · simp [hp, State.abortProbe, hf]
    · simp [hp, hf]

theorem State.withdrawAllPreClose_eq (s : State) : s.withdrawAllPreClose = s.setProbe s.withdrawAllPreClose.probe := by
  unfold State.withdrawAllPreClose
  simp only
  split
  · split <;> rfl
  · rfl

theorem State.lapse_flight (s : State) : s.lapse.probe.flight =
    s.probe.flight.map fun f => if f.purpose = .preClose then f.abort s.part.now else f := by
  rw [State.lapse, State.withdrawAllPreClose_flight]
  simp

/-- R159, R160: a lapse replaces the supervision state, the attention set and the probe unit, and no other block. -/
theorem State.lapse_eq (s : State) : s.lapse =
    { s with supervision := { s.supervision with state := .lapsed }, attention := s.lapse.attention, probe := s.lapse.probe } := by
  obtain ⟨x, hx⟩ := (s.setSupervision { s.supervision with state := .lapsed }).raise_exists (.box .supervisionLapsed)
  have h : s.lapse = ((s.setSupervision { s.supervision with state := .lapsed }).setAttention x).setProbe s.lapse.probe := by
    conv_lhs => rw [State.lapse, State.withdrawAllPreClose_eq, ← State.lapse, State.raiseBox_eq, hx]
  have ha : s.lapse.attention = x := congrArg State.attention h
  rw [ha]
  exact h

/-! ## The windows (R156, R158) -/

theorem State.longExpired_lapses (hp : s.powered = true) (hs : s.supervision.state = .waiting) :
    s.longExpired = (s.reach s.longDue).lapse := if_pos ⟨hp, hs⟩

theorem State.openExpired_lapses (hp : s.powered = true) (hs : s.supervision.state = .supervised) :
    s.openExpired = (s.reach s.openDue).lapse := if_pos ⟨hp, hs⟩

end

/-- Settles O10: either window's expiry is the lapse at the window's end, and each part of it is the lapse's. -/
theorem windowExpiryLapsesSupervision : Obligations.WindowExpiryLapsesSupervision := by
  unfold Obligations.WindowExpiryLapsesSupervision
  intro s c due hp hc
  have hexec : exec c s = .next (s.reach due).lapse := by
    rcases hc with ⟨rfl, hs, rfl⟩ | ⟨rfl, hs, rfl⟩
    · exact congrArg Host.Outcome.next (State.longExpired_lapses hp hs)
    · exact congrArg Host.Outcome.next (State.openExpired_lapses hp hs)
  have hflight := (s.reach due).lapse_flight
  refine ⟨_, hexec, (s.reach due).lapse_eq, (s.reach due).mem_lapse, (s.reach due).lapse_list, fun f hf hd => ?_,
    fun f hf hd => ?_, fun hf => ?_⟩
  · rw [hflight, show (s.reach due).probe.flight = some f from hf, Option.map_some, hd]
    rfl
  · obtain ⟨hstage, hpass, -, -⟩ := f.abort_stage (s.reach due).part.now
    refine ⟨_, ?_, hstage, hpass⟩
    rw [hflight, show (s.reach due).probe.flight = some f from hf, Option.map_some, if_pos hd]
  · rw [hflight, show (s.reach due).probe.flight = none from hf]
    rfl

end Sys2Proof.Machine
end

