-- ==== Sys2Proof/Proofs/Queries.lean ====
section
/-! The eight queries: their answers, and the lengths of their payloads (O22). -/

namespace Sys2Proof.Machine

/-! ## Lists of records -/

theorem length_flatMap_of_length {α β : Type} {f : α → List β} {k : Nat} (h : ∀ x, (f x).length = k) (l : List α) :
    (l.flatMap f).length = k * l.length := by
  simp [List.length_flatMap, h, Nat.mul_comm]

theorem length_flatten_mapNum {α β : Type} {f : Nat → α → List β} {k : Nat} (h : ∀ n x, (f n x).length = k) (n : Nat)
    (l : List α) : (mapNum f n l).flatten.length = k * l.length := by
  induction l generalizing n with
  | nil => rfl
  | cons x xs ih => rw [mapNum, List.flatten_cons, List.length_append, h, ih, List.length_cons, Nat.mul_succ, Nat.add_comm]

theorem getNum_isNone_iff {α : Type} (l : List α) (n : Nat) : getNum l n = none ↔ ¬(1 ≤ n ∧ n ≤ l.length) := by
  cases n with
  | zero => simp
  | succ n =>
    rw [getNum_eq, List.getElem?_eq_none_iff]
    omega

theorem numbersFrom_length (first count : Nat) : (numbersFrom first count).length = count := by
  induction count generalizing first with
  | zero => rfl
  | succ k ih => rw [numbersFrom, List.length_cons, ih]

/-! ## The lengths of the records (12.4) -/

theorem bytes16_length (w : Word16) : (bytes16 w).length = 2 := rfl

theorem bytes16Of_length (n : Nat) : (bytes16Of n).length = 2 := rfl

theorem bytes32_length (w : Word32) : (bytes32 w).length = 4 := rfl

theorem tempBytes_length (t : Option Int) : (tempBytes t).length = 3 := by cases t <;> rfl

theorem extBytes_length (t : ExtTemp) : (extBytes t).length = 4 := by cases t <;> rfl

theorem GroupRec.bytes_length (g : Nat) (r : GroupRec) : (r.bytes g).length = 15 := rfl

theorem QueueEntry.bytes_length (e : QueueEntry) : e.bytes.length = 11 := rfl

theorem ProbeEntry.bytes_length (e : ProbeEntry) : e.bytes.length = 5 := rfl

theorem boxConfigBytes_length (b : BoxSettings) : (boxConfigBytes b).length = 37 := by
  delta boxConfigBytes
  simp only [bytes16Of_length, List.length_append, List.length_cons, List.length_nil]

theorem cellFaultBytes_length (f : Option CellFault) : (cellFaultBytes f).length = 9 := by cases f <;> rfl

theorem flightBytes_length (f : Option ProbeFlight) : (flightBytes f).length = 4 := by cases f <;> rfl

section
variable {s : State}

theorem State.statusBytes_length (ht : s.scan.temps.length = 4) (he : s.scan.ext.length = 6) : s.statusBytes.length = 64 := by
  simp only [State.statusBytes, bytes16Of_length, bytes16_length, bytes32_length, List.length_append, List.length_cons,
    List.length_nil, length_flatMap_of_length tempBytes_length, length_flatMap_of_length extBytes_length, ht, he]

theorem State.queueBytes_length {first : Nat} (h : 1 ≤ first) :
    (s.queueBytes first).length = 14 + 11 * min 12 (s.sched.queue.length + 1 - first) := by
  simp only [State.queueBytes, bytes16Of_length, List.length_append, List.length_cons, List.length_nil, cellFaultBytes_length,
    length_flatMap_of_length QueueEntry.bytes_length, List.length_take, List.length_drop]
  rw [show s.sched.queue.length - (first - 1) = s.sched.queue.length + 1 - first by omega]

theorem State.probeListBytes_length : s.probeListBytes.length = 1 + 5 * s.probe.list.length + 4 := by
  simp only [State.probeListBytes, List.length_append, List.length_singleton, flightBytes_length,
    length_flatMap_of_length ProbeEntry.bytes_length]

theorem State.attentionBytes_length : s.attentionBytes.length = 26 := by
  rw [State.attentionBytes, List.length_append, List.length_map]
  rfl

/-! ## The lockout set on the line (R174) -/

theorem State.lockoutBytes_length :
    s.lockoutBytes.length = 1 + 4 * (Config.stringNumbers.filter fun n => s.locked n).length := by
  have hfound : (Config.stringNumbers.filterMap fun n => s.lockouts.find? fun l => l.string == n).length =
      (Config.stringNumbers.filter fun n => s.locked n).length := by
    rw [List.length_filterMap_eq_countP, List.countP_eq_length_filter]
    simp only [List.isSome_find?, State.locked]
  rw [← hfound]
  simp only [State.lockoutBytes, List.length_append (as := [_]), List.length_singleton]
  rw [length_flatMap_of_length (k := 4) fun l => rfl]

/-- R17: with one record per string, as many strings are locked as there are records. -/
theorem State.locked_count (hd : LockoutsDistinct s) (hr : ∀ l ∈ s.lockouts, stringNumber l.string = true) :
    (Config.stringNumbers.filter fun n => s.locked n).length = s.lockouts.length := by
  have hperm : (Config.stringNumbers.filter fun n => s.locked n).Perm (s.lockouts.map (·.string)) := by
    refine (List.perm_ext_iff_of_nodup ((show Config.stringNumbers.Nodup by decide).filter _) hd).2 fun n => ?_
    rw [List.mem_filter, List.mem_map, s.locked_iff]
    refine and_iff_right_of_imp fun ⟨l, hl, hn⟩ => (mem_stringNumbers n).2 ((stringNumber_iff n).1 (hn ▸ hr l hl))
  simpa using hperm.length_eq

/-! ## The answers (R172 to R174) -/

theorem State.query_answered (h : s.listening = true) {c : Instr} {kind : Byte} {handle : State → Answer}
    (hc : exec c s = .next (s.answer kind handle)) {r : Reply} (hr : handle s = (s, r)) :
    exec c s = .next (s.sendReply kind r) := by
  rw [hc, State.answer_listening h, hr]

/-- A byte is the byte of its number. -/
theorem byte_eq_ofNat {b : Byte} {k : Nat} (h : b.toNat = k) : b = BitVec.ofNat 8 k := by
  rw [← h, BitVec.ofNat_toNat, BitVec.setWidth_eq]

/-- R191: a number that the target does not take, or none where it takes one. -/
theorem State.reqConfigRead_format {target : Byte} (h : target.toNat ≤ 4) {number : Option Byte}
    (hn : number = none ↔ target.toNat = 2 ∨ target.toNat = 3) : s.reqConfigRead target number = refuse s .format := by
  cases number with
  | none =>
    obtain ht | ht := hn.1 rfl
    all_goals
      obtain rfl := byte_eq_ofNat ht
      rfl
  | some n =>
    have hother : ¬(target.toNat = 2 ∨ target.toNat = 3) := mt hn.2 (by simp)
    obtain ht | ht | ht : target.toNat = 0 ∨ target.toNat = 1 ∨ target.toNat = 4 := by omega
    all_goals
      obtain rfl := byte_eq_ofNat ht
      rfl

theorem State.reqConfigRead_range {target : Byte} (h : 4 < target.toNat) (number : Option Byte) :
    s.reqConfigRead target number = refuse s .range := by
  have ne (k : Nat) (hk : k ≤ 4) : target ≠ BitVec.ofNat 8 k := by
    rintro rfl
    rw [BitVec.toNat_ofNat] at h
    omega
  unfold State.reqConfigRead
  rw [if_neg (ne 0 (by omega)), if_neg (ne 1 (by omega)), if_neg (ne 2 (by omega)),
    if_neg (ne 3 (by omega)), if_neg (ne 4 (by omega))]

theorem State.reqConfigRead_group (hg : s.peer.groups.length = 6) (g : Byte) :
    (1 ≤ g.toNat ∧ g.toNat ≤ 6 → ∃ r : GroupRec, s.reqConfigRead 2#8 (some g) = accept s (groupConfigBytes g.toNat r.cfg)) ∧
      (¬(1 ≤ g.toNat ∧ g.toNat ≤ 6) → s.reqConfigRead 2#8 (some g) = refuse s .range) := by
  have hread : s.reqConfigRead 2#8 (some g) = match s.grp g.toNat with
      | none => refuse s .range
      | some r => accept s (groupConfigBytes g.toNat r.cfg) := rfl
  rw [hread]
  refine ⟨fun h => ?_, fun h => ?_⟩
  · obtain ⟨r, hr⟩ := getNum_some s.peer.groups g.toNat h.1 (by omega)
    exact ⟨r, by rw [State.grp, hr]⟩
  · rw [State.grp, (getNum_isNone_iff _ _).2 (hg ▸ h)]

theorem State.reqConfigRead_string (hs : s.strings.length = 24) (n : Byte) :
    (1 ≤ n.toNat ∧ n.toNat ≤ 24 → ∃ r : StringRec, s.reqConfigRead 3#8 (some n) = accept s (stringConfigBytes n.toNat r.cfg)) ∧
      (¬(1 ≤ n.toNat ∧ n.toNat ≤ 24) → s.reqConfigRead 3#8 (some n) = refuse s .range) := by
  have hread : s.reqConfigRead 3#8 (some n) = match getNum s.strings n.toNat with
      | none => refuse s .range
      | some r => accept s (stringConfigBytes n.toNat r.cfg) := rfl
  rw [hread]
  refine ⟨fun h => ?_, fun h => ?_⟩
  · obtain ⟨r, hr⟩ := getNum_some s.strings n.toNat h.1 (by omega)
    exact ⟨r, by rw [hr]⟩
  · rw [(getNum_isNone_iff _ _).2 (hs ▸ h)]

/-- R173: STRING_READ answers up to four strings, all of them of the table. -/
theorem State.reqStringRead_accepts {first count : Byte} (h : 1 ≤ first.toNat ∧ first.toNat ≤ 24 ∧ 1 ≤ count.toNat ∧
    count.toNat ≤ 4 ∧ first.toNat + count.toNat - 1 ≤ 24) : s.reqStringRead first count =
      accept s ((numbersFrom first.toNat count.toNat).flatMap fun n => (s.str n).bytes n) := if_pos (by omega)

theorem State.reqStringRead_refuses {first count : Byte} (h : ¬(1 ≤ first.toNat ∧ first.toNat ≤ 24 ∧ 1 ≤ count.toNat ∧
    count.toNat ≤ 4 ∧ first.toNat + count.toNat - 1 ≤ 24)) : s.reqStringRead first count = refuse s .range := if_neg (by omega)

end

/-- Settles O22: each query's answer, and the length of the payload that its record gives. -/
theorem queriesChangeOnlyTheReply : Obligations.QueriesChangeOnlyTheReply := by
  unfold Obligations.QueriesChangeOnlyTheReply
  intro s first count target number hl hg ht he hs answers refused
  have accepts {c : Instr} {k : Kind} {handle : State → Answer} {p : List Byte} {n : Nat}
      (hc : exec c s = .next (s.answer k.code handle)) (hp : handle s = accept s p) (hn : p.length = n) : answers c k n :=
    ⟨p, State.query_answered hl hc hp, hn⟩
  have refuses {c : Instr} {k : Kind} {handle : State → Answer} {r : Reason}
      (hc : exec c s = .next (s.answer k.code handle)) (hr : handle s = refuse s r) : refused c k r :=
    State.query_answered hl hc hr
  refine ⟨State.query_answered hl rfl rfl, accepts rfl rfl (State.statusBytes_length ht he), accepts rfl rfl ?_,
    accepts rfl rfl State.probeListBytes_length, accepts rfl rfl State.attentionBytes_length, ?_, ?_, ?_, ?_, ?_, ?_, ?_,
    State.locked_count, fun h hn => refuses rfl (State.reqConfigRead_format h hn),
    fun h => refuses rfl (State.reqConfigRead_range h number)⟩
  · rw [length_flatten_mapNum GroupRec.bytes_length, hg]
  · split
    · next h =>
      refine accepts rfl (State.reqStringRead_accepts h) ?_
      rw [length_flatMap_of_length fun n => StringRec.bytes_length _ n, numbersFrom_length]
    · next h => exact refuses rfl (State.reqStringRead_refuses h)
  · split
    · next h => exact accepts rfl (if_pos h) (State.queueBytes_length h.1)
    · next h => exact refuses rfl (if_neg h)
  · rintro h rfl
    obtain rfl := byte_eq_ofNat h
    exact accepts rfl rfl (boxConfigBytes_length _)
  · rintro h rfl
    obtain rfl := byte_eq_ofNat h
    exact accepts rfl rfl rfl
  · rintro g h rfl
    obtain rfl := byte_eq_ofNat h
    obtain ⟨inside, outside⟩ := State.reqConfigRead_group hg g
    split
    · next h =>
      obtain ⟨r, hr⟩ := inside h
      exact accepts rfl hr rfl
    · next h => exact refuses rfl (outside h)
  · rintro n h rfl
    obtain rfl := byte_eq_ofNat h
    obtain ⟨inside, outside⟩ := State.reqConfigRead_string hs n
    split
    · next h =>
      obtain ⟨r, hr⟩ := inside h
      exact accepts rfl hr rfl
    · next h => exact refuses rfl (outside h)
  · rintro h rfl
    obtain rfl := byte_eq_ofNat h
    exact accepts rfl rfl State.lockoutBytes_length

end Sys2Proof.Machine
end

