-- ==== Sys2Proof/Proofs/ProbeRequests.lean ====
section
/-! PROBE (O28) and RESTORE (O30). -/

namespace Sys2Proof.Machine

section
variable {s : State} {n : Nat}

theorem State.entryOf_none_iff : s.entryOf n = none ↔ ∀ e ∈ s.probe.list, e.string ≠ n := by
  simp [State.entryOf]

theorem State.entryOf_some {e : ProbeEntry} (h : s.entryOf n = some e) : e ∈ s.probe.list ∧ e.string = n :=
  ⟨List.mem_of_find?_eq_some h, by simpa using List.find?_some h⟩

theorem State.holdsEntry_none (h : ∀ e ∈ s.probe.list, e.string ≠ n) : s.holdsEntry n = false := by
  simpa [State.holdsEntry] using h

/-! ## PROBE (R114, R115, R177) -/

/-- R115: with no probe in flight the first eligible entry is started. -/
theorem State.lookForWork_find {e : ProbeEntry} (hf : s.probe.flight = none) (he : s.probe.list.find? s.eligible = some e) :
    s.lookForWork = s.startProbe e := by
  unfold State.lookForWork
  simp only [hf, he]

/-- R112: a placement for a string that holds no entry is the new list and the flight that the look for work leaves. -/
theorem State.place_new (h : ∀ e ∈ s.probe.list, e.string ≠ n) (p : Purpose) (o : Origin) : s.place n p o =
    s.setProbe ⟨s.probe.list ++ [⟨n, p, o, 0, false⟩], (s.enlist n p o).lookForWork.probe.flight⟩ := by
  rw [State.place, if_neg (by simp [State.holdsEntry_none h]), State.lookForWork_eq]
  exact congrArg (fun l => s.setProbe ⟨l, _⟩) (State.lookForWork_list (s.enlist n p o))

theorem State.reqProbe_busy {b : Byte} (hn : stringNumber b.toNat = true)
    (hs : (s.str b.toNat).state = .isolated ∨ (s.str b.toNat).state = .lockedOut) (he : s.holdsEntry b.toNat = true) :
    s.reqProbe b = refuse s .busy := by
  simp only [State.reqProbe, stringOfByte_number hn]
  rw [if_neg (by tauto), if_pos he]

theorem State.reqProbe_accepts {b : Byte} (hn : stringNumber b.toNat = true)
    (hs : (s.str b.toNat).state = .isolated ∨ (s.str b.toNat).state = .lockedOut)
    (he : ∀ e ∈ s.probe.list, e.string ≠ b.toNat) : s.reqProbe b =
      accept (s.place b.toNat .diagnose .controller) [codeOfState (s.str b.toNat).state] := by
  simp only [State.reqProbe, stringOfByte_number hn]
  rw [if_neg (by tauto), if_neg (by simp [State.holdsEntry_none he]), State.stateByte, State.place_str]

end

/-- Settles O28: the tests in their order, and the start by what the look for work finds in the longer list. -/
theorem probePlacesADiagnoseEntry : Obligations.ProbePlacesADiagnoseEntry := by
  unfold Obligations.ProbePlacesADiagnoseEntry
  intro s b hl n st list refused
  have answered {t : State} {r : Reply} (h : s.reqProbe b = (t, r)) :
      exec (.probe b) s = .next (t.sendReply Kind.probe.code r) := by
    refine congrArg Host.Outcome.next ((State.answer_listening hl _ _).trans ?_)
    rw [h]
  refine ⟨fun hn => answered ?_, fun hn => ⟨fun h1 h2 => answered ?_, fun hs he => answered ?_, fun hs he => ?_⟩⟩
  · rw [State.reqProbe, stringOfByte_none hn]
    rfl
  · simp only [State.reqProbe, stringOfByte_number hn]
    exact if_pos ⟨h1, h2⟩
  · exact State.reqProbe_busy hn hs ((s.holdsEntry_iff n).2 he)
  · let u : State := s.enlist n .diagnose .controller
    refine ⟨u.lookForWork.probe.flight, ?_, fun hf => ?_, fun hf hx => ?_, fun hf e hfind => ?_⟩
    · rw [answered (State.reqProbe_accepts hn hs he), State.place_new he]
      rfl
    · rw [State.lookForWork_rests (s := u) (.inl hf)]
      rfl
    · rw [State.lookForWork_rests (s := u) (.inr fun e hm => Bool.eq_false_iff.1 (hx e hm))]
      exact hf
    · rw [State.lookForWork_find (s := u) hf hfind]
      exact ⟨_, rfl, rfl, rfl, rfl, rfl, rfl, rfl, rfl⟩

/-! ## RESTORE (R146, R177) -/

/-- R146: whether RESTORE acts on string `n`. -/
def State.restores (s : State) (n : Nat) : Bool :=
  (s.str n).restorable && s.probe.list.all fun e => e.string != n || (e.purpose == .diagnose && !s.probing n)

/-- R146: the probe list after RESTORE has acted on the strings of a list. -/
def State.restoredList (s : State) (ns : List Nat) : List ProbeEntry :=
  s.probe.list.filter (fun e => !ns.contains e.string) ++ ns.map fun n => ⟨n, .preClose, .controller, 0, false⟩

/-- The state with that list and the same flight. -/
def State.restored (s : State) (ns : List Nat) : State := s.setProbe { s.probe with list := s.restoredList ns }

/-- The strings of the list hold one entry each. -/
def State.EntriesDistinct (s : State) : Prop := (s.probe.list.map (·.string)).Nodup

section
variable {s : State} {n : Nat}

theorem State.restored_nil (s : State) : s.restored [] = s := by
  have h : s.restoredList [] = s.probe.list := by simp [State.restoredList]
  rw [State.restored, h]
  rfl

theorem State.restored_cons {ms : List Nat} (h : n ∉ ms) : (s.restored [n]).restored ms = s.restored (n :: ms) := by
  refine congrArg (fun l => s.setProbe { s.probe with list := l }) ?_
  show List.filter _ (s.restoredList [n]) ++ _ = _
  simp [State.restoredList, List.filter_filter, h, Bool.and_comm]

theorem State.restored_distinct (h : s.EntriesDistinct) : (s.restored [n]).EntriesDistinct := by
  show ((s.restoredList [n]).map (·.string)).Nodup
  rw [State.restoredList, List.map_append, List.nodup_append]
  refine ⟨h.sublist (List.filter_sublist.map _), List.nodup_singleton _, fun a ha b hb => ?_⟩
  obtain ⟨e, he, rfl⟩ := List.mem_map.1 ha
  obtain ⟨-, hne⟩ := List.mem_filter.1 he
  obtain rfl : b = n := by simpa using hb
  simpa using hne

/-- The visit of one string does not bear on whether RESTORE acts on another. -/
theorem State.restores_restored {m : Nat} (h : m ≠ n) : (s.restored [n]).restores m = s.restores m := by
  show ((s.str m).restorable && (s.restoredList [n]).all fun e => e.string != m || (e.purpose == .diagnose && !s.probing m)) = _
  rw [State.restores, Bool.eq_iff_iff]
  simp only [State.restoredList, List.map_cons, List.map_nil, List.all_append, List.all_filter, Bool.and_eq_true, List.all_eq_true]
  refine and_congr_right fun _ => ⟨fun ⟨hl, _⟩ e he => ?_, fun hl => ⟨fun e he => ?_, ?_⟩⟩
  · by_cases hm : e.string = m
    · simpa [hm, h] using hl e he
    · simp [hm]
  · simp [hl e he]
  · simp [Ne.symm h]

/-! ### One visit -/

theorem State.withdraw_enlist (h : s.probing n = false ∨ s.holdsEntry n = false) :
    (s.withdraw n).enlist n .preClose .controller = s.restored [n] := by
  have hw : s.withdraw n = s.setProbe ⟨s.probe.list.filter fun e => e.string != n, s.probe.flight⟩ := by
    rw [State.withdraw_eq, ← State.withdraw_list, ← State.withdraw_flight_kept h]
  rw [hw]
  refine congrArg (fun l => s.setProbe { s.probe with list := l }) ?_
  simp [State.restoredList, bne, beq_eq_decide]

theorem State.withdraw_none (h : s.entryOf n = none) : s.withdraw n = s :=
  if_neg (by simp [State.holdsEntry_none (State.entryOf_none_iff.1 h)])

/-- R146: with no entry for a string, its record alone decides. -/
theorem State.restores_none (h : s.entryOf n = none) : s.restores n = (s.str n).restorable := by
  rw [State.restores, List.all_eq_true.2 fun e he => by simp [State.entryOf_none_iff.1 h e he], Bool.and_true]

/-- R146: a string's one entry decides with its record. -/
theorem State.restores_some (hd : s.EntriesDistinct) {e : ProbeEntry} (h : s.entryOf n = some e) :
    s.restores n = true ↔ (s.str n).restorable = true ∧ e.purpose = .diagnose ∧ s.probing n = false := by
  obtain ⟨he, hn⟩ := State.entryOf_some h
  have only : ∀ x ∈ s.probe.list, x.string = n → x = e := fun x hx hxn =>
    List.inj_on_of_nodup_map hd hx he (hxn.trans hn.symm)
  simp only [State.restores, Bool.and_eq_true, List.all_eq_true]
  refine and_congr_right fun _ => ⟨fun hl => ?_, fun hp x hx => ?_⟩
  · simpa [hn] using hl e he
  · by_cases hxn : x.string = n
    · simp [only x hx hxn, hp]
    · simp [hxn]

/-- R146: one visit acts exactly on a string that RESTORE names. -/
theorem State.restoreOne_eq (hd : s.EntriesDistinct) (n k : Nat) :
    State.restoreOne (s, k) n = if s.restores n then (s.restored [n], k + 1) else (s, k) := by
  unfold State.restoreOne
  simp only
  cases he : s.entryOf n with
  | none =>
    simp only
    rw [State.restores_none he, ← State.withdraw_enlist (.inr (State.holdsEntry_none (State.entryOf_none_iff.1 he))),
      State.withdraw_none he]
  | some e =>
    simp only
    by_cases ha : s.restores n = true
    · obtain ⟨hr, hp⟩ := (State.restores_some hd he).1 ha
      rw [if_pos ha, if_pos hr, if_pos hp, State.withdraw_enlist (.inl hp.2)]
    · rw [if_neg ha]
      have hno := mt (State.restores_some hd he).2 ha
      split
      · next hr => exact if_neg fun hp => hno ⟨hr, hp⟩
      · rfl

/-! ### All visits -/

/-- R146: the visits of distinct strings act on those that RESTORE names before the first of them. -/
theorem State.foldl_restoreOne (hd : s.EntriesDistinct) {l : List Nat} (hl : l.Nodup) (k : Nat) :
    l.foldl State.restoreOne (s, k) = (s.restored (l.filter s.restores), k + (l.filter s.restores).length) := by
  induction l generalizing s k with
  | nil => rw [List.filter_nil, State.restored_nil]; rfl
  | cons n l ih =>
    obtain ⟨hn, hl⟩ := List.nodup_cons.1 hl
    rw [List.foldl_cons, State.restoreOne_eq hd]
    by_cases ha : s.restores n = true
    · have hsame : l.filter (s.restored [n]).restores = l.filter s.restores :=
        List.filter_congr fun m hm => State.restores_restored fun h => hn (h ▸ hm)
      rw [if_pos ha, ih (State.restored_distinct hd) hl, hsame, List.filter_cons_of_pos ha,
        State.restored_cons fun h => hn (List.mem_filter.1 h).1, List.length_cons]
      exact congrArg _ (by omega)
    · rw [if_neg ha, ih hd hl, List.filter_cons_of_neg ha]

end

/-- Settles O30: the tests in their order, then the visits and their one look for work. -/
theorem restorePlacesPreCloseEntries : Obligations.RestorePlacesPreCloseEntries := by
  unfold Obligations.RestorePlacesPreCloseEntries
  intro s hl hd acted list
  have answered {t : State} {r : Reply} (h : s.reqRestore = (t, r)) :
      exec .restore s = .next (t.sendReply Kind.restore.code r) := by
    refine congrArg Host.Outcome.next ((State.answer_listening hl _ _).trans ?_)
    rw [h]
  refine ⟨fun ha => answered (if_pos ha), fun ha hv => answered ?_, fun ha hv => ?_⟩
  · rw [State.reqRestore, if_neg (by simp [ha]), if_pos (s.supervised_iff.2 hv)]
    rfl
  · have hvisits : s.restoreVisits = (s.restored acted, acted.length) := by
      rw [← Nat.zero_add acted.length]
      exact State.foldl_restoreOne hd (by decide) 0
    have hreq : s.reqRestore = accept s.restoreAll.1 [byteOf s.restoreAll.2] := by
      rw [State.reqRestore, if_neg (by simp [ha]), if_neg fun h => s.supervised_iff.1 h hv]
    rw [State.restoreAll, hvisits] at hreq
    refine ⟨fun hx => answered (hreq.trans ?_), fun hx => answered (hreq.trans ?_)⟩
    · rw [hx, State.restored_nil]
      rfl
    · simp only
      rw [if_neg (by simpa using hx)]
      rfl

end Sys2Proof.Machine
end

