-- ==== Sys2Proof/Proofs/ProbeVerdicts.lean ====
section
/-! The expected voltage (O58), and the verdict that the pattern of six near-earth marks gives (O55). -/

namespace Sys2Proof.Machine

/-! ## The voltage test's arithmetic (R119, R121) -/

/-- The rounded quotient of figures that are not negative. -/
theorem roundDiv_of_nonneg {a b : Int} (ha : 0 ≤ a) (hb : 0 < b) : roundDiv a b = (2 * a + b) / (2 * b) := by
  unfold roundDiv
  rw [if_pos (by simp [Int.not_lt.2 ha, Int.not_lt.2 hb.le])]
  push_cast
  rw [abs_of_nonneg ha, abs_of_pos hb]

/-- R121: the temperature term, in units of 0.0001, over the ranges of the temperature and its coefficient. -/
theorem temperatureTerm_range {beta tg : Int} (hb : -60 ≤ beta) (hb0 : beta ≤ 0) (ht : -40 ≤ tg) (ht' : tg ≤ 90) :
    6100 ≤ 10000 + beta * (tg - 25) ∧ 10000 + beta * (tg - 25) ≤ 13900 :=
  ⟨by nlinarith, by nlinarith⟩

/-- R121: the product before the division, over the ranges of the part's strings. -/
theorem voltageProduct_range {modules voc25 : Nat} {k : Int} (hm : 1 ≤ modules) (hv : 100 ≤ voc25)
    (hmv : modules * voc25 ≤ 15000) (hk : 6100 ≤ k) (hk' : k ≤ 13900) :
    610000 ≤ (modules : Int) * voc25 * k ∧ (modules : Int) * voc25 * k ≤ 208500000 := by
  have hlow : (100 : Int) ≤ modules * voc25 := by exact_mod_cast hv.trans (Nat.le_mul_of_pos_left _ hm)
  have hhigh : (modules : Int) * voc25 ≤ 15000 := by exact_mod_cast hmv
  exact ⟨by nlinarith, by nlinarith⟩

/-- Settles O58: the product's range, and the rounding of a positive product. -/
theorem expectedVoltageStaysInItsRange : Obligations.ExpectedVoltageStaysInItsRange := by
  unfold Obligations.ExpectedVoltageStaysInItsRange
  intro modules voc25 beta tg hm hv hmv hb hb0 ht ht' exact
  obtain ⟨hk, hk'⟩ := temperatureTerm_range hb hb0 ht ht'
  obtain ⟨hlow, hhigh⟩ : 610000 ≤ exact ∧ exact ≤ 208500000 := voltageProduct_range hm hv hmv hk hk'
  have hround : expectedVoltage modules voc25 beta tg = (2 * exact + 10000) / (2 * 10000) :=
    roundDiv_of_nonneg (by omega) (by decide)
  rw [hround]
  exact ⟨hk, hk', by omega, by omega, by omega, by omega⟩

/-! ## The pattern (R117) -/

/-- The six marks in the order of the stages, the positive pole's first. -/
def marksPattern (m1 m2 m3 : Bool × Bool) : List Bool := [m1.1, m1.2, m2.1, m2.2, m3.1, m3.2]

theorem marksPattern_eq {m1 m2 m3 : Bool × Bool} {a b c d e f : Bool} (h : marksPattern m1 m2 m3 = [a, b, c, d, e, f]) :
    m1 = (a, b) ∧ m2 = (c, d) ∧ m3 = (e, f) := by
  simpa [marksPattern, Prod.ext_iff, and_assoc] using h

/-- R117: the rows of the pattern table. -/
def consistentPatterns : List (List Bool) :=
  [[false, false, false, true, true, false], [true, true, false, true, true, false],
    [false, true, false, true, false, true], [true, false, true, false, true, false],
    [false, false, false, false, false, false], [true, true, false, false, false, false]]

/-- R118: a pattern outside the table is inconsistent. -/
theorem classify_inconsistent {grouped : Bool} {m1 m2 m3 : Bool × Bool} (h : marksPattern m1 m2 m3 ∉ consistentPatterns) :
    classify grouped m1 m2 m3 = .inconsistent := by
  unfold classify
  split
  iterate 6 exact absurd (by decide) h
  rfl

section
variable {s : State} {f : ProbeFlight} {p1 p2 p3 : Poles}

/-- R117: the class of the three readings taken with a flight's threshold. -/
def ProbeFlight.pattern (f : ProbeFlight) (p1 p2 p3 : Poles) : Pattern :=
  classify f.grouped (p1.marks f.nearEarth) (p2.marks f.nearEarth) (p3.marks f.nearEarth)

theorem State.diagnosed_intact (h : f.pattern p1 p2 p3 = .intact) :
    s.diagnosed f p1 p2 p3 = s.verdictFormed f (voltageTest f.modules f.voc25 f.beta f.tg p1.vpn) := by
  rw [ProbeFlight.pattern] at h
  rw [State.diagnosed, h]

theorem State.diagnosed_earthMid (h : f.pattern p1 p2 p3 = .verdict .earthMid) :
    s.diagnosed f p1 p2 p3 = s.verdictFormed f ⟨.earthMid, none, earthPosition f.modules p1⟩ := by
  rw [ProbeFlight.pattern] at h
  rw [State.diagnosed, h]

theorem State.diagnosed_verdict {v : Verdict} (h : f.pattern p1 p2 p3 = .verdict v) (hv : v ≠ .earthMid) :
    s.diagnosed f p1 p2 p3 = s.verdictFormed f ⟨v, none, none⟩ := by
  rw [ProbeFlight.pattern] at h
  rw [State.diagnosed, h]
  cases v with
  | earthMid => exact absurd rfl hv
  | _ => rfl

theorem State.diagnosed_inconsistent (h : f.pattern p1 p2 p3 = .inconsistent) :
    s.diagnosed f p1 p2 p3 = s.inconsistent f := by
  rw [ProbeFlight.pattern] at h
  rw [State.diagnosed, h]

/-! ## The verdicts (R118, R119, R122) -/

theorem voltageRatio_eq (vpn expected : Int) :
    voltageRatio vpn expected = max 0 (min 2000 (roundDiv (vpn * 1000) expected)) := clampInt_eq (by decide) _

theorem missingModules_eq {modules : Nat} (h : 1 ≤ modules) (q : Int) : missingModules modules q =
    (max 1 (min (modules : Int) (roundDiv ((modules : Int) * (1000 - q)) 1000))).toNat :=
  congrArg Int.toNat (clampInt_eq (by omega) _)

/-- R122: fewer than two modules have no position between them. -/
theorem earthPosition_single {modules : Nat} (h : modules < 2) (p : Poles) : earthPosition modules p = none := if_pos h

theorem earthPosition_eq {modules : Nat} (h : 2 ≤ modules) (p : Poles) : earthPosition modules p =
    some (max 1 (min ((modules : Int) - 1)
      (if p.vp = p.vn then 1 else roundDiv ((modules : Int) * (-p.vn)) (p.vp - p.vn)))).toNat := by
  rw [earthPosition, if_neg (Nat.not_lt.2 h)]
  exact congrArg (fun x : Int => some x.toNat) (clampInt_eq (by omega) _)

theorem State.inconsistent_repeats {e : ProbeEntry} (he : s.entryOf f.string = some e) (ha : e.attempts = 0) :
    s.inconsistent f = (s.setProbe { s.probe with list := s.probe.list.map fun x =>
      if x.string = f.string then { x with attempts := 1 } else x }).setFlight
        (some { f with stage := .p1, sampling := false, p1 := none, p2 := none, since := s.part.now }) := by
  rw [State.inconsistent, he]
  exact if_pos ha

theorem State.inconsistent_unresolved {e : ProbeEntry} (he : s.entryOf f.string = some e) (ha : e.attempts ≠ 0) :
    s.inconsistent f = s.verdictFormed f ⟨.unresolved, none, none⟩ := by
  rw [State.inconsistent, he]
  exact if_neg ha

/-- R117: the reading of P3 ends the probe. -/
theorem State.reading_p3 (hf : s.probe.flight = some f) (hs : f.stage = .p3) (hg : f.sampling = true)
    (h1 : f.p1 = some p1) (h2 : f.p2 = some p2) (vp vn : List Word16) : s.reading vp vn =
      (s.reach (f.since + f.settle + 8)).diagnosed f p1 p2 ⟨poleReading vp, poleReading vn⟩ := by
  unfold State.reading
  simp only [hf, hg, hs, h1, h2]
  rfl

end

/-- Settles O55: the pattern's row of R117, then the figures that the row asks for. -/
theorem probePatternGivesTheVerdict : Obligations.ProbePatternGivesTheVerdict := by
  unfold Obligations.ProbePatternGivesTheVerdict
  intro s f p1 p2 vp vn hf hs hg h1 h2 now near pattern vpn q ended intact openPattern known
  let p3 : Poles := ⟨poleReading vp, poleReading vn⟩
  have hread : exec (.probeReading vp vn) s = .next ((s.reach (f.since + f.settle + 8)).diagnosed f p1 p2 p3) :=
    congrArg Host.Outcome.next (State.reading_p3 hf hs hg h1 h2 vp vn)
  have row {a b c d e g : Bool} (h : pattern = [a, b, c, d, e, g]) :
      f.pattern p1 p2 p3 = classify f.grouped (a, b) (c, d) (e, g) := by
    obtain ⟨hm1, hm2, hm3⟩ := marksPattern_eq (m1 := p1.marks f.nearEarth) (m2 := p2.marks f.nearEarth)
      (m3 := p3.marks f.nearEarth) h
    rw [ProbeFlight.pattern, hm1, hm2, hm3]
  have outside (h : pattern ∉ known) : f.pattern p1 p2 p3 = .inconsistent :=
    classify_inconsistent (m1 := p1.marks f.nearEarth) (m2 := p2.marks f.nearEarth) (m3 := p3.marks f.nearEarth) h
  have tested {v : Verdict} {missing : Option Nat} (h : pattern = intact)
      (hv : voltageTest f.modules f.voc25 f.beta f.tg vpn = ⟨v, missing, none⟩) : ended v missing none := by
    show exec _ _ = _
    rw [hread, State.diagnosed_intact (row h), show p1.vpn = vpn from rfl, hv]
    rfl
  have earthed {position : Option Nat} (h : pattern = [false, false, false, false, false, false])
      (hv : earthPosition f.modules p1 = position) : ended .earthMid none position := by
    show exec _ _ = _
    rw [hread, State.diagnosed_earthMid (row h), hv]
    rfl
  have formed {v : Verdict} (h : f.pattern p1 p2 p3 = .verdict v) (hv : v ≠ .earthMid) : ended v none none := by
    show exec _ _ = _
    rw [hread, State.diagnosed_verdict h hv]
    rfl
  have hq : voltageRatio vpn (expectedVoltage f.modules f.voc25 f.beta f.tg) = q := voltageRatio_eq _ _
  have heq : p1.vp = p1.vn ↔ vpn = 0 := Int.sub_eq_zero.symm
  refine ⟨fun h hv => tested h (if_pos hv), fun h hv hq' hm => tested h ?_, fun h hv hlow hhigh => tested h ?_,
    fun h hv hhigh => tested h ?_, fun h => formed (row h) (by decide), fun h => formed (row h) (by decide),
    fun h hm => earthed h (earthPosition_single hm p1), fun h hm hv => earthed h ?_, fun h hm hv => earthed h ?_,
    fun h => formed (row h) (by decide), fun h hgr => formed ((row h).trans (by rw [hgr]; rfl)) (by decide),
    fun h hgr => formed ((row h).trans (by rw [hgr]; rfl)) (by decide), fun h e he => ⟨fun ha => ?_, fun ha => ?_⟩⟩
  · simp only [voltageTest, hq, if_neg (Int.not_le.2 hv), if_pos hq', missingModules_eq hm]
  · simp only [voltageTest, hq, if_neg (Int.not_le.2 hv), if_neg (Int.not_lt.2 hlow), if_pos hhigh]
  · simp only [voltageTest, hq, if_neg (Int.not_le.2 hv), if_neg (Int.not_lt.2 (show (900 : Int) ≤ q by omega)),
      if_neg (Int.not_le.2 hhigh)]
  · rw [earthPosition_eq hm, if_neg (mt heq.1 hv)]
  · rw [earthPosition_eq hm, if_pos (heq.2 hv)]
    exact congrArg some (by omega)
  · show exec _ _ = _
    rw [hread, State.diagnosed_inconsistent (outside h), State.inconsistent_unresolved (s := s.reach (f.since + f.settle + 8)) he ha]
    rfl
  · rw [hread, State.diagnosed_inconsistent (outside h), State.inconsistent_repeats (s := s.reach (f.since + f.settle + 8)) he ha]
    rfl

end Sys2Proof.Machine
end

