-- ==== Sys2Proof/Proofs/StoreWrites.lean ====
section
/-! STORE and the end of a store write (O39). -/

namespace Sys2Proof.Machine

section
variable {s : State}

/-- A listening part answers a request with what its handler makes of the state. -/
theorem State.request_answered (h : s.listening = true) {c : Instr} {kind : Byte} {handle : State → Answer}
    (hc : exec c s = .next (s.answer kind handle)) {t : State} {r : Reply} (hr : handle s = (t, r)) :
    exec c s = .next (t.sendReply kind r) := by
  rw [hc, State.answer_listening h, hr]

/-! ## STORE (R186) -/

theorem State.reqStore_run (h : s.mode = .run) : s.reqStore = refuse s .mode := if_pos h

theorem State.reqStore_busy (h : s.mode = .setup) (hw : s.store.writing ≠ none) : s.reqStore = refuse s .busy := by
  have hrun : s.mode ≠ .run := h.trans_ne (by decide)
  rw [State.reqStore, if_neg hrun, if_pos (Option.isSome_iff_ne_none.2 hw)]

theorem State.reqStore_accepts (h : s.mode = .setup) (hw : s.store.writing = none) :
    s.reqStore = accept s.storeAll [] := by
  have hrun : s.mode ≠ .run := h.trans_ne (by decide)
  rw [State.reqStore, if_neg hrun, if_neg (by simp [hw])]

/-! ## The end of a write (R135, R136) -/

theorem State.writeEnded_idle (h : s.store.pending = false) :
    s.writeEnded = s.setStore { s.store with writing := none } := if_neg (by simp [h])

/-- R135: the pending write starts with the stored configuration and the lockout set as they stand. -/
theorem State.writeEnded_pending (h : s.store.pending = true) : s.writeEnded = s.setStore { s.store with
    pending := false, writing := some ⟨s.store.stored, s.lockouts⟩, since := s.part.now } := if_pos h

theorem State.raise_setStore (s : State) (i : Item) (x : SettingsStore) :
    (s.raise i).setStore x = (s.setStore x).raise i := by
  unfold State.raise
  exact apply_ite (State.setStore · x) _ _ _

/-- R135: an item raised beside a write's end does not bear on it. -/
theorem State.writeEnded_raise (s : State) (i : Item) : (s.raise i).writeEnded = s.writeEnded.raise i := by
  by_cases h : s.store.pending = true
  · rw [State.writeEnded_pending h, State.writeEnded_pending (by rwa [State.raise_store]), State.raise_setStore,
      State.raise_store, State.raise_lockouts, State.raise_part]
  · rw [State.writeEnded_idle (by simpa using h), State.writeEnded_idle (by simpa using h), State.raise_setStore,
      State.raise_store]

theorem State.verified_idle (h : s.store.writing = none) (readBack : ReadBack) : s.verified readBack = s := by
  unfold State.verified
  rw [h]

/-- The state with the image in the store replaced, as a write's end leaves it. -/
def State.setImage (s : State) (x : Option Image) : State := s.setStore { s.store with image := x }

theorem State.setImage_ended_idle (h : s.store.pending = false) (x : Option Image) :
    (s.setImage x).writeEnded = s.setStore { s.store with image := x, writing := none } :=
  State.writeEnded_idle (s := s.setImage x) h

theorem State.setImage_ended_pending (h : s.store.pending = true) (x : Option Image) :
    (s.setImage x).writeEnded = s.setStore { s.store with
      image := x, pending := false, writing := some ⟨s.store.stored, s.lockouts⟩, since := s.part.now } :=
  State.writeEnded_pending (s := s.setImage x) h

/-- R136: a read-back that shows the image written leaves it in the store. -/
theorem State.verified_verified {w : Image} (h : s.store.writing = some w) :
    s.verified .verified = (s.setImage (some w)).writeEnded := by
  unfold State.verified
  rw [h]
  rfl

/-- R136: another read-back leaves its contents, and STORE_FAULT is raised. -/
theorem State.verified_differs {w : Image} (h : s.store.writing = some w) (contents : Option Image) :
    s.verified (.differs contents) = (s.setImage contents).writeEnded.raise (.box .storeFault) := by
  unfold State.verified
  rw [h]
  exact State.writeEnded_raise _ _

end

/-- Settles O39: the tests of STORE in their order, then a write's end by its read-back and by the pending flag. -/
theorem storeWritesTheWholeImage : Obligations.StoreWritesTheWholeImage := by
  unfold Obligations.StoreWritesTheWholeImage
  intro s w contents
  have ended {readBack : ReadBack} {t : State} (h : s.verified readBack = t) : exec (.storeWriteEnd readBack) s = .next t :=
    congrArg Host.Outcome.next h
  refine ⟨fun hl hm => State.request_answered hl rfl (State.reqStore_run hm),
    fun hl hm hw => State.request_answered hl rfl (State.reqStore_busy hm hw),
    fun hl hm hw => State.request_answered hl rfl (State.reqStore_accepts hm hw), fun hw hp => ⟨ended ?_, ended ?_⟩,
    fun hw hp => ⟨ended ?_, ended ?_⟩, fun hw readBack => ended (State.verified_idle hw readBack)⟩
  · rw [State.verified_verified hw, State.setImage_ended_idle hp]
    rfl
  · rw [State.verified_differs hw, State.setImage_ended_idle hp]
    rfl
  · rw [State.verified_verified hw, State.setImage_ended_pending hp]
    rfl
  · rw [State.verified_differs hw, State.setImage_ended_pending hp]
    rfl

end Sys2Proof.Machine
end

