-- ==== Sys2Proof/Proofs/ReconnectRelease.lean ====
section
/-! RECONNECT (O27) and RELEASE (O29). -/

namespace Sys2Proof.Machine

section
variable {s : State} {n : Nat}

/-! ## RECONNECT (R133) -/

section
variable {b : Byte} (hn : stringNumber b.toNat = true)
include hn

theorem State.reqReconnect_lockedOut (hs : (s.str b.toNat).state = .lockedOut) : s.reqReconnect b = refuse s .locked := by
  simp only [State.reqReconnect, stringOfByte_number hn]
  exact if_pos hs

theorem State.reqReconnect_state (hl : (s.str b.toNat).state ≠ .lockedOut) (hs : (s.str b.toNat).state ≠ .isolated) :
    s.reqReconnect b = refuse s .state := by
  simp only [State.reqReconnect, stringOfByte_number hn]
  rw [if_neg hl, if_pos hs]

/-- R133: for an ISOLATED string the probe list, the shutdown line and supervision are tested in this order. -/
theorem State.reqReconnect_isolated (hs : (s.str b.toNat).state = .isolated) : s.reqReconnect b =
    if s.holdsEntry b.toNat then refuse s .busy
    else if s.shutdown.asserted then refuse s .shutdown
    else if s.supervised = false then refuse s .unsupervised
    else accept (s.place b.toNat .preClose .controller) [codeOfState .isolated] := by
  have hl : (s.str b.toNat).state ≠ .lockedOut := hs.trans_ne (by decide)
  simp only [State.reqReconnect, stringOfByte_number hn]
  rw [if_neg hl, if_neg (not_not.2 hs), State.stateByte, State.place_str, hs]

end

/-! ## RELEASE (R134) -/

/-- R134: a record released from its lockout keeps its cause and loses its verdict. -/
def StringRec.unlocked (r : StringRec) : StringRec := { r with state := .isolated, verdict := none }

/-- R17: the lockout set without a string's record. -/
def State.otherLockouts (s : State) (n : Nat) : List Lockout := s.lockouts.filter fun l => l.string != n

/-- R135: in WRITING the release sets the pending flag. -/
theorem State.releaseLockout_writing {w : Image} (h : s.store.writing = some w) : s.releaseLockout n =
    ({ s with lockouts := s.otherLockouts n, store := { s.store with pending := true } } : State).updStr n
      StringRec.unlocked :=
  if_pos (Option.isSome_iff_exists.2 ⟨w, h⟩)

/-- R135: in IDLE the release starts a write of the lockouts that are left. -/
theorem State.releaseLockout_idle (h : s.store.writing = none) : s.releaseLockout n =
    ({ s with lockouts := s.otherLockouts n, store := { s.store with
      writing := some ⟨s.store.stored, s.otherLockouts n⟩, since := s.part.now } } : State).updStr n StringRec.unlocked :=
  if_neg (ne_true_of_eq_false (Option.isSome_eq_false_iff.2 (Option.isNone_iff_eq_none.2 h)))

theorem State.releaseLockout_state (hl : s.strings.length = 24) (hn : stringNumber n = true) :
    ((s.releaseLockout n).str n).state = .isolated := by
  cases h : s.store.writing with
  | none => rw [State.releaseLockout_idle h]; exact congrArg StringRec.state (State.str_updStr_valid _ hl hn)
  | some w => rw [State.releaseLockout_writing h]; exact congrArg StringRec.state (State.str_updStr_valid _ hl hn)

/-- R134: the tests of RELEASE in their order. -/
theorem State.reqRelease_valid {b : Byte} (hn : stringNumber b.toNat = true) (hl : s.strings.length = 24) : s.reqRelease b =
    if (s.str b.toNat).state ≠ .lockedOut then refuse s .state
    else if s.supervised = false then refuse s .unsupervised
    else accept (s.releaseLockout b.toNat) [codeOfState .isolated] := by
  simp only [State.reqRelease, stringOfByte_number hn, State.stateByte, State.releaseLockout_state hl hn]

end

/-- Settles O27: the tests in their order; what is left is a string without an entry, whose placement looks for work. -/
theorem reconnectIsTestedInOrder : Obligations.ReconnectIsTestedInOrder := by
  unfold Obligations.ReconnectIsTestedInOrder
  intro s b hl n st refused
  have answered {t : State} {r : Reply} (h : s.reqReconnect b = (t, r)) :
      exec (.reconnect b) s = .next (t.sendReply Kind.reconnect.code r) := State.request_answered hl rfl h
  refine ⟨fun hn => answered ?_, fun hn => ⟨fun hs => answered (State.reqReconnect_lockedOut hn hs),
    fun hk hs => answered (State.reqReconnect_state hn hk hs), fun hs he => answered ?_, fun hs he ha => answered ?_,
    fun hs he ha hv => answered ?_, fun hs he ha hv => answered ?_⟩⟩
  · rw [State.reqReconnect, stringOfByte_none hn]
    rfl
  all_goals rw [State.reqReconnect_isolated hn hs]
  · exact if_pos ((s.holdsEntry_iff n).2 he)
  all_goals have hfree : ¬s.holdsEntry n = true := by simp [State.holdsEntry_none he]
  · rw [if_neg hfree, if_pos ha]
    rfl
  · rw [if_neg hfree, if_neg (by simp [ha]), if_pos (s.supervised_iff.2 hv)]
    rfl
  · rw [if_neg hfree, if_neg (by simp [ha]), if_neg fun h => s.supervised_iff.1 h hv, State.place, if_neg hfree]
    rfl

/-- Settles O29: the tests in their order, then the release by what the store is doing. -/
theorem releaseRemovesTheLockout : Obligations.ReleaseRemovesTheLockout := by
  unfold Obligations.ReleaseRemovesTheLockout
  intro s b hl hlen n st left refused
  have answered {t : State} {r : Reply} (h : s.reqRelease b = (t, r)) :
      exec (.release b) s = .next (t.sendReply Kind.release.code r) := State.request_answered hl rfl h
  refine ⟨fun hn => answered ?_, fun hn => ⟨fun hs => answered ?_, fun hs hv => answered ?_, fun hs hv => ?_⟩⟩
  · rw [State.reqRelease, stringOfByte_none hn]
    rfl
  · rw [State.reqRelease_valid hn hlen, if_pos hs]
    rfl
  · rw [State.reqRelease_valid hn hlen, if_neg (not_not.2 hs), if_pos (s.supervised_iff.2 hv)]
    rfl
  · have haccept : s.reqRelease b = accept (s.releaseLockout n) [codeOfState .isolated] := by
      rw [State.reqRelease_valid hn hlen, if_neg (not_not.2 hs), if_neg fun h => s.supervised_iff.1 h hv]
    rw [answered haccept]
    cases h : s.store.writing with
    | none =>
      rw [State.releaseLockout_idle h]
      rfl
    | some w =>
      rw [State.releaseLockout_writing h]
      rfl

end Sys2Proof.Machine
end

