-- ==== Sys2Proof/Proofs/RestartMessage.lean ====
section
/-! RESTART, and the reset that the end of its reply makes (O40). -/

namespace Sys2Proof.Machine

section
variable {s : State} {b : Byte}

/-! ## The request (R187) -/

theorem State.reqRestart_conflict (h : b.toNat ≠ s.link.operating.address) : s.reqRestart b = refuse s .conflict := if_pos h

theorem State.reqRestart_busy (h : b.toNat = s.link.operating.address) (hw : s.store.writing ≠ none) :
    s.reqRestart b = refuse s .busy := by
  rw [State.reqRestart, if_neg (not_not.2 h), if_pos (Option.isSome_iff_ne_none.2 hw)]

theorem State.reqRestart_accepts (h : b.toNat = s.link.operating.address) (hw : s.store.writing = none) :
    s.reqRestart b = accept (s.setLink { s.link with restartOrdered := true }) [] := by
  rw [State.reqRestart, if_neg (not_not.2 h), if_neg (by simp [hw])]

/-! ## The end of the reply (R149, R170) -/

theorem State.replySent_resets (hrx : s.link.rx = .replying) (h : s.link.restartOrdered = true) :
    s.replySent = s.drop .restartMessage := by
  simp only [State.replySent, hrx, h, if_true]

/-- R149: sending a reply leaves an ordered reset standing, so the reply's end makes it. -/
theorem State.replySent_sendReply (h : s.link.restartOrdered = true) (kind : Byte) (r : Reply) :
    (s.sendReply kind r).replySent = (s.sendReply kind r).drop .restartMessage := State.replySent_resets rfl h

end

/-- Settles O40: the refusals in their order; an accepted RESTART leaves its reset to the end of the reply. -/
theorem restartIsAnsweredBeforeItsReset : Obligations.RestartIsAnsweredBeforeItsReset := by
  unfold Obligations.RestartIsAnsweredBeforeItsReset
  intro s b hl
  have answered {t : State} {r : Reply} (h : s.reqRestart b = (t, r)) :
      exec (.restart b) s = .next (t.sendReply Kind.restart.code r) := State.request_answered hl rfl h
  refine ⟨fun ha => answered (State.reqRestart_conflict ha), fun ha hw => answered (State.reqRestart_busy ha hw),
    fun ha hw => ?_⟩
  exact ⟨_, _, answered (State.reqRestart_accepts ha hw), rfl,
    congrArg Host.Outcome.next (State.replySent_sendReply rfl _ _), rfl, rfl, rfl⟩

end Sys2Proof.Machine
end

