-- ==== Sys2Proof/Proofs/AttentionOperations.lean ====
section
/-! SUPPORT. The two invariants of the attention set kept: it holds no item twice (R162), and SUPERVISION_LAPSED stands in it
exactly while supervision is LAPSED (R159). Every operation below raises other items alone, one at a time. -/

namespace Sys2Proof.Machine

/-- From one state to another the attention set's two invariants are kept. -/
structure AttentionKept (s t : State) : Prop where
  distinct : AttentionDistinct s → AttentionDistinct t
  shown : LapseShown s → LapseShown t

section
variable {s t u : State}

/-! ## Composition -/

theorem AttentionKept.refl (s : State) : AttentionKept s s := ⟨id, id⟩

theorem AttentionKept.trans (h : AttentionKept s t) (k : AttentionKept t u) : AttentionKept s u :=
  ⟨k.distinct ∘ h.distinct, k.shown ∘ h.shown⟩

theorem AttentionKept.ite {p : Prop} [Decidable p] (h : AttentionKept s t) (k : AttentionKept s u) :
    AttentionKept s (if p then t else u) := by
  split
  · exact h
  · exact k

theorem AttentionKept.foldl {α : Type} {f : State → α → State} (h : ∀ t x, AttentionKept t (f t x)) (l : List α)
    (s : State) :
    AttentionKept s (l.foldl f s) := by
  induction l generalizing s with
  | nil => exact .refl s
  | cons x xs ih => exact (h s x).trans (ih (f s x))

/-- Writes of other blocks, which leave the attention set and the supervision timer. -/
theorem AttentionKept.writes (h : (t.attention, t.supervision) = (s.attention, s.supervision)) : AttentionKept s t := by
  obtain ⟨ha, hs⟩ := Prod.mk.inj h
  constructor
  · rw [AttentionDistinct, AttentionDistinct, ha]; exact id
  · rw [LapseShown, LapseShown, ha, hs]; exact id

/-- An operation after writes of other blocks. -/
theorem AttentionKept.after (k : AttentionKept t u) (h : (t.attention, t.supervision) = (s.attention, s.supervision)) :
    AttentionKept s u := (AttentionKept.writes h).trans k

theorem AttentionKept.of_within {bs : List Block} (h : Within bs s t)
    (hb : Block.attention ∉ bs ∧ Block.supervision ∉ bs) : AttentionKept s t :=
  .writes (Prod.ext (h .attention hb.1) (h .supervision hb.2))

/-- R162: a raise adds an item that is not present. -/
theorem AttentionKept.raise (s : State) {i : Item} (hi : i ≠ .box .supervisionLapsed) : AttentionKept s (s.raise i) where
  distinct := s.raise_nodup i
  shown := by
    rw [LapseShown, LapseShown, State.raise_supervision, State.mem_raise, or_iff_left hi.symm]
    exact id

theorem AttentionKept.raiseStr (s : State) (k : StringItem) (n : Nat) : AttentionKept s (s.raiseStr k n) := .raise s nofun

theorem AttentionKept.raiseBox (s : State) (k : BoxItem) (hk : k ≠ .supervisionLapsed) : AttentionKept s (s.raiseBox k) :=
  .raise s fun h => hk (Item.box.inj h)

theorem AttentionKept.place (s : State) (n : Nat) (p : Purpose) (o : Origin) : AttentionKept s (s.place n p o) :=
  .of_within (s.place_within n p o) (by decide)

theorem AttentionKept.withdraw (s : State) (n : Nat) : AttentionKept s (s.withdraw n) :=
  .of_within (s.withdraw_within n) (by decide)

theorem AttentionKept.withdrawPreClose (s : State) (n : Nat) : AttentionKept s (s.withdrawPreClose n) :=
  .of_within (s.withdrawPreClose_within n) (by decide)

theorem AttentionKept.lookForWork (s : State) : AttentionKept s s.lookForWork := .of_within s.lookForWork_within (by decide)

theorem AttentionKept.abortKeeping (s : State) : AttentionKept s s.abortKeeping :=
  .of_within s.abortKeeping_within (by decide)

theorem AttentionKept.withdrawAllPreClose (s : State) : AttentionKept s s.withdrawAllPreClose :=
  .of_within s.withdrawAllPreClose_within (by decide)

end

/-! ## Off the bus, and the service walk -/

theorem State.offBus_attentionKept (s : State) (n : Nat) : AttentionKept s (s.offBus n) :=
  .after (.trans (.raiseStr _ .isolated n) (.place _ _ _ _)) rfl

theorem State.openOrder_attentionKept (s : State) : AttentionKept s s.openOrder := by
  rcases s.openOrder_cases with ⟨h, -⟩ | ⟨h, -⟩ | ⟨-, h⟩
  · rw [h]; exact .refl s
  · rw [h]; exact .writes rfl
  · rw [State.openOrder_begins h]; exact .after (.raiseBox _ .output (by decide)) rfl

theorem State.visit_attentionKept (s : State) (earlier : Bool) (e : QueueEntry) : AttentionKept s (s.visit earlier e).1 := by
  rcases s.visit_cases earlier e with h | h | h | h | h <;> rw [h]
  · exact .after (State.offBus_attentionKept _ _) rfl
  · exact .refl s
  · exact .writes rfl
  · exact .writes rfl
  · exact s.openOrder_attentionKept

/-- R78: a service walk. -/
theorem State.walk_attentionKept (s : State) : AttentionKept s s.walk :=
  State.walk_keeps (AttentionKept s) (.refl s) fun t earlier e h => h.trans (t.visit_attentionKept earlier e)

/-- R106: an open request. -/
theorem State.openRequest_attentionKept (s : State) : AttentionKept s s.openRequest := by
  rcases s.openRequest_cases with h | h <;> rw [h]
  · exact s.openOrder_attentionKept
  · exact s.openOrder_attentionKept.trans (State.walk_attentionKept _)

theorem State.escalateWaiting_attentionKept (s : State) : AttentionKept s s.escalateWaiting := by
  rcases s.escalateWaiting_cases with h | h <;> rw [h]
  · exact .refl s
  · exact s.openRequest_attentionKept

/-! ## Requests (R11) -/

theorem State.recurrenceTest_attentionKept (s : State) (n : Nat) (c : ReqCause) : AttentionKept s (s.recurrenceTest n c) :=
  .ite (.writes rfl) (.refl s)

theorem State.raiseEntry_attentionKept (s : State) (e : QueueEntry) (c : ReqCause) : AttentionKept s (s.raiseEntry e c) :=
  .after (State.recurrenceTest_attentionKept _ _ _) rfl

theorem State.merge_attentionKept (s : State) (n : Nat) (c : ReqCause) : AttentionKept s (s.merge n c) := by
  unfold State.merge
  split
  · exact .refl s
  · exact .ite ((s.raiseEntry_attentionKept _ c).trans (State.walk_attentionKept _)) (.refl s)

theorem State.admitEntry_attentionKept (s : State) (n : Nat) (c : ReqCause) : AttentionKept s (s.admitEntry n c) :=
  .after (.trans (.ite (State.raiseEntry_attentionKept _ _ _) (.refl _)) (State.walk_attentionKept _)) rfl

theorem State.queueString_attentionKept (s : State) (n : Nat) (c : ReqCause) : AttentionKept s (s.queueString n c) :=
  .after (.trans (State.recurrenceTest_attentionKept _ n c) (State.admitEntry_attentionKept _ n c)) rfl

/-- R11: an isolation request, by the string's state. -/
theorem State.request_attentionKept (s : State) (n : Nat) (c : ReqCause) : AttentionKept s (s.request n c) := by
  unfold State.request
  split
  · exact s.queueString_attentionKept n c
  · exact s.queueString_attentionKept n c
  · exact s.merge_attentionKept n c
  · exact .refl s
  · exact .ite (.trans (.withdrawPreClose s n) (.writes rfl)) (.refl s)
  · exact .ite (.withdrawPreClose s n) (.ite (.trans (.withdraw s n) (State.queueString_attentionKept _ n c)) (.refl s))
  · exact .writes rfl
  · exact .refl s
  · exact .refl s
  · exact .refl s

theorem State.shutdownCatch_attentionKept (s : State) (n : Nat) : AttentionKept s (s.shutdownCatch n) :=
  .ite (s.request_attentionKept n _) (.refl s)

/-! ## Reaching the bus, and discrepancies (R13 to R15) -/

theorem State.closeConfirmed_attentionKept (s : State) (n : Nat) (origin : Origin) :
    AttentionKept s (s.closeConfirmed n origin) := by
  have closed (f : StringRec → StringRec) : AttentionKept s (((s.connect n).updStr n f).raiseStr .closed n) :=
    .after (.raiseStr _ _ _) rfl
  unfold State.closeConfirmed
  dsimp only
  refine .trans ?_ (State.shutdownCatch_attentionKept _ n)
  split
  · exact closed _
  · exact (closed _).trans (State.request_attentionKept _ n _)

theorem State.closeFailed_attentionKept (s : State) (n : Nat) : AttentionKept s (s.closeFailed n) :=
  .after (.trans (.raiseStr _ .closeFailed n) (.raiseStr _ .contact n)) rfl

theorem State.answered_attentionKept (s : State) (n : Nat) : AttentionKept s (s.answered n) := by
  unfold State.answered
  split
  · exact .trans (.withdraw s n)
      (.after (.trans (.raiseStr _ .contact n) (State.shutdownCatch_attentionKept _ n)) rfl)
  · exact .trans (.raiseStr s .contact n) (State.request_attentionKept _ n _)
  · exact .after (.trans (.raiseStr _ .contact n) (.place _ _ _ _)) rfl
  · exact .after (.trans (.raiseStr _ .contact n) (.place _ _ _ _)) rfl

theorem State.discrepancy_attentionKept (s : State) (n : Nat) : AttentionKept s (s.discrepancy n) := by
  rw [State.discrepancy_eq]
  exact .ite (s.answered_attentionKept n) (.refl s)

end Sys2Proof.Machine
end

