-- ==== Sys2Proof/Proofs/AttentionBlocks.lean ====
section
/-! SUPPORT. The attention set's invariants through the break cell, the contactors, the isolator, the probe unit, the
supervision timer and the shutdown monitor. -/

namespace Sys2Proof.Machine

/-! ## The break cell -/

theorem State.cellIdle_attentionKept (s : State) : AttentionKept s s.cellIdle :=
  .after (State.walk_attentionKept _) rfl

theorem State.cellHot_attentionKept (s : State) : AttentionKept s s.cellHot :=
  .after (.trans (.raiseBox _ .cellHot (by decide)) (State.escalateWaiting_attentionKept _)) rfl

theorem State.cellRested_attentionKept (s : State) : AttentionKept s s.cellRested :=
  .ite s.cellHot_attentionKept s.cellIdle_attentionKept

theorem State.cellCooled_attentionKept (s : State) : AttentionKept s s.cellCooled := .ite s.cellIdle_attentionKept (.refl s)

theorem State.cellFaulted_attentionKept (s : State) (stage : FaultStage) (n : Option Nat) :
    AttentionKept s (s.cellFaulted stage n) := .after (.raiseBox _ _ (by decide)) rfl

theorem State.quenchSucceeded_attentionKept (s : State) (n : Nat) : AttentionKept s (s.quenchSucceeded n) :=
  .after (State.offBus_attentionKept _ n) rfl

theorem State.quenchStart_attentionKept (s : State) (n : Nat) : AttentionKept s (s.quenchStart n) :=
  .ite (.after (State.quenchSucceeded_attentionKept _ n) rfl) (.writes rfl)

theorem State.conduct_attentionKept (s : State) (n : Nat) : AttentionKept s (s.conduct n) :=
  .ite (.after (State.quenchStart_attentionKept _ n) rfl) (.writes rfl)

theorem State.breakStuck_attentionKept (s : State) (n : Nat) : AttentionKept s (s.breakStuck n) := by
  unfold State.breakStuck
  extract_lets hard t
  have h : AttentionKept s t := .after (.raiseStr _ .contact n) rfl
  exact .ite (h.trans (State.openRequest_attentionKept _)) h

theorem State.attachExpired_attentionKept (s : State) : AttentionKept s s.attachExpired := by
  unfold State.attachExpired
  split
  · dsimp only
    split
    · exact .after (State.cellIdle_attentionKept _) rfl
    · exact .after (State.cellIdle_attentionKept _) rfl
  · exact .refl s

theorem State.failedFreed_attentionKept (s : State) (n : Nat) : AttentionKept s (s.failedFreed n) :=
  .ite (.after (.place _ _ _ _) rfl) (.refl s)

theorem State.tapReleased_attentionKept (s : State) (n : Nat) : AttentionKept s (s.tapReleased n) := by
  unfold State.tapReleased
  refine .ite (.refl s) ?_
  split
  case h_1 => exact .writes rfl
  case h_2 => exact .ite (s.cellRested_attentionKept.trans (State.failedFreed_attentionKept _ n)) (.refl s)
  all_goals exact .refl s

theorem State.detachExpired_attentionKept (s : State) : AttentionKept s s.detachExpired := by
  have marked (t : State) (n : Nat) :
      AttentionKept t (t.updStr n fun r => { r with tapFault := true }).escalateWaiting :=
    .after (State.escalateWaiting_attentionKept _) rfl
  unfold State.detachExpired
  split
  · exact .after (.trans (State.cellFaulted_attentionKept _ .detaching _) (marked _ _)) rfl
  · exact .refl s

theorem State.releaseExpired_attentionKept (s : State) : AttentionKept s s.releaseExpired :=
  .ite (.after (.raiseBox _ .cellFault (by decide)) rfl) (.refl s)

theorem State.monitorReads_attentionKept (s : State) (w : Word16) : AttentionKept s (s.monitorReads w) := by
  unfold State.monitorReads
  dsimp only
  split
  · exact .ite (.after (State.quenchSucceeded_attentionKept _ _) rfl) (.writes rfl)
  · exact .writes rfl

theorem State.quenchExpired_attentionKept (s : State) : AttentionKept s s.quenchExpired := by
  have stuck (t : State) (n : Nat) :
      AttentionKept t ((t.endBreak n).updStr n fun r => { r with state := .breakFailed }).openRequest :=
    .after (State.openRequest_attentionKept _) rfl
  unfold State.quenchExpired
  split
  · exact .after (.trans (State.cellFaulted_attentionKept _ .quenching _) (stuck _ _)) rfl
  · exact .refl s

theorem State.restEnded_attentionKept (s : State) : AttentionKept s s.restEnded :=
  .ite (.after (State.cellRested_attentionKept _) rfl) (.refl s)

/-! ## The contactors (R98, R99) -/

theorem State.pulseOpened_attentionKept (s : State) (n : Nat) : AttentionKept s (s.pulseOpened n) :=
  .ite (s.quenchStart_attentionKept n) (.after (State.offBus_attentionKept _ n) rfl)

theorem State.pulseStuck_attentionKept (s : State) (n : Nat) : AttentionKept s (s.pulseStuck n) :=
  .ite (.after (State.breakStuck_attentionKept _ n) rfl) (s.breakStuck_attentionKept n)

theorem State.contactMoved_attentionKept (s : State) (n : Nat) (position : Contact) :
    AttentionKept s (s.contactMoved n position) := by
  unfold State.contactMoved
  dsimp only
  split
  · exact .after (State.pulseOpened_attentionKept _ n) rfl
  · exact .after (State.closeConfirmed_attentionKept _ n _) rfl
  all_goals exact .writes rfl

theorem State.contactExpired_attentionKept (s : State) (n : Nat) : AttentionKept s (s.contactExpired n) := by
  unfold State.contactExpired
  split
  · exact .refl s
  · exact .after (State.pulseStuck_attentionKept _ n) rfl
  · exact .after (State.closeFailed_attentionKept _ n) rfl

/-! ## The box output isolator (R107, R109, R110) -/

/-- The isolator's state written, with OUTPUT raised. -/
theorem AttentionKept.output (s : State) (x : Isolator) : AttentionKept s ((s.setIsolator x).raiseBox .output) :=
  .after (.raiseBox _ _ (by decide)) rfl

theorem State.closeOver_attentionKept (s : State) (x : IsolatorState) : AttentionKept s (s.closeOver x) :=
  .ite ((AttentionKept.output s _).trans (State.openRequest_attentionKept _)) (.output s _)

theorem State.startClosing_attentionKept (s : State) : AttentionKept s s.startClosing :=
  .ite ((AttentionKept.output s _).trans (State.closeOver_attentionKept _ _)) (.output s _)

theorem State.isolatorReads_attentionKept (s : State) (feedback : Travel) : AttentionKept s (s.isolatorReads feedback) := by
  unfold State.isolatorReads
  dsimp only
  split
  · exact .after (.trans (.output _ _) (State.walk_attentionKept _)) rfl
  · exact .after (State.closeOver_attentionKept _ _) rfl
  · exact .writes rfl

theorem State.isolatorExpired_attentionKept (s : State) : AttentionKept s s.isolatorExpired := by
  unfold State.isolatorExpired
  split
  · exact .after (.output _ _) rfl
  · exact .after (State.closeOver_attentionKept _ _) rfl
  all_goals exact .refl s

theorem State.isolatorCompared_attentionKept (s : State) : AttentionKept s s.isolatorCompared := by
  unfold State.isolatorCompared
  split
  · exact .trans (.output s _) (State.walk_attentionKept _)
  · exact .output s _
  · exact .output s _
  · exact .ite ((AttentionKept.output s _).trans (State.openRequest_attentionKept _)) (.output s _)
  · exact .refl s

/-! ## The probe unit -/

theorem State.lockOut_attentionKept (s : State) (n : Nat) (v : Verdict) : AttentionKept s (s.lockOut n v) :=
  .trans (.of_within (s.addLockout_within n v) (by decide)) (.trans (.raiseStr _ .locked n) (.writes rfl))

theorem State.reconnectAuto_attentionKept (s : State) (n : Nat) : AttentionKept s (s.reconnectAuto n) :=
  .ite (.after (.place _ _ _ _) rfl) (.refl s)

theorem State.verdictReported_attentionKept (s : State) (n : Nat) (x : Finding) :
    AttentionKept s (s.verdictReported n x) := by
  unfold State.verdictReported
  extract_lets t
  have h : AttentionKept s t := .after (.raiseStr _ .verdict n) rfl
  exact .ite (h.trans (State.lockOut_attentionKept _ n _)) (.ite (h.trans (State.reconnectAuto_attentionKept _ n)) h)

theorem State.verdictFormed_attentionKept (s : State) (f : ProbeFlight) (x : Finding) :
    AttentionKept s (s.verdictFormed f x) := .after (State.verdictReported_attentionKept _ _ x) rfl

theorem State.inconsistent_attentionKept (s : State) (f : ProbeFlight) : AttentionKept s (s.inconsistent f) := by
  unfold State.inconsistent
  split
  · exact s.verdictFormed_attentionKept f _
  · exact .ite (.writes rfl) (s.verdictFormed_attentionKept f _)

theorem State.diagnosed_attentionKept (s : State) (f : ProbeFlight) (p1 p2 p3 : Poles) :
    AttentionKept s (s.diagnosed f p1 p2 p3) := by
  unfold State.diagnosed
  split
  · exact s.verdictFormed_attentionKept f _
  · exact s.verdictFormed_attentionKept f _
  · exact s.verdictFormed_attentionKept f _
  · exact s.inconsistent_attentionKept f

theorem State.checkFailed_attentionKept (s : State) (n : Nat) : AttentionKept s (s.checkFailed n) := by
  unfold State.checkFailed
  split
  · exact .refl s
  · exact .ite (.writes rfl) (.after (.raiseStr _ .closeFailed n) rfl)

theorem State.checked_attentionKept (s : State) (f : ProbeFlight) (p : Poles) : AttentionKept s (s.checked f p) :=
  .ite (.writes rfl) (.after (State.checkFailed_attentionKept _ _) rfl)

theorem State.settled_attentionKept (s : State) : AttentionKept s s.settled := by
  unfold State.settled
  split
  · exact .refl s
  · exact .ite (.refl s) (.writes rfl)

theorem State.reading_attentionKept (s : State) (vp vn : List Word16) : AttentionKept s (s.reading vp vn) := by
  unfold State.reading
  split
  · exact .refl s
  · next f _ =>
    refine .ite (.refl s) ?_
    dsimp only
    split
    · exact .after (State.checked_attentionKept _ f _) rfl
    · exact .writes rfl
    · exact .writes rfl
    · exact .after (State.diagnosed_attentionKept _ f _ _ _) rfl
    · exact .refl s
    · exact .refl s

theorem State.startClose_attentionKept (s : State) (n : Nat) (origin : Origin) : AttentionKept s (s.startClose n origin) :=
  .ite (.after (State.closeConfirmed_attentionKept _ n origin) rfl) (.writes rfl)

theorem State.closeOrder_attentionKept (s : State) (n : Nat) (origin : Origin) : AttentionKept s (s.closeOrder n origin) :=
  .ite (.writes rfl) (.after (State.startClose_attentionKept _ n origin) rfl)

theorem State.released_attentionKept (s : State) : AttentionKept s s.released := by
  unfold State.released
  split
  · exact .refl s
  · exact .ite (.after (.trans (.ite (State.closeOrder_attentionKept _ _ _) (.refl _)) (.lookForWork _)) rfl) (.refl s)

/-! ## Supervision (R156 to R161, R165) -/

/-- R159: a lapse raises SUPERVISION_LAPSED as it enters LAPSED. -/
theorem State.lapse_attentionKept (s : State) : AttentionKept s s.lapse where
  distinct h := by
    have ha : s.lapse.attention = ((s.setSupervision { s.supervision with state := .lapsed }).raise _).attention :=
      State.withdrawAllPreClose_within _ .attention (by decide)
    rw [AttentionDistinct, ha]
    exact State.raise_nodup _ _ h
  shown _ := by
    rw [LapseShown, State.lapse_supervision]
    exact iff_of_true rfl ((s.mem_lapse _).2 (.inr rfl))

theorem State.longExpired_attentionKept (s : State) : AttentionKept s s.longExpired :=
  .ite (.after (State.lapse_attentionKept _) rfl) (.refl s)

theorem State.openExpired_attentionKept (s : State) : AttentionKept s s.openExpired :=
  .ite (.after (State.lapse_attentionKept _) rfl) (.refl s)

theorem State.recheckWindows_attentionKept (s : State) (old : BoxSettings) : AttentionKept s (s.recheckWindows old) := by
  by_cases h : s.LapsesFrom old
  · rw [State.recheckWindows_lapses h]; exact s.lapse_attentionKept
  · rw [State.recheckWindows_holds h]; exact .refl s

/-- R157, R159: no heartbeat is accepted in LAPSED. -/
theorem State.judgeBeat_lapsed (s : State) (token : Word16) (h : s.supervision.state = .lapsed) :
    s.judgeBeat token = .unsupervised := by
  rw [State.judgeBeat, h]

theorem State.heartbeat_attentionKept (s : State) (token : Word16) : AttentionKept s (s.heartbeat token) := by
  unfold State.heartbeat
  split
  · next ha =>
    have hs : s.supervision.state ≠ .lapsed := fun h => by rw [s.judgeBeat_lapsed token h] at ha; cases ha
    exact ⟨id, fun h => iff_of_false nofun (mt h.2 hs)⟩
  · exact s.lapse_attentionKept
  · exact s.lapse_attentionKept
  · exact .ite (.refl s) s.lapse_attentionKept

/-- R159: whether a clear with this mask ends LAPSED: it removes SUPERVISION_LAPSED. -/
def State.EndsLapse (s : State) (mask : List Byte) : Prop :=
  s.supervision.state = .lapsed ∧ Item.box .supervisionLapsed ∈ s.attention ∧
    maskNames mask (.box .supervisionLapsed) = true

theorem State.clearAttention_ends {s : State} {mask : List Byte} (h : s.EndsLapse mask) : s.clearAttention mask =
    (s.setAttention (s.attention.filter fun i => !maskNames mask i)).setSupervision
      { s.supervision with state := .waiting, token := none, longStart := s.part.now } := if_pos h

theorem State.clearAttention_holds {s : State} {mask : List Byte} (h : ¬s.EndsLapse mask) :
    s.clearAttention mask = s.setAttention (s.attention.filter fun i => !maskNames mask i) := if_neg h

/-- R165: the named items leave, and no other. -/
theorem State.clearAttention_attention (s : State) (mask : List Byte) :
    (s.clearAttention mask).attention = s.attention.filter fun i => !maskNames mask i := by
  by_cases h : s.EndsLapse mask
  · rw [State.clearAttention_ends h]; rfl
  · rw [State.clearAttention_holds h]; rfl

theorem State.mem_clearAttention (s : State) (mask : List Byte) (i : Item) :
    i ∈ (s.clearAttention mask).attention ↔ i ∈ s.attention ∧ maskNames mask i = false := by
  rw [State.clearAttention_attention, List.mem_filter, Bool.not_eq_true']

/-- R159, R165: a clear that takes SUPERVISION_LAPSED from the set ends LAPSED with it. -/
theorem State.clearAttention_attentionKept (s : State) (mask : List Byte) : AttentionKept s (s.clearAttention mask) where
  distinct h := by
    rw [AttentionDistinct, State.clearAttention_attention]
    exact h.filter _
  shown h := by
    rw [LapseShown] at h
    rw [LapseShown, State.mem_clearAttention, ← h]
    by_cases he : s.EndsLapse mask
    · obtain ⟨-, -, named⟩ := id he
      rw [State.clearAttention_ends he]
      exact iff_of_false nofun fun ⟨_, hn⟩ => Bool.noConfusion (named.symm.trans hn)
    · rw [State.clearAttention_holds he]
      exact ⟨fun hl => ⟨hl, eq_false_of_ne_true fun hn => he ⟨hl, h.1 hl, hn⟩⟩, And.left⟩

/-! ## The shutdown monitor (R142 to R145) -/

theorem State.lineHeld_attentionKept (s : State) (low : Bool) : AttentionKept s (s.lineHeld low) :=
  .ite (.writes rfl) (.writes rfl)

theorem State.shutdownRequests_attentionKept (s : State) : AttentionKept s s.shutdownRequests :=
  .trans (.foldl (fun t n => t.request_attentionKept n .shutdown) _ s) (.writes rfl)

theorem State.assertShutdown_attentionKept (s : State) : AttentionKept s s.assertShutdown :=
  .after (.trans (State.openRequest_attentionKept _) (.trans (State.shutdownRequests_attentionKept _)
    (.trans (.abortKeeping _) (.trans (.withdrawAllPreClose _) (.raiseBox _ .shutdown (by decide)))))) rfl

theorem State.lowTaken_attentionKept (s : State) : AttentionKept s s.lowTaken :=
  .ite ((s.lineHeld_attentionKept true).trans (State.assertShutdown_attentionKept _)) (s.lineHeld_attentionKept true)

theorem State.releaseShutdown_attentionKept (s : State) : AttentionKept s s.releaseShutdown :=
  .after (.trans (.raiseBox _ .shutdown (by decide)) (.lookForWork _)) rfl

theorem State.highTaken_attentionKept (s : State) : AttentionKept s s.highTaken :=
  .ite ((s.lineHeld_attentionKept false).trans (State.releaseShutdown_attentionKept _)) (s.lineHeld_attentionKept false)

end Sys2Proof.Machine
end

