-- ==== Sys2Proof/Proofs/AttentionSteps.lean ====
section
/-! The attention set's invariants through rounds, configuration messages, resets and the load, and with that kept by every
step (O13, O14). -/

namespace Sys2Proof.Machine

/-! ## Rounds (R21 to R26) -/

theorem State.startRound_attentionKept (s : State) : AttentionKept s s.startRound := by
  unfold State.startRound
  split
  · exact .refl s
  · exact .writes rfl

theorem State.enterFallback_attentionKept (s : State) : AttentionKept s s.enterFallback :=
  .after (.trans (.raiseBox _ .syncLost (by decide)) (State.startRound_attentionKept _)) rfl

theorem State.recheckSource_attentionKept (s : State) : AttentionKept s s.recheckSource := by
  unfold State.recheckSource
  refine .ite (.refl s) ?_
  split
  · exact .ite s.startRound_attentionKept (.refl s)
  · exact .ite s.startRound_attentionKept (.refl s)
  · exact .ite s.enterFallback_attentionKept (.refl s)

theorem State.roundTimer_attentionKept (s : State) : AttentionKept s s.roundTimer := by
  unfold State.roundTimer
  split
  · exact .after (State.startRound_attentionKept _) rfl
  · exact .after (State.startRound_attentionKept _) rfl
  · exact .refl s

theorem State.syncEdge_attentionKept (s : State) : AttentionKept s s.syncEdge := by
  unfold State.syncEdge
  split
  · exact .refl s
  · exact s.startRound_attentionKept
  · exact .after (State.startRound_attentionKept _) rfl

theorem State.syncWatch_attentionKept (s : State) : AttentionKept s s.syncWatch := by
  unfold State.syncWatch
  split
  · exact .after (State.enterFallback_attentionKept _) rfl
  · exact .refl s
  · exact .refl s

theorem State.extStale_attentionKept (s : State) (g : Nat) : AttentionKept s (s.extStale g) := by
  unfold State.extStale
  split
  · refine .ite ?_ (.refl s)
    dsimp only
    split
    · exact .ite (.after (.raiseBox _ .tempStale (by decide)) rfl) (.writes rfl)
    · exact .writes rfl
  · exact .refl s

/-! ## A completion (R22) -/

theorem State.deliverChannel_attentionKept (s : State) (total : Nat) (capture : Bool) (c : Channel) :
    AttentionKept s (s.deliverChannel total capture c) :=
  .ite (.after (.raiseStr _ .sensor c.string) rfl) (.writes rfl)

theorem State.deliverTemps_attentionKept (s : State) (readings : List Int) : AttentionKept s (s.deliverTemps readings) :=
  .ite (.after (.raiseBox _ .tempStale (by decide)) rfl) (.writes rfl)

theorem State.deliverRound_attentionKept (s : State) (r : Round) : AttentionKept s (s.deliverRound r) :=
  .after (.trans (.foldl (fun t c => t.deliverChannel_attentionKept r.total r.capture c) _ _)
    (State.deliverTemps_attentionKept _ _)) rfl

theorem State.compare_attentionKept (s : State) (fresh : List Nat) : AttentionKept s (s.compare fresh) := .writes rfl

theorem State.decideDay_attentionKept (s : State) : AttentionKept s s.decideDay := by
  have day : AttentionKept s s.startDay := .after (.raiseBox _ .daylight (by decide)) rfl
  have night : AttentionKept s s.enterNight := .after (.trans (.raiseBox _ .daylight (by decide)) (.abortKeeping _)) rfl
  exact .ite (.ite (.refl s) day) (.ite (.ite night (.writes rfl)) (.writes rfl))

theorem State.abortUnlit_attentionKept (s : State) : AttentionKept s s.abortUnlit := by
  unfold State.abortUnlit
  split
  · exact .refl s
  · exact .ite (.refl s) (.abortKeeping s)

theorem State.applyJudgements_attentionKept (s : State) (js : List Judgement) : AttentionKept s (s.applyJudgements js) :=
  .after (.foldl (fun t (x : Nat × Bool) => .raiseStr t .deficit x.1) _ _) rfl

theorem State.controllerEvent_attentionKept (s : State) (js : List Judgement) (k : Nat) :
    AttentionKept s (State.controllerEvent js s k) := by
  have made : AttentionKept s (s.makeRequest js k) := by
    unfold State.makeRequest
    split
    · exact .refl s
    · exact s.request_attentionKept _ _
  exact .ite made (s.discrepancy_attentionKept _)

theorem State.controllerTurn_attentionKept (s : State) (js : List Judgement) : AttentionKept s (s.controllerTurn js) :=
  .after (.trans (.foldl (fun t k => t.controllerEvent_attentionKept js k) _ s.suspectTests) (.writes rfl)) rfl

/-- R22: a completion, block by block. -/
theorem State.completeRound_attentionKept (s : State) (r : Round) : AttentionKept s (s.completeRound r) := by
  unfold State.completeRound
  extract_lets t js
  have published : AttentionKept s (s.published r) :=
    (s.deliverRound_attentionKept r).trans (.trans (State.compare_attentionKept _ _) (State.decideDay_attentionKept _))
  have period : AttentionKept (s.published r) ((s.published r).newPeriod s) :=
    .ite (.refl _) (State.recheckSource_attentionKept _)
  have h : AttentionKept s t := (published.trans period).trans (.after (State.abortUnlit_attentionKept _) rfl)
  exact h.trans (.trans (t.applyJudgements_attentionKept js) (.trans (State.controllerTurn_attentionKept _ js)
    (.trans (State.isolatorCompared_attentionKept _) (.trans (State.walk_attentionKept _) (.lookForWork _)))))

theorem State.takeSet_attentionKept (s : State) (set : SampleSet) : AttentionKept s (s.takeSet set) := by
  unfold State.takeSet
  split
  · exact .refl s
  · exact .ite (.writes rfl) (.after (State.completeRound_attentionKept _ _) rfl)

/-! ## Configuration messages (R19, R181) -/

theorem AttentionKept.recount (s : State) : AttentionKept s s.recount := .writes rfl

theorem AttentionKept.markChanged (s : State) : AttentionKept s s.markChanged := .writes rfl

theorem State.restanding_attentionKept (s : State) (n : Nat) (c : StringSettings) :
    AttentionKept s (s.restanding n c) := by
  unfold State.restanding
  split
  · exact .trans (.withdraw s n) (.writes rfl)
  · exact .ite (.after (State.shutdownCatch_attentionKept _ n) rfl) (.writes rfl)
  · exact .of_within (s.keepUsed_within n c) (by decide)
  · exact .writes rfl

theorem State.newSource_attentionKept (s : State) (b : BoxSettings) : AttentionKept s (s.newSource b) := by
  have taken : AttentionKept s ((s.setBox b).takeSource s.box.source) := by
    unfold State.takeSource
    split <;> exact .writes rfl
  exact .ite taken (taken.trans (State.recheckSource_attentionKept _))

theorem State.testHeat_attentionKept (s : State) : AttentionKept s s.testHeat := by
  unfold State.testHeat
  split
  · exact s.cellCooled_attentionKept
  · exact .ite s.cellHot_attentionKept (.refl s)
  all_goals exact .refl s

theorem State.boxTaken_attentionKept (s : State) (b : BoxSettings) : AttentionKept s (s.boxTaken b) :=
  (s.newSource_attentionKept b).trans (.after (State.testHeat_attentionKept (s.newSource b).capBudgets) rfl)

theorem State.boxApplied_attentionKept (s : State) (b : BoxSettings) : AttentionKept s (s.boxApplied b) :=
  (s.boxTaken_attentionKept b).trans (.trans (State.recheckWindows_attentionKept _ s.box) (State.walk_attentionKept _))

/-! ## Other requests -/

theorem State.restoreVisits_attentionKept (s : State) : AttentionKept s s.restoreVisits.1 := by
  have one (acc : State × Nat) (n : Nat) : AttentionKept acc.1 (State.restoreOne acc n).1 := by
    unfold State.restoreOne
    repeat' split
    · exact .writes rfl
    · exact .trans (.withdraw acc.1 n) (.writes rfl)
    · exact .refl _
    · exact .refl _
  have all (l : List Nat) (acc : State × Nat) : AttentionKept acc.1 (l.foldl State.restoreOne acc).1 := by
    induction l generalizing acc with
    | nil => exact .refl _
    | cons n ns ih => exact (one acc n).trans (ih _)
  exact all _ (s, 0)

theorem State.restoreAll_attentionKept (s : State) : AttentionKept s s.restoreAll.1 := by
  unfold State.restoreAll
  dsimp only
  exact .ite s.restoreVisits_attentionKept (s.restoreVisits_attentionKept.trans (.lookForWork _))

/-! ## Resets and the load (R150 to R153) -/

/-- R150: a drop stage leaves one item and supervision WAITING. -/
theorem State.drop_attentionKept (s : State) (kind : ResetKind) : AttentionKept s (s.drop kind) where
  distinct _ := List.nodup_singleton _
  shown _ := iff_of_false nofun (by simp [State.drop, State.dropped])

/-- R166: a loss of supply leaves no item and supervision WAITING. -/
theorem State.supplyLost_attentionKept (s : State) : AttentionKept s s.supplyLost :=
  .ite ⟨fun _ => List.nodup_nil, fun _ => iff_of_false nofun List.not_mem_nil⟩ (.refl s)

theorem State.load_attentionKept (s : State) (answers : Bool) : AttentionKept s (s.load answers) := by
  have rest (t : State) (l : List Lockout) (m : Mode) : AttentionKept t ((t.setLockouts l).setMode m) := .writes rfl
  have settings (c : Settings) : AttentionKept s (s.takeSettings c) := .writes rfl
  have taken (c : Settings) (l : List Lockout) (m : Mode) : AttentionKept s (((s.takeSettings c).setLockouts l).setMode m) :=
    (settings c).trans (rest _ l m)
  unfold State.load
  split
  · exact taken _ _ _
  · exact (taken _ _ _).trans (.raiseBox _ .storeFault (by decide))

theorem State.placeString_attentionKept (s : State) (n : Nat) : AttentionKept s (s.placeString n) := by
  unfold State.placeString
  refine .ite (.refl s) ?_
  dsimp only
  split
  · exact .after (State.shutdownCatch_attentionKept _ n) rfl
  · exact .after (State.queueString_attentionKept _ n _) rfl
  · exact .writes rfl
  · exact .after (.place _ _ _ _) rfl

/-- R150: the start-up sequence, stage by stage. -/
theorem State.loadEnded_attentionKept (s : State) (answers : Bool) : AttentionKept s (s.loadEnded answers) := by
  have cell (t : State) : AttentionKept t t.cellCheck :=
    .ite ((t.cellFaulted_attentionKept _ _).trans (State.openRequest_attentionKept _)) (.refl t)
  have line (t : State) : AttentionKept t t.lineCheck :=
    .ite (t.openRequest_attentionKept.trans (.raiseBox _ .shutdown (by decide))) (.refl t)
  have placed (t : State) : AttentionKept t t.reconcile := .foldl State.placeString_attentionKept _ _
  have first (t : State) : AttentionKept t t.firstRound := .of_within t.firstRound_within (by decide)
  have begun (t : State) : AttentionKept t t.begin := .writes rfl
  exact .ite ((s.load_attentionKept answers).trans (.trans (cell _) (.trans (line _) (.trans (placed _)
    (.trans (first _) (begun _)))))) (.refl s)

theorem State.verified_attentionKept (s : State) (readBack : ReadBack) : AttentionKept s (s.verified readBack) := by
  have ended (t : State) : AttentionKept t t.writeEnded := .ite (.writes rfl) (.writes rfl)
  unfold State.verified
  split
  · exact .refl s
  · exact .after (ended _) rfl
  · exact .after (.trans (.raiseBox _ .storeFault (by decide)) (ended _)) rfl

/-! ## Every step -/

theorem Handled.attentionKept {s u : State} (h : Handled s u) : AttentionKept s u := by
  cases h with
  | same => exact .refl s
  | clear mask => exact s.clearAttention_attentionKept mask
  | heartbeat token => exact s.heartbeat_attentionKept token
  | temperature ext => exact .writes rfl
  | isolate n => exact s.request_attentionKept n .manual
  | reconnect n => exact .place s n _ _
  | probe n => exact .place s n _ _
  | release n => exact .after (.of_within (State.requestWrite_within _) (by decide)) rfl
  | restore => exact s.restoreAll_attentionKept
  | openBox => exact s.openRequest_attentionKept
  | closeBox => exact .ite s.startClosing_attentionKept (.refl s)
  | cellRestore =>
    unfold State.restoreCell
    split
    · exact .writes rfl
    · exact s.cellRested_attentionKept
  | setup => exact .writes rfl
  | run => exact .writes rfl
  | configString n c => exact (s.restanding_attentionKept n c).trans (.trans (.recount _) (.markChanged _))
  | configGroup g c => exact .writes rfl
  | configBox b => exact (s.boxApplied_attentionKept b).trans (.markChanged _)
  | configLink l => exact .writes rfl
  | store => exact .writes rfl
  | restart => exact .writes rfl

theorem Effect.attentionKept {s t : State} (h : Effect s t) : AttentionKept s t := by
  cases h with
  | same => exact .refl s
  | link x => exact .writes rfl
  | request _ hu x => exact hu.attentionKept.trans (.writes rfl)
  | drop kind => exact s.drop_attentionKept kind
  | supplyLost => exact s.supplyLost_attentionKept
  | loadEnded answers => exact s.loadEnded_attentionKept answers
  | verified readBack => exact s.verified_attentionKept readBack
  | roundTimer => exact s.roundTimer_attentionKept
  | syncEdge => exact s.syncEdge_attentionKept
  | syncWatch => exact s.syncWatch_attentionKept
  | takeSet set => exact s.takeSet_attentionKept set
  | secondElapsed => exact .writes rfl
  | cellCooled => exact s.cellCooled_attentionKept
  | extStale g => exact s.extStale_attentionKept g
  | tapClosed n => exact .ite (s.conduct_attentionKept n) (.refl s)
  | attachExpired => exact s.attachExpired_attentionKept
  | tapReleased n => exact s.tapReleased_attentionKept n
  | detachExpired => exact s.detachExpired_attentionKept
  | releaseExpired => exact s.releaseExpired_attentionKept
  | monitorReads w => exact s.monitorReads_attentionKept w
  | quenchExpired => exact s.quenchExpired_attentionKept
  | restEnded => exact s.restEnded_attentionKept
  | contactMoved n position => exact s.contactMoved_attentionKept n position
  | contactExpired n => exact s.contactExpired_attentionKept n
  | isolatorReads feedback => exact s.isolatorReads_attentionKept feedback
  | isolatorExpired => exact s.isolatorExpired_attentionKept
  | settled => exact s.settled_attentionKept
  | reading vp vn => exact s.reading_attentionKept vp vn
  | released => exact s.released_attentionKept
  | lowTaken => exact s.lowTaken_attentionKept
  | highTaken => exact s.highTaken_attentionKept
  | longExpired => exact s.longExpired_attentionKept
  | openExpired => exact s.openExpired_attentionKept
  | lineChanges low => exact .writes rfl

/-- Settles O13: the set is written by raises of items not present, by a clear and by a drop stage. -/
theorem attentionSetKeepsNoDuplicates : Obligations.AttentionSetKeepsNoDuplicates := by
  unfold Obligations.AttentionSetKeepsNoDuplicates
  exact StepKeeps.of_effect (fun _ _ h => h) (fun _ h => h) fun _ _ h he => he.attentionKept.distinct h

/-- Settles O14: a lapse raises the item as it enters LAPSED, and a clear that takes the item ends LAPSED; no other operation
enters or leaves LAPSED, raises the item or removes it, but a drop stage and a loss of supply, which end both. -/
theorem lapseAndItsItemStandTogether : Obligations.LapseAndItsItemStandTogether := by
  unfold Obligations.LapseAndItsItemStandTogether
  exact StepKeeps.of_effect (fun _ _ h => h) (fun _ h => h) fun _ _ h he => he.attentionKept.shown h

end Sys2Proof.Machine
end

