-- ==== Sys2Proof/Proofs/HeartbeatJudgement.lean ====
section
/-! The judgement of a heartbeat (O9). -/

namespace Sys2Proof.Machine

section
variable {s : State} {token : Word16}

/-! ## The judgement (R156 to R159) -/

theorem State.judgeBeat_waiting (h : s.supervision.state = .waiting) (ht : s.part.now ≤ s.longDue) :
    s.judgeBeat token = .accepted := by
  simp only [State.judgeBeat, h, if_pos ht]

theorem State.judgeBeat_early (h : s.supervision.state = .supervised)
    (ht : s.part.now < s.supervision.lastBeat + s.box.closedWindow * 1000) : s.judgeBeat token = .early := by
  simp only [State.judgeBeat, h, if_pos ht]

/-- R157: in the open window the token decides. -/
theorem State.judgeBeat_window (h : s.supervision.state = .supervised)
    (hc : s.supervision.lastBeat + s.box.closedWindow * 1000 ≤ s.part.now) (ht : s.part.now ≤ s.openDue) :
    s.judgeBeat token = if s.supervision.token.map (fun t => ~~~t) = some token then .accepted else .token := by
  simp only [State.judgeBeat, h, if_neg (not_lt.2 hc), if_pos ht]

/-! ## What a heartbeat does -/

theorem State.heartbeat_accepted (h : s.judgeBeat token = .accepted) : s.heartbeat token =
    s.setSupervision { s.supervision with state := .supervised, token := some token, lastBeat := s.part.now } := by
  rw [State.heartbeat, h]

/-- R159: each of the two refusals in SUPERVISED makes the lapse. -/
theorem State.heartbeat_lapses (h : s.judgeBeat token = .early ∨ s.judgeBeat token = .token) :
    s.heartbeat token = s.lapse := by
  rcases h with h | h <;> rw [State.heartbeat, h]

theorem State.heartbeat_lapsed (h : s.supervision.state = .lapsed) : s.heartbeat token = s := by
  rw [State.heartbeat, s.judgeBeat_lapsed token h]
  exact if_pos h

end

/-- Settles O9: a heartbeat does what its judgement says, and is answered with it. -/
theorem heartbeatIsJudgedByTimeThenToken : Obligations.HeartbeatIsJudgedByTimeThenToken := by
  unfold Obligations.HeartbeatIsJudgedByTimeThenToken
  intro s token last hl since closed ended taken
  have answered {t : State} {r : BeatResult} (hj : s.judgeBeat token = r) (ht : s.heartbeat token = t) :
      exec (.heartbeat token) s = .next (t.sendReply Kind.heartbeat.code ⟨r.reason, []⟩) :=
    State.request_answered hl rfl (by rw [State.reqHeartbeat, hj, ht])
  have accepted (hj : s.judgeBeat token = .accepted) :
      exec (.heartbeat token) s = .next (taken.sendReply Kind.heartbeat.code ⟨.accepted, []⟩) :=
    answered hj (State.heartbeat_accepted hj)
  refine ⟨fun hw ht => accepted (State.judgeBeat_waiting hw ht.le), fun hs hlast => ⟨fun ht => ?_, fun hc ht htok => ?_,
    fun hc ht htok => ?_⟩, fun hlapsed => ?_⟩
  · have hj := State.judgeBeat_early (token := token) hs ht
    exact answered hj (State.heartbeat_lapses (.inl hj))
  · refine accepted ?_
    rw [State.judgeBeat_window hs hc ht.le, hlast, htok]
    exact if_pos rfl
  · have hj : s.judgeBeat token = .token := by
      rw [State.judgeBeat_window hs hc ht.le, hlast]
      exact if_neg fun h => htok (Option.some.inj h).symm
    exact answered hj (State.heartbeat_lapses (.inr hj))
  · exact answered (s.judgeBeat_lapsed token hlapsed) (State.heartbeat_lapsed hlapsed)

end Sys2Proof.Machine
end

