-- ==== Sys2Proof/Proofs/AttentionMask.lean ====
section
/-! ATTENTION_CLEAR (O11), and the 26 bytes of ATTENTION_READ taken as a mask (O12). -/

namespace Sys2Proof.Machine

section
variable {s : State} {mask : List Byte}

/-! ## The clear (R159, R165) -/

/-- R165: a clear replaces the attention set and the supervision timer, and no other block. -/
theorem State.clearAttention_eq : s.clearAttention mask =
    { s with supervision := (s.clearAttention mask).supervision, attention := (s.clearAttention mask).attention } := by
  by_cases h : s.EndsLapse mask
  · rw [State.clearAttention_ends h]; rfl
  · rw [State.clearAttention_holds h]; rfl

theorem State.reqAttentionClear_accepts (h : mask.length = 26) :
    s.reqAttentionClear mask = accept (s.clearAttention mask) [] := if_pos h

theorem State.reqAttentionClear_format (h : mask.length ≠ 26) : s.reqAttentionClear mask = refuse s .format := if_neg h

end

/-- Settles O11: a mask of 26 bytes is answered with the clear, which keeps the items that the mask does not name. -/
theorem attentionClearRemovesTheNamedItems : Obligations.AttentionClearRemovesTheNamedItems := by
  unfold Obligations.AttentionClearRemovesTheNamedItems
  intro s mask hl
  have answered {t : State} {r : Reply} (h : s.reqAttentionClear mask = (t, r)) :
      exec (.attentionClear mask) s = .next (t.sendReply Kind.attentionClear.code r) := State.request_answered hl rfl h
  refine ⟨fun hm => ⟨(s.clearAttention mask).supervision, _, ?_, s.mem_clearAttention mask, fun hs hi hn => ?_,
    fun hs => ?_⟩, fun hm => answered (State.reqAttentionClear_format hm)⟩
  · rw [← State.clearAttention_eq]
    exact answered (State.reqAttentionClear_accepts hm)
  · rw [State.clearAttention_ends ⟨hs, hi, hn⟩, State.setSupervision_supervision]
  · have h : ¬s.EndsLapse mask := fun ⟨hl, _, hn⟩ => hs.elim (absurd hl) fun hf => by rw [hn] at hf; cases hf
    rw [State.clearAttention_holds h, State.setAttention_supervision]

/-! ## The bits of marks (R189, R192) -/

/-- A value doubled with a mark added is the value with the mark shifted in. -/
theorem double_add_mark {w : Nat} (x : BitVec w) (b : Bool) : x + x + (if b then 1#w else 0#w) = x.shiftConcat b := by
  apply BitVec.eq_of_toNat_eq
  cases b <;> simp [BitVec.toNat_shiftConcat, Nat.shiftLeft_eq, Nat.mul_two]

/-- Marks shifted in one after the other, the last mark first, stand at their places. -/
theorem getLsbD_foldr_shiftConcat {w : Nat} (bits : List Bool) (i : Nat) :
    (bits.foldr (fun b (acc : BitVec w) => acc.shiftConcat b) 0#w).getLsbD i = (decide (i < w) && bits.getD i false) := by
  induction bits generalizing i with
  | nil => simp
  | cons b bs ih =>
    rw [List.foldr_cons, BitVec.getLsbD_shiftConcat]
    cases i with
    | zero => simp
    | succ i =>
      rw [if_neg i.succ_ne_zero, Nat.add_sub_cancel, ih, List.getD_cons_succ]
      by_cases hi : i + 1 < w
      · rw [decide_eq_true (Nat.lt_of_succ_lt hi), Bool.true_and]
      · rw [decide_eq_false hi, Bool.false_and, Bool.false_and]

/-- R189: a marks byte carries its marks, bit 0 first. -/
theorem getLsbD_marksByte (bits : List Bool) (i : Nat) :
    (marksByte bits).getLsbD i = (decide (i < 8) && bits.getD i false) := by
  rw [← getLsbD_foldr_shiftConcat]
  simp only [marksByte, byteOfBool, double_add_mark]

/-- R192: the box word carries its marks, bit 0 first. -/
theorem getLsbD_marksWord (bits : List Bool) (i : Nat) :
    (marksWord bits).getLsbD i = (decide (i < 16) && bits.getD i false) := by
  rw [← getLsbD_foldr_shiftConcat]
  simp only [marksWord, double_add_mark]

theorem StringItem.bit_lt (k : StringItem) : k.bit < 8 := by cases k <;> decide

theorem BoxItem.bit_lt (k : BoxItem) : k.bit < 16 := by cases k <;> decide

/-- R192: the per-string items stand in the order of their bits. -/
theorem stringItems_getElem (k : StringItem) : stringItems[k.bit]? = some k := by cases k <;> rfl

theorem boxItems_getElem (k : BoxItem) : boxItems[k.bit]? = some k := by cases k <;> rfl

/-! ## The bytes of ATTENTION_READ (R192) -/

theorem stringNumbers_getElem {n : Nat} (h : stringNumber n = true) : Config.stringNumbers[n - 1]? = some n := by
  have hl : Config.stringNumbers = List.range' 1 24 := rfl
  rw [stringNumber_iff] at h
  rw [hl, List.getElem?_range' (by omega), Option.some.injEq]
  omega

section
variable {s : State}

theorem State.attentionBytes_string {n : Nat} (h : stringNumber n = true) : s.attentionBytes.getD (n - 1) 0#8 =
    marksByte (stringItems.map fun k => decide (Item.str k n ∈ s.attention)) := by
  have hn := (stringNumber_iff n).1 h
  have hl : Config.stringNumbers.length = 24 := rfl
  rw [State.attentionBytes, List.getD_append _ _ _ _ (by rw [List.length_map, hl]; omega),
    List.getD_eq_getElem?_getD, List.getElem?_map, stringNumbers_getElem h]
  rfl

/-- The last two bytes are the box word. -/
theorem State.attentionBytes_box : word16 (s.attentionBytes.getD 24 0#8) (s.attentionBytes.getD 25 0#8) =
    marksWord (boxItems.map fun k => decide (Item.box k ∈ s.attention)) := word16_bytes _

end

/-- Settles O12: each item's bit in the 26 bytes is its mark. -/
theorem maskCopiedFromAReadNamesWhatItReturned : Obligations.MaskCopiedFromAReadNamesWhatItReturned := by
  unfold Obligations.MaskCopiedFromAReadNamesWhatItReturned
  refine fun s => ⟨State.attentionBytes_length, fun k n hn => ?_, fun k => ?_⟩
  · rw [maskNames, State.attentionBytes_string hn, getLsbD_marksByte, decide_eq_true k.bit_lt, List.getD_eq_getElem?_getD,
      List.getElem?_map, stringItems_getElem]
    exact decide_eq_true_iff
  · rw [maskNames, State.attentionBytes_box, getLsbD_marksWord, decide_eq_true k.bit_lt, List.getD_eq_getElem?_getD,
      List.getElem?_map, boxItems_getElem]
    exact decide_eq_true_iff

end Sys2Proof.Machine
end

