-- ==== Sys2Proof/Proofs/LinkFrames.lean ====
section
/-! The layout of a frame on the line, and the flags of a reply (O6). -/

namespace Sys2Proof.Machine

-- One proof at a time: a proof that waits for another holds a thread's stack, and the check limits the memory of all.
set_option Elab.async false

/-! ## Fields of a list of bytes -/

theorem octet_append_left {f : List Byte} {k : Nat} (h : k < f.length) (g : List Byte) : octet (f ++ g) k = octet f k :=
  List.getD_append f g 0#8 k h

theorem octet_append_right (f g : List Byte) (k : Nat) : octet (f ++ g) (f.length + k) = octet g k := by
  rw [octet, List.getD_append_right f g 0#8 _ (Nat.le_add_right _ _), Nat.add_sub_cancel_left, octet]

/-- R189: the two bytes of a word are the field that stands where they begin. -/
theorem pairAt_bytes16 (f : List Byte) (w : Word16) : pairAt (f ++ bytes16 w) f.length = w := by
  have high := octet_append_right f (bytes16 w) 0
  have low := octet_append_right f (bytes16 w) 1
  rw [Nat.add_zero] at high
  rw [pairAt, high, low]
  exact word16_bytes w

/-! ## Frames (R169, R188) -/

/-- R169, R188: a frame of either direction: its lead byte, its covered bytes, and their CRC. -/
def framed (lead : Byte) (body : List Byte) : List Byte := [lead] ++ body ++ bytes16 (crc16 body)

theorem requestFrame_eq (address : Byte) (k : Kind) (payload : List Byte) : requestFrame address k payload =
    framed 0xD1#8 ([address, k.code, byteOf payload.length] ++ payload) := rfl

/-- R188: the covered bytes of a reply frame. -/
def State.replyBody (s : State) (kind : Byte) (r : Reply) : List Byte :=
  [byteOf s.link.operating.address, kind + 0x80#8, r.outcome.code, s.replyFlags, byteOf r.payload.length] ++ r.payload

theorem State.replyFrame_eq (s : State) (kind : Byte) (r : Reply) :
    s.replyFrame kind r = framed 0xD2#8 (s.replyBody kind r) := rfl

theorem State.replyBody_length (s : State) (kind : Byte) (r : Reply) :
    (s.replyBody kind r).length = 5 + r.payload.length := List.length_append

section
variable (lead : Byte) (body : List Byte)

theorem framed_length : (framed lead body).length = body.length + 3 := by
  simp only [framed, List.length_append, List.length_singleton, bytes16_length]
  omega

theorem framed_covered : ((framed lead body).drop 1).take body.length = body := List.take_left

theorem framed_crc : pairAt (framed lead body) (1 + body.length) = crc16 body := by
  rw [Nat.add_comm]
  exact pairAt_bytes16 (lead :: body) (crc16 body)

end

/-- Settles O6: the reply frame is its header, the payload and the CRC of both, and its flags byte is a marks byte. -/
theorem replyFlagsShowTheState : Obligations.ReplyFlagsShowTheState := by
  unfold Obligations.ReplyFlagsShowTheState
  intro s
  refine ⟨fun kind r => ⟨s.replyFrame kind r, rfl, ?_, rfl, rfl, rfl, rfl, rfl, rfl, List.take_left, ?_⟩, ?_⟩
  · rw [State.replyFrame_eq, framed_length, State.replyBody_length]
    omega
  · have hlen := s.replyBody_length kind r
    rw [State.replyFrame_eq, ← hlen, show 6 + r.payload.length = 1 + (s.replyBody kind r).length by omega, framed_covered,
      framed_crc]
  · simp only [State.replyFlags, getLsbD_marksByte]
    refine ⟨by simp, by simp, by simp [State.supervised], s.active_iff, by simp, fun k hk => ?_⟩
    rw [List.getD_eq_default _ _ hk, Bool.and_false]

end Sys2Proof.Machine
end

