-- ==== Sys2Proof/Proofs/LinkReceiver.lean ====
section
/-! The receiver's table and a frame's check (O7), and the request that a frame carries (O8). -/

namespace Sys2Proof.Machine

-- One proof at a time: a proof that waits for another holds a thread's stack, and the check limits the memory of all.
set_option Elab.async false

section
variable {s : State} {got : List Byte}

/-! ## The check of a frame (R169) -/

/-- R169: the bytes of a frame that its CRC covers. -/
def covered (frame : List Byte) : List Byte := (frame.drop 1).take (frame.length - 3)

/-- R169: the CRC that a frame carries is that of its covered bytes. -/
def CrcAgrees (frame : List Byte) : Prop := crc16 (covered frame) = pairAt frame (frame.length - 2)

theorem covered_framed (lead : Byte) (body : List Byte) : covered (framed lead body) = body := by
  rw [covered, framed_length, Nat.add_sub_cancel, framed_covered]

theorem crcAgrees_framed (lead : Byte) (body : List Byte) : CrcAgrees (framed lead body) := by
  rw [CrcAgrees, covered_framed, framed_length, show body.length + 3 - 2 = 1 + body.length by omega, framed_crc]

section
variable {frame : List Byte}

theorem State.frameCheck_corrupt (hc : ¬CrcAgrees frame) : s.frameCheck frame = s.discard .quiet := if_pos hc

theorem State.frameCheck_foreign (hc : CrcAgrees frame) (ha : (octet frame 1).toNat ≠ s.link.operating.address) :
    s.frameCheck frame = s.setRx .hunting := (if_neg (not_not.2 hc)).trans (if_pos ha)

theorem State.frameCheck_own (hc : CrcAgrees frame) (ha : (octet frame 1).toNat = s.link.operating.address) :
    s.frameCheck frame = s.answer (octet frame 2) (dispatch (octet frame 2) ((covered frame).drop 3)) :=
  (if_neg (not_not.2 hc)).trans (if_neg (not_not.2 ha))

end

/-! ## A byte in RECEIVING and in PASSING (R168) -/

section
variable {b : Byte}

theorem State.receive_overlong (hl : got.length = 3) (hb : 128 < b.toNat) : s.receive got b true = s.discard .quiet :=
  if_pos ⟨by rw [List.length_append, hl, List.length_singleton], hb⟩

/-- R168: below the frame's end, and with a payload length that a frame can have, the byte is kept. -/
theorem State.receive_continues (hb : got.length = 3 → b.toNat ≤ 128)
    (he : 4 ≤ got.length → got.length < 5 + (octet got 3).toNat) :
    s.receive got b true = s.setRx (.receiving (got ++ [b])) := by
  have hlen : (got ++ [b]).length = got.length + 1 := List.length_append
  have hlong : ¬((got ++ [b]).length = 4 ∧ 128 < b.toNat) := by omega
  have hend : ¬(4 ≤ (got ++ [b]).length ∧ (got ++ [b]).length = 6 + (octet (got ++ [b]) 3).toNat) := by
    rintro ⟨-, h⟩
    by_cases h4 : 4 ≤ got.length
    · rw [octet_append_left (by omega)] at h
      have := he h4
      omega
    · omega
  exact (if_neg hlong).trans (if_neg hend)

/-- R168, R169: the byte at the end that the length byte gives has the frame checked. -/
theorem State.receive_checks (h4 : 4 ≤ got.length) (he : got.length = 5 + (octet got 3).toNat) :
    s.receive got b true = s.frameCheck (got ++ [b]) := by
  have hlen : (got ++ [b]).length = got.length + 1 := List.length_append
  have hlong : ¬((got ++ [b]).length = 4 ∧ 128 < b.toNat) := by omega
  have hend : 4 ≤ (got ++ [b]).length ∧ (got ++ [b]).length = 6 + (octet (got ++ [b]) 3).toNat := by
    rw [octet_append_left (by omega)]
    omega
  exact (if_neg hlong).trans (if_pos hend)

theorem State.pass_continues (he : 6 ≤ got.length → got.length < 7 + (octet got 5).toNat) :
    s.pass got b = s.setRx (.passing (got ++ [b])) := by
  have hlen : (got ++ [b]).length = got.length + 1 := List.length_append
  refine if_neg ?_
  rintro ⟨-, h⟩
  by_cases h6 : 6 ≤ got.length
  · rw [octet_append_left (by omega)] at h
    have := he h6
    omega
  · omega

theorem State.pass_ends (h6 : 6 ≤ got.length) (he : got.length = 7 + (octet got 5).toNat) :
    s.pass got b = s.setRx .hunting := by
  have hlen : (got ++ [b]).length = got.length + 1 := List.length_append
  refine if_pos ?_
  rw [octet_append_left (by omega)]
  omega

end

/-! ## The receiver's table (R168) -/

section
variable (b : Byte) (stop : Bool)

/-- R168: bytes in QUIET and in REPLYING are disregarded. -/
theorem State.lineByte_deaf (h : s.link.rx = .quiet ∨ s.link.rx = .replying) : s.lineByte b stop = s := by
  rcases h with h | h <;> simp only [State.lineByte, h, ite_self]

theorem State.lineByte_hunting (hr : s.running = true) (h : s.link.rx = .hunting) :
    s.lineByte b stop = s.hunt b stop := by simp only [State.lineByte, h, if_pos hr]

theorem State.lineByte_receiving (hr : s.running = true) (h : s.link.rx = .receiving got) :
    s.lineByte b stop = s.receive got b stop := by simp only [State.lineByte, h, if_pos hr]

theorem State.lineByte_passing (hr : s.running = true) (h : s.link.rx = .passing got) :
    s.lineByte b stop = s.pass got b := by simp only [State.lineByte, h, if_pos hr]

theorem exec_linkByte {t : State} (h : s.lineByte b stop = t) : exec (.linkByte b stop) s = .next t :=
  congrArg Host.Outcome.next h

end

theorem State.gapExpired_receiving (h : s.link.rx = .receiving got) : s.gapExpired = s.discard .hunting := by
  simp only [State.gapExpired, h]

theorem State.gapExpired_passing (h : s.link.rx = .passing got) : s.gapExpired = s.setRx .hunting := by
  simp only [State.gapExpired, h]

/-- R168, R170: without an ordered reset the reply's end leaves the receiver in HUNTING. -/
theorem State.replySent_hunts (h : s.link.rx = .replying) (ho : s.link.restartOrdered = false) :
    s.replySent = s.setLink { s.link with rx := .hunting, reply := none } := by
  rw [State.replySent, h, ho]
  rfl

theorem State.listening_of_receiving (hr : s.running = true) (h : s.link.rx = .receiving got) : s.listening = true := by
  rw [State.listening, hr, h]
  rfl

/-- R169: a request that is answered leaves the receiver in REPLYING. -/
theorem State.answer_rx (h : s.listening = true) (kind : Byte) (handle : State → Answer) :
    (s.answer kind handle).link.rx = .replying := by
  rw [State.answer_listening h]
  rfl

end

/-- Settles O7: the receiver's states one by one, and the branches of a byte's meaning in each. -/
theorem receiverFollowsItsTable : Obligations.ReceiverFollowsItsTable := by
  unfold Obligations.ReceiverFollowsItsTable
  intro s hr inRx counted
  have deaf (h : s.link.rx = .quiet ∨ s.link.rx = .replying) (b : Byte) (stop : Bool) :
      exec (.linkByte b stop) s = .next s := exec_linkByte b stop (State.lineByte_deaf b stop h)
  refine ⟨fun h => ⟨congrArg Host.Outcome.next (if_pos ⟨hr, h⟩), deaf (.inl h)⟩, fun h => ?_, fun got h => ?_,
    fun got h => ?_, fun h => ⟨deaf (.inr h), fun ho => congrArg Host.Outcome.next (State.replySent_hunts h ho)⟩⟩
  · have hunts (b : Byte) {t : State} (ht : s.hunt b true = t) : exec (.linkByte b true) s = .next t :=
      exec_linkByte b true ((State.lineByte_hunting b true hr h).trans ht)
    exact ⟨hunts _ rfl, hunts _ rfl, fun b h1 h2 => hunts b ((if_neg h1).trans (if_neg h2))⟩
  · have receives (b : Byte) (stop : Bool) {t : State} (ht : s.receive got b stop = t) :
        exec (.linkByte b stop) s = .next t := exec_linkByte b stop ((State.lineByte_receiving b stop hr h).trans ht)
    refine ⟨congrArg Host.Outcome.next (State.gapExpired_receiving h), fun b => receives b false rfl,
      fun b hl hb => receives b true (State.receive_overlong hl hb),
      fun b hl => receives b true (State.receive_continues (by omega) (by omega)),
      fun b hl hb => receives b true (State.receive_continues (fun _ => hb) (by omega)),
      fun b h4 he => receives b true (State.receive_continues (by omega) fun _ => he), fun b h4 he => ?_⟩
    have checks {t : State} (ht : s.frameCheck (got ++ [b]) = t) : exec (.linkByte b true) s = .next t :=
      receives b true ((State.receive_checks h4 he).trans ht)
    exact ⟨fun hc => checks (State.frameCheck_corrupt hc), fun hc ha => checks (State.frameCheck_foreign hc ha),
      fun hc ha => ⟨_, checks (State.frameCheck_own hc ha), State.answer_rx (State.listening_of_receiving hr h) _ _⟩⟩
  · have passes (b : Byte) (stop : Bool) {t : State} (ht : s.pass got b = t) : exec (.linkByte b stop) s = .next t :=
      exec_linkByte b stop ((State.lineByte_passing b stop hr h).trans ht)
    exact ⟨congrArg Host.Outcome.next (State.gapExpired_passing h),
      fun b stop hl => passes b stop (State.pass_continues (by omega)),
      fun b stop h6 he => passes b stop (State.pass_ends h6 he),
      fun b stop h6 he => passes b stop (State.pass_continues fun _ => he)⟩

/-! ## The request that a frame carries (R171, R188, R191) -/

theorem Kind.ofCode_code (k : Kind) : Kind.ofCode k.code = some k := by cases k <;> rfl

theorem dispatch_code (k : Kind) : dispatch k.code = k.dispatch := by
  funext payload s
  rw [dispatch, Kind.ofCode_code]

section
variable (s : State)

/-- 12.4: the form of STRING_CONFIG reads back the message that its bytes carry. -/
theorem stringConfigForm_bytes (m : StringConfigMsg) : stringConfigForm
    ([m.string, m.used, m.group, m.input] ++ bytes16 m.rated ++ [m.modules] ++ bytes16 m.voc25) s = s.reqStringConfig m := by
  simp only [bytes16, List.cons_append, List.nil_append, stringConfigForm, word16_bytes]

theorem groupConfigForm_bytes (m : GroupConfigMsg) : groupConfigForm
    ([m.group, m.source, m.beta] ++ bytes16 m.deficit ++ bytes16 m.leak ++ bytes16 m.trip ++ [m.policy]) s =
      s.reqGroupConfig m := by
  simp only [bytes16, List.cons_append, List.nil_append, groupConfigForm, word16_bytes]

theorem boxConfigForm_bytes (m : BoxConfigMsg) : boxConfigForm (boxMsgBytes m) s = s.reqBoxConfig m := by
  have hlen : (boxMsgBytes m).length = 37 := by
    delta boxMsgBytes
    simp only [bytes16_length, List.length_append, List.length_cons, List.length_nil]
  rw [boxConfigForm, if_pos hlen]
  simp only [boxMsgBytes, bytes16, List.cons_append, List.nil_append, pairAt, octet, List.getD_cons_succ, List.getD_cons_zero,
    word16_bytes]

theorem exec_of_handler {c : Instr} {k : Kind} {payload : List Byte} {handle : State → Answer}
    (hc : exec c s = .next (s.answer k.code handle)) (hk : ∀ t, k.dispatch payload t = handle t) :
    exec c s = .next (s.answer k.code (k.dispatch payload)) := by rw [hc, funext hk]

/-- R171, R191: a command that has a wire form is the dispatch of its kind and payload. The two-byte fields have to be read
back; a payload of single bytes is taken as it stands. -/
theorem exec_eq_wire (c : Instr) : exec c s = (wireOf c).elim (exec c s)
    fun w => .next (s.answer w.1.code (w.1.dispatch w.2)) := by
  cases c with
  | heartbeat token => exact exec_of_handler s rfl fun t => congrArg t.reqHeartbeat (word16_bytes token)
  | stringConfig m => exact exec_of_handler s rfl fun t => stringConfigForm_bytes t m
  | groupConfig m => exact exec_of_handler s rfl fun t => groupConfigForm_bytes t m
  | boxConfig m => exact exec_of_handler s rfl fun t => boxConfigForm_bytes t m
  | configRead target number => cases number <;> rfl
  | _ => rfl

theorem exec_of_wire {c : Instr} {k : Kind} {payload : List Byte} (h : wireOf c = some (k, payload)) :
    exec c s = .next (s.answer k.code (k.dispatch payload)) := by
  rw [exec_eq_wire, h]
  rfl

end

/-- Settles O8: the frame's last byte has it checked, both steps pass, and its kind and payload are the row's. -/
theorem frameOnTheLineIsTheRequestItCarries : Obligations.FrameOnTheLineIsTheRequestItCarries := by
  unfold Obligations.FrameOnTheLineIsTheRequestItCarries
  intro s c k payload got b hr ha hw hp hf hrx
  rw [requestFrame_eq] at hf
  have hlen : got.length = 5 + payload.length := by
    have h := congrArg List.length hf
    simp only [framed_length, List.length_append, List.length_cons, List.length_nil] at h
    omega
  have hcount : (octet got 3).toNat = payload.length := by
    rw [← octet_append_left (by omega) [b], ← hf]
    exact Nat.mod_eq_of_lt (by omega)
  have haddr : (octet (got ++ [b]) 1).toNat = s.link.operating.address := by
    rw [← hf]
    exact Nat.mod_eq_of_lt ha
  have hcrc : CrcAgrees (got ++ [b]) := hf ▸ crcAgrees_framed _ _
  have hkind : octet (got ++ [b]) 2 = k.code := by rw [← hf]; rfl
  have hpayload : (covered (got ++ [b])).drop 3 = payload := by rw [← hf, covered_framed]; rfl
  have hreceived : s.receive got b true = s.answer k.code (k.dispatch payload) := by
    rw [State.receive_checks (by omega) (by omega), State.frameCheck_own hcrc haddr, hkind, hpayload, dispatch_code]
  rw [exec_of_wire s hw]
  exact exec_linkByte b true ((State.lineByte_receiving b true hr hrx).trans hreceived)

end Sys2Proof.Machine
end

