-- ==== Sys2Proof/Proofs/BlocksOfEquipment.lean ====
section
/-! SUPPORT. Which blocks the break cell, the contactors, the isolator, the probe unit, the supervision timer and the
shutdown monitor leave as they were. The blocks of one operation after another are the blocks of both. -/

namespace Sys2Proof.Machine

theorem Within.comp {bs cs : List Block} {s t u : State} (h : Within bs s t) (k : Within cs t u) :
    Within (bs ++ cs) s u :=
  (h.mono fun _ hb => List.mem_append_left _ hb).trans (k.mono fun _ hb => List.mem_append_right _ hb)

/-- The blocks of a commutated break from its tap's close to its quench's end: the isolator has no part in it. -/
def quenchPath : List Block := [.strings, .sched, .cell, .probe, .attention]

theorem Within.of_quenchPath {s t : State} (h : Within quenchPath s t) : Within breakPath s t := h.mono (by decide)

section
variable (s : State) (n : Nat)

/-! ## The break cell (R82 to R91) -/

theorem State.offBus_quenchPath : Within quenchPath s (s.offBus n) :=
  (((s.updStr_within n _).comp (State.raise_within _ _)).comp (State.place_within _ n _ _)).mono (by decide)

theorem State.quenchSucceeded_within : Within quenchPath s (s.quenchSucceeded n) :=
  (((s.setSched_within _).comp (State.setCell_within _ _)).comp (State.offBus_quenchPath _ n)).mono (by decide)

theorem State.quenchStart_within : Within quenchPath s (s.quenchStart n) := by
  unfold State.quenchStart
  extract_lets iq t _ u v
  have h : Within quenchPath s v :=
    (((s.setCell_within _).comp (t.setCell_within _)).comp (u.updStr_within n _)).mono (by decide)
  exact .ite (h.trans (v.quenchSucceeded_within n)) h

theorem State.conduct_within : Within quenchPath s (s.conduct n) := by
  unfold State.conduct
  extract_lets t
  have h : Within quenchPath s t := ((s.setCell_within _).comp (State.updStr_within _ n _)).mono (by decide)
  exact .ite (h.trans (t.quenchStart_within n)) (h.trans ((t.updStr_within n _).mono (by decide)))

theorem State.tapClosed_within : Within quenchPath s (s.tapClosed n) := .ite (s.conduct_within n) (.refl _ s)

theorem State.monitorReads_within (w : Word16) : Within quenchPath s (s.monitorReads w) := by
  have read : Within quenchPath s (s.setCell { s.cell with monitor := w }) := (s.setCell_within _).mono (by decide)
  unfold State.monitorReads
  dsimp only
  split
  · exact .ite (read.trans (State.quenchSucceeded_within _ _)) read
  · exact read

theorem State.cellCooled_within : Within breakPath s s.cellCooled := .ite s.cellIdle_walked.within (.refl _ s)

theorem State.cellFaulted_within (stage : FaultStage) (string : Option Nat) :
    Within [.cell, .attention] s (s.cellFaulted stage string) := (s.setCell_within _).comp (State.raise_within _ _)

theorem State.attachExpired_within : Within (.part :: breakPath) s s.attachExpired := by
  have returned (t : State) (m : Nat) :
      Within breakPath t (t.updStr m fun r => { r with state := .queued, tapFault := true }).cellIdle :=
    ((t.updStr_within m _).comp (State.cellIdle_walked _).within).mono (by decide)
  have reached (due : Nat) : Within [.part] s (s.reach due) := s.reach_within due
  unfold State.attachExpired
  split
  · dsimp only
    split
    · exact ((reached _).comp (returned _ _)).mono (by decide)
    · exact ((((reached _).comp (State.setSched_within _ _)).comp (State.setSched_within _ _)).comp
        (returned _ _)).mono (by decide)
  · exact .refl _ s

theorem State.failedFreed_within : Within breakPath s (s.failedFreed n) :=
  .ite (((s.updStr_within n _).comp (State.place_within _ n _ _)).mono (by decide)) (.refl _ s)

theorem State.tapReleased_within : Within breakPath s (s.tapReleased n) := by
  unfold State.tapReleased
  refine .ite (.refl _ s) ?_
  split
  case h_1 => exact (s.setCell_within _).mono (by decide)
  case h_2 => exact .ite (s.cellRested_walked.within.trans (State.failedFreed_within _ n)) (.refl _ s)
  all_goals exact .refl _ s

theorem State.detachExpired_within : Within (.part :: breakPath) s s.detachExpired := by
  unfold State.detachExpired
  split
  · exact ((((s.reach_within _).comp (State.cellFaulted_within _ _ _)).comp (State.updStr_within _ _ _)).comp
      (State.escalateWaiting_walked _).within).mono (by decide)
  · exact .refl _ s

theorem State.releaseExpired_within : Within [.part, .cell, .attention] s s.releaseExpired :=
  .ite (((s.reach_within _).comp (State.setCell_within _ _)).comp (State.raise_within _ _)) (.refl _ s)

theorem State.quenchExpired_within : Within (.part :: breakPath) s s.quenchExpired := by
  unfold State.quenchExpired
  split
  · exact (((((s.reach_within _).comp (State.cellFaulted_within _ _ _)).comp (State.setSched_within _ _)).comp
      (State.updStr_within _ _ _)).comp (State.openRequest_within _)).mono (by decide)
  · exact .refl _ s

theorem State.restEnded_within : Within (.part :: breakPath) s s.restEnded :=
  .ite ((s.reach_within _).comp (State.cellRested_walked _).within) (.refl _ s)

/-! ## The contactors (R98, R99) -/

theorem State.shutdownCatch_within : Within breakPath s (s.shutdownCatch n) :=
  .ite (s.request_within n _) (.refl _ s)

theorem State.closeConfirmed_within (origin : Origin) : Within breakPath s (s.closeConfirmed n origin) := by
  unfold State.closeConfirmed
  extract_lets held t u
  have closed : Within breakPath s t :=
    (((s.updStr_within n _).comp (State.updStr_within _ n _)).comp (State.raise_within _ _)).mono (by decide)
  have answered : Within breakPath t u := by
    unfold u held
    split
    · exact .refl _ t
    · exact t.request_within n _
  exact (closed.trans answered).trans (u.shutdownCatch_within n)

theorem State.closeFailed_within : Within [.strings, .attention] s (s.closeFailed n) :=
  (((s.updStr_within n _).comp (State.raise_within _ _)).comp (State.raise_within _ _)).mono (by decide)

theorem State.breakStuck_within : Within breakPath s (s.breakStuck n) := by
  unfold State.breakStuck
  extract_lets hard t
  have h : Within breakPath s t :=
    (((s.setSched_within _).comp (State.updStr_within _ n _)).comp (State.raise_within _ _)).mono (by decide)
  exact .ite (h.trans t.openRequest_within) h

theorem State.pulseOpened_within : Within breakPath s (s.pulseOpened n) :=
  .ite (s.quenchStart_within n).of_quenchPath (((s.setSched_within _).comp (State.offBus_within _ n)).mono (by decide))

theorem State.pulseStuck_within : Within breakPath s (s.pulseStuck n) :=
  .ite (((s.setCell_within _).comp (State.breakStuck_within _ n)).mono (by decide)) (s.breakStuck_within n)

theorem State.contactMoved_within (position : Contact) : Within breakPath s (s.contactMoved n position) := by
  unfold State.contactMoved
  extract_lets t
  have moved : Within breakPath s t := (s.updStr_within n _).mono (by decide)
  have idle : Within breakPath s (t.updStr n fun r => { r with op := none }) :=
    moved.trans ((t.updStr_within n _).mono (by decide))
  split
  · exact idle.trans (State.pulseOpened_within _ n)
  · exact idle.trans (State.closeConfirmed_within _ n _)
  all_goals exact moved

theorem State.contactExpired_within : Within (.part :: breakPath) s (s.contactExpired n) := by
  unfold State.contactExpired
  split
  · exact .refl _ s
  · exact (((s.reach_within _).comp (State.updStr_within _ n _)).comp (State.pulseStuck_within _ n)).mono (by decide)
  · exact (((s.reach_within _).comp (State.updStr_within _ n _)).comp (State.closeFailed_within _ n)).mono (by decide)

/-! ## The box output isolator (R107 to R110) -/

/-- The isolator's state written, with OUTPUT raised. -/
theorem State.output_within (x : Isolator) : Within breakPath s ((s.setIsolator x).raiseBox .output) :=
  ((s.setIsolator_within x).comp (State.raise_within _ _)).mono (by decide)

theorem State.closeOver_within (x : IsolatorState) : Within breakPath s (s.closeOver x) :=
  .ite ((s.output_within _).trans (State.openRequest_within _)) (s.output_within _)

theorem State.startClosing_within : Within breakPath s s.startClosing :=
  .ite ((s.output_within _).trans (State.closeOver_within _ _)) (s.output_within _)

theorem State.isolatorReads_within (feedback : Travel) : Within breakPath s (s.isolatorReads feedback) := by
  unfold State.isolatorReads
  extract_lets _ t
  have read : Within breakPath s t := (s.setIsolator_within _).mono (by decide)
  split
  · exact read.trans (t.isolatorOpened_within.trans (State.walk_within _))
  · exact read.trans (t.closeOver_within _)
  · exact read

theorem State.isolatorExpired_within : Within (.part :: breakPath) s s.isolatorExpired := by
  unfold State.isolatorExpired
  split
  · exact (s.reach_within _).comp (State.output_within _ _)
  · exact (s.reach_within _).comp (State.closeOver_within _ _)
  all_goals exact .refl _ s

theorem State.isolatorCompared_within : Within breakPath s s.isolatorCompared := by
  unfold State.isolatorCompared
  split
  · exact s.isolatorOpened_within.trans (State.walk_within _)
  · exact s.output_within _
  · exact s.output_within _
  · exact .ite ((s.output_within _).trans (State.openRequest_within _)) (s.output_within _)
  · exact .refl _ s

/-! ## The probe unit (chapter 7) -/

/-- The blocks of a verdict: the probe list, the string's record, and the lockout set with its store. -/
def verdictPath : List Block := [.strings, .lockouts, .probe, .attention, .store]

theorem State.lockOut_within (v : Verdict) : Within verdictPath s (s.lockOut n v) :=
  (((s.addLockout_within n v).comp (State.raise_within _ _)).comp (State.updStr_within _ n _)).mono (by decide)

theorem State.reconnectAuto_within : Within verdictPath s (s.reconnectAuto n) :=
  .ite (((s.updStr_within n _).comp (State.place_within _ n _ _)).mono (by decide)) (.refl _ s)

theorem State.verdictReported_within (x : Finding) : Within verdictPath s (s.verdictReported n x) := by
  unfold State.verdictReported
  extract_lets t
  have h : Within verdictPath s t := ((s.updStr_within n _).comp (State.raise_within _ _)).mono (by decide)
  exact .ite (h.trans (t.lockOut_within n _)) (.ite (h.trans (t.reconnectAuto_within n)) h)

theorem State.verdictFormed_within (f : ProbeFlight) (x : Finding) : Within verdictPath s (s.verdictFormed f x) :=
  (((s.setProbe_within _).comp (State.setProbe_within _ _)).comp (State.verdictReported_within _ _ x)).mono (by decide)

theorem State.inconsistent_within (f : ProbeFlight) : Within verdictPath s (s.inconsistent f) := by
  unfold State.inconsistent
  split
  · exact s.verdictFormed_within f _
  · exact .ite (((s.setProbe_within _).comp (State.setProbe_within _ _)).mono (by decide)) (s.verdictFormed_within f _)

theorem State.diagnosed_within (f : ProbeFlight) (p1 p2 p3 : Poles) : Within verdictPath s (s.diagnosed f p1 p2 p3) := by
  unfold State.diagnosed
  split
  · exact s.verdictFormed_within f _
  · exact s.verdictFormed_within f _
  · exact s.verdictFormed_within f _
  · exact s.inconsistent_within f

theorem State.checkFailed_within : Within verdictPath s (s.checkFailed n) := by
  unfold State.checkFailed
  split
  · exact .refl _ s
  · exact .ite (((s.updStr_within n _).comp (State.setProbe_within _ _)).mono (by decide))
      ((((s.updStr_within n _).comp (State.setProbe_within _ _)).comp (State.raise_within _ _)).mono (by decide))

theorem State.checked_within (f : ProbeFlight) (p : Poles) : Within verdictPath s (s.checked f p) := by
  have release (pass : Bool) : Within verdictPath s (s.enterRelease f pass) := (s.setProbe_within _).mono (by decide)
  exact .ite (release true) ((release false).trans (State.checkFailed_within _ _))

theorem State.settled_within : Within [.part, .probe] s s.settled := by
  unfold State.settled
  split
  · exact .refl _ s
  · exact .ite (.refl _ s) ((s.reach_within _).comp (State.setProbe_within _ _))

theorem State.reading_within (vp vn : List Word16) : Within (.part :: verdictPath) s (s.reading vp vn) := by
  unfold State.reading
  split
  · exact .refl _ s
  · refine .ite (.refl _ s) ?_
    dsimp only
    split
    · exact (s.reach_within _).comp (State.checked_within _ _ _)
    · exact ((s.reach_within _).comp (State.setProbe_within _ _)).mono (by decide)
    · exact ((s.reach_within _).comp (State.setProbe_within _ _)).mono (by decide)
    · exact (s.reach_within _).comp (State.diagnosed_within _ _ _ _ _)
    · exact .refl _ s
    · exact .refl _ s

theorem State.startClose_within (origin : Origin) : Within breakPath s (s.startClose n origin) :=
  .ite (((s.updStr_within n _).comp (State.closeConfirmed_within _ n origin)).mono (by decide))
    ((s.updStr_within n _).mono (by decide))

theorem State.closeOrder_within (origin : Origin) : Within breakPath s (s.closeOrder n origin) := by
  have dropped : Within breakPath s (s.dropEntry n) := (s.setProbe_within _).mono (by decide)
  exact .ite dropped (dropped.trans (State.startClose_within _ n origin))

theorem State.released_within : Within (.part :: breakPath) s s.released := by
  unfold State.released
  split
  · exact .refl _ s
  · next f _ =>
    refine .ite ?_ (.refl _ s)
    extract_lets t
    have ended : Within (.part :: breakPath) s t := ((s.reach_within _).comp (State.setProbe_within _ _)).mono (by decide)
    have ordered : Within breakPath t (if f.pass then t.closeOrder f.string f.origin else t) :=
      .ite (t.closeOrder_within _ _) (.refl _ t)
    exact ended.trans ((ordered.comp (State.lookForWork_within _)).mono (by decide))

/-! ## The supervision timer (R155 to R161, R165) -/

theorem State.longExpired_within : Within [.part, .supervision, .attention, .probe] s s.longExpired :=
  .ite ((s.reach_within _).comp (State.lapse_within _)) (.refl _ s)

theorem State.openExpired_within : Within [.part, .supervision, .attention, .probe] s s.openExpired :=
  .ite ((s.reach_within _).comp (State.lapse_within _)) (.refl _ s)

theorem State.heartbeat_within (token : Word16) : Within [.supervision, .attention, .probe] s (s.heartbeat token) := by
  unfold State.heartbeat
  split
  · exact (s.setSupervision_within _).mono (by decide)
  · exact s.lapse_within
  · exact s.lapse_within
  · exact .ite (.refl _ s) s.lapse_within

theorem State.clearAttention_within (mask : List Byte) : Within [.attention, .supervision] s (s.clearAttention mask) :=
  .ite ((s.setAttention_within _).comp (State.setSupervision_within _ _)) ((s.setAttention_within _).mono (by decide))

/-! ## The shutdown monitor (R142 to R145) -/

theorem State.lineHeld_within (low : Bool) : Within [.part, .shutdown] s (s.lineHeld low) :=
  .ite ((s.reach_within _).mono (by decide)) ((s.setShutdown_within _).mono (by decide))

theorem State.allRequested_within : Within (.shutdown :: .free :: breakPath) s s.allRequested :=
  (((s.setShutdown_within _).comp (State.openRequest_within _)).comp (State.shutdownRequests_within _)).mono (by decide)

theorem State.lowTaken_within : Within (.part :: .shutdown :: .free :: breakPath) s s.lowTaken := by
  have held : Within (.part :: .shutdown :: .free :: breakPath) s (s.lineHeld true) :=
    (s.lineHeld_within true).mono (by decide)
  exact .ite (held.trans (((State.allRequested_within _).comp (State.assertShutdown_within _)).mono (by decide))) held

theorem State.releaseShutdown_within : Within [.shutdown, .attention, .probe] s s.releaseShutdown :=
  ((s.setShutdown_within _).comp (State.raise_within _ _)).comp (State.lookForWork_within _)

theorem State.highTaken_within : Within [.part, .shutdown, .probe, .attention] s s.highTaken := by
  have held : Within [.part, .shutdown, .probe, .attention] s (s.lineHeld false) :=
    (s.lineHeld_within false).mono (by decide)
  exact .ite (held.trans ((State.releaseShutdown_within _).mono (by decide))) held

end

end Sys2Proof.Machine
end

