-- ==== Sys2Proof/Proofs/BlocksOfRounds.lean ====
section
/-! SUPPORT. Which blocks rounds, a completion, the settings store, resets and the load leave as they were. -/

namespace Sys2Proof.Machine

section
variable (s : State)

/-! ## Rounds (R21 to R26, R33) -/

theorem State.startRound_within : Within [.scan] s s.startRound := by
  unfold State.startRound
  split
  · exact .refl _ s
  · exact s.setScan_within _

theorem State.enterFallback_within : Within [.scan, .attention] s s.enterFallback :=
  (((s.setScan_within _).comp (State.raise_within _ _)).comp (State.startRound_within _)).mono (by decide)

theorem State.recheckSource_within : Within [.scan, .attention] s s.recheckSource := by
  have started : Within [.scan, .attention] s s.startRound := s.startRound_within.mono (by decide)
  unfold State.recheckSource
  refine .ite (.refl _ s) ?_
  split
  · exact .ite started (.refl _ s)
  · exact .ite started (.refl _ s)
  · exact .ite s.enterFallback_within (.refl _ s)

theorem State.roundTimer_within : Within [.part, .scan] s s.roundTimer := by
  unfold State.roundTimer
  split
  · exact (s.reach_within _).comp (State.startRound_within _)
  · exact (s.reach_within _).comp (State.startRound_within _)
  · exact .refl _ s

theorem State.syncEdge_within : Within [.scan] s s.syncEdge := by
  unfold State.syncEdge
  split
  · exact .refl _ s
  · exact s.startRound_within
  · exact (s.setScan_within _).trans (State.startRound_within _)

theorem State.syncWatch_within : Within [.part, .scan, .attention] s s.syncWatch := by
  unfold State.syncWatch
  split
  · exact (s.reach_within _).comp (State.enterFallback_within _)
  · exact .refl _ s
  · exact .refl _ s

theorem State.secondElapsed_within : Within [.part, .cell, .scan] s s.secondElapsed :=
  ((s.setPart_within _).comp (State.setCell_within _ _)).comp (State.setScan_within _ _)

theorem State.extStale_within (g : Nat) : Within [.scan, .attention] s (s.extStale g) := by
  unfold State.extStale
  split
  · refine .ite ?_ (.refl _ s)
    extract_lets _ t
    have stale : Within [.scan, .attention] s t := (s.setScan_within _).mono (by decide)
    split
    · exact .ite (stale.trans ((State.raise_within _ _).mono (by decide))) stale
    · exact stale
  · exact .refl _ s

/-! ## A completion (R22) -/

theorem State.deliverRound_within (r : Round) : Within [.scan, .strings, .attention] s (s.deliverRound r) := by
  obtain ⟨_, _, _, _, h, _⟩ := s.deliverRound_spec r
  exact h

theorem State.compare_within (fresh : List Nat) : Within [.strings, .peer] s (s.compare fresh) :=
  (s.setStrings_within _).comp (State.setPeer_within _ _)

theorem State.decideDay_within : Within [.peer, .scan, .strings, .probe, .attention] s s.decideDay := by
  have day : Within [.peer, .scan, .strings, .probe, .attention] s s.startDay :=
    (((s.setPeer_within _).comp (State.setStrings_within _ _)).comp (State.raise_within _ _)).mono (by decide)
  have night : Within [.peer, .scan, .strings, .probe, .attention] s s.enterNight :=
    ((((s.setPeer_within _).comp (State.setScan_within _ _)).comp (State.raise_within _ _)).comp
      (State.abortKeeping_within _)).mono (by decide)
  have counted (x : Comparator) : Within [.peer, .scan, .strings, .probe, .attention] s (s.setPeer x) :=
    (s.setPeer_within x).mono (by decide)
  exact .ite (.ite (.refl _ s) day) (.ite (.ite night (counted _)) (counted _))

theorem State.abortUnlit_within : Within [.probe] s s.abortUnlit := by
  unfold State.abortUnlit
  split
  · exact .refl _ s
  · exact .ite (.refl _ s) s.abortKeeping_within

theorem State.applyJudgements_within (js : List Judgement) : Within [.strings, .attention] s (s.applyJudgements js) :=
  (s.setStrings_within _).comp (Within.foldl _ (fun t _ => t.raise_within _) _ _)

theorem State.controllerEvent_within (js : List Judgement) (k : Nat) :
    Within breakPath s (State.controllerEvent js s k) := by
  have made : Within breakPath s (s.makeRequest js k) := by
    unfold State.makeRequest
    split
    · exact .refl _ s
    · exact s.request_within _ _
  exact .ite made (s.discrepancy_within _)

/-- R70: the order of a completion's events is a free value, and a completion draws no other. -/
theorem State.controllerTurn_within (js : List Judgement) : Within (.free :: breakPath) s (s.controllerTurn js) :=
  (((s.setStrings_within _).comp (Within.foldl _ (fun t k => t.controllerEvent_within js k) _ s.suspectTests)).comp
    (State.setFree_within _ _)).mono (by decide)

/-- The blocks of a completion, its clock aside. -/
def roundPath : List Block := .scan :: .peer :: .free :: breakPath

theorem State.completeRound_within (r : Round) : Within roundPath s (s.completeRound r) := by
  unfold State.completeRound
  extract_lets t js
  have published : Within roundPath s (s.published r) :=
    (((s.deliverRound_within r).comp (State.compare_within _ _)).comp (State.decideDay_within _)).mono (by decide)
  have period : Within roundPath (s.published r) ((s.published r).newPeriod s) :=
    .ite (.refl _ _) ((State.recheckSource_within _).mono (by decide))
  have probing : Within roundPath ((s.published r).newPeriod s) t :=
    ((State.setProbe_within _ _).comp (State.abortUnlit_within _)).mono (by decide)
  have controlled : Within roundPath t ((t.applyJudgements js).controllerTurn js) :=
    ((t.applyJudgements_within js).comp (State.controllerTurn_within _ js)).mono (by decide)
  have finished (u : State) : Within roundPath u u.isolatorCompared.walk.lookForWork :=
    ((u.isolatorCompared_within.comp (State.walk_within _)).comp (State.lookForWork_within _)).mono (by decide)
  exact ((published.trans period).trans probing).trans (controlled.trans (finished _))

theorem State.takeSet_within (set : SampleSet) : Within (.part :: roundPath) s (s.takeSet set) := by
  unfold State.takeSet
  split
  · exact .refl _ s
  · exact .ite (((s.reach_within _).comp (State.setScan_within _ _)).mono (by decide))
      ((s.reach_within _).comp (State.completeRound_within _ _))

/-! ## The settings store (R135, R136) -/

theorem State.writeEnded_within : Within [.store] s s.writeEnded :=
  .ite ((s.setStore_within _).trans (State.setStore_within _ _)) (s.setStore_within _)

theorem State.verified_within (readBack : ReadBack) : Within [.attention, .store] s (s.verified readBack) := by
  unfold State.verified
  split
  · exact .refl _ s
  · exact ((s.setStore_within _).comp (State.writeEnded_within _)).mono (by decide)
  · exact (((s.setStore_within _).comp (State.raise_within _ _)).comp (State.writeEnded_within _)).mono (by decide)

/-! ## Resets and the loss of supply (R148, R149, R166) -/

/-- The waiting commands are the one block that a reset leaves. -/
theorem Block.eq_pending_of_notMem_resetBlocks {b : Block} (hb : b ∉ resetBlocks) : b = .pending := by
  cases b with
  | pending => rfl
  | _ => exact absurd (by decide) hb

theorem State.drop_within (kind : ResetKind) : Within resetBlocks s (s.drop kind) := by
  intro b hb
  obtain rfl := Block.eq_pending_of_notMem_resetBlocks hb
  rfl

theorem State.supplyLost_within : Within resetBlocks s s.supplyLost :=
  .ite ((((s.drop_within _).comp (State.setPart_within _ _)).comp (State.setAttention_within _ _)).mono (by decide))
    (.refl _ s)

theorem State.resetReleased_within : Within resetBlocks s s.resetReleased := .ite (s.drop_within _) (.refl _ s)

theorem State.replySent_within : Within resetBlocks s s.replySent := by
  unfold State.replySent
  split
  · exact .ite (s.drop_within _) ((s.setLink_within _).mono (by decide))
  all_goals exact .refl _ s

/-! ## The load (R150 to R153, R184) -/

theorem State.takeSettings_within (c : Settings) : Within [.link, .box, .peer, .strings, .store] s (s.takeSettings c) :=
  ((((((s.setLink_within _).comp (State.setBox_within _ _)).comp (State.setPeer_within _ _)).comp
    (State.setStrings_within _ _)).comp (State.setStore_within _ _)).comp (State.setPeer_within _ _)).mono (by decide)

/-- The blocks of the load itself. -/
def loadPath : List Block := [.mode, .link, .peer, .lockouts, .store, .box, .strings, .attention]

theorem State.load_within (answers : Bool) : Within loadPath s (s.load answers) := by
  have taken (c : Settings) (l : List Lockout) (m : Mode) :
      Within loadPath s (((s.takeSettings c).setLockouts l).setMode m) :=
    (((s.takeSettings_within c).comp (State.setLockouts_within _ _)).comp (State.setMode_within _ _)).mono (by decide)
  unfold State.load
  split
  · exact taken _ _ _
  · exact (taken _ _ _).trans ((State.raise_within _ _).mono (by decide))

theorem State.begin_within : Within [.part, .link] s s.begin := (s.setPart_within _).comp (State.setLink_within _ _)

theorem State.loadEnded_within (answers : Bool) :
    Within (.part :: .mode :: .link :: .scan :: .peer :: .lockouts :: .store :: .box :: breakPath) s
      (s.loadEnded answers) :=
  .ite (((((s.load_within answers).comp (State.reconciled_started _).within).comp (State.firstRound_within _)).comp
    (State.begin_within _)).mono (by decide)) (.refl _ s)

end

end Sys2Proof.Machine
end

