-- ==== Sys2Proof/Proofs/BlocksOfRows.lean ====
section
/-! Which blocks each row may change (O60), from what its operation leaves; and the step as the front command (O1). -/

namespace Sys2Proof.Machine

section
variable (s : State)

/-! ## Requests -/

theorem State.releaseLockout_within (n : Nat) : Within [.lockouts, .strings, .store] s (s.releaseLockout n) :=
  ((s.setLockouts_within _).comp (State.updStr_within _ n _)).comp (State.requestWrite_within _)

/-- R146: one string's visit changes the probe list alone. -/
theorem State.restoreOne_within (acc : State × Nat) (n : Nat) : Within [.probe] acc.1 (State.restoreOne acc n).1 := by
  unfold State.restoreOne
  repeat' split
  · exact acc.1.setProbe_within _
  · exact (acc.1.withdraw_within n).trans (State.setProbe_within _ _)
  · exact .refl _ acc.1
  · exact .refl _ acc.1

theorem State.restoreVisits_within : Within [.probe] s s.restoreVisits.1 := by
  have all (l : List Nat) (acc : State × Nat) : Within [.probe] acc.1 (l.foldl State.restoreOne acc).1 := by
    induction l generalizing acc with
    | nil => exact .refl _ acc.1
    | cons n ns ih => exact (State.restoreOne_within acc n).trans (ih _)
  exact all _ (s, 0)

theorem State.restoreAll_within : Within [.probe] s s.restoreAll.1 := by
  unfold State.restoreAll
  dsimp only
  exact .ite s.restoreVisits_within (s.restoreVisits_within.trans (State.lookForWork_within _))

theorem State.closeRequest_within : Within breakPath s s.closeRequest := .ite s.startClosing_within (.refl _ s)

theorem State.restoreCell_within : Within breakPath s s.restoreCell := by
  unfold State.restoreCell
  split
  · exact (s.setCell_within _).mono (by decide)
  · exact s.cellRested_walked.within

theorem State.configureString_within (n : Nat) (c : StringSettings) :
    Within (.scan :: .peer :: .store :: breakPath) s (s.configureString n c) :=
  (((s.restanding_within n c).comp (State.setPeer_within _ _)).comp (State.setStore_within _ _)).mono (by decide)

theorem State.configureGroup_within (g : Nat) (c : GroupSettings) : Within [.peer, .store] s (s.configureGroup g c) :=
  (s.setPeer_within _).comp (State.setStore_within _ _)

theorem State.configureBox_within (b : BoxSettings) :
    Within (.box :: .scan :: .supervision :: .store :: breakPath) s (s.configureBox b) :=
  ((s.boxApplied_within b).comp (State.setStore_within _ _)).mono (by decide)

theorem State.configureLink_within (l : LinkSettings) : Within [.link, .store] s (s.configureLink l) :=
  (s.setLink_within _).comp (State.setStore_within _ _)

theorem State.storeAll_within : Within [.store] s s.storeAll := (s.setStore_within _).trans (State.setStore_within _ _)

/-- The blocks that a request of some kind may change. -/
def requestBlocks : List Block :=
  .link :: .mode :: .box :: .scan :: .peer :: .lockouts :: .supervision :: .store :: breakPath

theorem Handled.within {s u : State} (h : Handled s u) : Within requestBlocks s u := by
  cases h with
  | same => exact .refl _ s
  | clear mask => exact (s.clearAttention_within mask).mono (by decide)
  | heartbeat token => exact (s.heartbeat_within token).mono (by decide)
  | temperature ext => exact (s.setScan_within _).mono (by decide)
  | isolate n => exact (s.request_within n _).mono (by decide)
  | reconnect n => exact (s.place_within n _ _).mono (by decide)
  | probe n => exact (s.place_within n _ _).mono (by decide)
  | release n => exact (s.releaseLockout_within n).mono (by decide)
  | restore => exact s.restoreAll_within.mono (by decide)
  | openBox => exact s.openRequest_within.mono (by decide)
  | closeBox => exact s.closeRequest_within.mono (by decide)
  | cellRestore => exact s.restoreCell_within.mono (by decide)
  | setup => exact (s.setMode_within _).mono (by decide)
  | run => exact ((s.setMode_within _).comp (State.setStrings_within _ _)).mono (by decide)
  | configString n c => exact (s.configureString_within n c).mono (by decide)
  | configGroup g c => exact (s.configureGroup_within g c).mono (by decide)
  | configBox b => exact (s.configureBox_within b).mono (by decide)
  | configLink l => exact (s.configureLink_within l).mono (by decide)
  | store => exact s.storeAll_within.mono (by decide)
  | restart => exact (s.setLink_within _).mono (by decide)

end

/-! ## Answers

A handler tests its request and refuses it, which leaves the state, or acts; the reply is then the link port's. -/

section
variable {s : State} {bs : List Block}

theorem Within.tested {p : Prop} [Decidable p] {a b : Answer} (h : Within bs s a.1) (k : Within bs s b.1) :
    Within bs s (if p then a else b).1 := by
  split
  · exact h
  · exact k

theorem Within.refused (reason : Reason) : Within bs s (refuse s reason).1 := .refl bs s

theorem State.answer_within {kind : Byte} {handle : State → Answer} (h : Within (.link :: bs) s (handle s).1) :
    Within (.link :: bs) s (s.answer kind handle) :=
  .ite (h.trans ((State.sendReply_within _ _ _).mono (by simp))) (.refl _ s)

end

section
variable (s : State)

/-! ### Queries (R172 to R174) -/

theorem State.reqStringRead_fst (first count : Byte) : (s.reqStringRead first count).1 = s := by
  unfold State.reqStringRead
  dsimp only
  split <;> rfl

theorem State.reqQueueRead_fst (first : Byte) : (s.reqQueueRead first).1 = s := by
  unfold State.reqQueueRead
  split <;> rfl

theorem State.reqConfigRead_fst (target : Byte) (number : Option Byte) : (s.reqConfigRead target number).1 = s := by
  unfold State.reqConfigRead
  repeat' split
  all_goals rfl

/-- A query's row changes the reply alone. -/
theorem State.query_within {kind : Byte} {handle : State → Answer} (h : (handle s).1 = s) :
    Within [.link] s (s.answer kind handle) :=
  State.answer_within (h.symm ▸ .refl _ s)

/-! ### Control messages (R175 to R179) -/

theorem State.reqAttentionClear_within (mask : List Byte) :
    Within [.link, .supervision, .attention] s (s.reqAttentionClear mask).1 :=
  .tested ((s.clearAttention_within mask).mono (by decide)) (.refused _)

theorem State.reqHeartbeat_within (token : Word16) :
    Within [.link, .supervision, .attention, .probe] s (s.reqHeartbeat token).1 :=
  (s.heartbeat_within token).mono (by decide)

theorem State.reqTemperature_within (group value : Byte) : Within [.link, .scan] s (s.reqTemperature group value).1 := by
  unfold State.reqTemperature
  split
  · exact .refused _
  · exact (s.setScan_within _).mono (by decide)

theorem State.reqIsolate_within (b : Byte) : Within (.link :: breakPath) s (s.reqIsolate b).1 := by
  unfold State.reqIsolate
  split
  · exact .refused _
  · exact .tested (.refused _) ((s.request_within _ _).mono (by decide))

theorem State.reqReconnect_within (b : Byte) : Within [.link, .probe] s (s.reqReconnect b).1 := by
  unfold State.reqReconnect
  split
  · exact .refused _
  · exact .tested (.refused _) (.tested (.refused _) (.tested (.refused _) (.tested (.refused _) (.tested (.refused _)
      ((s.place_within _ _ _).mono (by decide))))))

theorem State.reqProbe_within (b : Byte) : Within [.link, .probe] s (s.reqProbe b).1 := by
  unfold State.reqProbe
  split
  · exact .refused _
  · exact .tested (.refused _) (.tested (.refused _) ((s.place_within _ _ _).mono (by decide)))

theorem State.reqRelease_within (b : Byte) : Within [.link, .strings, .lockouts, .store] s (s.reqRelease b).1 := by
  unfold State.reqRelease
  split
  · exact .refused _
  · exact .tested (.refused _) (.tested (.refused _) ((s.releaseLockout_within _).mono (by decide)))

theorem State.reqRestore_within : Within [.link, .probe] s s.reqRestore.1 := by
  unfold State.reqRestore
  refine .tested (.refused _) (.tested (.refused _) ?_)
  rw [accept_fst]
  exact s.restoreAll_within.mono (by decide)

theorem State.reqBoxOutputClose_within : Within (.link :: breakPath) s s.reqBoxOutputClose.1 :=
  .tested (.refused _) (.tested (.refused _) (.tested (.refused _) (.tested (.refused _)
    (s.closeRequest_within.mono (by decide)))))

theorem State.reqCellRestore_within : Within (.link :: breakPath) s s.reqCellRestore.1 :=
  .tested (.refused _) (.tested (.refused _) (.tested (.refused _) (s.restoreCell_within.mono (by decide))))

theorem State.reqModeSetup_within : Within [.link, .mode] s s.reqModeSetup.1 := by
  unfold State.reqModeSetup
  split
  · exact .refl _ s
  · exact .tested (.refused _) ((s.setMode_within _).mono (by decide))

theorem State.reqModeRun_within : Within [.link, .mode, .strings] s s.reqModeRun.1 := by
  unfold State.reqModeRun
  split
  · exact .refl _ s
  · exact ((s.setMode_within _).comp (State.setStrings_within _ _)).mono (by decide)

theorem State.reqRestart_within (b : Byte) : Within [.link] s (s.reqRestart b).1 :=
  .tested (.refused _) (.tested (.refused _) (s.setLink_within _))

/-! ### Configuration messages (R180 to R183, R186) -/

theorem State.reqStringConfig_within (m : StringConfigMsg) :
    Within (.link :: .scan :: .peer :: .store :: breakPath) s (s.reqStringConfig m).1 := by
  unfold State.reqStringConfig
  refine .tested (.refused _) ?_
  split
  · exact .tested (.refused _) (.tested (.refused _) (.tested (.refused _) (.tested (.refused _)
      ((s.configureString_within _ _).mono (by decide)))))
  · exact .refused _

theorem State.reqGroupConfig_within (m : GroupConfigMsg) : Within [.link, .peer, .store] s (s.reqGroupConfig m).1 := by
  unfold State.reqGroupConfig
  refine .tested (.refused _) ?_
  split
  · exact (s.configureGroup_within _ _).mono (by decide)
  · exact .refused _

theorem State.reqBoxConfig_within (m : BoxConfigMsg) :
    Within (.link :: .box :: .scan :: .supervision :: .store :: breakPath) s (s.reqBoxConfig m).1 := by
  unfold State.reqBoxConfig
  refine .tested (.refused _) ?_
  split
  · exact .refused _
  · exact (s.configureBox_within _).mono (by decide)

theorem State.reqLinkConfig_within (rate address : Byte) : Within [.link, .store] s (s.reqLinkConfig rate address).1 := by
  unfold State.reqLinkConfig
  refine .tested (.refused _) ?_
  split
  · exact s.configureLink_within _
  · exact .refused _

theorem State.reqStore_within : Within [.link, .store] s s.reqStore.1 :=
  .tested (.refused _) (.tested (.refused _) (s.storeAll_within.mono (by decide)))

/-! ## The receiver (R168, R169) -/

theorem State.frameCheck_within (frame : List Byte) : Within requestBlocks s (s.frameCheck frame) :=
  .ite ((s.setLink_within _).mono (by decide)) (.ite ((s.setLink_within _).mono (by decide))
    (State.answer_within (dispatch_handled _ _ s).within))

theorem State.hunt_within (b : Byte) (stop : Bool) : Within [.link] s (s.hunt b stop) :=
  .ite (.refl _ s) (.ite (s.setLink_within _) (.ite (s.setLink_within _) (.refl _ s)))

theorem State.pass_within (got : List Byte) (b : Byte) : Within [.link] s (s.pass got b) :=
  .ite (s.setLink_within _) (s.setLink_within _)

theorem State.receive_within (got : List Byte) (b : Byte) (stop : Bool) :
    Within requestBlocks s (s.receive got b stop) := by
  have port (x : LinkPort) : Within requestBlocks s (s.setLink x) := (s.setLink_within x).mono (by decide)
  exact .ite (port _) (.ite (port _) (.ite (s.frameCheck_within _) (port _)))

theorem State.lineByte_within (b : Byte) (stop : Bool) : Within requestBlocks s (s.lineByte b stop) := by
  unfold State.lineByte
  refine .ite ?_ (.refl _ s)
  split
  · exact .refl _ s
  · exact (s.hunt_within b stop).mono (by decide)
  · exact s.receive_within _ b stop
  · exact (s.pass_within _ b).mono (by decide)
  · exact .refl _ s

theorem State.quietExpired_within : Within [.link] s s.quietExpired := .ite (s.setLink_within _) (.refl _ s)

theorem State.gapExpired_within : Within [.link] s s.gapExpired := by
  unfold State.gapExpired
  split
  · exact s.setLink_within _
  · exact s.setLink_within _
  all_goals exact .refl _ s

end

/-! ## Every row -/

/-- A row changes no block outside its own. -/
theorem exec_within {c : Instr} {s t : State} (h : exec c s = .next t) : Within (mayChange c) s t := by
  cases c with
  | identify => cases h; exact s.query_within rfl
  | boxStatus => cases h; exact s.query_within rfl
  | stringRead first count => cases h; exact s.query_within (s.reqStringRead_fst first count)
  | groupRead => cases h; exact s.query_within rfl
  | queueRead first => cases h; exact s.query_within (s.reqQueueRead_fst first)
  | probeListRead => cases h; exact s.query_within rfl
  | attentionRead => cases h; exact s.query_within rfl
  | configRead target number => cases h; exact s.query_within (s.reqConfigRead_fst target number)
  | attentionClear mask => cases h; exact State.answer_within (s.reqAttentionClear_within mask)
  | heartbeat token => cases h; exact State.answer_within (s.reqHeartbeat_within token)
  | temperature group value => cases h; exact State.answer_within (s.reqTemperature_within group value)
  | isolate string => cases h; exact State.answer_within (s.reqIsolate_within string)
  | reconnect string => cases h; exact State.answer_within (s.reqReconnect_within string)
  | probe string => cases h; exact State.answer_within (s.reqProbe_within string)
  | release string => cases h; exact State.answer_within (s.reqRelease_within string)
  | restore => cases h; exact State.answer_within s.reqRestore_within
  | boxOutputOpen => cases h; exact State.answer_within (s.openRequest_within.mono (by decide))
  | boxOutputClose => cases h; exact State.answer_within s.reqBoxOutputClose_within
  | cellRestore => cases h; exact State.answer_within s.reqCellRestore_within
  | modeSetup => cases h; exact State.answer_within s.reqModeSetup_within
  | modeRun => cases h; exact State.answer_within s.reqModeRun_within
  | stringConfig m => cases h; exact State.answer_within (s.reqStringConfig_within m)
  | groupConfig m => cases h; exact State.answer_within (s.reqGroupConfig_within m)
  | boxConfig m => cases h; exact State.answer_within (s.reqBoxConfig_within m)
  | linkConfig rate address => cases h; exact State.answer_within (s.reqLinkConfig_within rate address)
  | store => cases h; exact State.answer_within s.reqStore_within
  | restart address => cases h; exact State.answer_within (s.reqRestart_within address)
  | linkByte byte stop => cases h; exact s.lineByte_within byte stop
  | linkQuietExpiry => cases h; exact s.quietExpired_within
  | linkGapExpiry => cases h; exact s.gapExpired_within
  | replyComplete => cases h; exact s.replySent_within
  | powerOn => cases h; exact s.drop_within _
  | resetLine => cases h; exact s.resetReleased_within
  | loadEnd answers => cases h; exact s.loadEnded_within answers
  | roundTimerExpiry => cases h; exact .ite s.roundTimer_within (.refl _ s)
  | syncFallingEdge low => cases h; exact .ite s.syncEdge_within (.refl _ s)
  | syncWatchExpiry => cases h; exact .ite s.syncWatch_within (.refl _ s)
  | sampleSet set => cases h; exact s.takeSet_within set
  | elapsedSecond => cases h; exact s.secondElapsed_within
  | cellHotEnd => cases h; exact s.cellCooled_within
  | externalTempStale g => cases h; exact s.extStale_within g
  | tapClosedFeedback n => cases h; exact s.tapClosed_within n
  | tapAttachTimeout => cases h; exact s.attachExpired_within
  | tapReleasedFeedback n => cases h; exact s.tapReleased_within n
  | tapDetachTimeout => cases h; exact s.detachExpired_within
  | restoreReleaseTimeout => cases h; exact s.releaseExpired_within
  | quenchEnd w => cases h; exact s.monitorReads_within w
  | quenchTimeout => cases h; exact s.quenchExpired_within
  | restingEnd => cases h; exact s.restEnded_within
  | contactPositionChange n position => cases h; exact s.contactMoved_within n position
  | contactTimeout n => cases h; exact s.contactExpired_within n
  | isolatorEndReached feedback => cases h; exact s.isolatorReads_within feedback
  | isolatorTimeout => cases h; exact s.isolatorExpired_within
  | probeSettleEnd => cases h; exact s.settled_within
  | probeReading vp vn => cases h; exact s.reading_within vp vn
  | probeReleaseEnd => cases h; exact s.released_within
  | shutdownAssertion => cases h; exact s.lowTaken_within
  | shutdownRelease => cases h; exact s.highTaken_within
  | longWindowExpiry => cases h; exact s.longExpired_within.mono (by decide)
  | openWindowExpiry => cases h; exact s.openExpired_within.mono (by decide)
  | storeWriteEnd readBack => cases h; exact s.verified_within readBack
  | supplyLoss => cases h; exact s.supplyLost_within
  | shutdownLevelChange low => cases h; exact s.setShutdown_within _

/-- Settles O60: each row's operation is followed to the blocks that it replaces. -/
theorem everyRowKeepsToItsBlocks : Obligations.EveryRowKeepsToItsBlocks := by
  unfold Obligations.EveryRowKeepsToItsBlocks
  intro s t c h
  exact exec_within h

/-! ## The step -/

theorem step_cons {s : State} {c : Instr} {rest : List Instr} (h : s.pending = c :: rest) :
    step s = exec c (s.setPending rest) := by
  rw [step, h]

/-- Settles O1: the front of the queue chooses the step's second case. -/
theorem stepRunsTheFrontCommand : Obligations.StepRunsTheFrontCommand := by
  unfold Obligations.StepRunsTheFrontCommand
  intro s c rest h
  exact step_cons h

end Sys2Proof.Machine
end
